-- ==== Sys2Proof/Word.lean ====
section
/-! DEFINITION. The word types of the model (00 R10, R11: unsigned, bit 0 least significant). -/

namespace Sys2Proof

/-- A byte of memory, the smallest addressable unit (20 R80). -/
abbrev Byte := BitVec 8
/-- A DWord (00 R11). -/
abbrev Word32 := BitVec 32
/-- A quad word: a paging entry, a descriptor register, a graphics virtual address (00 R11, R12). -/
abbrev Word64 := BitVec 64

end Sys2Proof
end

