-- ==== Sys2Proof/Machine/Bits.lean ====
section
/-! DEFINITION. Byte-order, bit and address-split helpers (20 R96, 30 R190 to R197). -/

namespace Sys2Proof

/-- The low `n` bytes of `v`, least significant first (20 R96). -/
def leBytes : Nat → Nat → List Byte
  | 0, _ => []
  | n + 1, v => BitVec.ofNat 8 v :: leBytes n (v / 256)

/-- The number that a little-endian byte list stands for (20 R96). -/
def leNat : List Byte → Nat
  | [] => 0
  | b :: bs => b.toNat + 256 * leNat bs

/-- Bits `lo+n-1 : lo` of a quad word, as a number (00 R10). -/
def field (v : Word64) (lo n : Nat) : Nat := v.toNat / 2 ^ lo % 2 ^ n

/-- Bit `k` of a quad word (00 R10). -/
def bit (v : Word64) (k : Nat) : Bool := v.getLsbD k

/-- The address field `(HAW-1):lo` of an entry with `lo` zero bits below it (00 R7, 30 R195). -/
def addrField (haw lo : Nat) (e : Word64) : Nat := e.toNat % 2 ^ haw / 2 ^ lo * 2 ^ lo

/-- The offset bits `lo-1 : 0` of a virtual address (30 R195). -/
def offsetOf (lo : Nat) (va : Word64) : Nat := va.toNat % 2 ^ lo

/-- Bits 63:48 equal bit 47 (00 R12). -/
def canonical (va : Word64) : Bool := field va 47 17 == 0 || field va 47 17 == 2 ^ 17 - 1

/-- A 48-bit address made canonical (30 R197). -/
def sext48 (v : Nat) : Word64 := (BitVec.ofNat 48 v).signExtend 64

/-- The 4 KB page number of an address. -/
def pageOf (a : Nat) : Nat := a / 4096

/-- 48-bit split, index of a level (30 R190): 47:39, 38:30, 29:21, 20:12. -/
def levelIndex (level : Nat) (va : Word64) : Nat := field va (12 + 9 * (level - 1)) 9

/-- The page-table index of a 64 KB table, `va[20:16] ++ 0000b` (30 R194). -/
def bigIndex (va : Word64) : Nat := field va 16 5 * 16

end Sys2Proof
end

