-- ==== Sys2Proof/Syntax.lean ====
section
/-! DEFINITION. The operations of the page walker: one constructor of `Instr` for each row of the opcode table
(92 D2, D3), and the operand types they carry. -/

namespace Sys2Proof

/-- The five engines with a context-descriptor register set (10 R40, 90 C1). -/
inductive Engine where
  | rcs | bcs | vecs | vcs0 | vcs1
  deriving DecidableEq, Repr

/-- Where a memory request comes from: an engine, WDBox, the second VEBOX (which has no descriptor registers and uses the
global GTT like WDBox, 90 C1), the display engine or the GMADR aperture (00 R9, 43 R301). -/
inductive Source where
  | engine (e : Engine) | wdbox | vebox2 | display | aperture
  deriving DecidableEq, Repr

/-- The memory clients behind the TLBs (00 R9, 46 R382). The client selects the final TLB (46 R382), and a read of the
instruction cache is a fetch (44 R330). -/
inductive Client where
  | hdc | icache | constant | state | sampler | depth | color | ff | mfx | blt | vlf | gav | widi
  deriving DecidableEq, Repr

/-- The kind of a request with its size or data (00 R14). `fetch` is a read with ER = 1 whatever the client (20 R119). -/
inductive Access where
  | read (size : Nat)
  | fetch (size : Nat)
  | write (data : List Byte)
  | atomic (op : Byte) (operand : List Byte)
  deriving DecidableEq, Repr

/-- A memory request (00 R14). PASID and PR come from the context (44 R330), not from the request. -/
structure Request where
  src : Source
  client : Client
  va : Word64
  acc : Access
  deriving DecidableEq, Repr

/-- Which cached copies a translation chooses to use where one exists (46 R380, 92 D40): the final TLB, cached TR-TT
results, the page-walk caches, the GTT cache. DESIGN CHOICE (log 14), unsafe: one choice holds for every look-up of the
translation, those of TR-TT table reads included, where 46 R380 leaves each open. -/
structure CacheUse where
  tlb : Bool
  tr : Bool
  pwc : Bool
  gtt : Bool
  deriving DecidableEq, Repr

/-- Which parts of the last walk are left behind in the caches (46 R385: creating an entry is never required). -/
structure FillSel where
  tlb : Bool
  tr : Bool
  pwc : Bool
  gtt : Bool
  deriving DecidableEq, Repr

/-- The scope of an SVM invalidation (46 R406). -/
inductive SvmScope where
  | global
  | pasid (p : BitVec 20)
  | page (p : BitVec 20) (va : Word64)
  deriving DecidableEq, Repr

/-- The stages an SVM invalidation selects (46 R406). -/
structure SvmStages where
  tlb : Bool
  pwc : Bool
  pc : Bool
  cc : Bool
  deriving DecidableEq, Repr

/-- The four legal access sizes of the GTT alias (20 R97). -/
inductive Width where
  | b1 | b2 | b4 | b8
  deriving DecidableEq, Repr

/-- A width in bytes. -/
def Width.bytes : Width → Nat
  | .b1 => 1 | .b2 => 2 | .b4 => 4 | .b8 => 8

/-- One operation of the model: a row of the opcode table with its operands. -/
inductive Instr where
  -- translations (43 R300, 41 R251, 42 R272, 44 R317, 40 R223)
  | xlateGgtt (elem : Word64) (r : Request)
  | xlatePpgtt32 (elem : Word64) (r : Request)
  | xlatePpgtt48 (elem : Word64) (r : Request)
  | xlateAdv (elem : Word64) (r : Request)
  | xlateTrtt (r : Request)
  -- IA32e entries (30 R140 to R146)
  | iaPml4e (e : Word64)
  | iaPdpePd (e : Word64)
  | iaPdpe1G (e : Word64)
  | iaPdePt (e : Word64) (fl64k : Bool)
  | iaPde2M (e : Word64)
  | iaPte64K (e : Word64)
  | iaPte4K (e : Word64)
  -- legacy 32b entries (30 R150 to R152)
  | p32Pde (e : Word64)
  | p32Pte64K (e : Word64)
  | p32Pte4K (e : Word64)
  -- legacy 48b entries (30 R155 to R161)
  | p48Pml4e (e : Word64)
  | p48PdpePd (e : Word64)
  | p48Pdpe1G (e : Word64)
  | p48PdePt (e : Word64)
  | p48Pde2M (e : Word64)
  | p48Pte64K (e : Word64)
  | p48Pte4K (e : Word64)
  -- global GTT and TR-TT entries (30 R170, R175 to R177)
  | ggttPte (e : Word64)
  | trttL3e (e : Word64)
  | trttL2e (e : Word64)
  | trttL1e (e : Word32)
  -- page-update atomics 1100 i w e r (47 R434 to R449)
  | apu0000 (src : Engine) (pa : Word64)
  | apu0001 (src : Engine) (pa : Word64)
  | apu0010 (src : Engine) (pa : Word64)
  | apu0011 (src : Engine) (pa : Word64)
  | apu0100 (src : Engine) (pa : Word64)
  | apu0101 (src : Engine) (pa : Word64)
  | apu0110 (src : Engine) (pa : Word64)
  | apu0111 (src : Engine) (pa : Word64)
  | apu1000 (src : Engine) (pa : Word64)
  | apu1001 (src : Engine) (pa : Word64)
  | apu1010 (src : Engine) (pa : Word64)
  | apu1011 (src : Engine) (pa : Word64)
  | apu1100 (src : Engine) (pa : Word64)
  | apu1101 (src : Engine) (pa : Word64)
  | apu1110 (src : Engine) (pa : Word64)
  | apu1111 (src : Engine) (pa : Word64)
  -- messages (30 R184, 45 R353 to R356)
  | availableRcs | receiveReadyRcs | launchedRcs | confirmedRcs
  | availableBcs | receiveReadyBcs | launchedBcs | confirmedBcs
  | availableVecs | receiveReadyVecs | launchedVecs | confirmedVecs
  | availableVcs0 | receiveReadyVcs0 | launchedVcs0 | confirmedVcs0
  | availableVcs1 | receiveReadyVcs1 | launchedVcs1 | confirmedVcs1
  -- translation caches (46 R384 to R409)
  | tlbLookup (use : CacheUse) (r : Request)
  | tlbFill (sel : FillSel)
  | tlbinvCs
  | tlbinvSvm (scope : SvmScope) (stages : SvmStages)
  | tlbinvCtxsw (e : Engine)
  | tlbinvPageResponse (pasid : BitVec 20) (va : Word64)
  | invWait
  -- programming the global GTT (43 R303, R305)
  | gttWrite (off : BitVec 23) (w : Width) (value : Word64)
  | gttRead (off : BitVec 23) (w : Width)
  | miUpdateGtt (g : Word32) (value : Word64)
  -- page response and resets (60 R483, 70 R511, R514)
  | pageResponse (pasid : BitVec 20) (va : Word64) (success : Bool) (use : CacheUse)
  | resetEngine (src : Source)
  | resetDevice
  | resetBus
  deriving DecidableEq, Repr

end Sys2Proof
end

