-- ==== Sys2Proof/WellFormed.lean ====
section
/-! DEFINITION. Which terms of `Instr` stand for an operation of the opcode table. -/

namespace Sys2Proof

/-- How many bytes a request touches (00 R14). -/
def Access.size : Access → Nat
  | .read n => n
  | .fetch n => n
  | .write d => d.length
  | .atomic _ d => d.length

/-- A request lies within one 4 KB page (92 D26) and touches at least one byte. -/
def Request.wellFormed (r : Request) : Bool :=
  decide (1 ≤ r.acc.size) && decide (r.va.toNat % 4096 + r.acc.size ≤ 4096)

/-- A word agrees with a row's mask and match (opcode table). -/
def fitsRow (mask value : Nat) (w : Word64) : Bool := w.toNat &&& mask == value

/-- Present, with the size bit of a pointer format clear (30 R187). -/
def pointerEntry (e : Word64) : Bool := fitsRow 0x81 0x01 e
/-- Present, with the size bit of a large page set (30 R187). -/
def largeEntry (e : Word64) : Bool := fitsRow 0x81 0x81 e
/-- Present (30 R187). -/
def presentEntry (e : Word64) : Bool := fitsRow 0x01 0x01 e

/-- An aligned 64-bit paging entry (47 R431). -/
def alignedEntry (pa : Word64) : Bool := pa.toNat % 8 == 0

/-- A value has no bits above the access width. -/
def fitsWidth (w : Width) (v : Word64) : Bool := decide (v.toNat < 2 ^ (8 * w.bytes))

/-- A source that has a state of its own to reset (70 R511, 10 R47, 90 C1). -/
def resettable : Source → Bool
  | .engine _ => true
  | .wdbox => true
  | .vebox2 => true
  | .display => false
  | .aperture => false

/-- The check on an operation: its word fits its row and its operands are of the row's form. -/
def wellFormed : Instr → Bool
  | .xlateGgtt e r => fitsRow 0x10B 0x00B e && r.wellFormed
  | .xlatePpgtt32 e r => fitsRow 0x11B 0x10B e && r.wellFormed
  | .xlatePpgtt48 e r => fitsRow 0x11B 0x11B e && r.wellFormed
  | .xlateAdv e r => fitsRow 0x00B 0x003 e && r.wellFormed
  | .xlateTrtt r => decide (r.src = .engine .rcs) && r.wellFormed
  | .iaPml4e e => presentEntry e
  | .iaPdpePd e => pointerEntry e
  | .iaPdpe1G e => largeEntry e
  | .iaPdePt e _ => pointerEntry e
  | .iaPde2M e => largeEntry e
  | .iaPte64K e => presentEntry e
  | .iaPte4K e => presentEntry e
  | .p32Pde e => presentEntry e
  | .p32Pte64K e => presentEntry e
  | .p32Pte4K e => presentEntry e
  | .p48Pml4e e => presentEntry e
  | .p48PdpePd e => pointerEntry e
  | .p48Pdpe1G e => largeEntry e
  | .p48PdePt e => pointerEntry e
  | .p48Pde2M e => largeEntry e
  | .p48Pte64K e => presentEntry e
  | .p48Pte4K e => presentEntry e
  | .ggttPte e => presentEntry e
  | .trttL3e _ => true
  | .trttL2e _ => true
  | .trttL1e _ => true
  | .apu0000 _ pa => alignedEntry pa
  | .apu0001 _ pa => alignedEntry pa
  | .apu0010 _ pa => alignedEntry pa
  | .apu0011 _ pa => alignedEntry pa
  | .apu0100 _ pa => alignedEntry pa
  | .apu0101 _ pa => alignedEntry pa
  | .apu0110 _ pa => alignedEntry pa
  | .apu0111 _ pa => alignedEntry pa
  | .apu1000 _ pa => alignedEntry pa
  | .apu1001 _ pa => alignedEntry pa
  | .apu1010 _ pa => alignedEntry pa
  | .apu1011 _ pa => alignedEntry pa
  | .apu1100 _ pa => alignedEntry pa
  | .apu1101 _ pa => alignedEntry pa
  | .apu1110 _ pa => alignedEntry pa
  | .apu1111 _ pa => alignedEntry pa
  | .availableRcs => true
  | .receiveReadyRcs => true
  | .launchedRcs => true
  | .confirmedRcs => true
  | .availableBcs => true
  | .receiveReadyBcs => true
  | .launchedBcs => true
  | .confirmedBcs => true
  | .availableVecs => true
  | .receiveReadyVecs => true
  | .launchedVecs => true
  | .confirmedVecs => true
  | .availableVcs0 => true
  | .receiveReadyVcs0 => true
  | .launchedVcs0 => true
  | .confirmedVcs0 => true
  | .availableVcs1 => true
  | .receiveReadyVcs1 => true
  | .launchedVcs1 => true
  | .confirmedVcs1 => true
  | .tlbLookup _ r => r.wellFormed
  | .tlbFill _ => true
  | .tlbinvCs => true
  | .tlbinvSvm _ _ => true
  | .tlbinvCtxsw _ => true
  | .tlbinvPageResponse _ _ => true
  | .invWait => true
  | .gttWrite _ w v => fitsWidth w v
  | .gttRead _ _ => true
  | .miUpdateGtt _ _ => true
  | .pageResponse _ _ _ _ => true
  | .resetEngine s => resettable s
  | .resetDevice => true
  | .resetBus => true

/-- `wellFormed` as a proposition. -/
abbrev WellFormed (i : Instr) : Prop := wellFormed i = true

end Sys2Proof
end

