-- ==== Sys2Proof/Decode.lean ====
section
/-! DEFINITION. Decoder and encoder of operation frames.

A frame is the form in which an operation reaches the model's input queue (assumption logs 1 and 2). Bytes 0 to 7 are the
word of the opcode table, little-endian: the Element Descriptor of an XLATE row, the entry of an entry row, the opcode of
an APU row, the 32-bit write of a MSG row; byte 8 is the row's number in the table, or 0 for `by the word alone`; then
the operands to which the spec gives no bits, little-endian; what is left must be zero bytes. -/

namespace Sys2Proof

/-- Why a frame is no operation. -/
inductive DecodeError where
  | truncated                        -- the frame ends before its operands do
  | unknownRow (sel : Nat)           -- no such row in the opcode table
  | wordMismatch (mnemonic : String) -- the word does not have the row's fixed bits
  | badSource | badClient | badKind | badAtomic | badEngine | badFlags | badScope | badPasid | badWidth | badOffset
  | badBool                          -- an operand byte with a value of no meaning
  | trailing                         -- bytes after the operands that are not zero
  | illFormed                        -- operands outside the row's form (`wellFormed`)
  deriving DecidableEq, Repr

/-- Codes of the operand types: the model's own, the spec gives none (log 2). -/
def Engine.code : Engine → Nat
  | .rcs => 0 | .vcs0 => 1 | .vcs1 => 2 | .vecs => 3 | .bcs => 4

def Engine.ofCode : Nat → Except DecodeError Engine
  | 0 => .ok .rcs | 1 => .ok .vcs0 | 2 => .ok .vcs1 | 3 => .ok .vecs | 4 => .ok .bcs
  | _ => .error .badEngine

def Source.code : Source → Nat
  | .engine e => e.code | .wdbox => 5 | .display => 6 | .aperture => 7 | .vebox2 => 8

def Source.ofCode : Nat → Except DecodeError Source
  | 0 => .ok (.engine .rcs) | 1 => .ok (.engine .vcs0) | 2 => .ok (.engine .vcs1) | 3 => .ok (.engine .vecs)
  | 4 => .ok (.engine .bcs) | 5 => .ok .wdbox | 6 => .ok .display | 7 => .ok .aperture | 8 => .ok .vebox2
  | _ => .error .badSource

def Client.code : Client → Nat
  | .hdc => 0 | .icache => 1 | .constant => 2 | .state => 3 | .sampler => 4 | .depth => 5 | .color => 6
  | .ff => 7 | .mfx => 8 | .blt => 9 | .vlf => 10 | .gav => 11 | .widi => 12

def Client.ofCode : Nat → Except DecodeError Client
  | 0 => .ok .hdc | 1 => .ok .icache | 2 => .ok .constant | 3 => .ok .state | 4 => .ok .sampler | 5 => .ok .depth
  | 6 => .ok .color | 7 => .ok .ff | 8 => .ok .mfx | 9 => .ok .blt | 10 => .ok .vlf | 11 => .ok .gav | 12 => .ok .widi
  | _ => .error .badClient

def Width.code : Width → Nat
  | .b1 => 0 | .b2 => 1 | .b4 => 2 | .b8 => 3

def Width.ofCode : Nat → Except DecodeError Width
  | 0 => .ok .b1 | 1 => .ok .b2 | 2 => .ok .b4 | 3 => .ok .b8
  | _ => .error .badWidth

/-- Four flags in one byte, the first in bit 0. -/
def flagsCode (a b c d : Bool) : Nat := a.toNat + 2 * b.toNat + 4 * c.toNat + 8 * d.toNat

def flagAt (n k : Nat) : Bool := n / 2 ^ k % 2 == 1

/-- `n` bytes of a frame, with the rest. -/
def takeBytes : Nat → List Byte → Except DecodeError (List Byte × List Byte)
  | 0, bs => .ok ([], bs)
  | _ + 1, [] => .error .truncated
  | n + 1, b :: bs =>
    match takeBytes n bs with
    | .ok (x, rest) => .ok (b :: x, rest)
    | .error e => .error e

/-- An `n`-byte little-endian operand of a frame, with the rest. -/
def takeLE (n : Nat) (bs : List Byte) : Except DecodeError (Nat × List Byte) :=
  match takeBytes n bs with
  | .ok (x, rest) => .ok (leNat x, rest)
  | .error e => .error e

/-- The kind, size and data of a request: code 0 read, 1 write, 2 atomic, 3 instruction fetch (20 R119). -/
def takeAccess (kind aop size : Nat) (bs : List Byte) : Except DecodeError (Access × List Byte) :=
  match kind with
  | 0 => if aop = 0 then .ok (.read size, bs) else .error .badAtomic
  | 1 => if aop = 0 then do let (d, bs) ← takeBytes size bs; .ok (.write d, bs) else .error .badAtomic
  | 2 => do let (d, bs) ← takeBytes size bs; .ok (.atomic (BitVec.ofNat 8 aop) d, bs)
  | 3 => if aop = 0 then .ok (.fetch size, bs) else .error .badAtomic
  | _ => .error .badKind

/-- A request at a given virtual address: source, client, kind, atomic operation, size less one (2 bytes), data. -/
def takeRequestAt (va : Word64) (bs : List Byte) : Except DecodeError (Request × List Byte) := do
  let (s, bs) ← takeLE 1 bs
  let src ← Source.ofCode s
  let (c, bs) ← takeLE 1 bs
  let client ← Client.ofCode c
  let (kind, bs) ← takeLE 1 bs
  let (aop, bs) ← takeLE 1 bs
  let (n, bs) ← takeLE 2 bs
  let (acc, bs) ← takeAccess kind aop (n + 1) bs
  .ok (⟨src, client, va, acc⟩, bs)

/-- A request with its virtual address in front (8 bytes). -/
def takeRequest (bs : List Byte) : Except DecodeError (Request × List Byte) := do
  let (va, bs) ← takeLE 8 bs
  takeRequestAt (BitVec.ofNat 64 va) bs

def takeEngine (bs : List Byte) : Except DecodeError (Engine × List Byte) := do
  let (c, bs) ← takeLE 1 bs
  let e ← Engine.ofCode c
  .ok (e, bs)

def takeSource (bs : List Byte) : Except DecodeError (Source × List Byte) := do
  let (c, bs) ← takeLE 1 bs
  let e ← Source.ofCode c
  .ok (e, bs)

def takeBool (bs : List Byte) : Except DecodeError (Bool × List Byte) := do
  let (c, bs) ← takeLE 1 bs
  if c < 2 then .ok (c == 1, bs) else .error .badBool

def takeFlags (bs : List Byte) : Except DecodeError (Nat × List Byte) := do
  let (c, bs) ← takeLE 1 bs
  if c < 16 then .ok (c, bs) else .error .badFlags

def takeUse (bs : List Byte) : Except DecodeError (CacheUse × List Byte) := do
  let (n, bs) ← takeFlags bs
  .ok (⟨flagAt n 0, flagAt n 1, flagAt n 2, flagAt n 3⟩, bs)

def takePasid (bs : List Byte) : Except DecodeError (BitVec 20 × List Byte) := do
  let (n, bs) ← takeLE 3 bs
  if n < 2 ^ 20 then .ok (BitVec.ofNat 20 n, bs) else .error .badPasid

def takeVa (bs : List Byte) : Except DecodeError (Word64 × List Byte) := do
  let (n, bs) ← takeLE 8 bs
  .ok (BitVec.ofNat 64 n, bs)

/-- The scope of an SVM invalidation: 0 global, 1 by PASID, 2 by PASID and page (46 R406). -/
def takeScope (bs : List Byte) : Except DecodeError (SvmScope × List Byte) := do
  let (k, bs) ← takeLE 1 bs
  match k with
  | 0 => .ok (.global, bs)
  | 1 => do let (p, bs) ← takePasid bs; .ok (.pasid p, bs)
  | 2 => do let (p, bs) ← takePasid bs; let (va, bs) ← takeVa bs; .ok (.page p va, bs)
  | _ => .error .badScope

def takeOffset (bs : List Byte) : Except DecodeError (BitVec 23 × List Byte) := do
  let (n, bs) ← takeLE 3 bs
  if n < 2 ^ 23 then .ok (BitVec.ofNat 23 n, bs) else .error .badOffset

def takeWidth (bs : List Byte) : Except DecodeError (Width × List Byte) := do
  let (c, bs) ← takeLE 1 bs
  let w ← Width.ofCode c
  .ok (w, bs)

/-- A row of the opcode table: mnemonic, the fixed bits of its word, and how its operands follow. -/
structure Row where
  mnemonic : String
  mask : Nat
  value : Nat
  parse : Word64 → List Byte → Except DecodeError (Instr × List Byte)

/-- An entry row: the word is the entry and nothing follows (30 R130). -/
def entryRow (m : String) (mask value : Nat) (mk : Word64 → Instr) : Row :=
  ⟨m, mask, value, fun w bs => .ok (mk w, bs)⟩

/-- An XLATE row: the word is the Element Descriptor and the request follows (30 R180). -/
def xlateRow (m : String) (mask value : Nat) (mk : Word64 → Request → Instr) : Row :=
  ⟨m, mask, value, fun w bs => do let (r, bs) ← takeRequest bs; .ok (mk w r, bs)⟩

/-- All 64 bits of the word are fixed. -/
def allBits : Nat := 2 ^ 64 - 1

/-- An APU row: the word is the 8-bit opcode, the issuing engine and the physical address follow (30 R186, 47 R431). -/
def apuRow (m : String) (op : Nat) (mk : Engine → Word64 → Instr) : Row :=
  ⟨m, allBits, op, fun _ bs => do let (e, bs) ← takeEngine bs; let (pa, bs) ← takeVa bs; .ok (mk e pa, bs)⟩

/-- A MSG row: the word is the 32-bit masked write (30 R184). -/
def msgRow (m : String) (value : Nat) (i : Instr) : Row := ⟨m, allBits, value, fun _ bs => .ok (i, bs)⟩

/-- A row whose word the spec does not define: the word is zero and everything follows. -/
def bareRow (m : String) (p : List Byte → Except DecodeError (Instr × List Byte)) : Row := ⟨m, allBits, 0, fun _ => p⟩

/-- Rows 1 to 5. -/
def rowsXlate : List Row := [
  xlateRow "XLATE.GGTT" 0x10B 0x00B .xlateGgtt,
  xlateRow "XLATE.PPGTT32" 0x11B 0x10B .xlatePpgtt32,
  xlateRow "XLATE.PPGTT48" 0x11B 0x11B .xlatePpgtt48,
  xlateRow "XLATE.ADV" 0x00B 0x003 .xlateAdv,
  ⟨"XLATE.TRTT", 0, 0, fun w bs => do let (r, bs) ← takeRequestAt w bs; .ok (.xlateTrtt r, bs)⟩]

/-- Rows 6 to 15. -/
def rowsEntryA : List Row := [
  entryRow "IA32E.PML4E" 0x01 0x01 .iaPml4e,
  entryRow "IA32E.PDPE.PD" 0x81 0x01 .iaPdpePd,
  entryRow "IA32E.PDPE.1G" 0x81 0x81 .iaPdpe1G,
  ⟨"IA32E.PDE.PT", 0x81, 0x01, fun w bs => do let (b, bs) ← takeBool bs; .ok (.iaPdePt w b, bs)⟩,
  entryRow "IA32E.PDE.2M" 0x81 0x81 .iaPde2M,
  entryRow "IA32E.PTE.64K" 0x01 0x01 .iaPte64K,
  entryRow "IA32E.PTE.4K" 0x01 0x01 .iaPte4K,
  entryRow "PPGTT32.PDE" 0x01 0x01 .p32Pde,
  entryRow "PPGTT32.PTE.64K" 0x01 0x01 .p32Pte64K,
  entryRow "PPGTT32.PTE.4K" 0x01 0x01 .p32Pte4K]

/-- Rows 16 to 26. -/
def rowsEntryB : List Row := [
  entryRow "PPGTT48.PML4E" 0x01 0x01 .p48Pml4e,
  entryRow "PPGTT48.PDPE.PD" 0x81 0x01 .p48PdpePd,
  entryRow "PPGTT48.PDPE.1G" 0x81 0x81 .p48Pdpe1G,
  entryRow "PPGTT48.PDE.PT" 0x81 0x01 .p48PdePt,
  entryRow "PPGTT48.PDE.2M" 0x81 0x81 .p48Pde2M,
  entryRow "PPGTT48.PTE.64K" 0x01 0x01 .p48Pte64K,
  entryRow "PPGTT48.PTE.4K" 0x01 0x01 .p48Pte4K,
  entryRow "GGTT.PTE" 0x01 0x01 .ggttPte,
  entryRow "TRTT.L3E" 0 0 .trttL3e,
  entryRow "TRTT.L2E" 0 0 .trttL2e,
  entryRow "TRTT.L1E" (allBits - 0xFFFFFFFF) 0 (fun w => .trttL1e (w.truncate 32))]

/-- Rows 27 to 42. -/
def rowsApu : List Row := [
  apuRow "APU.0000" 0xC0 .apu0000, apuRow "APU.0001" 0xC1 .apu0001,
  apuRow "APU.0010" 0xC2 .apu0010, apuRow "APU.0011" 0xC3 .apu0011,
  apuRow "APU.0100" 0xC4 .apu0100, apuRow "APU.0101" 0xC5 .apu0101,
  apuRow "APU.0110" 0xC6 .apu0110, apuRow "APU.0111" 0xC7 .apu0111,
  apuRow "APU.1000" 0xC8 .apu1000, apuRow "APU.1001" 0xC9 .apu1001,
  apuRow "APU.1010" 0xCA .apu1010, apuRow "APU.1011" 0xCB .apu1011,
  apuRow "APU.1100" 0xCC .apu1100, apuRow "APU.1101" 0xCD .apu1101,
  apuRow "APU.1110" 0xCE .apu1110, apuRow "APU.1111" 0xCF .apu1111]

/-- Rows 43 to 62 (30 R184). -/
def rowsMsg : List Row := [
  msgRow "MSG.CONTEXT_AVAILABLE.RCS" 0x00010001 .availableRcs,
  msgRow "MSG.CONTEXT_RECEIVE_READY.RCS" 0x00010001 .receiveReadyRcs,
  msgRow "MSG.CONTEXT_LAUNCHED.RCS" 0x00020002 .launchedRcs,
  msgRow "MSG.CONTEXT_CONFIRMED.RCS" 0x00020002 .confirmedRcs,
  msgRow "MSG.CONTEXT_AVAILABLE.BCS" 0x00010001 .availableBcs,
  msgRow "MSG.CONTEXT_RECEIVE_READY.BCS" 0x00010001 .receiveReadyBcs,
  msgRow "MSG.CONTEXT_LAUNCHED.BCS" 0x00020002 .launchedBcs,
  msgRow "MSG.CONTEXT_CONFIRMED.BCS" 0x00020002 .confirmedBcs,
  msgRow "MSG.CONTEXT_AVAILABLE.VECS" 0x00010001 .availableVecs,
  msgRow "MSG.CONTEXT_RECEIVE_READY.VECS" 0x00010001 .receiveReadyVecs,
  msgRow "MSG.CONTEXT_LAUNCHED.VECS" 0x00020002 .launchedVecs,
  msgRow "MSG.CONTEXT_CONFIRMED.VECS" 0x00020002 .confirmedVecs,
  msgRow "MSG.CONTEXT_AVAILABLE.VCS0" 0x00010001 .availableVcs0,
  msgRow "MSG.CONTEXT_RECEIVE_READY.VCS0" 0x00010001 .receiveReadyVcs0,
  msgRow "MSG.CONTEXT_LAUNCHED.VCS0" 0x00020002 .launchedVcs0,
  msgRow "MSG.CONTEXT_CONFIRMED.VCS0" 0x00020002 .confirmedVcs0,
  msgRow "MSG.CONTEXT_AVAILABLE.VCS1" 0x00010001 .availableVcs1,
  msgRow "MSG.CONTEXT_RECEIVE_READY.VCS1" 0x00010001 .receiveReadyVcs1,
  msgRow "MSG.CONTEXT_LAUNCHED.VCS1" 0x00020002 .launchedVcs1,
  msgRow "MSG.CONTEXT_CONFIRMED.VCS1" 0x00020002 .confirmedVcs1]

/-- Rows 63 to 76. -/
def rowsRest : List Row := [
  bareRow "TLB.LOOKUP" (fun bs => do
    let (u, bs) ← takeUse bs; let (r, bs) ← takeRequest bs; .ok (.tlbLookup u r, bs)),
  bareRow "TLB.FILL" (fun bs => do
    let (n, bs) ← takeFlags bs; .ok (.tlbFill ⟨flagAt n 0, flagAt n 1, flagAt n 2, flagAt n 3⟩, bs)),
  bareRow "TLBINV.CS" (fun bs => .ok (.tlbinvCs, bs)),
  bareRow "TLBINV.SVM" (fun bs => do
    let (sc, bs) ← takeScope bs
    let (n, bs) ← takeFlags bs
    .ok (.tlbinvSvm sc ⟨flagAt n 0, flagAt n 1, flagAt n 2, flagAt n 3⟩, bs)),
  bareRow "TLBINV.CTXSW" (fun bs => do let (e, bs) ← takeEngine bs; .ok (.tlbinvCtxsw e, bs)),
  bareRow "TLBINV.PAGE_RESPONSE" (fun bs => do
    let (p, bs) ← takePasid bs; let (va, bs) ← takeVa bs; .ok (.tlbinvPageResponse p va, bs)),
  bareRow "INV_WAIT" (fun bs => .ok (.invWait, bs)),
  ⟨"GTT.WRITE", 0, 0, fun v bs => do
    let (o, bs) ← takeOffset bs; let (w, bs) ← takeWidth bs; .ok (.gttWrite o w v, bs)⟩,
  bareRow "GTT.READ" (fun bs => do
    let (o, bs) ← takeOffset bs; let (w, bs) ← takeWidth bs; .ok (.gttRead o w, bs)),
  ⟨"MI_UPDATE_GTT", 0, 0, fun v bs => do
    let (g, bs) ← takeLE 4 bs; .ok (.miUpdateGtt (BitVec.ofNat 32 g) v, bs)⟩,
  bareRow "PAGE_RESPONSE" (fun bs => do
    let (p, bs) ← takePasid bs; let (va, bs) ← takeVa bs
    let (ok, bs) ← takeBool bs; let (u, bs) ← takeUse bs
    .ok (.pageResponse p va ok u, bs)),
  bareRow "RESET.ENGINE" (fun bs => do let (s, bs) ← takeSource bs; .ok (.resetEngine s, bs)),
  bareRow "RESET.DEVICE" (fun bs => .ok (.resetDevice, bs)),
  bareRow "RESET.BUS" (fun bs => .ok (.resetBus, bs))]

/-- The opcode table, in its order; row `k` has selector `k`, from 1. -/
def rows : List Row := rowsXlate ++ rowsEntryA ++ rowsEntryB ++ rowsApu ++ rowsMsg ++ rowsRest

/-- The row that a word alone stands for (selector 0; log 2): the first row in a fixed order whose fixed bits it has.
Which level an entry is read at, and which message register is written, is not in the word (30 R187). -/
def rowOfWord (w : Nat) : Nat :=
  if 0xC0 ≤ w ∧ w ≤ 0xCF then 27 + (w - 0xC0)
  else if w = 0x00010001 then 43
  else if w = 0x00020002 then 45
  else if w % 4 = 3 then
    if w / 8 % 2 = 0 then 4 else if w / 256 % 2 = 0 then 1 else if w / 16 % 2 = 0 then 2 else 3
  else if w % 2 = 1 then (if w / 128 % 2 = 0 then 6 else 8)
  else 24

/-- The row, the word's fixed bits, the operands, the zero rest, the form. -/
def decodeRow (sel w : Nat) (bs : List Byte) : Except DecodeError Instr :=
  if sel = 0 then .error (.unknownRow 0) else
  match rows[sel - 1]? with
  | none => .error (.unknownRow sel)
  | some row =>
    if w &&& row.mask = row.value then do
      let (i, rest) ← row.parse (BitVec.ofNat 64 w) bs
      if rest.all (· == 0) then (if wellFormed i then .ok i else .error .illFormed) else .error .trailing
    else .error (.wordMismatch row.mnemonic)

/-- The operation a frame stands for. Total; a frame that is no operation is rejected by name. -/
def decode (bs : List Byte) : Except DecodeError Instr := do
  let (w, bs) ← takeLE 8 bs
  let (sel, bs) ← takeLE 1 bs
  decodeRow (if sel = 0 then rowOfWord w else sel) w bs

/-! The encoder, from the same tables. -/

/-- Word, row number, operands. -/
def frame (sel w : Nat) (operands : List Byte) : List Byte := leBytes 8 w ++ (leBytes 1 sel ++ operands)

def Access.bytes : Access → List Byte
  | .read n => leBytes 1 0 ++ (leBytes 1 0 ++ leBytes 2 (n - 1))
  | .write d => leBytes 1 1 ++ (leBytes 1 0 ++ (leBytes 2 (d.length - 1) ++ d))
  | .atomic op d => leBytes 1 2 ++ (leBytes 1 op.toNat ++ (leBytes 2 (d.length - 1) ++ d))
  | .fetch n => leBytes 1 3 ++ (leBytes 1 0 ++ leBytes 2 (n - 1))

/-- A request without its address. -/
def Request.tailBytes (r : Request) : List Byte := leBytes 1 r.src.code ++ (leBytes 1 r.client.code ++ r.acc.bytes)

def Request.bytes (r : Request) : List Byte := leBytes 8 r.va.toNat ++ r.tailBytes

def CacheUse.bytes (u : CacheUse) : List Byte := leBytes 1 (flagsCode u.tlb u.tr u.pwc u.gtt)

def SvmScope.bytes : SvmScope → List Byte
  | .global => leBytes 1 0
  | .pasid p => leBytes 1 1 ++ leBytes 3 p.toNat
  | .page p va => leBytes 1 2 ++ (leBytes 3 p.toNat ++ leBytes 8 va.toNat)

/-- The operands of a page-update atomic. -/
def apuBytes (e : Engine) (pa : Word64) : List Byte := leBytes 1 e.code ++ leBytes 8 pa.toNat

/-- The frame of an operation; its row number is always written. -/
def encode : Instr → List Byte
  | .xlateGgtt e r => frame 1 e.toNat r.bytes
  | .xlatePpgtt32 e r => frame 2 e.toNat r.bytes
  | .xlatePpgtt48 e r => frame 3 e.toNat r.bytes
  | .xlateAdv e r => frame 4 e.toNat r.bytes
  | .xlateTrtt r => frame 5 r.va.toNat r.tailBytes
  | .iaPml4e e => frame 6 e.toNat []
  | .iaPdpePd e => frame 7 e.toNat []
  | .iaPdpe1G e => frame 8 e.toNat []
  | .iaPdePt e b => frame 9 e.toNat (leBytes 1 b.toNat)
  | .iaPde2M e => frame 10 e.toNat []
  | .iaPte64K e => frame 11 e.toNat []
  | .iaPte4K e => frame 12 e.toNat []
  | .p32Pde e => frame 13 e.toNat []
  | .p32Pte64K e => frame 14 e.toNat []
  | .p32Pte4K e => frame 15 e.toNat []
  | .p48Pml4e e => frame 16 e.toNat []
  | .p48PdpePd e => frame 17 e.toNat []
  | .p48Pdpe1G e => frame 18 e.toNat []
  | .p48PdePt e => frame 19 e.toNat []
  | .p48Pde2M e => frame 20 e.toNat []
  | .p48Pte64K e => frame 21 e.toNat []
  | .p48Pte4K e => frame 22 e.toNat []
  | .ggttPte e => frame 23 e.toNat []
  | .trttL3e e => frame 24 e.toNat []
  | .trttL2e e => frame 25 e.toNat []
  | .trttL1e e => frame 26 e.toNat []
  | .apu0000 s pa => frame 27 0xC0 (apuBytes s pa)
  | .apu0001 s pa => frame 28 0xC1 (apuBytes s pa)
  | .apu0010 s pa => frame 29 0xC2 (apuBytes s pa)
  | .apu0011 s pa => frame 30 0xC3 (apuBytes s pa)
  | .apu0100 s pa => frame 31 0xC4 (apuBytes s pa)
  | .apu0101 s pa => frame 32 0xC5 (apuBytes s pa)
  | .apu0110 s pa => frame 33 0xC6 (apuBytes s pa)
  | .apu0111 s pa => frame 34 0xC7 (apuBytes s pa)
  | .apu1000 s pa => frame 35 0xC8 (apuBytes s pa)
  | .apu1001 s pa => frame 36 0xC9 (apuBytes s pa)
  | .apu1010 s pa => frame 37 0xCA (apuBytes s pa)
  | .apu1011 s pa => frame 38 0xCB (apuBytes s pa)
  | .apu1100 s pa => frame 39 0xCC (apuBytes s pa)
  | .apu1101 s pa => frame 40 0xCD (apuBytes s pa)
  | .apu1110 s pa => frame 41 0xCE (apuBytes s pa)
  | .apu1111 s pa => frame 42 0xCF (apuBytes s pa)
  | .availableRcs => frame 43 0x00010001 []
  | .receiveReadyRcs => frame 44 0x00010001 []
  | .launchedRcs => frame 45 0x00020002 []
  | .confirmedRcs => frame 46 0x00020002 []
  | .availableBcs => frame 47 0x00010001 []
  | .receiveReadyBcs => frame 48 0x00010001 []
  | .launchedBcs => frame 49 0x00020002 []
  | .confirmedBcs => frame 50 0x00020002 []
  | .availableVecs => frame 51 0x00010001 []
  | .receiveReadyVecs => frame 52 0x00010001 []
  | .launchedVecs => frame 53 0x00020002 []
  | .confirmedVecs => frame 54 0x00020002 []
  | .availableVcs0 => frame 55 0x00010001 []
  | .receiveReadyVcs0 => frame 56 0x00010001 []
  | .launchedVcs0 => frame 57 0x00020002 []
  | .confirmedVcs0 => frame 58 0x00020002 []
  | .availableVcs1 => frame 59 0x00010001 []
  | .receiveReadyVcs1 => frame 60 0x00010001 []
  | .launchedVcs1 => frame 61 0x00020002 []
  | .confirmedVcs1 => frame 62 0x00020002 []
  | .tlbLookup u r => frame 63 0 (u.bytes ++ r.bytes)
  | .tlbFill f => frame 64 0 (leBytes 1 (flagsCode f.tlb f.tr f.pwc f.gtt))
  | .tlbinvCs => frame 65 0 []
  | .tlbinvSvm sc st => frame 66 0 (sc.bytes ++ leBytes 1 (flagsCode st.tlb st.pwc st.pc st.cc))
  | .tlbinvCtxsw e => frame 67 0 (leBytes 1 e.code)
  | .tlbinvPageResponse p va => frame 68 0 (leBytes 3 p.toNat ++ leBytes 8 va.toNat)
  | .invWait => frame 69 0 []
  | .gttWrite o w v => frame 70 v.toNat (leBytes 3 o.toNat ++ leBytes 1 w.code)
  | .gttRead o w => frame 71 0 (leBytes 3 o.toNat ++ leBytes 1 w.code)
  | .miUpdateGtt g v => frame 72 v.toNat (leBytes 4 g.toNat)
  | .pageResponse p va ok u =>
    frame 73 0 (leBytes 3 p.toNat ++ (leBytes 8 va.toNat ++ (leBytes 1 ok.toNat ++ u.bytes)))
  | .resetEngine s => frame 74 0 (leBytes 1 s.code)
  | .resetDevice => frame 75 0 []
  | .resetBus => frame 76 0 []

/-- The frame of a bare table word: the word's bytes and zeros (as long as the longest fixed part of a frame). -/
def tableFrame (nbits w : Nat) : List Byte := leBytes 8 (w % 2 ^ nbits) ++ List.replicate 32 0

/-- The operation the decoder reads from the bits of a table row alone. -/
def decodeTableWord (nbits w : Nat) : Option Instr :=
  match decode (tableFrame nbits w) with
  | .ok i => some i
  | .error _ => none

end Sys2Proof
end

