-- ==== Sys2Proof/Machine/Flags.lean ====
section
/-! DEFINITION. The flags of a paging entry: what a page-update atomic writes (47 R431, R433), and the reserved bits of the
IA32e formats (44 R326). The hardware has no flags register (10 R60). -/

namespace Sys2Proof.Machine

/-- The four low bits of an `Atomic_Page_update` opcode `1100 i w e r` (30 R186). -/
structure ApuOp where
  i : Bool
  w : Bool
  e : Bool
  r : Bool
  deriving DecidableEq, Repr

/-- The 8-bit opcode (30 R186). -/
def ApuOp.code (op : ApuOp) : Nat := 0xC0 + 8 * op.i.toNat + 4 * op.w.toNat + 2 * op.e.toNat + op.r.toNat

/-- Bit 5, Accessed (10 R60). -/
def bitA : Word64 := 0x020
/-- Bit 6, Dirty. -/
def bitD : Word64 := 0x040
/-- Bit 10, Extended Access. -/
def bitEA : Word64 := 0x400

/-- `guard_fails` (47 R433): the entry is not present, or a write with write protection enabled meets a read-only entry. -/
def ApuOp.guardFails (op : ApuOp) (old : Word64) : Bool := !bit old 0 || (op.r && op.w && !bit old 1)

/-- The bits an opcode sets (47 R431). -/
def ApuOp.sets (op : ApuOp) : Word64 := bitA ||| (if op.r then bitD else 0) ||| (if op.e then bitEA else 0)

/-- `f_op` (47 R431). -/
def ApuOp.apply (op : ApuOp) (old : Word64) : Word64 := if op.guardFails old then old else old ||| op.sets

end Sys2Proof.Machine
end

