-- ==== Sys2Proof/Config.lean ====
section
/-! DEFINITION. What the spec leaves free: values with no body, so that no proof can see what they are
(93 Part 1, treatment `any value`; assumption log 8 and 29), and constants of an implementation. -/

namespace Sys2Proof.Config

/-- DESIGN CHOICE (log 8). The n-th free byte: read data of an invalid or errored cycle (93 U28). -/
opaque freeByte : Nat → Byte
/-- DESIGN CHOICE (log 8). The n-th free quad word: the data of a failed TR-TT table read (40 R230), undescribed
register bits (93 U32), a descriptor register after an engine reset (70 R511). -/
opaque freeWord : Nat → Word64
/-- DESIGN CHOICE (log 8). The n-th free bit: a control whose value after a reset is unspecified (70 R517). -/
opaque freeBool : Nat → Bool
/-- DESIGN CHOICE (log 8). The n-th free natural number: NULL_TILE_COUNT after a reset (93 U31). -/
opaque freeNat : Nat → Nat

/-- DESIGN CHOICE (log 29). The data atomic operations belong to the execution units and are not in the spec: the
request supplies the function (47 R455). The byte names it, the first list is the operand, the second the old value. -/
opaque atomicFn : Byte → List Byte → List Byte → List Byte

/-- DESIGN CHOICE (log 5). What a byte of memory that nothing has written reads as. -/
def unlistedByte : Byte := 0

end Sys2Proof.Config
end

