-- ==== Sys2Proof/Machine/State.lean ====
section
/-! DEFINITION. The state of the machine as plain data, its reset value, and the reasons a step can stop. -/

namespace Sys2Proof.Machine

/-! ## Parameters of the run -/

/-- Page-fault support models (60 R477); `reserved` is a value of `FaultModelOf` (30 R181). -/
inductive FaultModel where
  | hang | stream | halt | reserved
  deriving DecidableEq, Repr

/-- Memory types (20 R105). -/
inductive MemType where
  | wb | wt | wc | uc
  deriving DecidableEq, Repr

/-- The implementation parameters of 00 R6, and three that say which of two rules of the spec the part follows, where they differ
and no ruling decides (logs 22, 41). No step changes them (log 7). -/
structure Platform where
  /-- HAW (92 D12). -/
  haw : Nat
  gmadrBase : Nat
  gmadrSize : Nat
  gttmmadrBase : Nat
  gsmBase : Nat
  gsmSize : Nat
  dsmBase : Nat
  wopcmBase : Nat
  /-- GMS: DSM is `GMS * 32 MB` (20 R84). -/
  gms : BitVec 8
  /-- FUNCTION (60 R492). -/
  function : BitVec 3
  /-- HANG_SKIP (92 D14). -/
  hangSkip : Bool
  /-- XD_ENFORCE (44 R327). -/
  xdEnforce : Bool
  /-- FaultModelOf 1, 2, 3 (92 D33). -/
  fm1 : FaultModel
  fm2 : FaultModel
  fm3 : FaultModel
  /-- SecondLevel (92 D4): exceptions to the identity, by 4 KB page number; `none` is undefined (93 U22). -/
  secondLevel : List (Nat × Option Nat)
  /-- MemType (20 R105): exceptions to write-back, by 4 KB page number. -/
  memTypes : List (Nat × MemType)
  /-- Hardware keeps PENDING and PAGE_REQUESTS over a reset as 10 R70 and 45 R362 say; `false` is 70 R511, R513, R517 (DESIGN
  CHOICE, log 41). -/
  keepRequests : Bool
  /-- The PASID Caches outlive a device reset as 10 R70 says; `false` is 70 R511, R517 and 45 R362 (DESIGN CHOICE, log 41). -/
  keepPasidCache : Bool
  /-- After Catastrophic(NonWBPagingEntry) the context makes no further progress, as 47 R453 says; `false` is 60 R466, by which
  later requests of the engine proceed (DESIGN CHOICE, log 22). -/
  stopOnCatastrophic : Bool
  deriving DecidableEq, Repr

/-! ## Registers -/

/-- The MMIO control registers (10 R22 to R33). Reserved bits are held as 0. -/
structure Regs where
  trttL3ptr : Word64
  trttNull : Word32
  trttInvalid : Word32
  trvadr : Word32
  trtte : Word32
  /-- 0x4DFC bit 0. -/
  bypassDis : Bool
  /-- 0x4A30 bit 31. -/
  colorZ : Bool
  adNonwbIgnore : Bool
  ipsEnable : Bool
  gttCacheEnable : Bool
  nullTileCount : Nat
  deriving DecidableEq, Repr

/-- A context-descriptor register, and for each of its DWords whether a command streamer has written it since the last device
or bus reset (10 R46, 93 U1). Whether a register of which only one DWord was written counts as written is `DescReg.get` (log 38). -/
structure DescReg where
  value : Word64
  loWritten : Bool
  hiWritten : Bool
  deriving DecidableEq, Repr

/-- Hand-shake state (10 R68). -/
inductive HandShake where
  | idle | availableReceived | readySent | launchedReceived | running
  deriving DecidableEq, Repr

/-- PASID Cache entry of an engine (46 R392). -/
structure PasidCache where
  valid : Bool
  pml4 : Word64
  eafe : Bool
  fl64kpe : Bool
  deriving DecidableEq, Repr

/-- The per-engine state (60 R504). -/
structure Bank where
  elem : DescReg
  pdp0 : DescReg
  pdp1 : DescReg
  pdp2 : DescReg
  pdp3 : DescReg
  hs : HandShake
  hung : Bool
  /-- The context that the engine runs makes no further progress (47 R453; log 22). -/
  stopped : Bool
  pc : PasidCache
  /-- The PASID this engine counts for in PASID_State (70 R515). -/
  resident : Option (BitVec 20)
  deriving DecidableEq, Repr

/-- One bank for each engine (10 R21). -/
structure Banks where
  rcs : Bank
  bcs : Bank
  vecs : Bank
  vcs0 : Bank
  vcs1 : Bank
  deriving DecidableEq, Repr

/-! ## IOMMU contents -/

/-- The context-entry part of `PasidLookup`, per function (44 R316). -/
structure CtxEntry where
  fn : BitVec 3
  nxe : Bool
  neste : Bool
  wpe : Bool
  pge : Bool
  deriving DecidableEq, Repr

/-- The PASID-entry part of `PasidLookup` (44 R316). -/
structure PasidEntry where
  fn : BitVec 3
  pasid : BitVec 20
  ok : Bool
  pml4 : Word64
  eafe : Bool
  fl64kpe : Bool
  deriving DecidableEq, Repr

/-- IOMMU contents, the context cache, and the PASID_State counters (nonzero ones, PASIDs rising). -/
structure Iommu where
  ctxs : List CtxEntry
  pasids : List PasidEntry
  cc : List CtxEntry
  pasidState : List (Nat × Nat)
  deriving DecidableEq, Repr

/-! ## Translation caches -/

/-- Walk modes (30 R180). -/
inductive Mode where
  | ggtt | ppgtt32 | ppgtt48 | adv
  deriving DecidableEq, Repr

/-- What distinguishes address spaces (92 D15): source, mode, and PASID or table root (0 for the global GTT). -/
structure Tag where
  src : Source
  mode : Mode
  root : Nat
  deriving DecidableEq, Repr

/-- Page-fault reasons (60 R460). -/
inductive FaultReason where
  | notPresent | writeProtect | privilege | execute
  deriving DecidableEq, Repr

/-- Attributes of a translation (20 R105, R106; 44 R317). `us` is the U/S result of a walk; a translation answered by a TLB
entry has none, because the entry does not hold it (46 R387). -/
structure Attrs where
  pat : Bool
  pcd : Bool
  pwt : Bool
  rw : Bool
  us : Option Bool
  xd : Bool
  dirty : Bool
  coh : Bool
  deriving DecidableEq, Repr

/-- The attributes a TLB entry holds (46 R383): no U/S result (46 R387, 90 C23) and no A bit (46 R398). -/
structure CachedAttrs where
  pat : Bool
  pcd : Bool
  pwt : Bool
  rw : Bool
  xd : Bool
  dirty : Bool
  coh : Bool
  deriving DecidableEq, Repr

/-- The nine final TLBs (10 R61, 46 R382). -/
inductive TlbGroup where
  | l3 | mfx | blt | z | c | ff | vlf | gav | widi
  deriving DecidableEq, Repr

/-- A TLB entry (46 R383) of one of the final TLBs. `bits` is the page size as a power of two, `page` the address bits above
it; `frame` is the page frame the tables gave, and `nested` whether it goes through SecondLevel, as the walk that made the
entry found (log 36). `reason` is the Faulted bit with its reason. -/
structure TlbEntry where
  tag : Tag
  group : TlbGroup
  bits : Nat
  page : Nat
  frame : Nat
  nested : Bool
  attrs : CachedAttrs
  null : Bool
  reason : Option FaultReason
  deriving DecidableEq, Repr

/-- A cached non-leaf entry of a level, by the physical address it was read from (46 R390). -/
structure PwcEntry where
  tag : Tag
  level : Nat
  addr : Nat
  entry : Word64
  deriving DecidableEq, Repr

/-- A GTT-cache line: the eight entries of the aligned 64 bytes at `base` (46 R394). -/
structure GttLine where
  tag : Tag
  base : Nat
  entries : List Word64
  deriving DecidableEq, Repr

/-- The outcome of the TR-TT stage (40 R223). -/
inductive TrResult where
  | null | invalid | tile (l1 : Word32)
  deriving DecidableEq, Repr

/-- A cached TR-TT result for the 64 KB tile `va[47:16]` (46 R397). -/
structure TrEntry where
  tag : Tag
  tile : Nat
  result : TrResult
  deriving DecidableEq, Repr

structure Caches where
  tlb : List TlbEntry
  pwc : List PwcEntry
  gtt : List GttLine
  tr : List TrEntry
  deriving DecidableEq, Repr

/-- A PML4 table, by its physical address, from which a walk of an address space has fetched an entry (42 R284). -/
structure PmlTable where
  tag : Tag
  base : Nat
  deriving DecidableEq, Repr

/-- What the walks of the last operation that translated may leave in the caches (46 R385, R390, R394, R397; log 14): those of
its TR-TT table reads and its final walks, newest first; and the PML4 tables they fetched from. -/
structure WalkRecord where
  tlb : List TlbEntry
  pwc : List PwcEntry
  gtt : List GttLine
  tr : List TrEntry
  pml4 : List PmlTable
  deriving DecidableEq, Repr

/-- What an entry contributes to the walk that reads it (30 R187). -/
inductive EntryOut where
  /-- Nothing read yet. -/
  | start
  /-- Base of the next table, before SecondLevel. -/
  | table (base : Nat)
  /-- A page of `2^bits` bytes. -/
  | leaf (bits frame : Nat) (null : Bool)
  /-- Graphics virtual address of the next TR-TT table. -/
  | trTable (base : Word64)
  | trNull
  | trInvalid
  /-- Bits 47:16 of a tile address. -/
  | trTile (l1 : Word32)
  deriving DecidableEq, Repr

/-- The accumulators of a walk (44 R317): AND of R/W and U/S, OR of XD, the 64 KB selector of the page table below, the
attributes of the last entry, and what it points to. -/
structure Stage where
  rw : Bool
  us : Bool
  xd : Bool
  big : Bool
  pat : Bool
  pcd : Bool
  pwt : Bool
  dirty : Bool
  out : EntryOut
  deriving DecidableEq, Repr

/-- A fresh walk: `rw := 1 ; us := 1 ; xd := 0` (44 R317). -/
def Stage.fresh : Stage := ⟨true, true, false, false, false, false, false, false, .start⟩

/-- The walker's own working state (logs 12 and 14). -/
structure Walker where
  stage : Stage
  walked : Option WalkRecord
  deriving DecidableEq, Repr

/-! ## Requests under way, reports, inputs -/

/-- A suspended TR-TT walk: the level and the graphics virtual address of the table whose read faulted (40 R230). -/
structure TrPoint where
  level : Nat
  base : Word64
  deriving DecidableEq, Repr

/-- An element of PENDING (60 R480): the request, the PASID of its context (45 R351), the faulting address, where a TR-TT
walk waits, and, a field of the model, whether its context is still the one that its engine runs (60 R482; log 11). -/
structure PendingReq where
  req : Request
  pasid : BitVec 20
  va : Word64
  tr : Option TrPoint
  live : Bool
  deriving DecidableEq, Repr

/-- An access kind, as a page request reports it (60 R469, 00 R14). -/
inductive AccKind where
  | read | write | atomic
  deriving DecidableEq, Repr

/-- An element of PAGE_REQUESTS (60 R469, R481). -/
structure PageReq where
  pasid : BitVec 20
  ctxid : Word32
  va : Word64
  reason : FaultReason
  kind : AccKind
  deriving DecidableEq, Repr

/-- A request that waits for HS = Running, or for the end of a hang or of a stopped context (45 R356, 60 R478, 47 R453); `pasid` names the context it must wait for, if
it once belonged to one (log 11). -/
structure HeldReq where
  req : Request
  pasid : Option (BitVec 20)
  deriving DecidableEq, Repr

/-- A translated request whose data access GTI has not performed (20 R115). -/
structure InFlight where
  req : Request
  ctxid : Word32
  pa : Nat
  attrs : Attrs
  deriving DecidableEq, Repr

structure Reqs where
  held : List HeldReq
  pending : List PendingReq
  pageRequests : List PageReq
  inflight : List InFlight
  invWaits : Nat
  awaitingReset : Bool
  deferAcks : Bool
  deriving DecidableEq, Repr

/-- The two causes of a catastrophic error (60 R466). -/
inductive CatReason where
  | nonWBPagingEntry | nonWBAtomic
  deriving DecidableEq, Repr

/-- What the machine tells the outside (60 R471; log 30). -/
inductive Output where
  /-- A client request completes; `null` is the null indicator (20 R107). -/
  | response (r : Request) (data : List Byte) (null : Bool)
  /-- GAM writes a message register of a command streamer (30 R184). -/
  | gamWrite (off : Nat) (v : Word32)
  | pageRequest (p : PageReq)
  /-- IRQ_INVALID_TILE. -/
  | invalidTile (va : Word64)
  /-- ERR_CATASTROPHIC. -/
  | catastrophic (src : Source) (ctxid : Word32) (reason : CatReason)
  /-- ERR_DESCRIPTOR. -/
  | descriptorError (e : Engine)
  /-- The response to an Invalidation Wait Descriptor. -/
  | invWaitDone
  /-- Data of a CPU read. -/
  | cpuData (v : Nat)
  /-- The value a page-update atomic returns (47 R450). -/
  | newDst (v : Word64)
  deriving DecidableEq, Repr

/-- The registers D0 describes without an offset, addressed by name (92 D24). -/
inductive RegName where
  | trttL3Lo | trttL3Hi | trttNull | trttInvalid | trvadr | trtte | adNonwb | ips | gttCache | nullTileCount
  deriving DecidableEq, Repr

/-- The five descriptor registers of an engine (10 R40). -/
inductive DescName where
  | elem | pdp0 | pdp1 | pdp2 | pdp3
  deriving DecidableEq, Repr

/-- The translation caches and the Context Cache, for replacement (46 R396). -/
inductive CacheName where
  | tlb | pwc | gtt | tr | cc
  deriving DecidableEq, Repr

/-- External events and choices of GAM and GTI, in the order in which they happen (log 1). -/
inductive Input where
  /-- An operation of the opcode table. -/
  | op (frame : List Byte)
  /-- A CPU or peer-device access (20 R92); `use` says which cached copies its translation uses if it is one in GMADR
  (46 R380). -/
  | cpuRead (addr n : Nat) (use : CacheUse := ⟨false, false, false, false⟩)
  | cpuWrite (addr : Nat) (data : List Byte) (use : CacheUse := ⟨false, false, false, false⟩)
  /-- A CPU access to a register without an offset. -/
  | regRead (r : RegName)
  | regWrite (r : RegName) (v : Word32)
  /-- A command streamer writes the low or high DWord of a descriptor register (45 R354). -/
  | csWrite (e : Engine) (d : DescName) (high : Bool) (v : Word32)
  /-- A command streamer writes the CS-to-GAM message register at an offset (10 R48, 30 R185). -/
  | csMessage (off : Nat) (v : Word32)
  /-- GTI performs the k-th data access in flight. -/
  | perform (k : Nat)
  /-- GAM takes up the k-th held request. -/
  | grant (k : Nat) (use : CacheUse)
  /-- The k-th entry of a cache is replaced (46 R396). -/
  | evict (c : CacheName) (k : Nat)
  /-- The PASID Cache entry of an engine is given up (46 R412: the new PASID entry is a possible outcome). -/
  | evictPc (e : Engine)
  /-- The hardware, which caches the entire PML4 on the first demand (42 R284, 46 R390), caches entry `idx` of the k-th PML4
  table from which an entry has been fetched. -/
  | prefetchPml4 (k idx : Nat)
  /-- Software changes a context entry or a PASID entry of the IOMMU's tables. -/
  | iommuCtx (c : CtxEntry)
  | iommuPasid (p : PasidEntry)
  /-- Software discards a page request without answering it (70 R513). -/
  | discardPageRequest (k : Nat)
  /-- GAM begins or ceases to delay its acknowledgements (log 10). -/
  | deferAcks (b : Bool)
  deriving DecidableEq, Repr

/-! ## The whole state -/

/-- Bytes by host physical address, addresses rising, no entry equal to what an unlisted byte reads as. -/
abbrev Memory := List Host.Cell

/-- The state of the machine. -/
structure State where
  plat : Platform
  regs : Regs
  banks : Banks
  wdboxHung : Bool
  vebox2Hung : Bool
  iommu : Iommu
  caches : Caches
  walker : Walker
  reqs : Reqs
  mem : Memory
  free : Nat
  inputs : List Input
  outputs : List Output
  deriving DecidableEq, Repr

/-! ## Why a step stops -/

/-- Faults of the machine. -/
inductive Fault where
  /-- Raised by every memory operation whose host physical address lies outside the `2^HAW` bytes that exist (20 R93).
  Safe: the spec gives such an access no effect. -/
  | physOutside (pa : Nat)
  deriving DecidableEq, Repr

/-- The cases to which the spec gives no transition (`refuse`, 93 Part 1), and the two of the model itself. All are safe:
nothing is claimed of the hardware after one. -/
inductive Refusal where
  /-- Raised by `exec` for an operation without a meaning. -/
  | notModelled (mnemonic : String)
  /-- Raised by `step` when an operation frame does not decode. -/
  | undecodable
  /-- Raised by an entry row on a word without the row's fixed bits. -/
  | entryPattern
  /-- 10 R46, 93 U1, 41 R252: a walk needs a descriptor register that no command streamer has written since the last device or bus
  reset; the spec's `refuse`, safe. -/
  | descriptorUnwritten
  /-- 93 U2: TR-TT is active with a TRVADR.MASK other than 0000b and 1111b. -/
  | trvaMask
  /-- 93 U3: TR-TT enabled with tables in guest-physical space. -/
  | trttPhysical
  /-- 93 U7: TR-TT enabled in a PPGTT32 or GGTT context. -/
  | trttWrongMode
  /-- 93 U8: a TR-TT table lies inside the TR-VA range. -/
  | trttTableInTrva
  /-- 93 U8: a tile address lies inside the TR-VA range. -/
  | trttTileInTrva
  /-- 93 U5: a CPU access that is too wide or not naturally aligned. -/
  | accessIllegal
  /-- 93 U9: Element Descriptor bit 1 is 0. -/
  | elemOneClear
  /-- 93 U11, U12: the Fault Model field is not legal for the context type, or decodes to reserved. -/
  | faultModelIllegal
  /-- 93 U13: a Reserved bit of a present IA32e entry is 1. -/
  | reservedBits
  /-- 93 U14: a virtual address outside the mode's range. -/
  | vaOutOfRange
  /-- 93 U15: a global address beyond the entries GSM_SIZE provides. -/
  | beyondGsm
  /-- 93 U16: a not-present GGTT entry met by an aperture or display access. -/
  | notPresentNoContext
  /-- 93 U17: GMS above 128. -/
  | gmsTooLarge
  /-- 93 U19: a hand-shake message out of sequence. -/
  | messageOutOfSequence
  /-- 93 U20: message bits 15:2 or their mask bits set. -/
  | messageReservedBits
  /-- 95 V11 row 11.6: both message bits in one write. -/
  | messageBoth
  /-- A descriptor register is written outside the hand-shake's window (70 R546). Refusing is the model's choice (log 46), safe. -/
  | descriptorWriteOutOfPhase
  /-- 93 U36, 70 R534: a context is launched with the context ID of one that another engine runs; the spec's `refuse`, safe. -/
  | contextIdReused
  /-- 93 U21: PasidLookup has no good entry. -/
  | pasidLookupFailed
  /-- 93 U22: SecondLevel is undefined at a page. -/
  | secondLevelUndefined
  /-- 93 U23, 70 R540, R541: the GTT cache is on with a large page or an advanced context. -/
  | gttCacheObligation
  /-- 20 R88: a GTTMMADR offset that belongs to other volumes, or to the reserved hole. -/
  | mmioOutsideSpec
  /-- 20 R90, R92: a CPU access straight at stolen memory. -/
  | stolenNotVisible
  /-- 10 R28: a write to NULL_TILE_COUNT, of which the spec does not say whether it exists. -/
  | counterWrite
  /-- 92 D26: a request that crosses a 4 KB boundary or is empty. -/
  | requestCrossesPage
  /-- An XLATE row whose Element Descriptor is not the one the source holds (log 13). -/
  | descriptorMismatch
  /-- A walk ended without a leaf; no walk does (the last level of every mode is a leaf). -/
  | noLeaf
  deriving DecidableEq, Repr

/-! ## Reset -/

/-- The parameters at reset: HAW 39 (92 D12), FUNCTION 0, HANG_SKIP and XD_ENFORCE false, SecondLevel the identity (92 D4).
DESIGN CHOICE, unsafe: the open ones by log 7, MemType write-back everywhere among them, which 00 R6 calls the simplest instance
only; and the three choices between rules by logs 22 and 41. -/
def Platform.initial : Platform where
  haw := 39
  gmadrBase := 0x4000000000
  gmadrSize := 0x10000000
  gttmmadrBase := 0x6000000000
  gsmBase := 0x7C000000
  gsmSize := 0x800000
  dsmBase := 0x7C800000
  wopcmBase := 0x7E700000
  gms := 1
  function := 0
  hangSkip := false
  xdEnforce := false
  fm1 := .stream
  fm2 := .halt
  fm3 := .reserved
  secondLevel := []
  memTypes := []
  keepRequests := false
  keepPasidCache := false
  stopOnCatastrophic := false

/-- Default values of 10 R70; DESIGN CHOICE (log 6) where the spec prints none. -/
def Regs.initial : Regs where
  trttL3ptr := 0
  trttNull := 0
  trttInvalid := 0
  trvadr := 0
  trtte := 0
  bypassDis := false
  colorZ := false
  adNonwbIgnore := false
  ipsEnable := false
  gttCacheEnable := false
  nullTileCount := 0

/-- DESIGN CHOICE (log 6): "Xh" is held as 0, marked unwritten. -/
def DescReg.initial : DescReg := ⟨0, false, false⟩

/-- An engine after reset (10 R70): Idle, not hung, no context. -/
def Bank.initial : Bank where
  elem := .initial
  pdp0 := .initial
  pdp1 := .initial
  pdp2 := .initial
  pdp3 := .initial
  hs := .idle
  hung := false
  stopped := false
  pc := ⟨false, 0, false, false⟩
  resident := none

/-- The machine right after reset (10 R70, 70 R516). -/
def State.reset : State where
  plat := .initial
  regs := .initial
  banks := ⟨.initial, .initial, .initial, .initial, .initial⟩
  wdboxHung := false
  vebox2Hung := false
  iommu := ⟨[], [], [], []⟩
  caches := ⟨[], [], [], []⟩
  walker := ⟨.fresh, none⟩
  reqs := ⟨[], [], [], [], 0, false, false⟩
  mem := []
  free := 0
  inputs := []
  outputs := []

end Sys2Proof.Machine
end

