-- ==== Sys2Proof/Machine/Memory.lean ====
section
/-! DEFINITION. Sparse maps in one canonical form, and bytes of memory over them (20 R80, R96). -/

namespace Sys2Proof.Machine

/-- What a sparse map holds at a key; `d` where nothing is listed. -/
def sparseGet {α : Type} (d : α) : List (Nat × α) → Nat → α
  | [], _ => d
  | (k, v) :: m, a => if a = k then v else sparseGet d m a

/-- A sparse map with one key changed; storing `d` removes the entry. -/
def sparseSet {α : Type} [DecidableEq α] (d : α) : List (Nat × α) → Nat → α → List (Nat × α)
  | [], a, x => if x = d then [] else [(a, x)]
  | (k, v) :: m, a, x =>
    if a < k then (if x = d then (k, v) :: m else (a, x) :: (k, v) :: m)
    else if a = k then (if x = d then m else (a, x) :: m)
    else (k, v) :: sparseSet d m a x

/-- Keys strictly rising from `lo`, no value equal to `d`. -/
def sparseWfFrom {α : Type} [DecidableEq α] (d : α) : Nat → List (Nat × α) → Bool
  | _, [] => true
  | lo, (k, v) :: m => decide (lo ≤ k) && decide (v ≠ d) && sparseWfFrom d (k + 1) m

/-- The canonical form of a sparse map. -/
def sparseWf {α : Type} [DecidableEq α] (d : α) (m : List (Nat × α)) : Bool := sparseWfFrom d 0 m

/-- The canonical form of memory: addresses strictly rising, no entry equal to what an unlisted byte reads as. -/
def Memory.wf (m : Memory) : Bool := sparseWf Config.unlistedByte m

/-- One byte of memory. -/
def Memory.byte (m : Memory) (a : Nat) : Byte := sparseGet Config.unlistedByte m a

/-- Memory with one byte changed. -/
def Memory.setByte (m : Memory) (a : Nat) (b : Byte) : Memory := sparseSet Config.unlistedByte m a b

/-- `n` bytes from address `a` upward. -/
def Memory.bytes (m : Memory) : Nat → Nat → List Byte
  | _, 0 => []
  | a, n + 1 => m.byte a :: m.bytes (a + 1) n

/-- Memory with the bytes from address `a` upward changed. -/
def Memory.setBytes (m : Memory) : Nat → List Byte → Memory
  | _, [] => m
  | a, b :: bs => (m.setByte a b).setBytes (a + 1) bs

end Sys2Proof.Machine
end

