-- ==== Sys2Proof/Machine/Ops.lean ====
section
/-! DEFINITION. The named operations over memory, registers, reports and requests, and the taking of a page fault. -/

namespace Sys2Proof

/-- Write or atomic: what needs write permission (92 D34). -/
def Access.isWrite : Access → Bool
  | .read _ => false | .fetch _ => false | .write _ => true | .atomic _ _ => true

/-- An instruction fetch: a read with ER = 1 (44 R330, 20 R119). -/
def Access.isFetch : Access → Bool
  | .read _ => false | .fetch _ => true | .write _ => false | .atomic _ _ => false

/-- The kind of a request (00 R14): an instruction fetch is a read, with ER = 1 (20 R119). -/
def Access.kind : Access → Machine.AccKind
  | .read _ => .read | .fetch _ => .read | .write _ => .write | .atomic _ _ => .atomic

/-- How many bytes of data a completion returns: a write returns none. -/
def Access.replySize : Access → Nat
  | .read n => n | .fetch n => n | .write _ => 0 | .atomic _ d => d.length

/-- A plain read. -/
def Access.isRead : Access → Bool
  | .read _ => true | .fetch _ => false | .write _ => false | .atomic _ _ => false

/-- ER (44 R330): an instruction fetch, or a read of the instruction cache. -/
def Request.er (r : Request) : Bool := r.acc.isFetch || (r.client == .icache && r.acc.isRead)

/-- The final TLB that serves a client (46 R382). -/
def Client.tlbGroup : Client → Machine.TlbGroup
  | .hdc => .l3 | .icache => .l3 | .constant => .l3 | .state => .l3 | .sampler => .l3
  | .depth => .z | .color => .c | .ff => .ff | .mfx => .mfx | .blt => .blt | .vlf => .vlf | .gav => .gav | .widi => .widi

end Sys2Proof

namespace Sys2Proof.Machine

/-- Why an operation did not answer a state. -/
inductive Stop where
  | fault (f : Fault)
  | refused (r : Refusal)
  deriving DecidableEq, Repr

/-- The result of an operation that can stop. -/
abbrev Res (α : Type) := Except Stop α

def refuse {α : Type} (r : Refusal) : Res α := .error (.refused r)

/-- `refuse` unless a condition holds. -/
def require (b : Bool) (r : Refusal) : Res Unit := if b then .ok () else refuse r

/-- The outcome a step reports. -/
def toOutcome : Res State → Host.Outcome State Fault Refusal
  | .ok s => .next s
  | .error (.fault f) => .fault f
  | .error (.refused r) => .refused r

/-! ## Updates of one part of the state -/

def State.setRegs (s : State) (x : Regs) : State := { s with regs := x }
def State.setBanks (s : State) (x : Banks) : State := { s with banks := x }
def State.setIommu (s : State) (x : Iommu) : State := { s with iommu := x }
def State.setCaches (s : State) (x : Caches) : State := { s with caches := x }
def State.setWalker (s : State) (x : Walker) : State := { s with walker := x }
def State.setReqs (s : State) (x : Reqs) : State := { s with reqs := x }
def State.setMem (s : State) (x : Memory) : State := { s with mem := x }
def State.setFree (s : State) (n : Nat) : State := { s with free := n }
def State.setInputs (s : State) (x : List Input) : State := { s with inputs := x }
def State.setWdboxHung (s : State) (b : Bool) : State := { s with wdboxHung := b }
def State.setVebox2Hung (s : State) (b : Bool) : State := { s with vebox2Hung := b }

/-- Append a report to the host-visible trace, newest first (60 R472). -/
def State.emit (s : State) (o : Output) : State := { s with outputs := o :: s.outputs }

/-! ## Memory -/

/-- The address space: `2^HAW` bytes (20 R93). -/
def inSpace (p : Platform) (pa n : Nat) : Bool := decide (pa + n ≤ 2 ^ p.haw)

/-- Do `n` bytes at `a` touch the range of `len` bytes at `base`? -/
def touches (base len a n : Nat) : Bool := decide (a < base + len) && decide (base < a + n)

/-- `MemRead` as bytes (00 R13). -/
def memRead (s : State) (pa n : Nat) : Res (List Byte) :=
  if inSpace s.plat pa n then .ok (s.mem.bytes pa n) else .error (.fault (.physOutside pa))

/-- `MemWrite` (00 R13). -/
def memWrite (s : State) (pa : Nat) (data : List Byte) : Res State :=
  if inSpace s.plat pa data.length then .ok (s.setMem (s.mem.setBytes pa data))
  else .error (.fault (.physOutside pa))

/-- One aligned 64-bit entry read (20 R102). -/
def memRead64 (s : State) (pa : Nat) : Res Word64 := do
  let bs ← memRead s pa 8
  .ok (BitVec.ofNat 64 (leNat bs))

/-- One aligned 64-bit entry write. -/
def memWrite64 (s : State) (pa : Nat) (v : Word64) : Res State := memWrite s pa (leBytes 8 v.toNat)

/-- The entry of an association list by page number. -/
def pageLookup {α : Type} : List (Nat × α) → Nat → Option α
  | [], _ => none
  | (k, v) :: m, a => if a = k then some v else pageLookup m a

/-- `SecondLevel`, per 4 KB page, the offset carried over (20 R93, 41 R251); the identity without nesting (44 R329). -/
def secondLevel (p : Platform) (nested : Bool) (gpa : Nat) : Res Nat :=
  if nested then
    match pageLookup p.secondLevel (pageOf gpa) with
    | none => .ok gpa
    | some none => refuse .secondLevelUndefined
    | some (some q) => .ok (q * 4096 + gpa % 4096)
  else .ok gpa

/-- `MemType` (20 R105): write-back unless the platform says otherwise. -/
def memType (p : Platform) (pa : Nat) : MemType := (pageLookup p.memTypes (pageOf pa)).getD .wb

/-! ## Banks -/

def Banks.get (b : Banks) : Engine → Bank
  | .rcs => b.rcs | .bcs => b.bcs | .vecs => b.vecs | .vcs0 => b.vcs0 | .vcs1 => b.vcs1

def Banks.set (b : Banks) : Engine → Bank → Banks
  | .rcs, x => { b with rcs := x }
  | .bcs, x => { b with bcs := x }
  | .vecs, x => { b with vecs := x }
  | .vcs0, x => { b with vcs0 := x }
  | .vcs1, x => { b with vcs1 := x }

/-- The bank of an engine (10 R21). -/
def State.bank (s : State) (e : Engine) : Bank := s.banks.get e
def State.setBank (s : State) (e : Engine) (x : Bank) : State := s.setBanks (s.banks.set e x)

def Bank.desc (b : Bank) : DescName → DescReg
  | .elem => b.elem | .pdp0 => b.pdp0 | .pdp1 => b.pdp1 | .pdp2 => b.pdp2 | .pdp3 => b.pdp3

def Bank.setDesc (b : Bank) : DescName → DescReg → Bank
  | .elem, x => { b with elem := x }
  | .pdp0, x => { b with pdp0 := x }
  | .pdp1, x => { b with pdp1 := x }
  | .pdp2, x => { b with pdp2 := x }
  | .pdp3, x => { b with pdp3 := x }

/-- Has a command streamer written a descriptor register since the last device or bus reset? DESIGN CHOICE (log 38), unsafe:
the spec does not speak of half writes, and one DWord is enough; the other holds its value from the reset. -/
def DescReg.isWritten (d : DescReg) : Bool := d.loWritten || d.hiWritten

/-- The value of a descriptor register a walk needs. One that no command streamer has written since the last device or bus reset
is refused (10 R46, 93 U1, 41 R252); what an engine reset has left in one that was written is a free value, and is read (70
R511). -/
def DescReg.get (d : DescReg) : Res Word64 := if d.isWritten then .ok d.value else refuse .descriptorUnwritten

/-- Does an engine run a context: launched, and not yet followed by Context Available (45 R355, R362)? -/
def Bank.active (b : Bank) : Bool := b.hs == .launchedReceived || b.hs == .running

/-- The context ID of a source: `ELEM[63:32]` (60 R469). DESIGN CHOICE (log 39), unsafe: the register is read here even while
no command streamer has written it, when it holds its value from reset. DESIGN CHOICE (log 45), unsafe: the spec gives the
default context no context ID, and the model takes 0. -/
def ctxIdOf (s : State) : Source → Word32
  | .engine e => BitVec.ofNat 32 (field (s.bank e).elem.value 32 32)
  | .wdbox => 0
  | .vebox2 => 0
  | .display => 0
  | .aperture => 0

/-! ## Free values -/

/-- A free quad word. -/
def drawWord (s : State) : Word64 × State := (Config.freeWord s.free, s.setFree (s.free + 1))
/-- A free bit. -/
def drawBool (s : State) : Bool × State := (Config.freeBool s.free, s.setFree (s.free + 1))
/-- A free natural number. -/
def drawNat (s : State) : Nat × State := (Config.freeNat s.free, s.setFree (s.free + 1))
/-- `n` free bytes, from a counter value. -/
def freeBytes (c : Nat) : Nat → List Byte
  | 0 => []
  | n + 1 => Config.freeByte c :: freeBytes (c + 1) n
/-- `n` free bytes. -/
def drawBytes (s : State) (n : Nat) : List Byte × State := (freeBytes s.free n, s.setFree (s.free + n))

/-! ## Requests -/

/-- Completion of a request towards its client. -/
def State.respond (s : State) (r : Request) (data : List Byte) (null : Bool) : State := s.emit (.response r data null)

/-- Null completion (20 R107, 92 D31): zeros with the null indicator; nothing is stored. DESIGN CHOICE (log 47), unsafe: the
spec gives the indicator for reads only, and the model's completion of a dropped write or of an atomic carries it too. -/
def nullCompletion (s : State) (r : Request) : State := s.respond r (List.replicate r.acc.replySize 0) true

/-- An invalid or errored cycle (60 R466, R478, R487; 93 U28): returned data is any value, a write is dropped. -/
def invalidCycle (s : State) (r : Request) : State :=
  (drawBytes s r.acc.replySize).2.respond r (drawBytes s r.acc.replySize).1 false

/-- HUNG of a source (10 R66); display and aperture have no context that could hang (60 R485). -/
def isHung (s : State) : Source → Bool
  | .engine e => (s.bank e).hung
  | .wdbox => s.wdboxHung
  | .vebox2 => s.vebox2Hung
  | .display => false
  | .aperture => false

/-- The context of an engine makes no further progress after Catastrophic(NonWBPagingEntry) (47 R453). DESIGN CHOICE (log 22),
unsafe: 60 R466 lets later requests of the engine proceed, and the parameter says which of the two holds. -/
def stopContext (s : State) : Source → State
  | .engine e =>
    if s.plat.stopOnCatastrophic && (s.bank e).active then s.setBank e { s.bank e with stopped := true } else s
  | .wdbox => s
  | .vebox2 => s
  | .display => s
  | .aperture => s

/-- The end of a request whose walk a catastrophic error has abandoned (47 R453, 60 R466): an errored cycle, after which its
context may be stopped. -/
def erroredCycle (s : State) (r : Request) : State := stopContext (invalidCycle s r) r.src

/-- Set HUNG of a source. -/
def setHung (s : State) (b : Bool) : Source → State
  | .engine e => s.setBank e { s.bank e with hung := b }
  | .wdbox => s.setWdboxHung b
  | .vebox2 => s.setVebox2Hung b
  | .display => s
  | .aperture => s

def State.addHeld (s : State) (h : HeldReq) : State := s.setReqs { s.reqs with held := s.reqs.held ++ [h] }
def State.addPending (s : State) (p : PendingReq) : State := s.setReqs { s.reqs with pending := s.reqs.pending ++ [p] }
def State.addInFlight (s : State) (f : InFlight) : State := s.setReqs { s.reqs with inflight := s.reqs.inflight ++ [f] }

/-- A page request is added to PAGE_REQUESTS and reported (60 R481, R471). -/
def State.addPageRequest (s : State) (p : PageReq) : State :=
  (s.setReqs { s.reqs with pageRequests := s.reqs.pageRequests ++ [p] }).emit (.pageRequest p)

/-- Some request of a source is still in flight in GTI (45 R353). -/
def busy (s : State) (src : Source) : Bool := s.reqs.inflight.any (fun f => f.req.src == src)

/-! ## Contexts and the taking of a page fault -/

/-- The context a translation runs in: its tag, fault model, PASID, context ID, the Element Descriptor's advanced bits,
the PASID- and context-entry controls (44 R316), and the guest-physical base of its top table. -/
structure Ctx where
  tag : Tag
  fm : FaultModel
  pasid : BitVec 20
  ctxid : Word32
  ad : Bool
  sup : Bool
  coh : Bool
  eafe : Bool
  fl64k : Bool
  nxe : Bool
  nested : Bool
  wpe : Bool
  root : Nat
  deriving DecidableEq, Repr

/-- `wp`: does R/W = 0 block this context's writes? (44 R317; `true` for legacy contexts, 46 R384). -/
def Ctx.wp (c : Ctx) : Bool := !c.sup || c.wpe

/-- The access kind a page request reports: the request's, or a read for a TR-TT table read (40 R229). -/
def faultKind (r : Request) (tr : Option TrPoint) : AccKind := if tr.isSome then .read else r.acc.kind

/-- TAKING A PAGE FAULT (60 R477 to R482): `r` is the request, `va` the address the tables were walked for, `tr` where a
TR-TT walk waits. Fault and Hang: the request never completes and the source hangs, or with HANG_SKIP it completes as an
invalid cycle; nothing is reported (R478). Without a context it is refused (R485). Fault and Halt, Fault and Stream: the
request waits in PENDING and a page request is sent (R479, R482). -/
def takePageFault (s : State) (c : Ctx) (r : Request) (va : Word64) (reason : FaultReason) (tr : Option TrPoint) :
    Res State :=
  match c.fm with
  | .hang =>
    match r.src with
    | .display => refuse .notPresentNoContext
    | .aperture => refuse .notPresentNoContext
    | .wdbox => .ok (if s.plat.hangSkip then invalidCycle s r else setHung s true r.src)
    | .vebox2 => .ok (if s.plat.hangSkip then invalidCycle s r else setHung s true r.src)
    | .engine _ => .ok (if s.plat.hangSkip then invalidCycle s r else setHung s true r.src)
  | .stream => .ok ((s.addPending ⟨r, c.pasid, va, tr, true⟩).addPageRequest ⟨c.pasid, c.ctxid, va, reason, faultKind r tr⟩)
  | .halt => .ok ((s.addPending ⟨r, c.pasid, va, tr, true⟩).addPageRequest ⟨c.pasid, c.ctxid, va, reason, faultKind r tr⟩)
  | .reserved => refuse .faultModelIllegal

/-- Does a fault in this context send a page request (60 R477)? -/
def Ctx.sendsRequest (c : Ctx) : Bool := c.fm == .stream || c.fm == .halt

/-- FILTERED_FAULT (60 R486): the request waits for the page response already asked for; no new page request. -/
def filteredFault (s : State) (c : Ctx) (r : Request) (va : Word64) (tr : Option TrPoint) : State :=
  s.addPending ⟨r, c.pasid, va, tr, true⟩

/-- A catastrophic error is reported (60 R466). -/
def reportCatastrophic (s : State) (src : Source) (ctxid : Word32) (reason : CatReason) : State :=
  s.emit (.catastrophic src ctxid reason)

end Sys2Proof.Machine
end

