-- ==== Sys2Proof/Machine/Apu.lean ====
section
/-! DEFINITION. The page-update atomics (47 R430 to R452). -/

namespace Sys2Proof.Machine

/-- `check_memtype` (47 R452): may the atomic proceed at this address? -/
def apuAllowed (s : State) (pa : Nat) : Bool := memType s.plat pa == .wb || s.regs.adNonwbIgnore

/-- `APU(op, pa)` (47 R431): the indivisible read-modify-write of a paging entry, with the value written; `none` after a
Catastrophic(NonWBPagingEntry), which updates nothing. DESIGN CHOICE (log 49), unsafe: with the memory type ignored, the spec
gives no atomicity on memory that is not write-back (47 R456, 93 U27), and the model is as indivisible there. -/
def apu (op : ApuOp) (src : Source) (ctxid : Word32) (pa : Nat) (s : State) : Res (State × Option Word64) :=
  if apuAllowed s pa then do
    let old ← memRead64 s pa
    let s ← memWrite64 s pa (op.apply old)
    .ok (s, some (op.apply old))
  else .ok (reportCatastrophic s src ctxid .nonWBPagingEntry, none)

/-- One page-update atomic on its own: the returned `new_dst` goes to the trace (47 R450). A catastrophic error names the
engine and the context ID its Element Descriptor holds, written or not (DESIGN CHOICE, log 39), and may stop its context (47
R453; log 22). -/
def rowApu (op : ApuOp) (e : Engine) (pa : Word64) (s : State) : Res State := do
  let (s, v) ← apu op (.engine e) (ctxIdOf s (.engine e)) pa.toNat s
  match v with
  | some v => .ok (s.emit (.newDst v))
  | none => .ok (stopContext s (.engine e))

/-- APU.0000 (47 R434). -/
def execApu0000 (e : Engine) (pa : Word64) (s : State) : Host.Outcome State Fault Refusal :=
  toOutcome (rowApu ⟨false, false, false, false⟩ e pa s)
/-- APU.0001 (47 R435). -/
def execApu0001 (e : Engine) (pa : Word64) (s : State) : Host.Outcome State Fault Refusal :=
  toOutcome (rowApu ⟨false, false, false, true⟩ e pa s)
/-- APU.0010 (47 R436). -/
def execApu0010 (e : Engine) (pa : Word64) (s : State) : Host.Outcome State Fault Refusal :=
  toOutcome (rowApu ⟨false, false, true, false⟩ e pa s)
/-- APU.0011 (47 R437). -/
def execApu0011 (e : Engine) (pa : Word64) (s : State) : Host.Outcome State Fault Refusal :=
  toOutcome (rowApu ⟨false, false, true, true⟩ e pa s)
/-- APU.0100 (47 R438). -/
def execApu0100 (e : Engine) (pa : Word64) (s : State) : Host.Outcome State Fault Refusal :=
  toOutcome (rowApu ⟨false, true, false, false⟩ e pa s)
/-- APU.0101 (47 R439). -/
def execApu0101 (e : Engine) (pa : Word64) (s : State) : Host.Outcome State Fault Refusal :=
  toOutcome (rowApu ⟨false, true, false, true⟩ e pa s)
/-- APU.0110 (47 R440). -/
def execApu0110 (e : Engine) (pa : Word64) (s : State) : Host.Outcome State Fault Refusal :=
  toOutcome (rowApu ⟨false, true, true, false⟩ e pa s)
/-- APU.0111 (47 R441). -/
def execApu0111 (e : Engine) (pa : Word64) (s : State) : Host.Outcome State Fault Refusal :=
  toOutcome (rowApu ⟨false, true, true, true⟩ e pa s)
/-- APU.1000 (47 R442). -/
def execApu1000 (e : Engine) (pa : Word64) (s : State) : Host.Outcome State Fault Refusal :=
  toOutcome (rowApu ⟨true, false, false, false⟩ e pa s)
/-- APU.1001 (47 R443). -/
def execApu1001 (e : Engine) (pa : Word64) (s : State) : Host.Outcome State Fault Refusal :=
  toOutcome (rowApu ⟨true, false, false, true⟩ e pa s)
/-- APU.1010 (47 R444). -/
def execApu1010 (e : Engine) (pa : Word64) (s : State) : Host.Outcome State Fault Refusal :=
  toOutcome (rowApu ⟨true, false, true, false⟩ e pa s)
/-- APU.1011 (47 R445). -/
def execApu1011 (e : Engine) (pa : Word64) (s : State) : Host.Outcome State Fault Refusal :=
  toOutcome (rowApu ⟨true, false, true, true⟩ e pa s)
/-- APU.1100 (47 R446). -/
def execApu1100 (e : Engine) (pa : Word64) (s : State) : Host.Outcome State Fault Refusal :=
  toOutcome (rowApu ⟨true, true, false, false⟩ e pa s)
/-- APU.1101 (47 R447). -/
def execApu1101 (e : Engine) (pa : Word64) (s : State) : Host.Outcome State Fault Refusal :=
  toOutcome (rowApu ⟨true, true, false, true⟩ e pa s)
/-- APU.1110 (47 R448). -/
def execApu1110 (e : Engine) (pa : Word64) (s : State) : Host.Outcome State Fault Refusal :=
  toOutcome (rowApu ⟨true, true, true, false⟩ e pa s)
/-- APU.1111 (47 R449). -/
def execApu1111 (e : Engine) (pa : Word64) (s : State) : Host.Outcome State Fault Refusal :=
  toOutcome (rowApu ⟨true, true, true, true⟩ e pa s)

end Sys2Proof.Machine
end

