-- ==== Sys2Proof/Machine/EntryKinds.lean ====
section
/-! DEFINITION. Entry-kind decode (30 R187) and what one entry contributes to a walk (30 R140 to R177, 44 R317, 42 R272,
41 R251, 43 R300, 40 R223). The walks and the entry rows of the opcode table both read entries through these. -/

namespace Sys2Proof.Machine

/-- The paging-entry formats of 30 R130. -/
inductive EntryKind where
  | iaPml4e | iaPdpePd | iaPdpe1G | iaPdePt | iaPde2M | iaPte64K | iaPte4K
  | p32Pde | p32Pte64K | p32Pte4K
  | p48Pml4e | p48PdpePd | p48Pdpe1G | p48PdePt | p48Pde2M | p48Pte64K | p48Pte4K
  | ggttPte
  deriving DecidableEq, Repr

/-- The format of a present entry, from the mode, the level, bit 7 and the page-table size selector (30 R187); `none` for
a level the mode does not have. -/
def entryKind (m : Mode) (level : Nat) (big : Bool) (e : Word64) : Option EntryKind :=
  match m, level with
  | .adv, 4 => some .iaPml4e
  | .adv, 3 => some (if bit e 7 then .iaPdpe1G else .iaPdpePd)
  | .adv, 2 => some (if bit e 7 then .iaPde2M else .iaPdePt)
  | .adv, 1 => some (if big then .iaPte64K else .iaPte4K)
  | .ppgtt48, 4 => some .p48Pml4e
  | .ppgtt48, 3 => some (if bit e 7 then .p48Pdpe1G else .p48PdpePd)
  | .ppgtt48, 2 => some (if bit e 7 then .p48Pde2M else .p48PdePt)
  | .ppgtt48, 1 => some (if big then .p48Pte64K else .p48Pte4K)
  | .ppgtt32, 2 => some .p32Pde
  | .ppgtt32, 1 => some (if big then .p32Pte64K else .p32Pte4K)
  | .ggtt, 1 => some .ggttPte
  | _, _ => none

/-- The page size of a leaf format as a power of two; `none` for a pointer format. -/
def EntryKind.leafBits : EntryKind → Option Nat
  | .iaPml4e => none | .iaPdpePd => none | .iaPdpe1G => some 30 | .iaPdePt => none | .iaPde2M => some 21
  | .iaPte64K => some 16 | .iaPte4K => some 12
  | .p32Pde => none | .p32Pte64K => some 16 | .p32Pte4K => some 12
  | .p48Pml4e => none | .p48PdpePd => none | .p48Pdpe1G => some 30 | .p48PdePt => none | .p48Pde2M => some 21
  | .p48Pte64K => some 16 | .p48Pte4K => some 12
  | .ggttPte => some 12

/-- The formats with the IA32e permission bits (30 R132). -/
def EntryKind.isIa32e : EntryKind → Bool
  | .iaPml4e => true | .iaPdpePd => true | .iaPdpe1G => true | .iaPdePt => true | .iaPde2M => true
  | .iaPte64K => true | .iaPte4K => true
  | .p32Pde => false | .p32Pte64K => false | .p32Pte4K => false
  | .p48Pml4e => false | .p48PdpePd => false | .p48Pdpe1G => false | .p48PdePt => false | .p48Pde2M => false
  | .p48Pte64K => false | .p48Pte4K => false
  | .ggttPte => false

/-- The top format of each walk: its accumulators start afresh (44 R317). -/
def EntryKind.isTop : EntryKind → Bool
  | .iaPml4e => true | .iaPdpePd => false | .iaPdpe1G => false | .iaPdePt => false | .iaPde2M => false
  | .iaPte64K => false | .iaPte4K => false
  | .p32Pde => true | .p32Pte64K => false | .p32Pte4K => false
  | .p48Pml4e => true | .p48PdpePd => false | .p48Pdpe1G => false | .p48PdePt => false | .p48Pde2M => false
  | .p48Pte64K => false | .p48Pte4K => false
  | .ggttPte => true

/-- The fixed bits of a format: Present, and the size bit where it tells two formats apart (30 R187). -/
def EntryKind.fits (k : EntryKind) (e : Word64) : Bool :=
  match k with
  | .iaPdpePd => pointerEntry e | .iaPdePt => pointerEntry e | .p48PdpePd => pointerEntry e | .p48PdePt => pointerEntry e
  | .iaPdpe1G => largeEntry e | .iaPde2M => largeEntry e | .p48Pdpe1G => largeEntry e | .p48Pde2M => largeEntry e
  | .iaPml4e => presentEntry e | .iaPte64K => presentEntry e | .iaPte4K => presentEntry e
  | .p32Pde => presentEntry e | .p32Pte64K => presentEntry e | .p32Pte4K => presentEntry e
  | .p48Pml4e => presentEntry e | .p48Pte64K => presentEntry e | .p48Pte4K => presentEntry e
  | .ggttPte => presentEntry e

/-- `reserved_set` (44 R326): a bit the IA32e format marks Reserved is 1. Legacy formats have none (30 R207). -/
def EntryKind.reservedSet (k : EntryKind) (haw : Nat) (e : Word64) : Bool :=
  k.isIa32e &&
    (field e haw (52 - haw) != 0 ||
      match k with
      | .iaPml4e => bit e 7
      | .iaPdpe1G => field e 13 17 != 0
      | .iaPde2M => field e 13 8 != 0
      | .iaPte64K => field e 12 4 != 0
      | _ => false)

/-- Does the entry select a 64 KB page table: bit 11 of a PDE, under FL64KPE in an advanced context (44 R321) and under
IPS_ENABLE in a legacy one (42 R278, 41 R253). -/
def EntryKind.selectsBig (k : EntryKind) (ips fl64k : Bool) (e : Word64) : Bool :=
  match k with
  | .iaPdePt => bit e 11 && fl64k
  | .p32Pde => bit e 11 && ips
  | .p48PdePt => bit e 11 && ips
  | _ => false

/-- The Null bit of a legacy leaf (41 R256, 42 R279); the global GTT and the IA32e formats have none. -/
def EntryKind.nullBit (k : EntryKind) (e : Word64) : Bool :=
  match k.leafBits with
  | none => false
  | some _ => !k.isIa32e && k != .ggttPte && bit e 9

/-- R/W after an entry: ANDed at every level of an IA32e walk (44 R322), the leaf's alone in a legacy walk (41 R257,
42 R276), always 1 in the global GTT (43 R309). -/
def EntryKind.rwAfter (k : EntryKind) (rw : Bool) (e : Word64) : Bool :=
  if k.isIa32e then rw && bit e 1 else if k == .ggttPte then true else if k.leafBits.isSome then bit e 1 else rw

/-- PAT: bit 7 of a PTE, bit 12 of a large page (42 R272, 44 R317); pointers and the global GTT have none. -/
def EntryKind.patBit (k : EntryKind) (e : Word64) : Bool :=
  match k with
  | .iaPdpe1G => bit e 12 | .iaPde2M => bit e 12 | .p48Pdpe1G => bit e 12 | .p48Pde2M => bit e 12
  | .iaPte64K => bit e 7 | .iaPte4K => bit e 7 | .p32Pte64K => bit e 7 | .p32Pte4K => bit e 7
  | .p48Pte64K => bit e 7 | .p48Pte4K => bit e 7
  | .iaPml4e => false | .iaPdpePd => false | .iaPdePt => false | .p32Pde => false | .p48Pml4e => false
  | .p48PdpePd => false | .p48PdePt => false | .ggttPte => false

/-- PCD (bit 4) and PWT (bit 3) are fields of the IA32e formats and of the legacy leaves. -/
def EntryKind.hasCacheBits (k : EntryKind) : Bool := k.isIa32e || (k != .ggttPte && k.leafBits.isSome)

/-- What an entry points to (30 R195): the next table, or a page frame. -/
def EntryKind.outOf (k : EntryKind) (haw : Nat) (e : Word64) : EntryOut :=
  match k.leafBits with
  | none => .table (addrField haw 12 e)
  | some n => .leaf n (addrField haw n e) (k.nullBit e)

/-- The walk's accumulators after an entry of a known format. -/
def EntryKind.stageAfter (k : EntryKind) (haw : Nat) (ips fl64k : Bool) (st : Stage) (e : Word64) : Stage :=
  let st0 := if k.isTop then Stage.fresh else st
  { rw := k.rwAfter st0.rw e
    us := if k.isIa32e then st0.us && bit e 2 else st0.us
    xd := if k.isIa32e then st0.xd || bit e 63 else st0.xd
    big := k.selectsBig ips fl64k e
    pat := k.patBit e
    pcd := k.hasCacheBits && bit e 4
    pwt := k.hasCacheBits && bit e 3
    dirty := k.isIa32e && k.leafBits.isSome && bit e 6
    out := k.outOf haw e }

/-- Take an entry of a known format into a walk; a Reserved bit is refused (44 R326, 30 R207). -/
def takeEntry (k : EntryKind) (haw : Nat) (ips fl64k : Bool) (st : Stage) (e : Word64) : Res Stage :=
  if k.reservedSet haw e then refuse .reservedBits else .ok (k.stageAfter haw ips fl64k st e)

/-- An L3 or L2 TR-TT entry: Invalid before Null before pointer (40 R224, R225; 92 D11). -/
def trPointerOut (e : Word64) : EntryOut :=
  if bit e 0 then .trInvalid else if bit e 1 then .trNull else .trTable (BitVec.ofNat 64 (addrField 48 12 e))

/-- An L1 TR-TT entry: TRTT_INVALID before TRTT_NULL before a tile address (40 R226, 92 D11). -/
def trL1Out (g : Regs) (e : Word32) : EntryOut :=
  if e = g.trttInvalid then .trInvalid else if e = g.trttNull then .trNull else .trTile e

/-- The next stage of an entry row (log 12): the walker's own accumulators take the entry, nothing else changes. -/
def rowEntry (k : EntryKind) (fl64k : Bool) (e : Word64) (s : State) : Res State := do
  require (k.fits e) .entryPattern
  let st ← takeEntry k s.plat.haw s.regs.ipsEnable fl64k s.walker.stage e
  .ok (s.setWalker { s.walker with stage := st })

/-- The next stage of a TR-TT entry row; an L3 entry starts a walk (40 R223). -/
def rowTrEntry (top : Bool) (out : EntryOut) (s : State) : Res State :=
  .ok (s.setWalker { s.walker with stage := { (if top then Stage.fresh else s.walker.stage) with out := out } })

/-- IA32E.PML4E (30 R140). -/
def execIaPml4e (e : Word64) (s : State) : Host.Outcome State Fault Refusal := toOutcome (rowEntry .iaPml4e false e s)
/-- IA32E.PDPE.PD (30 R141). -/
def execIaPdpePd (e : Word64) (s : State) : Host.Outcome State Fault Refusal := toOutcome (rowEntry .iaPdpePd false e s)
/-- IA32E.PDPE.1G (30 R142). -/
def execIaPdpe1G (e : Word64) (s : State) : Host.Outcome State Fault Refusal := toOutcome (rowEntry .iaPdpe1G false e s)
/-- IA32E.PDE.PT (30 R143), under the given FL64KPE. -/
def execIaPdePt (e : Word64) (fl64k : Bool) (s : State) : Host.Outcome State Fault Refusal :=
  toOutcome (rowEntry .iaPdePt fl64k e s)
/-- IA32E.PDE.2M (30 R144). -/
def execIaPde2M (e : Word64) (s : State) : Host.Outcome State Fault Refusal := toOutcome (rowEntry .iaPde2M false e s)
/-- IA32E.PTE.64K (30 R145). -/
def execIaPte64K (e : Word64) (s : State) : Host.Outcome State Fault Refusal := toOutcome (rowEntry .iaPte64K false e s)
/-- IA32E.PTE.4K (30 R146). -/
def execIaPte4K (e : Word64) (s : State) : Host.Outcome State Fault Refusal := toOutcome (rowEntry .iaPte4K false e s)
/-- PPGTT32.PDE (30 R150). -/
def execP32Pde (e : Word64) (s : State) : Host.Outcome State Fault Refusal := toOutcome (rowEntry .p32Pde false e s)
/-- PPGTT32.PTE.64K (30 R151). -/
def execP32Pte64K (e : Word64) (s : State) : Host.Outcome State Fault Refusal := toOutcome (rowEntry .p32Pte64K false e s)
/-- PPGTT32.PTE.4K (30 R152). -/
def execP32Pte4K (e : Word64) (s : State) : Host.Outcome State Fault Refusal := toOutcome (rowEntry .p32Pte4K false e s)
/-- PPGTT48.PML4E (30 R155). -/
def execP48Pml4e (e : Word64) (s : State) : Host.Outcome State Fault Refusal := toOutcome (rowEntry .p48Pml4e false e s)
/-- PPGTT48.PDPE.PD (30 R156). -/
def execP48PdpePd (e : Word64) (s : State) : Host.Outcome State Fault Refusal := toOutcome (rowEntry .p48PdpePd false e s)
/-- PPGTT48.PDPE.1G (30 R157). -/
def execP48Pdpe1G (e : Word64) (s : State) : Host.Outcome State Fault Refusal := toOutcome (rowEntry .p48Pdpe1G false e s)
/-- PPGTT48.PDE.PT (30 R158). -/
def execP48PdePt (e : Word64) (s : State) : Host.Outcome State Fault Refusal := toOutcome (rowEntry .p48PdePt false e s)
/-- PPGTT48.PDE.2M (30 R159). -/
def execP48Pde2M (e : Word64) (s : State) : Host.Outcome State Fault Refusal := toOutcome (rowEntry .p48Pde2M false e s)
/-- PPGTT48.PTE.64K (30 R160). -/
def execP48Pte64K (e : Word64) (s : State) : Host.Outcome State Fault Refusal := toOutcome (rowEntry .p48Pte64K false e s)
/-- PPGTT48.PTE.4K (30 R161). -/
def execP48Pte4K (e : Word64) (s : State) : Host.Outcome State Fault Refusal := toOutcome (rowEntry .p48Pte4K false e s)
/-- GGTT.PTE (30 R170). -/
def execGgttPte (e : Word64) (s : State) : Host.Outcome State Fault Refusal := toOutcome (rowEntry .ggttPte false e s)
/-- TRTT.L3E (30 R175). -/
def execTrttL3e (e : Word64) (s : State) : Host.Outcome State Fault Refusal := toOutcome (rowTrEntry true (trPointerOut e) s)
/-- TRTT.L2E (30 R176). -/
def execTrttL2e (e : Word64) (s : State) : Host.Outcome State Fault Refusal := toOutcome (rowTrEntry false (trPointerOut e) s)
/-- TRTT.L1E (30 R177). -/
def execTrttL1e (e : Word32) (s : State) : Host.Outcome State Fault Refusal :=
  toOutcome (rowTrEntry false (trL1Out s.regs e) s)

end Sys2Proof.Machine
end

