-- ==== Sys2Proof/Machine/Ggtt.lean ====
section
/-! DEFINITION. Programming the global GTT: GTT.WRITE, GTT.READ, MI_UPDATE_GTT (43 R303, R305). -/

namespace Sys2Proof.Machine

/-- A legal access to the GTT alias at a byte offset: naturally aligned (20 R97), inside GSM (43 R302). DESIGN CHOICE (log 50),
unsafe: alignment is that of the offset, as the base of GTTMMADR is taken to be a multiple of 8. -/
def aliasLegal (p : Platform) (off n : Nat) : Res Unit := do
  require (off % n == 0) .accessIllegal
  require (decide (off + n ≤ p.gsmSize)) .beyondGsm

/-- A CPU store through the alias (43 R303); cached copies are not touched. -/
def aliasWrite (off : Nat) (data : List Byte) (s : State) : Res State := do
  aliasLegal s.plat off data.length
  memWrite s (s.plat.gsmBase + off) data

/-- A CPU load through the alias (43 R303). -/
def aliasRead (off n : Nat) (s : State) : Res State := do
  aliasLegal s.plat off n
  let d ← memRead s (s.plat.gsmBase + off) n
  .ok (s.emit (.cpuData (leNat d)))

/-- The byte offset of an entry from its page address: bits 31:12 shifted to 22:3 (30 R196). -/
def miOffset (g : Word32) : Nat := g.toNat / 2 ^ 12 * 8

/-- MI_UPDATE_GTT (43 R305). -/
def miUpdate (g : Word32) (v : Word64) (s : State) : Res State := do
  require (decide (miOffset g < s.plat.gsmSize)) .beyondGsm
  memWrite64 s (s.plat.gsmBase + miOffset g) v

/-- GTT.WRITE (43 R303). -/
def execGttWrite (off : BitVec 23) (w : Width) (v : Word64) (s : State) : Host.Outcome State Fault Refusal :=
  toOutcome (aliasWrite off.toNat (leBytes w.bytes v.toNat) s)
/-- GTT.READ (43 R303). -/
def execGttRead (off : BitVec 23) (w : Width) (s : State) : Host.Outcome State Fault Refusal :=
  toOutcome (aliasRead off.toNat w.bytes s)
/-- MI_UPDATE_GTT (43 R305). -/
def execMiUpdateGtt (g : Word32) (v : Word64) (s : State) : Host.Outcome State Fault Refusal := toOutcome (miUpdate g v s)

end Sys2Proof.Machine
end

