-- ==== Sys2Proof/Machine/Operands.lean ====
section
/-! DEFINITION. Element Descriptor fields and walk-mode decode (10 R41, 30 R180 to R182), the PASID lookup (44 R316), the
context of a request, and the address ranges of the modes (00 R12, 30 R191, R192). -/

namespace Sys2Proof.Machine

/-! ## Element Descriptor (10 R41) -/

def elemValid (d : Word64) : Bool := bit d 0
def elemOne (d : Word64) : Bool := bit d 1
def elemLegacy (d : Word64) : Bool := bit d 3
def elemAd48b (d : Word64) : Bool := bit d 4
def elemCoh (d : Word64) : Bool := bit d 5
def elemPriv (d : Word64) : Bool := bit d 8
def elemFaultField (d : Word64) : Nat := field d 6 2
def elemFn (d : Word64) : BitVec 3 := BitVec.ofNat 3 (field d 9 3)
def elemCtxId (d : Word64) : Word32 := BitVec.ofNat 32 (field d 32 32)

/-- Walk mode (30 R180). Valid = 0 does not stop the decode (60 R467); bit 1 = 0 is refused. -/
def elemMode (d : Word64) : Res Mode :=
  if elemOne d then
    .ok (if elemLegacy d then (if elemPriv d then (if elemAd48b d then .ppgtt48 else .ppgtt32) else .ggtt) else .adv)
  else refuse .elemOneClear

/-- `FaultModelOf` (30 R181). -/
def faultModelOf (p : Platform) : Nat → FaultModel
  | 0 => .hang
  | 1 => p.fm1
  | 2 => p.fm2
  | _ => p.fm3

/-- The fault model of a descriptor (60 R477): legacy contexts only Fault and Hang, advanced ones only Stream or Halt. -/
def elemFaultModel (p : Platform) (d : Word64) : Res FaultModel :=
  if elemLegacy d then (if elemFaultField d = 0 then .ok .hang else refuse .faultModelIllegal)
  else if elemFaultField d = 0 then refuse .faultModelIllegal
  else
    match faultModelOf p (elemFaultField d) with
    | .stream => .ok .stream
    | .halt => .ok .halt
    | .hang => refuse .faultModelIllegal
    | .reserved => refuse .faultModelIllegal

/-- The default context definition of a source without a command streamer: legacy, global GTT, valid (10 R47, 92 D16). DESIGN
CHOICE (log 45): every other field is 0, but for bit 1, which is always 1. -/
def defaultElem : Word64 := 0x00B

/-- The PASID of a descriptor bank, `PDP0[19:0]` (30 R182). -/
def pasidOf (pdp0 : Word64) : BitVec 20 := BitVec.ofNat 20 (field pdp0 0 20)

/-! ## PASID lookup (44 R316) -/

/-- The PASID-entry part from the IOMMU's tables; missing or not ok is refused (93 U21). -/
def lookupPasid (s : State) (fn : BitVec 3) (p : BitVec 20) : Res PasidEntry :=
  match s.iommu.pasids.find? (fun x => x.fn == fn && x.pasid == p) with
  | none => refuse .pasidLookupFailed
  | some x => if x.ok then .ok x else refuse .pasidLookupFailed

/-- The context-entry part, from the Context Cache where it holds the function, else from the IOMMU's tables, which fills
the cache (46 R391). -/
def lookupCtx (s : State) (fn : BitVec 3) : Res (State × CtxEntry) :=
  match s.iommu.cc.find? (fun x => x.fn == fn) with
  | some x => .ok (s, x)
  | none =>
    match s.iommu.ctxs.find? (fun x => x.fn == fn) with
    | none => refuse .pasidLookupFailed
    | some x => .ok (s.setIommu { s.iommu with cc := x :: s.iommu.cc }, x)

/-- Fill the PASID Cache of an engine (46 R392). -/
def fillPc (s : State) (e : Engine) (fn : BitVec 3) (p : BitVec 20) : Res State := do
  let x ← lookupPasid s fn p
  .ok (s.setBank e { s.bank e with pc := ⟨true, x.pml4, x.eafe, x.fl64kpe⟩ })

/-- The PASID Cache is re-filled before a translation that finds it invalid (46 R392). -/
def refillPc (s : State) (e : Engine) (fn : BitVec 3) (p : BitVec 20) : Res State :=
  if (s.bank e).pc.valid then .ok s else fillPc s e fn p

/-! ## Address ranges and contexts -/

/-- The virtual address of a 32b mode has bits 63:32 clear; a 48b mode takes canonical addresses (93 U14). -/
def vaInRange (m : Mode) (va : Word64) : Bool :=
  match m with
  | .ggtt => va.toNat < 2 ^ 32
  | .ppgtt32 => va.toNat < 2 ^ 32
  | .ppgtt48 => canonical va
  | .adv => canonical va

/-- The page-directory pointer of a 32b walk: `va[31:30]` selects PDP0 to PDP3 (41 R252). -/
def pdpSelect (b : Bank) (va : Word64) : DescReg :=
  match field va 30 2 with
  | 0 => b.pdp0
  | 1 => b.pdp1
  | 2 => b.pdp2
  | _ => b.pdp3

/-- A legacy context: Fault and Hang, no PASID, no privilege, nested tables (20 R93). -/
def legacyCtx (src : Source) (m : Mode) (ctxid : Word32) (root : Nat) : Ctx where
  tag := ⟨src, m, root⟩
  fm := .hang
  pasid := 0
  ctxid := ctxid
  ad := false
  sup := false
  coh := false
  eafe := false
  fl64k := false
  nxe := false
  nested := true
  wpe := false
  root := root

/-- The advanced context of an engine (44 R316, R317): the PASID entry and the context entry come through PC and CC. The
GTT cache must be off (70 R541). DESIGN CHOICE (log 40), unsafe: the spec does not give the format of the root pointer; bits
(HAW-1):12 of it are the table's address, like those of the legacy roots, and the other bits are not looked at. -/
def advCtx (s : State) (e : Engine) (d : Word64) (fm : FaultModel) : Res (State × Ctx) := do
  require (!s.regs.gttCacheEnable) .gttCacheObligation
  let pdp0 ← (s.bank e).pdp0.get
  let s ← refillPc s e (elemFn d) (pasidOf pdp0)
  let (s, x) ← lookupCtx s (elemFn d)
  let pc := (s.bank e).pc
  .ok (s, { tag := ⟨.engine e, .adv, (pasidOf pdp0).toNat⟩, fm := fm, pasid := pasidOf pdp0, ctxid := elemCtxId d
            ad := elemAd48b d, sup := elemPriv d, coh := elemCoh d, eafe := pc.eafe, fl64k := pc.fl64kpe
            nxe := x.nxe, nested := x.neste, wpe := x.wpe, root := addrField s.plat.haw 12 pc.pml4 })

/-- The context an engine's request is translated in (30 R180 to R182), after the range check of its mode. -/
def engineCtx (s : State) (e : Engine) (va : Word64) : Res (State × Ctx) := do
  let b := s.bank e
  let d ← b.elem.get
  let m ← elemMode d
  let fm ← elemFaultModel s.plat d
  require (vaInRange m va) .vaOutOfRange
  match m with
  | .ggtt => .ok (s, legacyCtx (.engine e) .ggtt (elemCtxId d) 0)
  | .ppgtt32 => do
    let p ← (pdpSelect b va).get
    .ok (s, legacyCtx (.engine e) .ppgtt32 (elemCtxId d) (addrField s.plat.haw 12 p))
  | .ppgtt48 => do
    let p ← b.pdp0.get
    .ok (s, legacyCtx (.engine e) .ppgtt48 (elemCtxId d) (addrField s.plat.haw 12 p))
  | .adv => advCtx s e d fm

/-- The context of a request: an engine's own, or the default global-GTT context (43 R301). -/
def contextOf (s : State) (src : Source) (va : Word64) : Res (State × Ctx) :=
  match src with
  | .engine e => engineCtx s e va
  | .wdbox => do require (vaInRange .ggtt va) .vaOutOfRange; .ok (s, legacyCtx .wdbox .ggtt 0 0)
  | .vebox2 => do require (vaInRange .ggtt va) .vaOutOfRange; .ok (s, legacyCtx .vebox2 .ggtt 0 0)
  | .display => do require (vaInRange .ggtt va) .vaOutOfRange; .ok (s, legacyCtx .display .ggtt 0 0)
  | .aperture => do require (vaInRange .ggtt va) .vaOutOfRange; .ok (s, legacyCtx .aperture .ggtt 0 0)

/-! ## TR-TT registers (10 R22 to R26) -/

def trvaMask (g : Regs) : Nat := g.trvadr.toNat / 16 % 16
def trvaData (g : Regs) : Nat := g.trvadr.toNat % 16
def trttEn (g : Regs) : Bool := g.trtte.getLsbD 0
def trttTtloc (g : Regs) : Bool := g.trtte.getLsbD 1

/-- MASK holds one of its two supported values, 0000b and 1111b (10 R25, 92 D10). -/
def trvaLegal (g : Regs) : Bool := trvaMask g == 0 || trvaMask g == 15

/-- `is_trva` (40 R222): under MASK = 1111b `va[47:44]` equals DATA; MASK = 0000b detects nothing. -/
def isTrva (g : Regs) (va : Word64) : Bool := trvaMask g == 15 && field va 44 4 == trvaData g

/-- Bits 47:16, the 64 KB tile of a virtual address (40 R226). -/
def tileOf (va : Word64) : Nat := field va 16 32

/-- The L3 table's graphics virtual address, `TRTT_L3PTR[47:16] ++ 0x0000` (10 R22). -/
def trttL3Base (g : Regs) : Word64 := sext48 (addrField 48 16 g.trttL3ptr)

/-- The programming errors of 93 U3, unless the bypass is on, when TRTTE is not looked at (40 R221), and of U2 are refused
(30 R206). -/
def trttLegal (g : Regs) : Res Unit := do
  require (!(g.bypassDis && trttEn g) || trttTtloc g) .trttPhysical
  require (trvaLegal g) .trvaMask

/-- Is the TR-TT stage active for a source in a mode (40 R221)? The programming errors of 93 U2, U3 and U7 are refused, unless
the bypass is on. -/
def trttActive (g : Regs) (src : Source) (m : Mode) : Res Bool :=
  if g.bypassDis && trttEn g && src == .engine .rcs then
    match m with
    | .ggtt => refuse .trttWrongMode
    | .ppgtt32 => refuse .trttWrongMode
    | .ppgtt48 => do trttLegal g; .ok true
    | .adv => do trttLegal g; .ok true
  else .ok false

end Sys2Proof.Machine
end

