-- ==== Sys2Proof/Machine/Walk.lean ====
section
/-! DEFINITION. The page walks from memory: XLATE.GGTT, .PPGTT32, .PPGTT48, .ADV (43 R300, 41 R251, 42 R272, 44 R317), one
walk over the levels of the mode, with the walk caches it may use (46 R390, R394). -/

namespace Sys2Proof.Machine

/-- No cached copy is used: the translation is the walk from memory (46 R380). -/
def noCache : CacheUse := ⟨false, false, false, false⟩

/-- What a walk is made for. -/
structure WalkEnv where
  ctx : Ctx
  use : CacheUse
  /-- The final TLB of the client (46 R382). -/
  group : TlbGroup
  va : Word64
  /-- Write or atomic (92 D34). -/
  wr : Bool
  /-- ER (44 R330). -/
  er : Bool
  deriving DecidableEq, Repr

/-- What a walk has read that a cache may keep (46 R390, R394). -/
structure WalkLog where
  pwc : List PwcEntry
  gtt : Option GttLine
  pml4 : List PmlTable
  deriving DecidableEq, Repr

/-- How the reading of entries ends. -/
inductive WalkEnd where
  /-- A leaf at a level, with the accumulators. -/
  | leaf (level : Nat) (st : Stage) (log : WalkLog)
  /-- A not-present entry (60 R461). -/
  | notPresent (level : Nat) (log : WalkLog)
  /-- Catastrophic(NonWBPagingEntry): the walk is abandoned (47 R453). -/
  | abandoned (log : WalkLog)
  deriving DecidableEq, Repr

/-- The levels of a mode, top first (30 R190 to R192). -/
def levelsOf : Mode → List Nat
  | .ggtt => [1]
  | .ppgtt32 => [2, 1]
  | .ppgtt48 => [4, 3, 2, 1]
  | .adv => [4, 3, 2, 1]

/-- The index into the table of a level (30 R190 to R192, R194). -/
def indexOf (m : Mode) (level : Nat) (big : Bool) (va : Word64) : Nat :=
  if m == .ggtt then field va 12 20
  else if level == 1 && big then bigIndex va
  else levelIndex level va

/-- The base of the top table: GSM_BASE for the global GTT, of which the index must exist (43 R300); else the context's
root through SecondLevel (20 R93). -/
def topTable (s : State) (c : Ctx) (va : Word64) : Res Nat :=
  if c.tag.mode == .ggtt then
    if 8 * field va 12 20 < s.plat.gsmSize then .ok s.plat.gsmBase else refuse .beyondGsm
  else secondLevel s.plat c.nested c.root

/-- A cached copy of a non-leaf entry (46 R390). -/
def pwcFind (s : State) (t : Tag) (addr : Nat) : Option Word64 :=
  (s.caches.pwc.find? (fun x => x.tag == t && x.addr == addr)).map (·.entry)

/-- The start of the 64-byte line of an address (46 R394). -/
def lineBase (addr : Nat) : Nat := addr / 64 * 64

/-- A copy in the GTT cache of the entry at an address; a not-present copy is never used (46 R394). -/
def gttFind (s : State) (addr : Nat) : Option Word64 :=
  match s.caches.gtt.find? (fun x => x.base == lineBase addr) with
  | none => none
  | some l =>
    match l.entries[addr % 64 / 8]? with
    | none => none
    | some e => if bit e 0 then some e else none

/-- `n` consecutive entries from memory. -/
def readEntries (s : State) (pa : Nat) : Nat → Res (List Word64)
  | 0 => .ok []
  | n + 1 => do
    let e ← memRead64 s pa
    let es ← readEntries s (pa + 8) n
    .ok (e :: es)

/-- The line that a leaf-level read brings along while the GTT cache is on (46 R394). -/
def readLine (s : State) (t : Tag) (addr : Nat) : Res (Option GttLine) :=
  if s.regs.gttCacheEnable then do
    let es ← readEntries s (lineBase addr) 8
    .ok (some ⟨t, lineBase addr, es⟩)
  else .ok none

/-- The opcode of a fetch (44 R318, 92 D37). -/
def fetchOp (env : WalkEnv) (level : Nat) : ApuOp := ⟨level != 1, env.ctx.wp, env.ctx.eafe, env.wr⟩

/-- One entry from memory: `Fetch` (44 R318), an atomic update when the context has A&D support, else a plain read; `none`
after a catastrophic error. -/
def fetchMemory (s : State) (env : WalkEnv) (level addr : Nat) : Res (State × Option Word64) :=
  if env.ctx.ad then apu (fetchOp env level) env.ctx.tag.src env.ctx.ctxid addr s
  else do
    let e ← memRead64 s addr
    .ok (s, some e)

/-- The cached copy a fetch chooses to use, if there is one: PWC above level 1 (46 R390), GTT cache at level 1 (46 R394). -/
def fetchCached (s : State) (env : WalkEnv) (level addr : Nat) : Option Word64 :=
  if level == 1 then (if env.use.gtt && s.regs.gttCacheEnable then gttFind s addr else none)
  else if env.use.pwc then pwcFind s env.ctx.tag addr else none

/-- Read one entry, from a cache or from memory, with the line it brings along. -/
def fetchEntry (s : State) (env : WalkEnv) (level addr : Nat) : Res (State × Option Word64 × Option GttLine) :=
  match fetchCached s env level addr with
  | some e => .ok (s, some e, none)
  | none => do
    let (s, e) ← fetchMemory s env level addr
    if level == 1 then do
      let l ← readLine s env.ctx.tag addr
      .ok (s, e, l)
    else .ok (s, e, none)

/-- Under A&D management the fetch of a write leaves a read-only entry unchanged, and the walk goes past it only to reach its
fault (44 R325, 47 R433). -/
def WalkEnv.unchanged (env : WalkEnv) (e : Word64) : Bool := env.ctx.ad && env.wr && env.ctx.wp && !bit e 1

/-- A pointer entry read from memory may be cached if it is present and, under A&D support, its A bit is 1 (46 R390); nothing
is cached from one that a write has left unchanged (44 R325). `cached` tells that it was answered from a copy. -/
def WalkLog.addPointer (log : WalkLog) (env : WalkEnv) (cached : Bool) (level addr : Nat) (e : Word64) : WalkLog :=
  if cached || env.ctx.ad && !bit e 5 || env.unchanged e then log else { log with pwc := ⟨env.ctx.tag, level, addr, e⟩ :: log.pwc }

/-- The PML4 table that a level-4 entry is fetched from, present or not, is remembered: the hardware may then hold any of its
entries (42 R284). -/
def WalkLog.addTable (log : WalkLog) (env : WalkEnv) (level tbl : Nat) : WalkLog :=
  if level == 4 then { log with pml4 := ⟨env.ctx.tag, tbl⟩ :: log.pml4 } else log

/-- The walk over the remaining levels from the table at `tbl`. At each level: memory-type error, Not-Present, Reserved bits
(92 D9). A large page while the GTT cache is on is refused (70 R540). -/
def walkLevels (env : WalkEnv) : List Nat → State → Nat → Stage → WalkLog → Res (State × WalkEnd)
  | [], _, _, _, _ => refuse .noLeaf
  | level :: rest, s, tbl, st, log => do
    let addr := tbl + 8 * indexOf env.ctx.tag.mode level st.big env.va
    let cached := (fetchCached s env level addr).isSome
    let (s, e, line) ← fetchEntry s env level addr
    let log := log.addTable env level tbl
    match e with
    | none => .ok (s, .abandoned log)
    | some e =>
      if bit e 0 then
        match entryKind env.ctx.tag.mode level st.big e with
        | none => refuse .noLeaf
        | some k => do
          let st ← takeEntry k s.plat.haw s.regs.ipsEnable env.ctx.fl64k st e
          match st.out with
          | .table base => do
            let tbl ← secondLevel s.plat env.ctx.nested base
            walkLevels env rest s tbl st (log.addPointer env cached level addr e)
          | .leaf _ _ _ => do
            require (level == 1 || !s.regs.gttCacheEnable) .gttCacheObligation
            .ok (s, .leaf level st { log with gtt := line })
          | .start => refuse .noLeaf
          | .trTable _ => refuse .noLeaf
          | .trNull => refuse .noLeaf
          | .trInvalid => refuse .noLeaf
          | .trTile _ => refuse .noLeaf
      else .ok (s, .notPresent level { log with gtt := line })

/-- How a translation ends (00 R13). -/
inductive XlateEnd where
  | phys (pa : Nat) (attrs : Attrs)
  | null
  | fault (reason : FaultReason) (level : Nat)
  | filtered (reason : FaultReason)
  | abandoned
  deriving DecidableEq, Repr

/-- The checks after the leaf has been read: Null, Privilege, WriteProtect, Execute (60 R470, 92 D36); `none` if all pass.
Legacy contexts have no U/S and no XD (44 R323, 41 R258, 42 R282), the advanced formats no Null bit (44 R324). -/
def leafFault (p : Platform) (env : WalkEnv) (st : Stage) : Option FaultReason :=
  if !env.ctx.sup && !st.us then some .privilege
  else if env.wr && !st.rw && env.ctx.wp then some .writeProtect
  else if p.xdEnforce && env.er && env.ctx.nxe && st.xd then some .execute
  else none

/-- The attributes of a translation (44 R317, 42 R272). -/
def attrsOf (c : Ctx) (st : Stage) : Attrs := ⟨st.pat, st.pcd, st.pwt, st.rw, some st.us, st.xd, st.dirty, c.coh⟩

/-- What a TLB entry holds of the attributes (46 R383, R387). -/
def Attrs.cached (a : Attrs) : CachedAttrs := ⟨a.pat, a.pcd, a.pwt, a.rw, a.xd, a.dirty, a.coh⟩

/-- The attributes of a translation that a TLB entry answers. -/
def CachedAttrs.toAttrs (a : CachedAttrs) : Attrs := ⟨a.pat, a.pcd, a.pwt, a.rw, none, a.xd, a.dirty, a.coh⟩

/-- The TLB entry a completed walk may leave (46 R385). -/
def tlbEntryOf (env : WalkEnv) (st : Stage) (bits frame : Nat) (null : Bool) : TlbEntry :=
  ⟨env.ctx.tag, env.group, bits, env.va.toNat / 2 ^ bits, frame, env.ctx.nested, (attrsOf env.ctx st).cached, null, none⟩

/-- The faulted TLB entry that a fault with a page request may leave (46 R388); a fault has no page size, its page is the
4 KB page (60 R483). -/
def faultedEntryOf (env : WalkEnv) (reason : FaultReason) : TlbEntry :=
  ⟨env.ctx.tag, env.group, 12, env.va.toNat / 4096, 0, false, ⟨false, false, false, false, false, false, false⟩, false,
    some reason⟩

/-- What a walk that ended without a fault may leave behind: an entry, its pointers, its line (46 R385, R390, R394). -/
def WalkLog.record (log : WalkLog) (tlb : List TlbEntry) : WalkRecord := ⟨tlb, log.pwc, log.gtt.toList, [], log.pml4⟩

/-- What a walk that faulted may leave behind (46 R388, R390, R394): a faulted entry where the fault sends a page request. -/
def faultRecord (env : WalkEnv) (reason : FaultReason) (log : WalkLog) : WalkRecord where
  tlb := if env.ctx.sendsRequest then [faultedEntryOf env reason] else []
  pwc := log.pwc
  gtt := log.gtt.toList
  tr := []
  pml4 := log.pml4

/-- The end of a walk whose leaf has been read. -/
def finishLeaf (s : State) (env : WalkEnv) (level : Nat) (st : Stage) (log : WalkLog) (bits frame : Nat) (null : Bool) :
    Res (State × XlateEnd × Option WalkRecord) :=
  if null then .ok (s, .null, some (log.record [tlbEntryOf env st bits frame null]))
  else
    match leafFault s.plat env st with
    | some reason => .ok (s, .fault reason level, some (faultRecord env reason log))
    | none => do
      let pa ← secondLevel s.plat env.ctx.nested (frame + offsetOf bits env.va)
      .ok (s, .phys pa (attrsOf env.ctx st), some (log.record [tlbEntryOf env st bits frame null]))

/-- One walk of a context's mode, from memory or the walk caches, with what it may leave in the caches. -/
def walkOnce (s : State) (env : WalkEnv) : Res (State × XlateEnd × Option WalkRecord) := do
  let tbl ← topTable s env.ctx env.va
  let (s, w) ← walkLevels env (levelsOf env.ctx.tag.mode) s tbl Stage.fresh ⟨[], none, []⟩
  match w with
  | .abandoned log => .ok (s, .abandoned, some (log.record []))
  | .notPresent level log => .ok (s, .fault .notPresent level, some (faultRecord env .notPresent log))
  | .leaf level st log =>
    match st.out with
    | .leaf bits frame null => finishLeaf s env level st log bits frame null
    | .start => refuse .noLeaf
    | .table _ => refuse .noLeaf
    | .trTable _ => refuse .noLeaf
    | .trNull => refuse .noLeaf
    | .trInvalid => refuse .noLeaf
    | .trTile _ => refuse .noLeaf

/-- The PWC entries of an address space are dropped. -/
def dropPwcOf (s : State) (t : Tag) : State :=
  s.setCaches { s.caches with pwc := s.caches.pwc.filter (fun x => x.tag != t) }

/-! ## Joining what several walks leave -/

/-- New items in front of the old ones that are of no item's slot (log 42). -/
def refresh {α : Type} (same : α → α → Bool) (new old : List α) : List α :=
  new ++ old.filter (fun x => !new.any (fun y => same y x))

/-- One page of one address space in one final TLB. DESIGN CHOICE (log 42), unsafe: an entry made for it takes the place of
the older one. -/
def TlbEntry.sameSlot (x y : TlbEntry) : Bool := x.tag == y.tag && x.group == y.group && x.bits == y.bits && x.page == y.page
/-- One entry of one table of an address space. DESIGN CHOICE (log 42), unsafe: a newly cached pointer takes the place of the
older copy of it, of which 46 R390 says nothing. -/
def PwcEntry.sameSlot (x y : PwcEntry) : Bool := x.tag == y.tag && x.addr == y.addr
/-- One line of physical memory. DESIGN CHOICE (log 42), unsafe: a newly captured line takes the place of the older copy of it,
one captured for another engine included, of which 46 R394 says nothing. -/
def GttLine.sameSlot (x y : GttLine) : Bool := x.base == y.base
/-- One tile of one address space. DESIGN CHOICE (log 42), unsafe: a newly cached TR-TT result takes the place of the older one,
of which 46 R397 and 40 R234 say nothing. -/
def TrEntry.sameSlot (x y : TrEntry) : Bool := x.tag == y.tag && x.tile == y.tile

/-- The record of a walk in front of that of the walks before it in the same operation. -/
def joinRec : Option WalkRecord → Option WalkRecord → Option WalkRecord
  | none, p => p
  | some w, none => some w
  | some w, some p => some
    { tlb := refresh TlbEntry.sameSlot w.tlb p.tlb
      pwc := refresh PwcEntry.sameSlot w.pwc p.pwc
      gtt := refresh GttLine.sameSlot w.gtt p.gtt
      tr := refresh TrEntry.sameSlot w.tr p.tr
      pml4 := refresh (fun x y => x == y) w.pml4 p.pml4 }

/-- The record of a walk whose fault is not raised: what it read may stay, no faulted entry is made. -/
def WalkRecord.unfaulted (w : WalkRecord) : WalkRecord := { w with tlb := [] }

/-- The walk of a context's mode. A write-protect fault is never raised from cached data: a walk that used cached copies is
redone from memory first (46 R386). After a Privilege or Execute fault that cached pointers may have caused they are dropped,
so that it occurs at most once (46 R411, 60 R488). -/
def walk (s : State) (env : WalkEnv) : Res (State × XlateEnd × Option WalkRecord) := do
  let (t, x, w) ← walkOnce s env
  match x with
  | .fault .writeProtect _ =>
    if env.use.pwc || env.use.gtt then do
      let (t, x, v) ← walkOnce t { env with use := noCache }
      .ok (t, x, joinRec v (w.map WalkRecord.unfaulted))
    else .ok (t, x, w)
  | .fault .privilege _ =>
    .ok (if env.use.pwc then dropPwcOf t env.ctx.tag else t, x, w)
  | .fault .execute _ =>
    .ok (if env.use.pwc then dropPwcOf t env.ctx.tag else t, x, w)
  | .fault .notPresent _ => .ok (t, x, w)
  | .phys _ _ => .ok (t, x, w)
  | .null => .ok (t, x, w)
  | .filtered _ => .ok (t, x, w)
  | .abandoned => .ok (t, x, w)

end Sys2Proof.Machine
end

