-- ==== Sys2Proof/Machine/Tlb.lean ====
section
/-! DEFINITION. The translation caches: the HIT / MISS decision (46 R384), fills (46 R385), and the invalidations
(46 R404 to R409). -/

namespace Sys2Proof.Machine

/-! ## Look-up -/

/-- Does an entry of this final TLB translate this address in this address space (46 R382, R383)? -/
def TlbEntry.covers (t : TlbEntry) (tag : Tag) (g : TlbGroup) (va : Word64) : Bool :=
  t.tag == tag && t.group == g && t.page == va.toNat / 2 ^ t.bits

/-- `conflicts(req, reason)` (46 R384): the request is of a kind the recorded reason does not forbid. -/
def conflicts (wr er : Bool) : FaultReason → Bool
  | .notPresent => false
  | .privilege => false
  | .writeProtect => !wr
  | .execute => !er

/-- The decision of TLB.LOOKUP (46 R384). -/
inductive Lookup where
  | miss
  /-- The entry is removed and the walk re-done with the walk caches that `use` still allows (46 R386, R388, R389,
  R393). -/
  | dropMiss (t : TlbEntry) (use : CacheUse)
  | hit (t : TlbEntry)
  | filtered (reason : FaultReason)
  deriving DecidableEq, Repr

/-- What a matching entry answers. After a permission mismatch the walk is redone from memory (46 R386, R393); after a Dirty
mismatch its final stage is, the upper levels may come from the walk caches (46 R389). -/
def judge (p : Platform) (env : WalkEnv) (t : TlbEntry) : Lookup :=
  match t.reason with
  | some reason => if conflicts env.wr env.er reason then .dropMiss t env.use else .filtered reason
  | none =>
    if env.wr && !t.attrs.rw && env.ctx.wp then .dropMiss t noCache
    else if env.wr && env.ctx.ad && !t.attrs.dirty then .dropMiss t { env.use with gtt := false }
    else if p.xdEnforce && env.er && t.attrs.xd then .dropMiss t noCache
    else .hit t

/-- The HIT / MISS decision, when the model chooses to use a cached entry (46 R380, R384). DESIGN CHOICE (log 42), unsafe: of
entries of several page sizes that cover the address, the one filled last answers. -/
def tlbLookup (s : State) (env : WalkEnv) : Lookup :=
  if env.use.tlb then
    match s.caches.tlb.find? (fun t => t.covers env.ctx.tag env.group env.va) with
    | none => .miss
    | some t => judge s.plat env t
  else .miss

/-- Remove an entry from the TLBs. -/
def dropTlb (s : State) (t : TlbEntry) : State :=
  s.setCaches { s.caches with tlb := s.caches.tlb.filter (fun x => x != t) }

/-- The answer of a hit: the frame with the page offset, behind the second level that the entry was made under, or the null
completion (46 R384). A large page while the GTT cache is
on is refused (46 R394, 70 R540). -/
def hitEnd (s : State) (env : WalkEnv) (t : TlbEntry) : Res XlateEnd := do
  require (decide (t.bits < 21) || !s.regs.gttCacheEnable) .gttCacheObligation
  if t.null then .ok .null
  else do
    let pa ← secondLevel s.plat t.nested (t.frame + offsetOf t.bits env.va)
    .ok (.phys pa t.attrs.toAttrs)

/-- One translation by the tables of a context: from a cached entry or by the walk from memory (46 R380), with what a walk
may leave behind. -/
def xlate (s : State) (env : WalkEnv) : Res (State × XlateEnd × Option WalkRecord) :=
  match tlbLookup s env with
  | .hit t => do
    let x ← hitEnd s env t
    .ok (s, x, none)
  | .filtered reason => .ok (s, .filtered reason, none)
  | .dropMiss t use => walk (dropTlb s t) { env with use := use }
  | .miss => walk s env

/-! ## Fill (46 R385) -/

/-- Put the chosen parts of a record into the caches. -/
def Caches.fill (c : Caches) (sel : FillSel) (w : WalkRecord) : Caches where
  tlb := if sel.tlb then refresh TlbEntry.sameSlot w.tlb c.tlb else c.tlb
  pwc := if sel.pwc then refresh PwcEntry.sameSlot w.pwc c.pwc else c.pwc
  gtt := if sel.gtt then refresh GttLine.sameSlot w.gtt c.gtt else c.gtt
  tr := if sel.tr then refresh TrEntry.sameSlot w.tr c.tr else c.tr

/-- Remember what the walks of the last translation may leave; an answer from a cache leaves nothing new. -/
def setWalked (s : State) (w : Option WalkRecord) : State := s.setWalker { s.walker with walked := w }

/-- TLB.FILL: the walks of the last translation leave the chosen parts in the caches, once (log 14). -/
def tlbFill (sel : FillSel) (s : State) : State :=
  match s.walker.walked with
  | none => s
  | some w => setWalked (s.setCaches (s.caches.fill sel w)) none

/-! ## Invalidation (46 R404: final TLBs, PWC, GTT cache, TR-TT results) -/

/-- Keep only what a predicate on tags keeps. -/
def Caches.keepTags (c : Caches) (keep : Tag → Bool) : Caches where
  tlb := c.tlb.filter (fun x => keep x.tag)
  pwc := c.pwc.filter (fun x => keep x.tag)
  gtt := c.gtt.filter (fun x => keep x.tag)
  tr := c.tr.filter (fun x => keep x.tag)

/-- TLBINV.CS (46 R405): everything goes; CC and PC are not named. -/
def invalidateAll (s : State) : State := setWalked (s.setCaches ⟨[], [], [], []⟩) none

/-- TLBINV.CTXSW (46 R407): what is tagged with the engine goes. -/
def invalidateEngine (e : Engine) (s : State) : State :=
  setWalked (s.setCaches (s.caches.keepTags (fun t => t.src != .engine e))) none

/-- Is an entry a faulted one of this PASID whose page contains the address (46 R408)? -/
def TlbEntry.isFaultOf (t : TlbEntry) (p : BitVec 20) (va : Word64) : Bool :=
  t.reason.isSome && t.tag.mode == .adv && t.tag.root == p.toNat && t.page == va.toNat / 2 ^ t.bits

/-- TLBINV.PAGE_RESPONSE (46 R408). -/
def invalidateFaulted (p : BitVec 20) (va : Word64) (s : State) : State :=
  setWalked (s.setCaches { s.caches with tlb := s.caches.tlb.filter (fun t => !t.isFaultOf p va) }) none

/-- Does an address space match the scope of an SVM invalidation (46 R406)? -/
def SvmScope.matchesTag (sc : SvmScope) (t : Tag) : Bool :=
  match sc with
  | .global => true
  | .pasid p => t.mode == .adv && t.root == p.toNat
  | .page p _ => t.mode == .adv && t.root == p.toNat

/-- Does a scope cover an address range of `2^bits` bytes at a page number? -/
def SvmScope.matchesPage (sc : SvmScope) (bits page : Nat) : Bool :=
  match sc with
  | .global => true
  | .pasid _ => true
  | .page _ va => page == va.toNat / 2 ^ bits

/-- Does a scope cover a 64 KB tile, `va[47:16]` of its addresses (40 R234)? -/
def SvmScope.matchesTile (sc : SvmScope) (tile : Nat) : Bool :=
  match sc with
  | .global => true
  | .pasid _ => true
  | .page _ va => tile == tileOf va

/-- Does an engine run an advanced context of the scope? The context is known by the PASID it is counted for. -/
def SvmScope.matchesBank (sc : SvmScope) (b : Bank) : Bool :=
  match sc with
  | .global => b.resident.isSome || b.pc.valid
  | .pasid p => b.resident == some p
  | .page p _ => b.resident == some p

/-- The final-TLB stage: TLB entries, TR-TT results and GTT-cache lines in scope. -/
def Caches.dropFinal (c : Caches) (sc : SvmScope) : Caches :=
  { c with
    tlb := c.tlb.filter (fun x => !(SvmScope.matchesTag sc x.tag && SvmScope.matchesPage sc x.bits x.page))
    tr := c.tr.filter (fun x => !(SvmScope.matchesTag sc x.tag && SvmScope.matchesTile sc x.tile))
    gtt := c.gtt.filter (fun x => !SvmScope.matchesTag sc x.tag) }

/-- The PWC stage. A page scope drops the PWC entries of the whole PASID, which includes those of the page. -/
def Caches.dropPwc (c : Caches) (sc : SvmScope) : Caches :=
  { c with pwc := c.pwc.filter (fun x => !SvmScope.matchesTag sc x.tag) }

/-- Invalidate the PASID Cache of an engine in scope. -/
def Bank.dropPc (b : Bank) (sc : SvmScope) : Bank :=
  if SvmScope.matchesBank sc b then { b with pc := { b.pc with valid := false } } else b

/-- Invalidate the PASID Caches in scope (46 R392). -/
def Banks.dropPc (b : Banks) (sc : SvmScope) : Banks :=
  ⟨b.rcs.dropPc sc, b.bcs.dropPc sc, b.vecs.dropPc sc, b.vcs0.dropPc sc, b.vcs1.dropPc sc⟩

/-- Is a tag one of an engine in scope, so that dropping its PC empties the entry (46 R392)? -/
def pcCovers (s : State) (sc : SvmScope) (t : Tag) : Bool :=
  match t.src with
  | .engine e => SvmScope.matchesBank sc (s.bank e)
  | .wdbox => false
  | .vebox2 => false
  | .display => false
  | .aperture => false

/-- The PC stage: the PASID Caches in scope, with the PWC and TLB entries of their engines (46 R392, R406). -/
def invalidatePc (sc : SvmScope) (s : State) : State :=
  (s.setCaches (s.caches.keepTags (fun t => !pcCovers s sc t))).setBanks (s.banks.dropPc sc)

/-- The CC stage (46 R391, R406): a Context Cache entry is of a function and serves every advanced context, so whatever the
scope the cache is emptied, and with it every PASID Cache entry and every cached item of an advanced context. -/
def invalidateCc (s : State) : State :=
  let s := invalidatePc .global (s.setIommu { s.iommu with cc := [] })
  s.setCaches (s.caches.keepTags (fun t => t.mode != .adv))

/-- TLBINV.SVM (46 R406): what matches the scope goes, in the stages selected. -/
def invalidateSvm (sc : SvmScope) (st : SvmStages) (s : State) : State :=
  let s := if st.tlb then s.setCaches (s.caches.dropFinal sc) else s
  let s := if st.pwc then s.setCaches (s.caches.dropPwc sc) else s
  let s := if st.pc then invalidatePc sc s else s
  let s := if st.cc then invalidateCc s else s
  setWalked s none

/-! ## Invalidation wait (46 R409) -/

/-- The response to one Invalidation Wait Descriptor. -/
def answerWait (s : State) : State := s.emit .invWaitDone

/-- INV_WAIT: respond once GTI is EMPTY; until then the descriptor waits. -/
def invWaitOp (s : State) : State :=
  if s.reqs.inflight.isEmpty then answerWait s else s.setReqs { s.reqs with invWaits := s.reqs.invWaits + 1 }

/-- `n` responses. -/
def answerWaits : Nat → State → State
  | 0, s => s
  | n + 1, s => answerWaits n (answerWait s)

/-- Answer every waiting descriptor if GTI is EMPTY. -/
def flushWaits (s : State) : State :=
  if s.reqs.inflight.isEmpty then answerWaits s.reqs.invWaits (s.setReqs { s.reqs with invWaits := 0 }) else s

/-- TLB.FILL (46 R385). -/
def execTlbFill (sel : FillSel) (s : State) : Host.Outcome State Fault Refusal := toOutcome (.ok (tlbFill sel s))
/-- TLBINV.CS (46 R405). -/
def execTlbinvCs (s : State) : Host.Outcome State Fault Refusal := toOutcome (.ok (invalidateAll s))
/-- TLBINV.SVM (46 R406). -/
def execTlbinvSvm (sc : SvmScope) (st : SvmStages) (s : State) : Host.Outcome State Fault Refusal :=
  toOutcome (.ok (invalidateSvm sc st s))
/-- TLBINV.CTXSW (46 R407). -/
def execTlbinvCtxsw (e : Engine) (s : State) : Host.Outcome State Fault Refusal := toOutcome (.ok (invalidateEngine e s))
/-- TLBINV.PAGE_RESPONSE (46 R408). -/
def execTlbinvPageResponse (p : BitVec 20) (va : Word64) (s : State) : Host.Outcome State Fault Refusal :=
  toOutcome (.ok (invalidateFaulted p va s))
/-- INV_WAIT (46 R409). -/
def execInvWait (s : State) : Host.Outcome State Fault Refusal := toOutcome (.ok (invWaitOp s))

end Sys2Proof.Machine
end

