-- ==== Sys2Proof/Machine/Message.lean ====
section
/-! DEFINITION. Context delivery: the four hand-shake messages of the five engines (45 R352 to R356), the descriptor writes
(45 R354), masked message writes (30 R185), and the PASID_State counters (70 R515). -/

namespace Sys2Proof.Machine

/-- The engines with descriptor and message registers, in the order of their banks (10 R40). -/
def engines : List Engine := [.rcs, .vcs0, .vcs1, .vecs, .bcs]

/-- The CS-to-GAM message register of an engine (10 R48, 30 R184). -/
def csOffset : Engine → Nat
  | .rcs => 0x4004 | .vcs0 => 0x4008 | .vcs1 => 0x400C | .vecs => 0x4010 | .bcs => 0x4014

/-- The GAM-to-CS message register of an engine (10 R48). -/
def gamOffset : Engine → Nat
  | .rcs => 0x3438 | .vcs0 => 0x13438 | .vcs1 => 0x1D438 | .vecs => 0x1B438 | .bcs => 0x23438

/-- The 32-bit write of message bit 0 (30 R184). -/
def msgBit0 : Word32 := 0x00010001
/-- The 32-bit write of message bit 1 (30 R184). -/
def msgBit1 : Word32 := 0x00020002

def setHs (s : State) (e : Engine) (h : HandShake) : State := s.setBank e { s.bank e with hs := h }

/-! ## PASID_State -/

def pasidCount (s : State) (p : BitVec 20) : Nat := sparseGet 0 s.iommu.pasidState p.toNat

def setPasidCount (s : State) (p : BitVec 20) (n : Nat) : State :=
  s.setIommu { s.iommu with pasidState := sparseSet 0 s.iommu.pasidState p.toNat n }

/-- An advanced context becomes resident on an engine: its counter rises (70 R515). -/
def install (s : State) (e : Engine) (p : BitVec 20) : State :=
  (setPasidCount s p (pasidCount s p + 1)).setBank e { s.bank e with resident := some p }

/-- The context of an engine is complete or taken out: its counter falls (70 R515, 45 R362). -/
def retire (s : State) (e : Engine) : State :=
  match (s.bank e).resident with
  | none => s
  | some p => (setPasidCount s p (pasidCount s p - 1)).setBank e { s.bank e with resident := none }

/-! ## Messages -/

/-- Does an engine hold a Fault-and-Stream context (60 R482)? -/
def runsStream (s : State) (e : Engine) : Bool :=
  let b := s.bank e
  b.elem.isWritten && !elemLegacy b.elem.value && faultModelOf s.plat (elemFaultField b.elem.value) == .stream

/-- Does a pending request wait for the page faults of the context that an engine runs, whatever its context ID (70 R534)? A
TR-TT walk waits under Fault and Halt whatever the context's model (60 R477). -/
def PendingReq.streamsOn (p : PendingReq) (e : Engine) : Bool := p.req.src == .engine e && p.live && p.tr.isNone

/-- A pending request once the context of a source has left: it is no longer one of the context that the source runs. -/
def PendingReq.left (p : PendingReq) (src : Source) : PendingReq :=
  if p.req.src == src then { p with live := false } else p

/-- The context of an engine is switched out: the pending requests of a Fault-and-Stream context are dropped (60 R482, 92 D43);
the others stay (45 R362). -/
def leavePending (s : State) (e : Engine) : State :=
  let drops := (s.bank e).resident.isSome && runsStream s e
  s.setReqs { s.reqs with
    pending := (s.reqs.pending.filter (fun p => !(drops && p.streamsOn e))).map (fun p => p.left (.engine e)) }

/-- The requests that a stopped context holds back go with it (47 R453: software terminates it). DESIGN CHOICE (log 22), unsafe:
the spec does not say what becomes of them. -/
def dropStopped (s : State) (e : Engine) : State :=
  if (s.bank e).stopped then
    s.setReqs { s.reqs with
      held := s.reqs.held.filter (fun h =>
        !(h.req.src == .engine e && (h.pasid.isNone || h.pasid == (s.bank e).resident))) }
  else s

/-- GAM sends Context Receive Ready (45 R353). -/
def sendReady (s : State) (e : Engine) : State := (setHs s e .readySent).emit (.gamWrite (gamOffset e) msgBit0)

/-- GAM sends Context Confirmed (45 R356). -/
def sendConfirmed (s : State) (e : Engine) : State := (setHs s e .running).emit (.gamWrite (gamOffset e) msgBit1)

/-- Receive Ready once every request of the engine's previous context has been performed (92 D32). -/
def readyIfDrained (s : State) (e : Engine) : State := if busy s (.engine e) then s else sendReady s e

/-- MSG.CONTEXT_AVAILABLE (45 R353): out of sequence unless Idle or Running; the old context, stopped or not,
is retired, the PASID Cache invalid. GAM answers as soon as the fence allows, unless it delays its answer (log 10). -/
def msgAvailable (e : Engine) (s : State) : Res State := do
  require ((s.bank e).hs == .idle || (s.bank e).hs == .running) .messageOutOfSequence
  let s := retire (leavePending (dropStopped s e) e) e
  let s := s.setBank e { s.bank e with
    pc := { (s.bank e).pc with valid := false }, hs := .availableReceived, stopped := false }
  .ok (if s.reqs.deferAcks then s else readyIfDrained s e)

/-- MSG.CONTEXT_RECEIVE_READY (45 R353): GAM's answer; it waits for the fence. -/
def msgReceiveReady (e : Engine) (s : State) : Res State := do
  require ((s.bank e).hs == .availableReceived) .messageOutOfSequence
  .ok (readyIfDrained s e)

/-- The context requirements of an advanced context (45 R355): PASID Cache and Context Cache filled, counter raised; the GTT
cache must be off (46 R394, 70 R541). -/
def launchAdvanced (s : State) (e : Engine) (d : Word64) : Res State := do
  require (!s.regs.gttCacheEnable) .gttCacheObligation
  let pdp0 ← (s.bank e).pdp0.get
  let s ← fillPc s e (elemFn d) (pasidOf pdp0)
  let (s, _) ← lookupCtx s (elemFn d)
  .ok (install s e (pasidOf pdp0))

/-- Does another engine run a context with the context ID of an Element Descriptor (70 R534)? That a context is active while
an engine runs it is the model's reading (DESIGN CHOICE, log 33), safe. -/
def ctxIdActive (s : State) (e : Engine) (d : Word64) : Bool :=
  engines.any (fun x => x != e && (s.bank x).active && ctxIdOf s (.engine x) == elemCtxId d)

/-- ERR_DESCRIPTOR when Valid = 0; the delivery continues (60 R467). -/
def checkValid (s : State) (e : Engine) (d : Word64) : State := if elemValid d then s else s.emit (.descriptorError e)

/-- MSG.CONTEXT_LAUNCHED (45 R355). A context ID that is in use is refused (70 R534, 93 U36). PD restore loads nothing (45
R357). -/
def msgLaunched (e : Engine) (s : State) : Res State := do
  require ((s.bank e).hs == .readySent) .messageOutOfSequence
  let s := setHs s e .launchedReceived
  let d ← (s.bank e).elem.get
  let s := checkValid s e d
  let m ← elemMode d
  let _ ← elemFaultModel s.plat d
  require (!ctxIdActive s e d) .contextIdReused
  let s := invalidateEngine e s
  let s ← (if m == .adv then launchAdvanced s e d else .ok s)
  .ok (if s.reqs.deferAcks then s else sendConfirmed s e)

/-- MSG.CONTEXT_CONFIRMED (45 R356): GAM's answer after PD restore. -/
def msgConfirmed (e : Engine) (s : State) : Res State := do
  require ((s.bank e).hs == .launchedReceived) .messageOutOfSequence
  .ok (sendConfirmed s e)

/-- A raw 32-bit write of a command streamer to its message register (30 R185, R206): data bit k counts if mask bit 16+k is
1; bits 15:2 and their mask bits are refused (93 U20), and both messages in one write (95 V11). -/
def csMessage (e : Engine) (v : Word32) (s : State) : Res State := do
  require (v.toNat % 2 ^ 16 / 4 == 0 && v.toNat / 2 ^ 18 == 0) .messageReservedBits
  let available := v.getLsbD 0 && v.getLsbD 16
  let launched := v.getLsbD 1 && v.getLsbD 17
  require (!(available && launched)) .messageBoth
  if available then msgAvailable e s
  else if launched then msgLaunched e s
  else .ok s

/-- The engine of a CS-to-GAM message register (10 R48). -/
def messageEngine (off : Nat) : Option Engine := engines.find? (fun e => csOffset e == off)

/-- A raw write of a command streamer to the CS-to-GAM message register at an offset. -/
def csMessageAt (off : Nat) (v : Word32) (s : State) : Res State :=
  match messageEngine off with
  | none => refuse .mmioOutsideSpec
  | some e => csMessage e v s

/-- A descriptor register with one DWord written; the other keeps its value (45 R354). -/
def DescReg.setHalf (r : DescReg) (high : Bool) (v : Word32) : DescReg :=
  if high then ⟨BitVec.ofNat 64 (v.toNat * 2 ^ 32 + field r.value 0 32), r.loWritten, true⟩
  else ⟨BitVec.ofNat 64 (field r.value 32 32 * 2 ^ 32 + v.toNat), true, r.hiWritten⟩

/-- A command streamer writes a DWord of a descriptor register: between Receive Ready and Launched (45 R354, 70 R546). DESIGN
CHOICE (log 46), safe: the spec does not say what a write at another time does, and the model refuses it, but for the root
pointers of a running context, whose change in place is the spec's own `refuse` (70 R532, 93 U36). -/
def csWrite (e : Engine) (d : DescName) (high : Bool) (v : Word32) (s : State) : Res State := do
  require ((s.bank e).hs == .readySent) .descriptorWriteOutOfPhase
  .ok (s.setBank e ((s.bank e).setDesc d (DescReg.setHalf ((s.bank e).desc d) high v)))

/-! ## The twenty rows (30 R184) -/

/-- MSG.CONTEXT_AVAILABLE.RCS. -/
def execAvailableRcs (s : State) : Host.Outcome State Fault Refusal := toOutcome (msgAvailable .rcs s)
/-- MSG.CONTEXT_RECEIVE_READY.RCS. -/
def execReceiveReadyRcs (s : State) : Host.Outcome State Fault Refusal := toOutcome (msgReceiveReady .rcs s)
/-- MSG.CONTEXT_LAUNCHED.RCS. -/
def execLaunchedRcs (s : State) : Host.Outcome State Fault Refusal := toOutcome (msgLaunched .rcs s)
/-- MSG.CONTEXT_CONFIRMED.RCS. -/
def execConfirmedRcs (s : State) : Host.Outcome State Fault Refusal := toOutcome (msgConfirmed .rcs s)
/-- MSG.CONTEXT_AVAILABLE.BCS. -/
def execAvailableBcs (s : State) : Host.Outcome State Fault Refusal := toOutcome (msgAvailable .bcs s)
/-- MSG.CONTEXT_RECEIVE_READY.BCS. -/
def execReceiveReadyBcs (s : State) : Host.Outcome State Fault Refusal := toOutcome (msgReceiveReady .bcs s)
/-- MSG.CONTEXT_LAUNCHED.BCS. -/
def execLaunchedBcs (s : State) : Host.Outcome State Fault Refusal := toOutcome (msgLaunched .bcs s)
/-- MSG.CONTEXT_CONFIRMED.BCS. -/
def execConfirmedBcs (s : State) : Host.Outcome State Fault Refusal := toOutcome (msgConfirmed .bcs s)
/-- MSG.CONTEXT_AVAILABLE.VECS. -/
def execAvailableVecs (s : State) : Host.Outcome State Fault Refusal := toOutcome (msgAvailable .vecs s)
/-- MSG.CONTEXT_RECEIVE_READY.VECS. -/
def execReceiveReadyVecs (s : State) : Host.Outcome State Fault Refusal := toOutcome (msgReceiveReady .vecs s)
/-- MSG.CONTEXT_LAUNCHED.VECS. -/
def execLaunchedVecs (s : State) : Host.Outcome State Fault Refusal := toOutcome (msgLaunched .vecs s)
/-- MSG.CONTEXT_CONFIRMED.VECS. -/
def execConfirmedVecs (s : State) : Host.Outcome State Fault Refusal := toOutcome (msgConfirmed .vecs s)
/-- MSG.CONTEXT_AVAILABLE.VCS0. -/
def execAvailableVcs0 (s : State) : Host.Outcome State Fault Refusal := toOutcome (msgAvailable .vcs0 s)
/-- MSG.CONTEXT_RECEIVE_READY.VCS0. -/
def execReceiveReadyVcs0 (s : State) : Host.Outcome State Fault Refusal := toOutcome (msgReceiveReady .vcs0 s)
/-- MSG.CONTEXT_LAUNCHED.VCS0. -/
def execLaunchedVcs0 (s : State) : Host.Outcome State Fault Refusal := toOutcome (msgLaunched .vcs0 s)
/-- MSG.CONTEXT_CONFIRMED.VCS0. -/
def execConfirmedVcs0 (s : State) : Host.Outcome State Fault Refusal := toOutcome (msgConfirmed .vcs0 s)
/-- MSG.CONTEXT_AVAILABLE.VCS1. -/
def execAvailableVcs1 (s : State) : Host.Outcome State Fault Refusal := toOutcome (msgAvailable .vcs1 s)
/-- MSG.CONTEXT_RECEIVE_READY.VCS1. -/
def execReceiveReadyVcs1 (s : State) : Host.Outcome State Fault Refusal := toOutcome (msgReceiveReady .vcs1 s)
/-- MSG.CONTEXT_LAUNCHED.VCS1. -/
def execLaunchedVcs1 (s : State) : Host.Outcome State Fault Refusal := toOutcome (msgLaunched .vcs1 s)
/-- MSG.CONTEXT_CONFIRMED.VCS1. -/
def execConfirmedVcs1 (s : State) : Host.Outcome State Fault Refusal := toOutcome (msgConfirmed .vcs1 s)

end Sys2Proof.Machine
end

