-- ==== Sys2Proof/Machine/Reset.lean ====
section
/-! DEFINITION. The three resets (70 R510 to R517). -/

namespace Sys2Proof.Machine

/-- Requests of a source still in flight, waiting or pending are discarded without completing (70 R511, R513). DESIGN CHOICE
(log 41), unsafe: by 10 R70 and 45 R362 those in PENDING stay, and the parameter says which of the two holds; what stays belongs
to no running context. -/
def discardRequests (src : Source) (s : State) : State :=
  s.setReqs { s.reqs with
    held := s.reqs.held.filter (fun h => h.req.src != src)
    pending := if s.plat.keepRequests then s.reqs.pending.map (fun p => p.left src)
      else s.reqs.pending.filter (fun p => p.req.src != src)
    inflight := s.reqs.inflight.filter (fun f => f.req.src != src) }

/-- A descriptor register after an engine reset: its value is unspecified (70 R511), the n-th free one. -/
def freeDesc (n : Nat) (d : DescReg) : DescReg := { d with value := Config.freeWord n }

/-- A descriptor register after a device or bus reset: no command streamer has written it since (93 U1). -/
def DescReg.unwritten (d : DescReg) : DescReg := { d with loWritten := false, hiWritten := false }

/-- A PASID Cache with no entry (46 R392). -/
def PasidCache.invalid : PasidCache := ⟨false, 0, false, false⟩

/-- An engine's bank after its reset (70 R511): `n` numbers the free values of the descriptor registers, `keepPc` says that the
PASID Cache stays. -/
def resetBank (keepPc : Bool) (n : Nat) (b : Bank) : Bank where
  elem := freeDesc n b.elem
  pdp0 := freeDesc (n + 1) b.pdp0
  pdp1 := freeDesc (n + 2) b.pdp1
  pdp2 := freeDesc (n + 3) b.pdp2
  pdp3 := freeDesc (n + 4) b.pdp3
  hs := .idle
  hung := false
  stopped := false
  pc := if keepPc then b.pc else .invalid
  resident := none

/-- A bank whose descriptor registers no command streamer has written (10 R46, R70). -/
def Bank.unwritten (b : Bank) : Bank :=
  { b with
    elem := b.elem.unwritten, pdp0 := b.pdp0.unwritten, pdp1 := b.pdp1.unwritten, pdp2 := b.pdp2.unwritten
    pdp3 := b.pdp3.unwritten }

/-- A bank whose PASID Cache a bus reset has cleared (10 R70). -/
def Bank.clearPc (b : Bank) : Bank := { b with pc := .invalid }

/-- One change of every bank. -/
def Banks.map (f : Bank → Bank) (b : Banks) : Banks := ⟨f b.rcs, f b.bcs, f b.vecs, f b.vcs0, f b.vcs1⟩

/-- What RESET.ENGINE(e), and a device reset, do to an engine (70 R511): TLBs, walk caches, page requests, CC, memory and MMIO
registers stay. -/
def resetEngineOp (keepPc : Bool) (e : Engine) (s : State) : State :=
  let s := discardRequests (.engine e) (retire s e)
  (s.setFree (s.free + 5)).setBank e (resetBank keepPc s.free (s.bank e))

/-- The reset of WDBox, which has no command streamer: its hang ends and its requests are discarded (10 R47, R66). -/
def resetWdbox (s : State) : State := discardRequests .wdbox (s.setWdboxHung false)

/-- The reset of the second VEBOX, taken like that of WDBox (90 C1). -/
def resetVebox2 (s : State) : State := discardRequests .vebox2 (s.setVebox2Hung false)

/-- The reset of one source (70 R511), which makes an engine's PASID Cache invalid (45 R362); display and aperture have no state
of their own. -/
def resetSource : Source → State → State
  | .engine e, s => resetEngineOp false e s
  | .wdbox, s => resetWdbox s
  | .vebox2, s => resetVebox2 s
  | .display, s => s
  | .aperture, s => s

/-- Every engine, WDBox and the second VEBOX, at a device reset. DESIGN CHOICE (log 41), unsafe: 10 R70 lets a PASID Cache entry
outlive a device reset, 70 R511 and R517 make it invalid, and the parameter says which of the two holds. -/
def resetAllSources (s : State) : State :=
  let keepPc := s.plat.keepPasidCache
  resetVebox2 (resetWdbox (resetEngineOp keepPc .bcs (resetEngineOp keepPc .vecs (resetEngineOp keepPc .vcs1
    (resetEngineOp keepPc .vcs0 (resetEngineOp keepPc .rcs s))))))

/-- The MMIO registers after a device reset (70 R514, R517): defaults, and free values where R517 says unspecified. -/
def resetRegs (n : Nat) : Regs where
  trttL3ptr := 0
  trttNull := 0
  trttInvalid := 0
  trvadr := 0
  trtte := 0
  bypassDis := false
  colorZ := Config.freeBool n
  adNonwbIgnore := false
  ipsEnable := Config.freeBool (n + 1)
  gttCacheEnable := Config.freeBool (n + 2)
  nullTileCount := Config.freeNat n

/-- RESET.DEVICE (70 R514): every engine, the MMIO registers, all pending requests, but where hardware keeps them (10 R70; log
41); no descriptor register counts as written (93 U1). IOMMU contents, CC, page requests already delivered, memory and the
translation caches stay. -/
def resetDeviceOp (s : State) : State :=
  let s := resetAllSources s
  let s := (s.setRegs (resetRegs s.free)).setFree (s.free + 3)
  let s := s.setBanks (s.banks.map Bank.unwritten)
  s.setReqs { s.reqs with pending := if s.plat.keepRequests then s.reqs.pending else [], awaitingReset := false }

/-- RESET.BUS (70 R510, R514, R517): a device reset, and the IOMMU-related blocks with the invalidation waits, the PASID Caches
(10 R70), the page requests, and what display and aperture have under way: its scope is everything. DESIGN CHOICE (log 41),
unsafe: 10 R70 says that hardware does not clear PAGE_REQUESTS, 70 R517 that this reset does, and the parameter says which of
the two holds. -/
def resetBusOp (s : State) : State :=
  let s := resetDeviceOp s
  let s := s.setBanks (s.banks.map Bank.clearPc)
  (s.setIommu ⟨[], [], [], []⟩).setReqs
    { s.reqs with
      held := [], inflight := [], invWaits := 0
      pageRequests := if s.plat.keepRequests then s.reqs.pageRequests else [] }

/-- RESET.ENGINE (70 R511). -/
def execResetEngine (src : Source) (s : State) : Host.Outcome State Fault Refusal := toOutcome (.ok (resetSource src s))
/-- RESET.DEVICE (70 R514). -/
def execResetDevice (s : State) : Host.Outcome State Fault Refusal := toOutcome (.ok (resetDeviceOp s))
/-- RESET.BUS (70 R514). -/
def execResetBus (s : State) : Host.Outcome State Fault Refusal := toOutcome (.ok (resetBusOp s))

end Sys2Proof.Machine
end

