-- ==== Sys2Proof/Machine/Trtt.lean ====
section
/-! DEFINITION. The TR-TT walk: a TR-VA to a tile address, Null or Invalid (40 R223 to R230). -/

namespace Sys2Proof.Machine

/-- The index of a TR-TT level (30 R193). -/
def trIndex (level : Nat) (va : Word64) : Nat :=
  match level with
  | 3 => field va 35 9
  | 2 => field va 26 9
  | _ => field va 16 10

/-- The entry size of a TR-TT level in bytes: L1 entries are DWords (30 R195). -/
def trEntrySize (level : Nat) : Nat := if level == 1 then 4 else 8

/-- The output address of a tile (30 R197). -/
def tileVa (l1 : Word32) (va : Word64) : Word64 := sext48 (l1.toNat * 2 ^ 16 + offsetOf 16 va)

/-- A non-recoverable fault on a TR-TT table read (40 R230): the read returns a free value, and the state is from then on
awaiting a reset. -/
def trBadRead (s : State) : State × Word64 :=
  ((drawWord s).2.setReqs { (drawWord s).2.reqs with awaitingReset := true }, (drawWord s).1)

/-- What a TR-TT table read gives: a value, or `none` when the walk waits for a page response, or when a catastrophic error has
ended the request as an errored cycle (60 R466; log 17). What its walk may leave in the
caches is remembered (46 R385, R390); it goes through the final TLB of the requesting client (log 42). -/
def trRead (s : State) (c : Ctx) (use : CacheUse) (r : Request) (level : Nat) (base tva : Word64) :
    Res (State × Option Word64) := do
  let (s, x, w) ← xlate s ⟨c, use, r.client.tlbGroup, tva, false, false⟩
  let s := setWalked s (joinRec w s.walker.walked)
  match x with
  | .phys pa _ => do
    let bs ← memRead s pa (trEntrySize level)
    .ok (s, some (BitVec.ofNat 64 (leNat bs)))
  | .null => .ok (s, some 0)
  | .fault reason _ =>
    if c.sendsRequest then do
      let s ← takePageFault s c r tva reason (some ⟨level, base⟩)
      .ok (s, none)
    else .ok ((trBadRead s).1, some (trBadRead s).2)
  | .filtered _ => .ok (filteredFault s c r tva (some ⟨level, base⟩), none)
  | .abandoned => .ok (erroredCycle s r, none)

/-- The entry of a level: a value that is given, or the table read. -/
def trValue (s : State) (c : Ctx) (use : CacheUse) (r : Request) (level : Nat) (base tva : Word64) :
    Option Word64 → Res (State × Option Word64)
  | some v => .ok (s, some v)
  | none => trRead s c use r level base tva

/-- The TR-TT walk over the remaining levels from the table at `base`; `forced` is the free value of a read that failed.
`none` when the walk waits or its request has ended. A table inside the TR-VA range is refused (40 R232). -/
def trLevels (c : Ctx) (use : CacheUse) (r : Request) :
    List Nat → State → Word64 → Option Word64 → Res (State × Option TrResult)
  | [], _, _, _ => refuse .noLeaf
  | level :: rest, s, base, forced => do
    let tva := base + BitVec.ofNat 64 (trEntrySize level * trIndex level r.va)
    require (!isTrva s.regs tva) .trttTableInTrva
    let (s, v) ← trValue s c use r level base tva forced
    match v with
    | none => .ok (s, none)
    | some v =>
      match (if level == 1 then trL1Out s.regs (v.truncate 32) else trPointerOut v) with
      | .trNull => .ok (s, some .null)
      | .trInvalid => .ok (s, some .invalid)
      | .trTile l1 => .ok (s, some (.tile l1))
      | .trTable b => trLevels c use r rest s (sext48 b.toNat) none
      | .start => refuse .noLeaf
      | .table _ => refuse .noLeaf
      | .leaf _ _ _ => refuse .noLeaf

/-- The levels from a given one down. -/
def trLevelsFrom (level : Nat) : List Nat :=
  match level with
  | 3 => [3, 2, 1]
  | 2 => [2, 1]
  | _ => [1]

/-- A cached TR-TT result for the tile of an address (46 R397). -/
def trFind (s : State) (t : Tag) (va : Word64) : Option TrResult :=
  (s.caches.tr.find? (fun x => x.tag == t && x.tile == tileOf va)).map (·.result)

/-- The TR-TT walk from the L3 table (40 R223). -/
def trWalk (s : State) (c : Ctx) (use : CacheUse) (r : Request) : Res (State × Option TrResult) :=
  trLevels c use r [3, 2, 1] (setWalked s none) (trttL3Base s.regs) none

end Sys2Proof.Machine
end

