-- ==== Sys2Proof/Machine/Translate.lean ====
section
/-! DEFINITION. The complete translation of a request (40 R220), the data access that GTI then performs (47 R455, R457), and
the XLATE rows and TLB.LOOKUP. -/

namespace Sys2Proof.Machine

/-- Are requests of a source translated now: HS = Running, not hung, and its context not stopped (45 R356, 60 R478, 47 R453)? A
request that once belonged to a PASID also waits for its context (log 11). -/
def gateOpen (s : State) (h : Option (BitVec 20)) : Source → Bool
  | .engine e => (s.bank e).hs == .running && !(s.bank e).hung && !(s.bank e).stopped && (h.isNone || (s.bank e).resident == h)
  | .wdbox => !s.wdboxHung
  | .vebox2 => !s.vebox2Hung
  | .display => true
  | .aperture => true

/-- May the access of a translated request reach a physical address? A CPU reaches GSM through the GTT alias only, and the model
has no transition for a CPU access that an aperture translation leads there (20 R90, R92; log 43). -/
def mayReach (p : Platform) (r : Request) (pa : Nat) : Bool :=
  !(r.src == .aperture && touches p.gsmBase p.gsmSize pa r.acc.size)

/-- Translate an address by the tables of the context and act on the outcome (00 R13): the data access goes to GTI, the
request completes as null, a page fault is taken, or the request ends as an errored cycle (60 R466). `prior` is the record
of the TR-TT stage in front of it. -/
def finalXlate (s : State) (c : Ctx) (use : CacheUse) (r : Request) (va : Word64) (prior : Option WalkRecord) :
    Res State := do
  let (s, x, w) ← xlate s ⟨c, use, r.client.tlbGroup, va, r.acc.isWrite, r.er⟩
  let s := setWalked s (joinRec w prior)
  match x with
  | .phys pa attrs => do
    require (mayReach s.plat r pa) .stolenNotVisible
    .ok (s.addInFlight ⟨r, c.ctxid, pa, attrs⟩)
  | .null => .ok (nullCompletion s r)
  | .fault reason _ => takePageFault s c r va reason none
  | .filtered _ => .ok (filteredFault s c r va none)
  | .abandoned => .ok (erroredCycle s r)

/-- One more Null tile access (40 R227). -/
def countNullTile (s : State) : State := s.setRegs { s.regs with nullTileCount := s.regs.nullTileCount + 1 }

/-- Act on the outcome of the TR-TT stage (40 R220, R227, R228). A tile inside the TR-VA range is refused (40 R220). -/
def afterTr (s : State) (c : Ctx) (use : CacheUse) (r : Request) (x : TrResult) : Res State :=
  match x with
  | .null => .ok (nullCompletion (countNullTile s) r)
  | .invalid => .ok (nullCompletion (s.emit (.invalidTile r.va)) r)
  | .tile l1 => do
    require (!isTrva s.regs (tileVa l1 r.va)) .trttTileInTrva
    finalXlate s c use r (tileVa l1 r.va) s.walker.walked

/-- The result of a TR-TT walk may be cached (46 R397). -/
def recordTr (s : State) (c : Ctx) (r : Request) (x : TrResult) : State :=
  setWalked s (joinRec (some ⟨[], [], [], [⟨c.tag, tileOf r.va, x⟩], []⟩) s.walker.walked)

/-- A request whose TR-TT walk has a result, or waits, or has ended it. -/
def finishTr (c : Ctx) (use : CacheUse) (r : Request) : State × Option TrResult → Res State
  | (s, none) => .ok s
  | (s, some x) => afterTr (recordTr s c r x) c use r x

/-- A cached TR-TT result that a translation uses, if it chooses to (46 R397). -/
def trCopy (s : State) (c : Ctx) (use : CacheUse) (r : Request) : Option TrResult :=
  if use.tr then trFind s c.tag r.va else none

/-- The TR-TT stage of an address it applies to, or of which a result made under an old TRVADR is used (46 R381); `direct` is
the translation without it. -/
def throughTr (s : State) (c : Ctx) (use : CacheUse) (r : Request) (direct : Res State) : Res State :=
  match trCopy s c use r with
  | some x => afterTr (setWalked s none) c use r x
  | none =>
    if isTrva s.regs r.va then do
      let x ← trWalk s c use r
      finishTr c use r x
    else direct

/-- The translation of a request in its context (40 R220). While TR-TT is on, a TLB entry for the address itself, made under
an old TRVADR, may still answer (46 R381). DESIGN CHOICE (log 14), unsafe: so may one made while TRTTE.EN was 0 or the bypass
was on, which 46 R381 does not list. One that does not pass the checks of a hit is dropped, and the translation is made
again with the TR-TT stage in front (46 R384, R386). -/
def translateIn (s : State) (c : Ctx) (use : CacheUse) (r : Request) : Res State := do
  let act ← trttActive s.regs r.src c.tag.mode
  let direct := finalXlate s c use r r.va none
  if act then
    match tlbLookup s ⟨c, use, r.client.tlbGroup, r.va, r.acc.isWrite, r.er⟩ with
    | .hit _ => direct
    | .filtered _ => direct
    | .dropMiss t use => throughTr (dropTlb s t) c use r direct
    | .miss => throughTr s c use r direct
  else direct

/-- `translate(req)` (40 R220): a request waits while its source is not Running (45 R356). -/
def translate (use : CacheUse) (h : Option (BitVec 20)) (r : Request) (s : State) : Res State := do
  require r.wellFormed .requestCrossesPage
  if gateOpen s h r.src then do
    let (s, c) ← contextOf s r.src r.va
    translateIn s c use r
  else .ok (s.addHeld ⟨r, h⟩)

/-! ## The data access (GTI) -/

/-- A list cut or padded with zeros to a length. -/
def fitTo (n : Nat) (l : List Byte) : List Byte := (l ++ List.replicate n 0).take n

/-- The data access of a translated request: read, write, or the atomic of 47 R455 on write-back memory; on other memory
types Catastrophic(NonWBAtomic), no memory change and free data (47 R457). DESIGN CHOICE (log 48), unsafe: an instruction fetch
reads memory as every store performed so far has left it, of which the spec says nothing (20 R119). -/
def performAccess (s : State) (f : InFlight) : Res State :=
  match f.req.acc with
  | .read n => do
    let d ← memRead s f.pa n
    .ok (s.respond f.req d false)
  | .fetch n => do
    let d ← memRead s f.pa n
    .ok (s.respond f.req d false)
  | .write d => do
    let s ← memWrite s f.pa d
    .ok (s.respond f.req [] false)
  | .atomic op operand =>
    if memType s.plat f.pa == .wb then do
      let old ← memRead s f.pa operand.length
      let new := fitTo operand.length (Config.atomicFn op operand old)
      let s ← memWrite s f.pa new
      .ok (s.respond f.req new false)
    else .ok (invalidCycle (reportCatastrophic s f.req.src f.ctxid .nonWBAtomic) f.req)

/-- GTI performs the k-th access in flight; none of a hung source completes (60 R478). -/
def performAt (k : Nat) (s : State) : Res State :=
  match s.reqs.inflight[k]? with
  | none => .ok s
  | some f =>
    if isHung s f.req.src then .ok s
    else do
      let s ← performAccess (s.setReqs { s.reqs with inflight := s.reqs.inflight.eraseIdx k }) f
      .ok (flushWaits s)

/-- GAM takes up the k-th held request, if its source is Running again. -/
def grantAt (k : Nat) (use : CacheUse) (s : State) : Res State :=
  match s.reqs.held[k]? with
  | none => .ok s
  | some h =>
    if gateOpen s h.pasid h.req.src then
      translate use h.pasid h.req (s.setReqs { s.reqs with held := s.reqs.held.eraseIdx k })
    else .ok s

/-! ## The XLATE rows -/

/-- The Element Descriptor a source's requests are translated under (10 R41, R47). -/
def sourceElem (s : State) : Source → Res Word64
  | .engine e => (s.bank e).elem.get
  | .wdbox => .ok defaultElem
  | .vebox2 => .ok defaultElem
  | .display => .ok defaultElem
  | .aperture => .ok defaultElem

/-- An XLATE row applies to a source that holds its Element Descriptor, Valid aside (opcode table; log 13). -/
def rowApplies (s : State) (m : Mode) (elem : Word64) (src : Source) : Res Unit := do
  let d ← sourceElem s src
  let m' ← elemMode d
  require (d ||| 1 == elem ||| 1 && m' == m) .descriptorMismatch

/-- An XLATE row: the complete translation, from memory, of a request of a source in the row's mode. -/
def rowXlate (m : Mode) (elem : Word64) (r : Request) (s : State) : Res State := do
  if gateOpen s none r.src then rowApplies s m elem r.src
  translate noCache none r s

/-- XLATE.GGTT (43 R300). -/
def execXlateGgtt (elem : Word64) (r : Request) (s : State) : Host.Outcome State Fault Refusal :=
  toOutcome (rowXlate .ggtt elem r s)
/-- XLATE.PPGTT32 (41 R251). -/
def execXlatePpgtt32 (elem : Word64) (r : Request) (s : State) : Host.Outcome State Fault Refusal :=
  toOutcome (rowXlate .ppgtt32 elem r s)
/-- XLATE.PPGTT48 (42 R272). -/
def execXlatePpgtt48 (elem : Word64) (r : Request) (s : State) : Host.Outcome State Fault Refusal :=
  toOutcome (rowXlate .ppgtt48 elem r s)
/-- XLATE.ADV (44 R317). -/
def execXlateAdv (elem : Word64) (r : Request) (s : State) : Host.Outcome State Fault Refusal :=
  toOutcome (rowXlate .adv elem r s)
/-- XLATE.TRTT (40 R220, R223): the complete translation, from memory, with the TR-TT stage in front where it applies. -/
def execXlateTrtt (r : Request) (s : State) : Host.Outcome State Fault Refusal :=
  toOutcome (translate noCache none r s)
/-- TLB.LOOKUP (46 R384): the translation that uses cached copies where it chooses to. -/
def execTlbLookup (use : CacheUse) (r : Request) (s : State) : Host.Outcome State Fault Refusal :=
  toOutcome (translate use none r s)

end Sys2Proof.Machine
end

