-- ==== Sys2Proof/Machine/Response.lean ====
section
/-! DEFINITION. The page response, this machine's return from a page fault (60 R483, R487, R488; 40 R230). -/

namespace Sys2Proof.Machine

/-- Does a response for an address answer this pending request: same PASID, same 4 KB page of the faulting address? -/
def PendingReq.answeredBy (q : PendingReq) (p : BitVec 20) (va : Word64) : Bool :=
  q.pasid == p && pageOf q.va.toNat == pageOf va.toNat

/-- Does a response answer this page request? -/
def PageReq.answeredBy (q : PageReq) (p : BitVec 20) (va : Word64) : Bool :=
  q.pasid == p && pageOf q.va.toNat == pageOf va.toNat

/-- Continue a suspended TR-TT walk at the level whose table read faulted; `forced` is the free value of a read that is
not to be repaired (40 R230). What the TR-TT registers must not hold is looked at again (30 R206). -/
def resumeTr (c : Ctx) (use : CacheUse) (r : Request) (pt : TrPoint) (s : State) (forced : Option Word64) : Res State := do
  trttLegal s.regs
  let x ← trLevels c use r (trLevelsFrom pt.level) (setWalked s none) pt.base forced
  finishTr c use r x

/-- A successful response: the translation is redone from the TLB look-up (60 R483); a suspended TR-TT walk redoes its table
read and goes on (40 R230). DEDUCED (log 21), unsafe: one that faulted in the walk of the tile that TR-TT gave is translated
again from its own address, with the TR-TT stage in front. While its context is not running the request waits, and is then
translated from the start. DESIGN CHOICE (log 11), unsafe: where another context of the same PASID runs on Render by then, a
suspended TR-TT walk goes on from the table base of the context that faulted, under the TRTT_NULL, TRTT_INVALID, TRVADR and
TRTTE that the running context has loaded; 60 R483 does not speak of it. -/
def resumeFixed (use : CacheUse) (q : PendingReq) (s : State) : Res State :=
  match q.tr with
  | none => translate use (some q.pasid) q.req s
  | some pt =>
    if gateOpen s (some q.pasid) q.req.src then do
      let (s, c) ← contextOf s q.req.src q.req.va
      resumeTr c use q.req pt s none
    else .ok (s.addHeld ⟨q.req, some q.pasid⟩)

/-- An unsuccessful response: the request completes as an invalid cycle (60 R487); a suspended TR-TT walk goes on with a
free value and the state awaits a reset (40 R230), or, its context gone, the request completes as an invalid cycle. No
request of a hung source completes (60 R478, 93 U29): it waits until the reset that ends the hang discards it. -/
def resumeUnfixed (use : CacheUse) (q : PendingReq) (s : State) : Res State :=
  if isHung s q.req.src then .ok (s.addHeld ⟨q.req, some q.pasid⟩)
  else match q.tr with
  | none => .ok (invalidCycle s q.req)
  | some pt =>
    if gateOpen s (some q.pasid) q.req.src then do
      let (s, c) ← contextOf s q.req.src q.req.va
      resumeTr c use q.req pt (trBadRead s).1 (some (trBadRead s).2)
    else .ok (invalidCycle (trBadRead s).1 q.req)

/-- Every answered request in turn, oldest first; the record of walks is that of all of them (46 R385, R390). DESIGN CHOICE
(log 14), unsafe: 46 R380 leaves the use of cached copies open for each translation, and the requests that one page response
resumes share one `CacheUse`. -/
def resumeAll (success : Bool) (use : CacheUse) : List PendingReq → State → Res State
  | [], s => .ok s
  | q :: rest, s => do
    let t ← (if success then resumeFixed use q s else resumeUnfixed use q s)
    resumeAll success use rest (setWalked t (joinRec t.walker.walked s.walker.walked))

/-- PAGE_RESPONSE (60 R483). -/
def pageResponseOp (p : BitVec 20) (va : Word64) (success : Bool) (use : CacheUse) (s : State) : Res State :=
  let answered := s.reqs.pending.filter (fun q => PendingReq.answeredBy q p va)
  let s := invalidateFaulted p va s
  let s := s.setReqs { s.reqs with
    pageRequests := s.reqs.pageRequests.filter (fun q => !PageReq.answeredBy q p va)
    pending := s.reqs.pending.filter (fun q => !PendingReq.answeredBy q p va) }
  resumeAll success use answered s

/-- PAGE_RESPONSE (60 R483). -/
def execPageResponse (p : BitVec 20) (va : Word64) (success : Bool) (use : CacheUse) (s : State) :
    Host.Outcome State Fault Refusal := toOutcome (pageResponseOp p va success use s)

end Sys2Proof.Machine
end

