-- ==== Sys2Proof/Machine/Dispatch.lean ====
section
/-! DEFINITION. One arm for each operation of the opcode table, each a call of its meaning. -/

namespace Sys2Proof.Machine

def exec (i : Instr) (s : State) : Host.Outcome State Fault Refusal :=
  match i with
  | .xlateGgtt elem r => Sys2Proof.Machine.execXlateGgtt elem r s
  | .xlatePpgtt32 elem r => Sys2Proof.Machine.execXlatePpgtt32 elem r s
  | .xlatePpgtt48 elem r => Sys2Proof.Machine.execXlatePpgtt48 elem r s
  | .xlateAdv elem r => Sys2Proof.Machine.execXlateAdv elem r s
  | .xlateTrtt r => Sys2Proof.Machine.execXlateTrtt r s
  | .iaPml4e e => Sys2Proof.Machine.execIaPml4e e s
  | .iaPdpePd e => Sys2Proof.Machine.execIaPdpePd e s
  | .iaPdpe1G e => Sys2Proof.Machine.execIaPdpe1G e s
  | .iaPdePt e fl64k => Sys2Proof.Machine.execIaPdePt e fl64k s
  | .iaPde2M e => Sys2Proof.Machine.execIaPde2M e s
  | .iaPte64K e => Sys2Proof.Machine.execIaPte64K e s
  | .iaPte4K e => Sys2Proof.Machine.execIaPte4K e s
  | .p32Pde e => Sys2Proof.Machine.execP32Pde e s
  | .p32Pte64K e => Sys2Proof.Machine.execP32Pte64K e s
  | .p32Pte4K e => Sys2Proof.Machine.execP32Pte4K e s
  | .p48Pml4e e => Sys2Proof.Machine.execP48Pml4e e s
  | .p48PdpePd e => Sys2Proof.Machine.execP48PdpePd e s
  | .p48Pdpe1G e => Sys2Proof.Machine.execP48Pdpe1G e s
  | .p48PdePt e => Sys2Proof.Machine.execP48PdePt e s
  | .p48Pde2M e => Sys2Proof.Machine.execP48Pde2M e s
  | .p48Pte64K e => Sys2Proof.Machine.execP48Pte64K e s
  | .p48Pte4K e => Sys2Proof.Machine.execP48Pte4K e s
  | .ggttPte e => Sys2Proof.Machine.execGgttPte e s
  | .trttL3e e => Sys2Proof.Machine.execTrttL3e e s
  | .trttL2e e => Sys2Proof.Machine.execTrttL2e e s
  | .trttL1e e => Sys2Proof.Machine.execTrttL1e e s
  | .apu0000 src pa => Sys2Proof.Machine.execApu0000 src pa s
  | .apu0001 src pa => Sys2Proof.Machine.execApu0001 src pa s
  | .apu0010 src pa => Sys2Proof.Machine.execApu0010 src pa s
  | .apu0011 src pa => Sys2Proof.Machine.execApu0011 src pa s
  | .apu0100 src pa => Sys2Proof.Machine.execApu0100 src pa s
  | .apu0101 src pa => Sys2Proof.Machine.execApu0101 src pa s
  | .apu0110 src pa => Sys2Proof.Machine.execApu0110 src pa s
  | .apu0111 src pa => Sys2Proof.Machine.execApu0111 src pa s
  | .apu1000 src pa => Sys2Proof.Machine.execApu1000 src pa s
  | .apu1001 src pa => Sys2Proof.Machine.execApu1001 src pa s
  | .apu1010 src pa => Sys2Proof.Machine.execApu1010 src pa s
  | .apu1011 src pa => Sys2Proof.Machine.execApu1011 src pa s
  | .apu1100 src pa => Sys2Proof.Machine.execApu1100 src pa s
  | .apu1101 src pa => Sys2Proof.Machine.execApu1101 src pa s
  | .apu1110 src pa => Sys2Proof.Machine.execApu1110 src pa s
  | .apu1111 src pa => Sys2Proof.Machine.execApu1111 src pa s
  | .availableRcs => Sys2Proof.Machine.execAvailableRcs s
  | .receiveReadyRcs => Sys2Proof.Machine.execReceiveReadyRcs s
  | .launchedRcs => Sys2Proof.Machine.execLaunchedRcs s
  | .confirmedRcs => Sys2Proof.Machine.execConfirmedRcs s
  | .availableBcs => Sys2Proof.Machine.execAvailableBcs s
  | .receiveReadyBcs => Sys2Proof.Machine.execReceiveReadyBcs s
  | .launchedBcs => Sys2Proof.Machine.execLaunchedBcs s
  | .confirmedBcs => Sys2Proof.Machine.execConfirmedBcs s
  | .availableVecs => Sys2Proof.Machine.execAvailableVecs s
  | .receiveReadyVecs => Sys2Proof.Machine.execReceiveReadyVecs s
  | .launchedVecs => Sys2Proof.Machine.execLaunchedVecs s
  | .confirmedVecs => Sys2Proof.Machine.execConfirmedVecs s
  | .availableVcs0 => Sys2Proof.Machine.execAvailableVcs0 s
  | .receiveReadyVcs0 => Sys2Proof.Machine.execReceiveReadyVcs0 s
  | .launchedVcs0 => Sys2Proof.Machine.execLaunchedVcs0 s
  | .confirmedVcs0 => Sys2Proof.Machine.execConfirmedVcs0 s
  | .availableVcs1 => Sys2Proof.Machine.execAvailableVcs1 s
  | .receiveReadyVcs1 => Sys2Proof.Machine.execReceiveReadyVcs1 s
  | .launchedVcs1 => Sys2Proof.Machine.execLaunchedVcs1 s
  | .confirmedVcs1 => Sys2Proof.Machine.execConfirmedVcs1 s
  | .tlbLookup use r => Sys2Proof.Machine.execTlbLookup use r s
  | .tlbFill sel => Sys2Proof.Machine.execTlbFill sel s
  | .tlbinvCs => Sys2Proof.Machine.execTlbinvCs s
  | .tlbinvSvm scope stages => Sys2Proof.Machine.execTlbinvSvm scope stages s
  | .tlbinvCtxsw e => Sys2Proof.Machine.execTlbinvCtxsw e s
  | .tlbinvPageResponse pasid va => Sys2Proof.Machine.execTlbinvPageResponse pasid va s
  | .invWait => Sys2Proof.Machine.execInvWait s
  | .gttWrite off w value => Sys2Proof.Machine.execGttWrite off w value s
  | .gttRead off w => Sys2Proof.Machine.execGttRead off w s
  | .miUpdateGtt g value => Sys2Proof.Machine.execMiUpdateGtt g value s
  | .pageResponse pasid va success use => Sys2Proof.Machine.execPageResponse pasid va success use s
  | .resetEngine src => Sys2Proof.Machine.execResetEngine src s
  | .resetDevice => Sys2Proof.Machine.execResetDevice s
  | .resetBus => Sys2Proof.Machine.execResetBus s

end Sys2Proof.Machine
end

