-- ==== Sys2Proof/Machine/Env.lean ====
section
/-! DEFINITION. Events that are no row of the opcode table: CPU accesses (20 R80 to R92, R97), register accesses by name
(92 D24), replacement, changes of the IOMMU's tables; and what the machine does on its own when no event is queued. -/

namespace Sys2Proof.Machine

/-! ## Registers in the MMIO half of GTTMMADR (20 R88) -/

/-- What a DWord offset of the register half belongs to. -/
inductive MmioReg where
  /-- 0x4DFC (10 R27). -/
  | bypass
  /-- 0x4A30 (10 R29). -/
  | colorZ
  /-- A message register (10 R48). -/
  | message
  /-- A half of a descriptor register (10 R40). -/
  | descriptor (e : Engine) (d : DescName) (high : Bool)
  /-- The Null range (20 R89). -/
  | nullRange
  /-- A register of other volumes. -/
  | foreign
  deriving DecidableEq, Repr

/-- The engine of a descriptor bank, by its place from 0x4400 (10 R40). -/
def descEngine : Nat → Option Engine
  | 0 => some .rcs
  | 1 => some .vcs0
  | 2 => some .vcs1
  | 3 => some .vecs
  | 4 => some .bcs
  | _ => none

/-- The descriptor register at a place in its bank (10 R40). -/
def descName : Nat → Option DescName
  | 0 => some .elem
  | 1 => some .pdp0
  | 2 => some .pdp1
  | 3 => some .pdp2
  | 4 => some .pdp3
  | _ => none

/-- The message-register offsets, both directions (10 R48). -/
def messageOffsets : List Nat := engines.map csOffset ++ engines.map gamOffset

/-- The descriptor half at a DWord offset, if there is one (10 R40). -/
def descriptorAt (o : Nat) : Option MmioReg :=
  if o < 0x4400 then none
  else
    match descEngine ((o - 0x4400) / 0x40), descName ((o - 0x4400) % 0x40 / 8) with
    | some e, some d => some (.descriptor e d (o % 8 == 4))
    | _, _ => none

/-- The register at a DWord offset (20 R88). -/
def mmioAt (o : Nat) : MmioReg :=
  if o = 0x4DFC then .bypass
  else if o = 0x4A30 then .colorZ
  else if messageOffsets.contains o then .message
  else if 0x170000 ≤ o ∧ o ≤ 0x17FFFF then .nullRange
  else (descriptorAt o).getD .foreign

/-- The DWord a register read gives; undescribed bits and the Null range are free values (93 U18, U32), message registers
read 0 (10 R48). -/
def mmioDword (s : State) (o : Nat) : Res (State × Nat) :=
  match mmioAt o with
  | .bypass => .ok ((drawWord s).2, field (drawWord s).1 1 31 * 2 + s.regs.bypassDis.toNat)
  | .colorZ => .ok ((drawWord s).2, field (drawWord s).1 0 31 + s.regs.colorZ.toNat * 2 ^ 31)
  | .message => .ok (s, 0)
  | .descriptor e d high => .ok (s, field ((s.bank e).desc d).value (if high then 32 else 0) 32)
  | .nullRange => .ok ((drawWord s).2, field (drawWord s).1 0 32)
  | .foreign => refuse .mmioOutsideSpec

/-- A CPU read of the register half (20 R97). DESIGN CHOICE (log 50), unsafe: alignment is that of the offset in GTTMMADR, whose
base is taken to be a multiple of 8. -/
def mmioRead (o n : Nat) (s : State) : Res State := do
  require ((n == 1 || n == 2 || n == 4) && o % n == 0) .accessIllegal
  let (s, v) ← mmioDword s (o / 4 * 4)
  .ok (s.emit (.cpuData (v / 2 ^ (8 * (o % 4)) % 2 ^ (8 * n))))

/-- The byte that a write of `data` at `o` puts at `a`. -/
def laneOf (o : Nat) (data : List Byte) (a : Nat) : Option Byte := if o ≤ a then data[a - o]? else none

/-- A CPU write of the register half (20 R97): descriptor registers are read-only (92 D17), message registers are not
written by software (10 R46; log 23), the Null range has no registers (92 D29). Alignment is that of the offset, as for a
read (DESIGN CHOICE, log 50). -/
def mmioWrite (o : Nat) (data : List Byte) (s : State) : Res State := do
  require ((data.length == 1 || data.length == 2 || data.length == 4) && o % data.length == 0) .accessIllegal
  match mmioAt (o / 4 * 4) with
  | .bypass =>
    match laneOf o data 0x4DFC with
    | some b => .ok (s.setRegs { s.regs with bypassDis := b.getLsbD 0 })
    | none => .ok s
  | .colorZ =>
    match laneOf o data 0x4A33 with
    | some b => .ok (s.setRegs { s.regs with colorZ := b.getLsbD 7 })
    | none => .ok s
  | .message => .ok s
  | .descriptor _ _ _ => .ok s
  | .nullRange => .ok s
  | .foreign => refuse .mmioOutsideSpec

/-! ## CPU accesses by address (20 R92) -/

/-- What a system address belongs to. -/
inductive Region where
  | registers (o : Nat) | reserved | gttAlias (o : Nat) | gmadr (o : Nat) | stolen | memory
  deriving DecidableEq, Repr

/-- DSM_SIZE (20 R84). -/
def dsmSize (p : Platform) : Nat := p.gms.toNat * 0x2000000

/-- The region of an access (20 R80 to R85, R88): that of its first byte, but for stolen memory, where any byte counts. One
that reaches into GTTMMADR from below is not naturally aligned and is refused (20 R97, 93 U5). GMS above 128 is refused
(93 U17). -/
def regionOf (p : Platform) (a n : Nat) : Res Region :=
  if touches p.gttmmadrBase 0x1000000 a 1 then
    .ok (if a - p.gttmmadrBase < 0x200000 then .registers (a - p.gttmmadrBase)
      else if a - p.gttmmadrBase < 0x800000 then .reserved
      else .gttAlias (a - p.gttmmadrBase - 0x800000))
  else if touches p.gmadrBase p.gmadrSize a 1 then .ok (.gmadr (a - p.gmadrBase))
  else if touches p.gttmmadrBase 0x1000000 a n then refuse .accessIllegal
  else if 128 < p.gms.toNat then refuse .gmsTooLarge
  else if touches p.gsmBase p.gsmSize a n || touches p.dsmBase (dsmSize p) a n then .ok .stolen
  else .ok .memory

/-- The request of an aperture access: the GM_Address is the offset in GMADR (20 R80, R81, 43 R301). DESIGN CHOICE (log 24),
unsafe: the spec names no client for the aperture path, and the request carries the client `state`, which its completion
report shows and which selects its final TLB. -/
def apertureRequest (o : Nat) (acc : Access) : Request := ⟨.aperture, .state, BitVec.ofNat 64 o, acc⟩

/-- Legal sizes of an access to the GTT alias (20 R97). -/
def aliasSize (n : Nat) : Bool := n == 1 || n == 2 || n == 4 || n == 8

/-- A CPU or peer-device read. -/
def cpuRead (a n : Nat) (use : CacheUse) (s : State) : Res State := do
  let g ← regionOf s.plat a n
  match g with
  | .registers o => mmioRead o n s
  | .reserved => refuse .mmioOutsideSpec
  | .gttAlias o => do require (aliasSize n) .accessIllegal; aliasRead o n s
  | .gmadr o => translate use none (apertureRequest o (.read n)) s
  | .stolen => refuse .stolenNotVisible
  | .memory => do
    let d ← memRead s a n
    .ok (s.emit (.cpuData (leNat d)))

/-- A CPU or peer-device write. -/
def cpuWrite (a : Nat) (data : List Byte) (use : CacheUse) (s : State) : Res State := do
  let g ← regionOf s.plat a data.length
  match g with
  | .registers o => mmioWrite o data s
  | .reserved => refuse .mmioOutsideSpec
  | .gttAlias o => do require (aliasSize data.length) .accessIllegal; aliasWrite o data s
  | .gmadr o => translate use none (apertureRequest o (.write data)) s
  | .stolen => refuse .stolenNotVisible
  | .memory => memWrite s a data

/-! ## Registers by name (92 D24) -/

/-- The value a named register reads as; undescribed bits of the register of 10 R30 are free (93 U32). DESIGN CHOICE (log 23),
unsafe: an access by name is one of the whole register DWord, as in `regWrite`. -/
def regRead (r : RegName) (s : State) : State :=
  let g := s.regs
  match r with
  | .trttL3Lo => s.emit (.cpuData (field g.trttL3ptr 0 32))
  | .trttL3Hi => s.emit (.cpuData (field g.trttL3ptr 32 32))
  | .trttNull => s.emit (.cpuData g.trttNull.toNat)
  | .trttInvalid => s.emit (.cpuData g.trttInvalid.toNat)
  | .trvadr => s.emit (.cpuData g.trvadr.toNat)
  | .trtte => s.emit (.cpuData g.trtte.toNat)
  | .adNonwb =>
    (drawWord s).2.emit (.cpuData (field (drawWord s).1 2 30 * 4 + g.adNonwbIgnore.toNat * 2 + field (drawWord s).1 0 1))
  | .ips => s.emit (.cpuData g.ipsEnable.toNat)
  | .gttCache => s.emit (.cpuData g.gttCacheEnable.toNat)
  | .nullTileCount => s.emit (.cpuData g.nullTileCount)

/-- The L3 pointer with its lower DWord written: bits 31:16 are storage (10 R22). -/
def l3WithLo (old : Word64) (v : Word32) : Word64 :=
  BitVec.ofNat 64 (field old 32 16 * 2 ^ 32 + v.toNat / 2 ^ 16 * 2 ^ 16)

/-- The L3 pointer with its upper DWord written: bits 47:32 are storage (10 R22). -/
def l3WithHi (old : Word64) (v : Word32) : Word64 :=
  BitVec.ofNat 64 (v.toNat % 2 ^ 16 * 2 ^ 32 + field old 16 16 * 2 ^ 16)

/-- Is an advanced context resident on some engine (70 R515)? -/
def runsAdvanced (s : State) : Bool := engines.any (fun e => (s.bank e).resident.isSome)

/-- A write to a named register; reserved bits stay 0 (10 R22 to R26). The GTT cache must not be turned on while an advanced
context runs (70 R541). DESIGN CHOICE (log 23), unsafe: an access by name writes the whole DWord; 20 R97 allows 1, 2 and 4
bytes in the register half, and 92 D24 gives access by name and no width. -/
def regWrite (r : RegName) (v : Word32) (s : State) : Res State :=
  match r with
  | .trttL3Lo => .ok (s.setRegs { s.regs with trttL3ptr := l3WithLo s.regs.trttL3ptr v })
  | .trttL3Hi => .ok (s.setRegs { s.regs with trttL3ptr := l3WithHi s.regs.trttL3ptr v })
  | .trttNull => .ok (s.setRegs { s.regs with trttNull := v })
  | .trttInvalid => .ok (s.setRegs { s.regs with trttInvalid := v })
  | .trvadr => .ok (s.setRegs { s.regs with trvadr := v &&& 0xFF })
  | .trtte => .ok (s.setRegs { s.regs with trtte := v &&& 0x3 })
  | .adNonwb => .ok (s.setRegs { s.regs with adNonwbIgnore := v.getLsbD 1 })
  | .ips => .ok (s.setRegs { s.regs with ipsEnable := v.getLsbD 0 })
  | .gttCache => do
    require (!(v.getLsbD 0 && runsAdvanced s)) .gttCacheObligation
    .ok (s.setRegs { s.regs with gttCacheEnable := v.getLsbD 0 })
  | .nullTileCount => refuse .counterWrite

/-! ## Choices of the hardware, and the IOMMU's tables -/

/-- Any cached item may disappear at any time (46 R380, R396). -/
def evict (c : CacheName) (k : Nat) (s : State) : State :=
  match c with
  | .tlb => s.setCaches { s.caches with tlb := s.caches.tlb.eraseIdx k }
  | .pwc => s.setCaches { s.caches with pwc := s.caches.pwc.eraseIdx k }
  | .gtt => s.setCaches { s.caches with gtt := s.caches.gtt.eraseIdx k }
  | .tr => s.setCaches { s.caches with tr := s.caches.tr.eraseIdx k }
  | .cc => s.setIommu { s.iommu with cc := s.iommu.cc.eraseIdx k }

/-- The PASID Cache entry of an engine may be given up at any time, to be filled again (46 R392, R412). -/
def evictPc (e : Engine) (s : State) : State :=
  s.setBank e { s.bank e with pc := { (s.bank e).pc with valid := false } }

/-- Does the context that an engine runs have A&D management (44 R325)? -/
def managesAd (s : State) (t : Tag) : Bool :=
  match t.src with
  | .engine e => t.mode == .adv && elemAd48b (s.bank e).elem.value
  | .wdbox => false
  | .vebox2 => false
  | .display => false
  | .aperture => false

/-- The PML4 tables from which an entry has been fetched: those of the last walks, and those of cached entries (42 R284). -/
def pml4Tables (s : State) : List PmlTable :=
  (s.walker.walked.map (·.pml4)).getD [] ++
    (s.caches.pwc.filter (fun x => x.level == 4)).map (fun x => ⟨x.tag, x.addr / 4096 * 4096⟩)

/-- The hardware caches another entry of a PML4 table of which it has fetched one, while the engine runs (42 R284, 46 R390): a
present one. Under A&D management it does not, because the first use of each PML4E is an atomic fetch (44 R332). -/
def prefetchPml4 (k idx : Nat) (s : State) : Res State :=
  match (pml4Tables s)[k]? with
  | none => .ok s
  | some x =>
    if idx < 512 && gateOpen s none x.tag.src && !managesAd s x.tag then do
      let e ← memRead64 s (x.base + 8 * idx)
      .ok (if bit e 0 then
        s.setCaches { s.caches with pwc := refresh PwcEntry.sameSlot [⟨x.tag, 4, x.base + 8 * idx, e⟩] s.caches.pwc }
      else s)
    else .ok s

/-- Software writes a context entry; cached copies stay (46 R412). -/
def setCtxEntry (c : CtxEntry) (s : State) : State :=
  s.setIommu { s.iommu with ctxs := c :: s.iommu.ctxs.filter (fun x => x.fn != c.fn) }

/-- Software writes a PASID entry; cached copies stay (46 R392). -/
def setPasidEntry (p : PasidEntry) (s : State) : State :=
  s.setIommu { s.iommu with pasids := p :: s.iommu.pasids.filter (fun x => !(x.fn == p.fn && x.pasid == p.pasid)) }

/-- Software discards a page request (70 R513). -/
def discardPageRequest (k : Nat) (s : State) : State :=
  s.setReqs { s.reqs with pageRequests := s.reqs.pageRequests.eraseIdx k }

/-- An event that is no row of the opcode table. -/
def envStep (i : Input) (s : State) : Res State :=
  match i with
  | .op _ => refuse .undecodable
  | .cpuRead a n use => cpuRead a n use s
  | .cpuWrite a d use => cpuWrite a d use s
  | .regRead r => .ok (regRead r s)
  | .regWrite r v => regWrite r v s
  | .csWrite e d high v => csWrite e d high v s
  | .csMessage o v => csMessageAt o v s
  | .perform k => performAt k s
  | .grant k use => grantAt k use s
  | .evict c k => .ok (evict c k s)
  | .evictPc e => .ok (evictPc e s)
  | .prefetchPml4 k idx => prefetchPml4 k idx s
  | .iommuCtx c => .ok (setCtxEntry c s)
  | .iommuPasid p => .ok (setPasidEntry p s)
  | .discardPageRequest k => .ok (discardPageRequest k s)
  | .deferAcks b => .ok (s.setReqs { s.reqs with deferAcks := b })

/-! ## With no event queued -/

/-- An acknowledgement GAM owes an engine: Receive Ready once the fence allows, Confirmed (45 R353, R356). -/
def owedAck (s : State) (e : Engine) : Option State :=
  if s.reqs.deferAcks then none
  else if (s.bank e).hs == .availableReceived && !busy s (.engine e) then some (sendReady s e)
  else if (s.bank e).hs == .launchedReceived then some (sendConfirmed s e)
  else none

/-- The machine on its own (log 3): the oldest data access that can be performed, else waiting invalidation responses, else
an acknowledgement, else the oldest held request whose source is Running, else nothing. -/
def autonomous (s : State) : Res State :=
  match s.reqs.inflight.findIdx? (fun f => !isHung s f.req.src) with
  | some k => performAt k s
  | none =>
    if s.reqs.inflight.isEmpty && 0 < s.reqs.invWaits then .ok (flushWaits s)
    else
      match engines.findSome? (owedAck s) with
      | some s' => .ok s'
      | none =>
        match s.reqs.held.findIdx? (fun h => gateOpen s h.pasid h.req.src) with
        | some k => grantAt k noCache s
        | none => .ok s

end Sys2Proof.Machine
end

