-- ==== Sys2Proof/Machine/Step.lean ====
section
/-! DEFINITION. One step: the next queued event, or, with none queued, what the machine does on its own (log 1, 3). -/

namespace Sys2Proof.Machine

/-- Run a queued operation frame: decode it, then its meaning; a frame that is no operation is refused. -/
def runFrame (frame : List Byte) (s : State) : Host.Outcome State Fault Refusal :=
  match decode frame with
  | .ok i => exec i s
  | .error _ => .refused .undecodable

/-- Take one event. -/
def runInput (i : Input) (s : State) : Host.Outcome State Fault Refusal :=
  match i with
  | .op frame => runFrame frame s
  | .cpuRead a n use => toOutcome (envStep (.cpuRead a n use) s)
  | .cpuWrite a d use => toOutcome (envStep (.cpuWrite a d use) s)
  | .regRead r => toOutcome (envStep (.regRead r) s)
  | .regWrite r v => toOutcome (envStep (.regWrite r v) s)
  | .csWrite e d high v => toOutcome (envStep (.csWrite e d high v) s)
  | .csMessage o v => toOutcome (envStep (.csMessage o v) s)
  | .perform k => toOutcome (envStep (.perform k) s)
  | .grant k use => toOutcome (envStep (.grant k use) s)
  | .evict c k => toOutcome (envStep (.evict c k) s)
  | .evictPc e => toOutcome (envStep (.evictPc e) s)
  | .prefetchPml4 k idx => toOutcome (envStep (.prefetchPml4 k idx) s)
  | .iommuCtx c => toOutcome (envStep (.iommuCtx c) s)
  | .iommuPasid p => toOutcome (envStep (.iommuPasid p) s)
  | .discardPageRequest k => toOutcome (envStep (.discardPageRequest k) s)
  | .deferAcks b => toOutcome (envStep (.deferAcks b) s)

/-- One step of the machine. -/
def step (s : State) : Host.Outcome State Fault Refusal :=
  match s.inputs with
  | [] => toOutcome (autonomous s)
  | i :: rest => runInput i (s.setInputs rest)

/-- The state with an operation, given by the bits of a table row, at the head of its queue. -/
def State.withFetchWord (s : State) (nbits w : Nat) : State :=
  s.setInputs (.op (tableFrame nbits w) :: s.inputs)

end Sys2Proof.Machine
end

