-- ==== Sys2Proof/Safety.lean ====
section
/-! DEFINITION. What a good state is, in the terms the statements use. -/

namespace Sys2Proof.Machine

/-- The reserved bits of the TR-TT registers read as 0 (10 R22, R25, R26, R70). -/
def Regs.reservedClear (g : Regs) : Bool :=
  field g.trttL3ptr 0 16 == 0 && field g.trttL3ptr 48 16 == 0 && g.trvadr.toNat < 2 ^ 8 && g.trtte.toNat < 2 ^ 2

/-- An engine that is not running and not about to has no valid PASID Cache entry, unless one outlives a device reset (10 R70; log 41),
counts for no PASID and has no stopped context (46 R392, 70 R515, 47 R453). -/
def Bank.consistent (p : Platform) (b : Bank) : Bool :=
  b.hs == .running || b.hs == .launchedReceived || ((p.keepPasidCache || !b.pc.valid) && b.resident == none && !b.stopped)

def Banks.all (b : Banks) (p : Bank → Bool) : Bool := p b.rcs && p b.bcs && p b.vecs && p b.vcs0 && p b.vcs1

/-- Does a bank count for a PASID? -/
def Bank.counted (b : Bank) (p : Nat) : Nat := if b.resident.map BitVec.toNat = some p then 1 else 0

/-- How many engines count for a PASID. -/
def Banks.countResident (b : Banks) (p : Nat) : Nat :=
  b.rcs.counted p + b.bcs.counted p + b.vecs.counted p + b.vcs0.counted p + b.vcs1.counted p

/-- Memory in its canonical form, reserved register bits 0, banks consistent, PASID_State in its canonical form. -/
def State.Tidy (s : State) : Prop :=
  Memory.wf s.mem = true ∧ s.regs.reservedClear = true ∧ s.banks.all (Bank.consistent s.plat) = true ∧
  sparseWf 0 s.iommu.pasidState = true

/-- PASID_State counts, for every PASID, the engines on which a context with it is resident (70 R515). -/
def State.countsResidents (s : State) : Prop :=
  ∀ p, sparseGet 0 s.iommu.pasidState p = s.banks.countResident p

/-- The invariant every step keeps. -/
def State.Inv (s : State) : Prop := s.Tidy ∧ s.countsResidents

/-- The bits a page-update atomic may set in the byte at an address: A and D in the first byte of an aligned entry, EA in
the second (47 R431). -/
def adeMask (x : Nat) : Byte := if x % 8 = 0 then 0x60 else if x % 8 = 1 then 0x04 else 0

/-- Memory differs only in A, D and EA bits that are newly 1 (47 R458). -/
def onlySetsADE (s t : State) : Prop := ∀ x, ∃ b : Byte, t.mem.byte x = s.mem.byte x ||| (b &&& adeMask x)

/-- Registers, parameters, and the queue of events are as before. -/
def sameControl (s t : State) : Prop := t.regs = s.regs ∧ t.plat = s.plat ∧ t.inputs = s.inputs

/-- Every byte outside `[a, a+n)` reads as before. -/
def sameOutside (s t : State) (a n : Nat) : Prop := ∀ x, x < a ∨ a + n ≤ x → t.mem.byte x = s.mem.byte x

end Sys2Proof.Machine
end

