-- ==== Sys2Proof/Rules.lean ====
section
/-! DEFINITION. The spec's pseudo-code of the walks, transcribed line by line for the statements to compare the machine with:
43 R300, 41 R251, 42 R272, 44 R317 and R318, 40 R223. The machine itself does not use this file. -/

namespace Sys2Proof.Rules

open Sys2Proof.Machine

/-- `MemRead( table + 8 * index, 8 )`. -/
def entry (s : State) (table index : Nat) : Res Word64 := memRead64 s (table + 8 * index)

/-- The address field `(HAW-1):lo` of an entry, with `lo` zero bits below it (30 R195). -/
def frame (haw lo : Nat) (e : Word64) : Nat := field e lo (haw - lo) * 2 ^ lo

/-- `SecondLevel` of a context whose tables are nested (20 R93). -/
def nested (s : State) (gpa : Nat) : Res Nat := secondLevel s.plat true gpa

/-- A large page needs the GTT cache off (70 R540). -/
def largePageAllowed (s : State) : Res Unit := require (!s.regs.gttCacheEnable) .gttCacheObligation

/-- XLATE.GGTT (43 R300). -/
def ggtt (s : State) (va : Word64) : Res XlateEnd := do
  require (decide (va.toNat < 2 ^ 32)) .vaOutOfRange
  require (decide (8 * field va 12 20 < s.plat.gsmSize)) .beyondGsm
  let pte ← entry s s.plat.gsmBase (field va 12 20)
  if bit pte 0 = false then .ok (.fault .notPresent 1)
  else do
    let pa ← nested s (frame s.plat.haw 12 pte + va.toNat % 2 ^ 12)
    .ok (.phys pa ⟨false, false, false, true, some true, false, false, false⟩)

/-- `leaf(ent, pa, level)` of a legacy walk (42 R272, 41 R251): a page of `2^bits` bytes, PAT at `pat`. -/
def legacyLeaf (s : State) (wr : Bool) (va : Word64) (level bits pat : Nat) (e : Word64) : Res XlateEnd :=
  if bit e 9 = true then .ok .null
  else if wr = true ∧ bit e 1 = false then .ok (.fault .writeProtect level)
  else do
    let pa ← nested s (frame s.plat.haw bits e + va.toNat % 2 ^ bits)
    .ok (.phys pa ⟨bit e pat, bit e 4, bit e 3, bit e 1, some true, false, false, false⟩)

/-- The page-table step of a legacy walk, from the page-directory entry. -/
def legacyPte (s : State) (wr : Bool) (va pde : Word64) : Res XlateEnd := do
  let big := bit pde 11 && s.regs.ipsEnable
  let pt ← nested s (frame s.plat.haw 12 pde)
  let pte ← entry s pt (if big then field va 16 5 * 16 else field va 12 9)
  if bit pte 0 = false then .ok (.fault .notPresent 1)
  else legacyLeaf s wr va 1 (if big then 16 else 12) 7 pte

/-- The descriptor register that `va[31:30]` selects (41 R252). -/
def pdpOf (b : Bank) (va : Word64) : DescReg :=
  if field va 30 2 = 0 then b.pdp0 else if field va 30 2 = 1 then b.pdp1 else if field va 30 2 = 2 then b.pdp2 else b.pdp3

/-- How a walk reads the entries above the page table: entry `index` of the table at an address. -/
abbrev Reads := Nat → Nat → Res Word64

/-- XLATE.PPGTT32 (41 R251), from the page-directory pointer `pdp`, with the page-directory entry as `rd` reads it. -/
def ppgtt32Via (rd : Reads) (s : State) (pdp : Word64) (wr : Bool) (va : Word64) : Res XlateEnd := do
  let pd ← nested s (frame s.plat.haw 12 pdp)
  let pde ← rd pd (field va 21 9)
  if bit pde 0 = false then .ok (.fault .notPresent 2)
  else legacyPte s wr va pde

/-- XLATE.PPGTT32 (41 R251), from memory. -/
def ppgtt32 (s : State) (pdp : Word64) (wr : Bool) (va : Word64) : Res XlateEnd := ppgtt32Via (entry s) s pdp wr va

/-- XLATE.PPGTT48 (42 R272), from the root register `pdp0`, with the entries above the page table as `rd` reads them. -/
def ppgtt48Via (rd : Reads) (s : State) (pdp0 : Word64) (wr : Bool) (va : Word64) : Res XlateEnd := do
  let pml4 ← nested s (frame s.plat.haw 12 pdp0)
  let e4 ← rd pml4 (field va 39 9)
  if bit e4 0 = false then .ok (.fault .notPresent 4)
  else do
    let pdpt ← nested s (frame s.plat.haw 12 e4)
    let e3 ← rd pdpt (field va 30 9)
    if bit e3 0 = false then .ok (.fault .notPresent 3)
    else if bit e3 7 = true then do
      largePageAllowed s
      legacyLeaf s wr va 3 30 12 e3
    else do
      let pd ← nested s (frame s.plat.haw 12 e3)
      let e2 ← rd pd (field va 21 9)
      if bit e2 0 = false then .ok (.fault .notPresent 2)
      else if bit e2 7 = true then do
        largePageAllowed s
        legacyLeaf s wr va 2 21 12 e2
      else legacyPte s wr va e2

/-- XLATE.PPGTT48 (42 R272), from memory. -/
def ppgtt48 (s : State) (pdp0 : Word64) (wr : Bool) (va : Word64) : Res XlateEnd := ppgtt48Via (entry s) s pdp0 wr va

/-! ## Advanced contexts (44 R317) -/

/-- What the walk of an advanced context depends on: the Element Descriptor's `AD_48B`, `PRIV_PPGTT`, `COH`, the context ID
and the record `pe` of 44 R316. -/
structure Adv where
  ad : Bool
  sup : Bool
  coh : Bool
  ctxid : Word32
  pml4 : Nat
  eafe : Bool
  fl64kpe : Bool
  nxe : Bool
  neste : Bool
  wpe : Bool
  deriving DecidableEq, Repr

/-- `wp := (not sup) or pe.WPE`. -/
def Adv.wp (a : Adv) : Bool := !a.sup || a.wpe

/-- `Fetch` (44 R318); `none` when the update raises Catastrophic. -/
def fetch (s : State) (e : Engine) (a : Adv) (intermediate wr : Bool) (pa : Nat) : Res (State × Option Word64) :=
  if a.ad = true then apu ⟨intermediate, a.wp, a.eafe, wr⟩ (.engine e) a.ctxid pa s
  else do
    let v ← memRead64 s pa
    .ok (s, some v)

/-- Cached copies of the entries above the page table, by address (46 R390). -/
abbrev Copies := Nat → Option Word64

/-- The entry of a level: a cached copy above the page table, or `Fetch`. -/
def fetchVia (pw : Copies) (s : State) (e : Engine) (a : Adv) (level : Nat) (wr : Bool) (pa : Nat) :
    Res (State × Option Word64) :=
  match (if level = 1 then none else pw pa) with
  | some v => .ok (s, some v)
  | none => fetch s e a (level != 1) wr pa

/-- `reserved_set(ent)` (44 R326) of a present entry at a level. -/
def reservedSet (haw level : Nat) (big : Bool) (e : Word64) : Bool :=
  field e haw (52 - haw) != 0 ||
    (level == 4 && bit e 7) ||
    (level == 3 && bit e 7 && field e 13 17 != 0) ||
    (level == 2 && bit e 7 && field e 13 8 != 0) ||
    (level == 1 && big && field e 12 4 != 0)

/-- The index of a level (44 R317). -/
def advIndex (level : Nat) (big : Bool) (va : Word64) : Nat :=
  if level = 4 then field va 39 9 else if level = 3 then field va 30 9 else if level = 2 then field va 21 9
  else if big then field va 16 5 * 16 else field va 12 9

/-- The checks after the loop of 44 R317, and the translation. -/
def advLeaf (s : State) (a : Adv) (wr er : Bool) (va : Word64) (level bits pat : Nat) (rw us xd : Bool) (e : Word64) :
    Res XlateEnd :=
  if a.sup = false ∧ us = false then .ok (.fault .privilege level)
  else if wr = true ∧ rw = false ∧ a.wp = true then .ok (.fault .writeProtect level)
  else if s.plat.xdEnforce = true ∧ er = true ∧ a.nxe = true ∧ xd = true then .ok (.fault .execute level)
  else do
    let pa ← secondLevel s.plat a.neste (frame s.plat.haw bits e + va.toNat % 2 ^ bits)
    .ok (.phys pa ⟨bit e pat, bit e 4, bit e 3, rw, some us, xd, bit e 6, a.coh⟩)

/-- The loop of 44 R317 over the remaining levels. -/
def advLoop (pw : Copies) (e : Engine) (a : Adv) (wr er : Bool) (va : Word64) :
    List Nat → State → Nat → Bool → Bool → Bool → Bool → Res (State × XlateEnd)
  | [], _, _, _, _, _, _ => refuse .noLeaf
  | level :: rest, s, tbl, big, rw, us, xd => do
    let (s, v) ← fetchVia pw s e a level wr (tbl + 8 * advIndex level big va)
    match v with
    | none => .ok (s, .abandoned)
    | some ent =>
      if bit ent 0 = false then .ok (s, .fault .notPresent level)
      else do
        require (!reservedSet s.plat.haw level big ent) .reservedBits
        if level = 1 ∨ ((level = 3 ∨ level = 2) ∧ bit ent 7 = true) then do
          require (level == 1 || !s.regs.gttCacheEnable) .gttCacheObligation
          let bits := if level = 3 then 30 else if level = 2 then 21 else if big then 16 else 12
          let x ← advLeaf s a wr er va level bits (if level = 1 then 7 else 12) (rw && bit ent 1) (us && bit ent 2)
            (xd || bit ent 63) ent
          .ok (s, x)
        else do
          let tbl ← secondLevel s.plat a.neste (frame s.plat.haw 12 ent)
          advLoop pw e a wr er va rest s tbl (level == 2 && bit ent 11 && a.fl64kpe) (rw && bit ent 1) (us && bit ent 2)
            (xd || bit ent 63)

/-- XLATE.ADV (44 R317), with copies of the entries above the page table. -/
def advVia (pw : Copies) (s : State) (e : Engine) (a : Adv) (wr er : Bool) (va : Word64) : Res (State × XlateEnd) := do
  let tbl ← secondLevel s.plat a.neste a.pml4
  advLoop pw e a wr er va [4, 3, 2, 1] s tbl false true true false

/-- XLATE.ADV (44 R317), from memory. -/
def adv (s : State) (e : Engine) (a : Adv) (wr er : Bool) (va : Word64) : Res (State × XlateEnd) :=
  advVia (fun _ => none) s e a wr er va

/-! ## Cached pointers (46 R390) -/

/-- The cached copies of an address space. -/
def copiesOf (s : State) (t : Tag) : Copies := fun pa =>
  (s.caches.pwc.find? (fun y => y.tag == t && y.addr == pa)).map (·.entry)

/-- An entry above the page table from a cached copy, if there is one, else from memory. -/
def readCopy (s : State) (t : Tag) : Reads := fun table index =>
  match copiesOf s t (table + 8 * index) with
  | some v => .ok v
  | none => entry s table index

/-- The cached copies of an address space are dropped. -/
def withoutCopies (t : Tag) (s : State) : State :=
  { s with caches := { s.caches with pwc := s.caches.pwc.filter (fun x => x.tag != t) } }

/-- What becomes of a walk that used cached copies: a write-protect fault is not taken from them, the walk is made `again` from
memory (46 R386); after a Privilege or Execute fault the copies are dropped (46 R411, 60 R488). -/
def usedCopies (t : Tag) (first : Res (State × XlateEnd)) (again : State → Res (State × XlateEnd)) :
    Res (State × XlateEnd) := do
  let (s, x) ← first
  match x with
  | .fault .writeProtect _ => again s
  | .fault .privilege _ => .ok (withoutCopies t s, x)
  | .fault .execute _ => .ok (withoutCopies t s, x)
  | .fault .notPresent _ => .ok (s, x)
  | .phys _ _ => .ok (s, x)
  | .null => .ok (s, x)
  | .filtered _ => .ok (s, x)
  | .abandoned => .ok (s, x)

/-- A walk that changes no state. -/
def still (s : State) (x : Res XlateEnd) : Res (State × XlateEnd) := do
  let x ← x
  .ok (s, x)

/-- A translation ends as a walk says: `f` of its last state and its result, what it leaves for the caches (`w`) aside, or the
walk's own stop. -/
def endsAs (o : Host.Outcome State Fault Refusal) (walked : Res (State × XlateEnd)) (f : State → XlateEnd → State) : Prop :=
  (∀ t x, walked = .ok (t, x) → ∃ w, o = .next (f (setWalked t w) x)) ∧ ∀ z, walked = .error z → o = toOutcome (.error z)

/-- ER of a request (44 R330): an instruction fetch, or a read of the instruction cache. -/
def er (r : Request) : Bool :=
  match r.acc with
  | .fetch _ => true
  | .read _ => r.client == .icache
  | .write _ => false
  | .atomic _ _ => false

/-- The access kind of a page request (60 R469, 00 R14): an instruction fetch is a read (20 R119). -/
def kind (r : Request) : AccKind :=
  match r.acc with
  | .fetch _ => .read
  | .read _ => .read
  | .write _ => .write
  | .atomic _ _ => .atomic

/-! ## TR-TT (40 R223) -/

/-- The walk of the tables that a TR-TT table lies behind, for a read (40 R229). -/
abbrev Tables := State → Word64 → Res (State × XlateEnd)

/-- The tables of a legacy 48b context. -/
def tables48 (pdp0 : Word64) : Tables := fun s tva => do
  let x ← ppgtt48 s pdp0 false tva
  .ok (s, x)

/-- The tables of an advanced context. -/
def tablesAdv (e : Engine) (a : Adv) : Tables := fun s tva => adv s e a false false tva

/-- How a TR-TT walk stops at a table read. -/
inductive TrStop where
  /-- It waits for a page response (40 R230): its level, the base of the TR-TT table, the address read, and the fault. -/
  | waits (level : Nat) (base tva : Word64) (reason : FaultReason)
  /-- A catastrophic error has ended the request (60 R466). -/
  | ended
  deriving DecidableEq, Repr

/-- A TR-TT table read that is not recoverable (40 R230): a free value, and the state awaits a reset. -/
def trFailed (s : State) : State × Except TrStop Nat :=
  ({ s with free := s.free + 1, reqs := { s.reqs with awaitingReset := true } }, .ok (Config.freeWord s.free).toNat)

/-- `TRRead64` and `TRRead32` (40 R229): a translated read of `n` bytes; a Null page reads as 0. A fault waits for a page
response where the context sends page requests, and is not recoverable elsewhere; a catastrophic error ends the request
(60 R466; log 17). -/
def trRead (X : Tables) (waits : Bool) (s : State) (level : Nat) (base : Word64) (off n : Nat) :
    Res (State × Except TrStop Nat) := do
  let tva := base + BitVec.ofNat 64 off
  require (!isTrva s.regs tva) .trttTableInTrva
  let (s, x) ← X s tva
  match x with
  | .phys pa _ => do
    let d ← memRead s pa n
    .ok (s, .ok (leNat d))
  | .null => .ok (s, .ok 0)
  | .fault reason _ => .ok (if waits then (s, .error (.waits level base tva reason)) else trFailed s)
  | .filtered reason => .ok (s, .error (.waits level base tva reason))
  | .abandoned => .ok (s, .error .ended)

/-- An address `v[47:0]` made canonical (30 R197). -/
def canon (v : Nat) : Word64 := sext48 v

/-- The result of the walk that the word of the L1 table gives (40 R226). -/
def trL1 (g : Regs) (v : Nat) : TrResult :=
  if BitVec.ofNat 32 v = g.trttInvalid then .invalid else if BitVec.ofNat 32 v = g.trttNull then .null
  else .tile (BitVec.ofNat 32 v)

/-- The base of the next table in an L3 or L2 entry (30 R175, R176). -/
def trNext (v : Nat) : Word64 := canon (v / 2 ^ 12 % 2 ^ 36 * 2 ^ 12)

/-- The offset of the entry in the table of a level (40 R223, 30 R193). -/
def trOffset (level : Nat) (va : Word64) : Nat :=
  if level = 3 then 8 * field va 35 9 else if level = 2 then 8 * field va 26 9 else 4 * field va 16 10

/-- The L1 step of the walk (40 R223). -/
def trtt1 (X : Tables) (waits : Bool) (s : State) (base : Word64) (va : Word64) : Res (State × Except TrStop TrResult) := do
  let (s, v) ← trRead X waits s 1 base (trOffset 1 va) 4
  match v with
  | .error x => .ok (s, .error x)
  | .ok l1e => .ok (s, .ok (trL1 s.regs l1e))

/-- What an entry of an L3 or L2 table leads to: `next` is the step of the table it points to. -/
def trFrom (s : State) (v : Nat) (next : Word64 → Res (State × Except TrStop TrResult)) :
    Res (State × Except TrStop TrResult) :=
  if v % 2 = 1 then .ok (s, .ok .invalid) else if v / 2 % 2 = 1 then .ok (s, .ok .null) else next (trNext v)

/-- The L2 step of the walk. -/
def trtt2 (X : Tables) (waits : Bool) (s : State) (base : Word64) (va : Word64) : Res (State × Except TrStop TrResult) := do
  let (s, v) ← trRead X waits s 2 base (trOffset 2 va) 8
  match v with
  | .error x => .ok (s, .error x)
  | .ok l2e => trFrom s l2e (fun b => trtt1 X waits s b va)

/-- The L3 step of the walk. -/
def trtt3 (X : Tables) (waits : Bool) (s : State) (base : Word64) (va : Word64) : Res (State × Except TrStop TrResult) := do
  let (s, v) ← trRead X waits s 3 base (trOffset 3 va) 8
  match v with
  | .error x => .ok (s, .error x)
  | .ok l3e => trFrom s l3e (fun b => trtt2 X waits s b va)

/-- XLATE.TRTT (40 R223): the outcome of the TR-TT stage, or where a table read waits (40 R230). Tables inside the TR-VA
range are refused (40 R232). -/
def trtt (X : Tables) (waits : Bool) (s : State) (va : Word64) : Res (State × Except TrStop TrResult) :=
  trtt3 X waits s (canon (field s.regs.trttL3ptr 16 32 * 2 ^ 16)) va

/-- A TR-TT walk that waited at a level goes on: its table read is redone (40 R230). -/
def trttAgain (X : Tables) (s : State) (pt : TrPoint) (va : Word64) : Res (State × Except TrStop TrResult) :=
  if pt.level = 3 then trtt3 X true s pt.base va else if pt.level = 2 then trtt2 X true s pt.base va
  else trtt1 X true s pt.base va

/-- A TR-TT walk that waited at a level goes on with the value `v`, the table read being not recoverable (40 R230). -/
def trttGiven (X : Tables) (s : State) (pt : TrPoint) (v : Nat) (va : Word64) : Res (State × Except TrStop TrResult) := do
  require (!isTrva s.regs (pt.base + BitVec.ofNat 64 (trOffset pt.level va))) .trttTableInTrva
  if pt.level = 3 then trFrom s v (fun b => trtt2 X true s b va)
  else if pt.level = 2 then trFrom s v (fun b => trtt1 X true s b va)
  else .ok (s, .ok (trL1 s.regs v))

/-- `va' = sext_64( l1e[31:0] ++ va[15:0] )` (40 R223, 30 R197). -/
def tileAddress (l1e : Word32) (va : Word64) : Word64 := sext48 (l1e.toNat * 2 ^ 16 + va.toNat % 2 ^ 16)

/-! ## What becomes of the request -/

/-- The context that an engine runs is stopped, where the part follows 47 R453 (log 22): nothing else changes. -/
def stopped (s : State) (src : Source) : State :=
  match src with
  | .engine e =>
    if s.plat.stopOnCatastrophic = true ∧ ((s.bank e).hs = .launchedReceived ∨ (s.bank e).hs = .running) then
      s.setBank e { s.bank e with stopped := true }
    else s
  | .wdbox => s
  | .vebox2 => s
  | .display => s
  | .aperture => s

/-- The end of a legacy translation: GTI gets the access, a Null page completes the request, a page fault hangs the source,
or with HANG_SKIP ends the request as an invalid cycle (60 R478; 42 R279). -/
def endLegacy (s : State) (r : Request) (ctxid : Word32) : XlateEnd → State
  | .phys pa attrs => s.addInFlight ⟨r, ctxid, pa, attrs⟩
  | .null => nullCompletion s r
  | .fault _ _ => if s.plat.hangSkip then invalidCycle s r else setHung s true r.src
  | .filtered _ => s
  | .abandoned => s

/-- The end of a request after a catastrophic error in its walk (60 R466): read data is any value, a write is dropped. Where the
part follows 47 R453, the context that the engine runs makes no further progress (log 22). -/
def errored (s : State) (r : Request) : State := stopped (invalidCycle s r) r.src

/-- The end of an advanced translation of the address `va`: GTI gets the access; a page fault waits with a page request sent
(60 R479, R482); an abandoned walk ends the request as an errored cycle (60 R466), which may stop the context (47 R453). -/
def endAdv (s : State) (r : Request) (pasid : BitVec 20) (ctxid : Word32) (va : Word64) : XlateEnd → State
  | .phys pa attrs => s.addInFlight ⟨r, ctxid, pa, attrs⟩
  | .null => nullCompletion s r
  | .fault reason _ =>
    (s.addPending ⟨r, pasid, va, none, true⟩).addPageRequest ⟨pasid, ctxid, va, reason, kind r⟩
  | .filtered _ => s
  | .abandoned => errored s r

/-- A Null tile access counts (40 R227). -/
def oneMoreNull (s : State) : State := { s with regs := { s.regs with nullTileCount := s.regs.nullTileCount + 1 } }

/-- The end of a request in a legacy 48b context after the TR-TT stage (40 R220, R227, R228): a Null tile completes it and
counts, an Invalid tile completes it and reports, a tile inside the TR-VA range is refused, and another is walked. -/
def endTr48 (pdp0 : Word64) (ctxid : Word32) (r : Request) (stage : Res (State × Except TrStop TrResult))
    (o : Host.Outcome State Fault Refusal) : Prop :=
  (∀ z, stage = .error z → o = toOutcome (.error z)) ∧
  (∀ t, stage = .ok (t, .ok .null) →
    ∃ w, o = .next (nullCompletion (oneMoreNull (setWalked t w)) r)) ∧
  (∀ t, stage = .ok (t, .ok .invalid) → ∃ w, o = .next (nullCompletion ((setWalked t w).emit (.invalidTile r.va)) r)) ∧
  ∀ (t : State) (l1 : Word32), stage = .ok (t, .ok (.tile l1)) →
    let va := tileAddress l1 r.va
    (isTrva t.regs va = true → o = .refused .trttTileInTrva) ∧
    (isTrva t.regs va = false →
      (∀ x, ppgtt48 t pdp0 r.acc.isWrite va = .ok x → ∃ w, o = .next (endLegacy (setWalked t w) r ctxid x)) ∧
      (∀ z, ppgtt48 t pdp0 r.acc.isWrite va = .error z → o = toOutcome (.error z)))

/-- The end of a request in an advanced context of Render after the TR-TT stage: the same, but a table read that faults waits
with a page request for a read at the table's address (40 R229, R230), and one that ends in a catastrophic error ends the
request as an errored cycle (60 R466), which may stop the context (47 R453). -/
def endTrAdv (a : Adv) (pasid : BitVec 20) (ctxid : Word32) (r : Request) (stage : Res (State × Except TrStop TrResult))
    (o : Host.Outcome State Fault Refusal) : Prop :=
  (∀ z, stage = .error z → o = toOutcome (.error z)) ∧
  (∀ t, stage = .ok (t, .ok .null) →
    ∃ w, o = .next (nullCompletion (oneMoreNull (setWalked t w)) r)) ∧
  (∀ t, stage = .ok (t, .ok .invalid) → ∃ w, o = .next (nullCompletion ((setWalked t w).emit (.invalidTile r.va)) r)) ∧
  (∀ t level base tva reason, stage = .ok (t, .error (.waits level base tva reason)) →
    ∃ w, o = .next (((setWalked t w).addPending ⟨r, pasid, tva, some ⟨level, base⟩, true⟩).addPageRequest
      ⟨pasid, ctxid, tva, reason, .read⟩)) ∧
  (∀ t, stage = .ok (t, .error .ended) → ∃ w, o = .next (errored (setWalked t w) r)) ∧
  ∀ (t : State) (l1 : Word32), stage = .ok (t, .ok (.tile l1)) →
    let va := tileAddress l1 r.va
    (isTrva t.regs va = true → o = .refused .trttTileInTrva) ∧
    (isTrva t.regs va = false →
      (∀ v x, adv t .rcs a r.acc.isWrite (er r) va = .ok (v, x) →
        ∃ w, o = .next (endAdv (setWalked v w) r pasid ctxid va x)) ∧
      (∀ z, adv t .rcs a r.acc.isWrite (er r) va = .error z → o = toOutcome (.error z)))

/-- A TR-TT walk that waited goes on under the registers of the moment: tables in physical space are refused, unless the bypass
is on, and so is a MASK that is neither 0000b nor 1111b (30 R206, 93 U2, U3); else it ends as `P` says. -/
def resumed (g : Regs) (o : Host.Outcome State Fault Refusal) (P : Prop) : Prop :=
  if g.bypassDis = true ∧ trttEn g = true ∧ trttTtloc g = false then o = .refused .trttPhysical
  else if trvaLegal g = true then P else o = .refused .trvaMask

/-- The TR-TT stage leaves a request of a source alone: the bypass is on, or TR-TT is off, or the source is not Render, or
the address is not a TR-VA with the tables in virtual space and MASK one of its two values (40 R220 to R222). -/
def noTrtt (s : State) (src : Source) (va : Word64) : Bool :=
  !s.regs.bypassDis || !trttEn s.regs || src != .engine .rcs || (trttTtloc s.regs && trvaLegal s.regs && !isTrva s.regs va)

/-- No TR-TT at all for a source: the bypass is on, or TR-TT is off, or the source is not Render. -/
def trttOff (s : State) (src : Source) : Bool := !s.regs.bypassDis || !trttEn s.regs || src != .engine .rcs

/-! ## Names the statements use -/

/-- The descriptor a legacy request is translated under, Valid aside: the engine's, written and with the one
fault model of a legacy context (60 R477), or the default one (10 R47, 92 D16). -/
def holdsLegacy (s : State) (elem : Word64) : Source → Bool
  | .engine e =>
    (s.bank e).elem.loWritten && (s.bank e).elem.hiWritten && ((s.bank e).elem.value ||| 1) == elem && field elem 6 2 == 0
  | .wdbox => elem == 0x00B
  | .vebox2 => elem == 0x00B
  | .display => elem == 0x00B
  | .aperture => elem == 0x00B

/-- The descriptor of an advanced context on an engine, Valid aside: written, with a fault model that sends page
requests (60 R477). -/
def holdsAdvanced (s : State) (elem : Word64) (e : Engine) : Bool :=
  (s.bank e).elem.loWritten && (s.bank e).elem.hiWritten && ((s.bank e).elem.value ||| 1) == elem && field elem 6 2 != 0 &&
  (faultModelOf s.plat (field elem 6 2) == .stream || faultModelOf s.plat (field elem 6 2) == .halt)

/-- A descriptor register that a command streamer has written, with its value. -/
def written (r : DescReg) (v : Word64) : Bool := r.loWritten && r.hiWritten && r.value == v

/-- The parameters of an advanced walk (44 R316, R317) from an Element Descriptor, a PASID entry in the PASID Cache and a
context entry. -/
def advOf (haw : Nat) (elem : Word64) (pc : PasidCache) (x : CtxEntry) : Adv :=
  ⟨bit elem 4, bit elem 8, bit elem 5, BitVec.ofNat 32 (field elem 32 32), frame haw 12 pc.pml4, pc.eafe, pc.fl64kpe,
    x.nxe, x.neste, x.wpe⟩

/-- The sources that have no context to hang (60 R485). -/
def noContext : Source → Bool
  | .engine _ => false | .wdbox => false | .vebox2 => false | .display => true | .aperture => true

/-- A CPU access in the aperture whose translation leads into the memory of the global table (20 R90, R92). -/
def gsmByCpu (p : Platform) (r : Request) (pa : Nat) : Bool :=
  r.src == .aperture && decide (pa < p.gsmBase + p.gsmSize) && decide (p.gsmBase < pa + r.acc.size)

/-- A range of bytes that is plain memory to a CPU (20 R80 to R85, R88): the first byte outside the aperture, and no byte in
GTTMMADR or in stolen memory, whose size GMS gives (20 R84). -/
def plainRange (p : Platform) (a n : Nat) : Prop :=
  0 < n ∧ (a < p.gmadrBase ∨ p.gmadrBase + p.gmadrSize ≤ a) ∧
  (a + n ≤ p.gttmmadrBase ∨ p.gttmmadrBase + 0x1000000 ≤ a) ∧ p.gms.toNat ≤ 128 ∧
  (a + n ≤ p.gsmBase ∨ p.gsmBase + p.gsmSize ≤ a) ∧ (a + n ≤ p.dsmBase ∨ p.dsmBase + p.gms.toNat * 0x2000000 ≤ a)

/-- The cached items of other sources than an engine stay, and those of the engine go (46 R407). -/
def onlyOthersStay (s t : State) (e : Engine) : Prop :=
  (∀ x, x ∈ t.caches.tlb ↔ x ∈ s.caches.tlb ∧ x.tag.src ≠ .engine e) ∧
  (∀ x, x ∈ t.caches.pwc ↔ x ∈ s.caches.pwc ∧ x.tag.src ≠ .engine e) ∧
  (∀ x, x ∈ t.caches.gtt ↔ x ∈ s.caches.gtt ∧ x.tag.src ≠ .engine e) ∧
  (∀ x, x ∈ t.caches.tr ↔ x ∈ s.caches.tr ∧ x.tag.src ≠ .engine e)

/-- The counter of one PASID is one lower (70 R515). -/
def countsDown (s t : State) (p : BitVec 20) : Prop :=
  ∀ q, sparseGet 0 t.iommu.pasidState q =
    if q = p.toNat then sparseGet 0 s.iommu.pasidState q - 1 else sparseGet 0 s.iommu.pasidState q

/-- A pending request once the context of an engine has left it: of that engine, it is of its present context no longer
(log 11). -/
def hasLeft (e : Engine) (p : PendingReq) : PendingReq := if p.req.src = .engine e then { p with live := false } else p

/-- The requests that outlive a device reset: those of display and aperture, which have no context (70 R511; log 25), and, where
hardware keeps PENDING (10 R70; log 41), the pending ones, of which none is of a running context any longer. -/
def withoutContexts (keep : Bool) (r : Reqs) : Reqs :=
  { r with
    held := r.held.filter (fun x => noContext x.req.src)
    pending := if keep then r.pending.map (fun x => if noContext x.req.src then x else { x with live := false }) else []
    inflight := r.inflight.filter (fun x => noContext x.req.src)
    awaitingReset := false }

/-- How many engines run an advanced context of a PASID (70 R515). -/
def residents (s : State) (q : Nat) : Nat :=
  ([Engine.rcs, .bcs, .vecs, .vcs0, .vcs1].filter (fun e => (s.bank e).resident.map BitVec.toNat == some q)).length

/-- A page response for a PASID and an address answers a pending request: the 4 KB page of the faulting address (60 R483). -/
def answers (p : BitVec 20) (va : Word64) (q : PendingReq) : Bool :=
  q.pasid == p && q.va.toNat / 4096 == va.toNat / 4096

/-- What a page response removes before it takes up the requests it answers (60 R483, 46 R408): the faulted entries, the page
requests and the pending requests. The model's record of the last walks goes too (log 14). -/
def answered (p : BitVec 20) (va : Word64) (s : State) : State :=
  { s with
    walker := ⟨s.walker.stage, none⟩
    caches := { s.caches with tlb := s.caches.tlb.filter (fun x => !(x.reason.isSome && x.tag.mode == .adv &&
      x.tag.root == p.toNat && x.page == va.toNat / 2 ^ x.bits)) }
    reqs := { s.reqs with
      pending := s.reqs.pending.filter (fun x => !answers p va x)
      pageRequests := s.reqs.pageRequests.filter (fun x => !(x.pasid == p && x.va.toNat / 4096 == va.toNat / 4096)) } }

/-! ## What the machine does with no event queued (log 3) -/

/-- Once no access is in flight, the waiting Invalidation Wait Descriptors are answered (46 R409, 20 R115). -/
def waitsAnswered (s : State) : State :=
  if s.reqs.inflight = [] then
    { s with reqs := { s.reqs with invWaits := 0 }, outputs := List.replicate s.reqs.invWaits .invWaitDone ++ s.outputs }
  else s

/-- A step performs an access: the access itself, in the state in which it is in flight no longer, then the waiting Invalidation
Wait Descriptors; a stop of the access is the step's. -/
def performs (o : Host.Outcome State Fault Refusal) (s : State) (f : InFlight) : Prop :=
  (∀ t, performAccess s f = .ok t → o = .next (waitsAnswered t)) ∧ ∀ z, performAccess s f = .error z → o = toOutcome (.error z)

/-- No event is queued, no access can be performed, and no Invalidation Wait Descriptor can be answered. -/
def quiet (s : State) : Prop :=
  s.inputs = [] ∧ (∀ f ∈ s.reqs.inflight, isHung s f.req.src = true) ∧ (s.reqs.inflight = [] → s.reqs.invWaits = 0)

/-- GAM owes an engine an acknowledgement that it can give: Context Confirmed, or Context Receive Ready once none of the engine's
accesses is in flight (45 R353, R356). -/
def owes (s : State) (e : Engine) : Bool :=
  !s.reqs.deferAcks && ((s.bank e).hs == .launchedReceived ||
    ((s.bank e).hs == .availableReceived && s.reqs.inflight.all (fun f => f.req.src != .engine e)))

/-- The engines whose acknowledgements come before that of an engine. -/
def ackedBefore : Engine → List Engine
  | .rcs => [] | .vcs0 => [.rcs] | .vcs1 => [.rcs, .vcs0] | .vecs => [.rcs, .vcs0, .vcs1] | .bcs => [.rcs, .vcs0, .vcs1, .vecs]

/-- Steps for the elements of a list in turn, up to the first that stops; the record of walks is that of all of them
(log 14). -/
def inTurn {α : Type} (f : α → State → Host.Outcome State Fault Refusal) :
    List α → State → Host.Outcome State Fault Refusal
  | [], s => .next s
  | q :: l, s =>
    match f q s with
    | .next t => inTurn f l (setWalked t (joinRec t.walker.walked s.walker.walked))
    | .fault x => .fault x
    | .refused x => .refused x

/-- The four messages by engine (30 R184). -/
def availableOf : Engine → Instr
  | .rcs => .availableRcs | .bcs => .availableBcs | .vecs => .availableVecs | .vcs0 => .availableVcs0 | .vcs1 => .availableVcs1
def receiveReadyOf : Engine → Instr
  | .rcs => .receiveReadyRcs | .bcs => .receiveReadyBcs | .vecs => .receiveReadyVecs | .vcs0 => .receiveReadyVcs0
  | .vcs1 => .receiveReadyVcs1
def launchedOf : Engine → Instr
  | .rcs => .launchedRcs | .bcs => .launchedBcs | .vecs => .launchedVecs | .vcs0 => .launchedVcs0 | .vcs1 => .launchedVcs1
def confirmedOf : Engine → Instr
  | .rcs => .confirmedRcs | .bcs => .confirmedBcs | .vecs => .confirmedVecs | .vcs0 => .confirmedVcs0 | .vcs1 => .confirmedVcs1

/-- Another engine runs a context with the context ID of an Element Descriptor (70 R534). -/
def idTaken (s : State) (e : Engine) (d : Word64) : Bool :=
  [Engine.rcs, .bcs, .vecs, .vcs0, .vcs1].any (fun x => x != e &&
    ((s.bank x).hs == .launchedReceived || (s.bank x).hs == .running) && field (s.bank x).elem.value 32 32 == field d 32 32)

/-- The GAM-to-CS addresses of 30 R184. -/
def csAddress : Engine → Nat
  | .rcs => 0x3438 | .bcs => 0x23438 | .vecs => 0x1B438 | .vcs0 => 0x13438 | .vcs1 => 0x1D438

/-- The CS-to-GAM addresses of 30 R184. -/
def gamAddress : Engine → Nat
  | .rcs => 0x4004 | .vcs0 => 0x4008 | .vcs1 => 0x400C | .vecs => 0x4010 | .bcs => 0x4014

/-- The offset of a descriptor register (10 R40). -/
def descOffset (e : Engine) (d : DescName) : Nat :=
  (match e with
    | .rcs => 0x4400 | .vcs0 => 0x4440 | .vcs1 => 0x4480 | .vecs => 0x44C0 | .bcs => 0x4500) +
  (match d with
    | .elem => 0 | .pdp0 => 8 | .pdp1 => 16 | .pdp2 => 24 | .pdp3 => 32)

/-- The rows that translate a request. -/
def isTranslation : Instr → Bool
  | .xlateGgtt _ _ => true | .xlatePpgtt32 _ _ => true | .xlatePpgtt48 _ _ => true | .xlateAdv _ _ => true
  | .xlateTrtt _ => true | .tlbLookup _ _ => true | .pageResponse _ _ _ _ => true
  | _ => false

/-- The page-update atomics (47 R430). -/
def isApu : Instr → Bool
  | .apu0000 _ _ => true | .apu0001 _ _ => true | .apu0010 _ _ => true | .apu0011 _ _ => true
  | .apu0100 _ _ => true | .apu0101 _ _ => true | .apu0110 _ _ => true | .apu0111 _ _ => true
  | .apu1000 _ _ => true | .apu1001 _ _ => true | .apu1010 _ _ => true | .apu1011 _ _ => true
  | .apu1100 _ _ => true | .apu1101 _ _ => true | .apu1110 _ _ => true | .apu1111 _ _ => true
  | _ => false

/-- The sixteen page-update atomics of an engine on the entry at an address (47 R434 to R449). -/
def apuRows (e : Engine) (pa : Word64) : List Instr :=
  [.apu0000 e pa, .apu0001 e pa, .apu0010 e pa, .apu0011 e pa, .apu0100 e pa, .apu0101 e pa, .apu0110 e pa, .apu0111 e pa,
   .apu1000 e pa, .apu1001 e pa, .apu1010 e pa, .apu1011 e pa, .apu1100 e pa, .apu1101 e pa, .apu1110 e pa, .apu1111 e pa]

/-- The seven IA32e formats (30 R140 to R146). -/
def ia32eRows (e : Word64) (fl64k : Bool) : List Instr :=
  [.iaPml4e e, .iaPdpePd e, .iaPdpe1G e, .iaPdePt e fl64k, .iaPde2M e, .iaPte64K e, .iaPte4K e]

/-- The paging-entry formats that tell a present entry from one that is not (30 R140 to R170). -/
def entryRows (e : Word64) (fl64k : Bool) : List Instr :=
  ia32eRows e fl64k ++ [.p32Pde e, .p32Pte64K e, .p32Pte4K e, .p48Pml4e e, .p48PdpePd e, .p48Pdpe1G e, .p48PdePt e,
    .p48Pde2M e, .p48Pte64K e, .p48Pte4K e, .ggttPte e]

/-- The scope of an invalidation takes in an address space (46 R406). -/
def svmTag (sc : SvmScope) (t : Tag) : Prop :=
  match sc with
  | .global => True
  | .pasid p => t.mode = .adv ∧ t.root = p.toNat
  | .page p _ => t.mode = .adv ∧ t.root = p.toNat

/-- The scope of an invalidation takes in an engine: it runs an advanced context, of the PASID named. -/
def svmEngine (s : State) (sc : SvmScope) (e : Engine) : Prop :=
  match sc with
  | .global => (s.bank e).resident ≠ none ∨ (s.bank e).pc.valid = true
  | .pasid p => (s.bank e).resident = some p
  | .page p _ => (s.bank e).resident = some p

/-- The address of a page scope, if it is one, has a property. -/
def svmAt (sc : SvmScope) (P : Word64 → Prop) : Prop :=
  match sc with
  | .global => True
  | .pasid _ => True
  | .page _ va => P va

/-- What goes with the PASID Caches and with the Context Cache (46 R391, R392, R406): the items of the engines in scope, and
of every advanced context. -/
def svmLow (s : State) (sc : SvmScope) (st : SvmStages) (t : Tag) : Prop :=
  (st.pc = true ∧ ∃ e, t.src = .engine e ∧ svmEngine s sc e) ∨
  (st.cc = true ∧ (t.mode = .adv ∨ ∃ e, t.src = .engine e ∧ svmEngine s .global e))

/-- The registers after a write to a named one: its fields are stored, its reserved bits stay 0 (10 R22 to R26, R30, R33). -/
def regAfter (g : Regs) (v : Word32) : RegName → Regs
  | .trttL3Lo =>
    { g with trttL3ptr := BitVec.ofNat 64 (field g.trttL3ptr 32 16 * 2 ^ 32 + v.toNat / 2 ^ 16 * 2 ^ 16) }
  | .trttL3Hi =>
    { g with trttL3ptr := BitVec.ofNat 64 (v.toNat % 2 ^ 16 * 2 ^ 32 + field g.trttL3ptr 16 16 * 2 ^ 16) }
  | .trttNull => { g with trttNull := v }
  | .trttInvalid => { g with trttInvalid := v }
  | .trvadr => { g with trvadr := BitVec.ofNat 32 (v.toNat % 256) }
  | .trtte => { g with trtte := BitVec.ofNat 32 (v.toNat % 4) }
  | .adNonwb => { g with adNonwbIgnore := v.getLsbD 1 }
  | .ips => { g with ipsEnable := v.getLsbD 0 }
  | .gttCache => { g with gttCacheEnable := v.getLsbD 0 }
  | .nullTileCount => g

/-- What a named register reads as; the bits beside the A/D control are not described (93 U32). -/
def regShows (g : Regs) (n : Nat) : RegName → Prop
  | .trttL3Lo => n = field g.trttL3ptr 0 32
  | .trttL3Hi => n = field g.trttL3ptr 32 32
  | .trttNull => n = g.trttNull.toNat
  | .trttInvalid => n = g.trttInvalid.toNat
  | .trvadr => n = g.trvadr.toNat
  | .trtte => n = g.trtte.toNat
  | .adNonwb => n / 2 % 2 = g.adNonwbIgnore.toNat
  | .ips => n = g.ipsEnable.toNat
  | .gttCache => n = g.gttCacheEnable.toNat
  | .nullTileCount => n = g.nullTileCount

/-- A read shows a number; free values may have been drawn, and nothing else changes. -/
def readDone (s : State) (o : Host.Outcome State Fault Refusal) (P : Nat → Prop) : Prop :=
  ∃ n k, o = .next ((s.setFree k).emit (.cpuData n)) ∧ P n

/-- The rows that program the global GTT (43 R303, R305). -/
def isGttStore : Instr → Bool
  | .gttWrite _ _ _ => true | .miUpdateGtt _ _ => true
  | _ => false

/-- The rows that move a hand-shake: messages and resets (45 R352, 70 R510). -/
def isDelivery : Instr → Bool
  | .availableRcs => true | .receiveReadyRcs => true | .launchedRcs => true | .confirmedRcs => true
  | .availableBcs => true | .receiveReadyBcs => true | .launchedBcs => true | .confirmedBcs => true
  | .availableVecs => true | .receiveReadyVecs => true | .launchedVecs => true | .confirmedVecs => true
  | .availableVcs0 => true | .receiveReadyVcs0 => true | .launchedVcs0 => true | .confirmedVcs0 => true
  | .availableVcs1 => true | .receiveReadyVcs1 => true | .launchedVcs1 => true | .confirmedVcs1 => true
  | .resetEngine _ => true | .resetDevice => true | .resetBus => true
  | _ => false

/-- A page-update atomic is done: the entry at `pa` reads as `v`, every byte outside it and everything else is as before, and
`new_dst` is reported. -/
def apuDone (s : State) (o : Host.Outcome State Fault Refusal) (pa : Nat) (v : Word64) : Prop :=
  ∃ t, o = .next t ∧ memRead64 t pa = .ok v ∧ sameOutside s t pa 8 ∧
    t = { s with mem := t.mem, outputs := .newDst v :: s.outputs }

/-- The entry `old` with bits set, if a condition on it holds. -/
def setIf (c : Bool) (old bits : Word64) : Word64 := if c then old ||| bits else old

/-- The walker's accumulators become `st`, nothing else changes (log 12). -/
def entryDone (s : State) (o : Host.Outcome State Fault Refusal) (st : Stage) : Prop :=
  o = .next (s.setWalker ⟨st, s.walker.walked⟩)

/-- What a reset leaves of requests: those of a source are gone, but where hardware keeps PENDING its pending ones stay, of a
running context no longer (70 R511, R513; 10 R70, 45 R362; log 41). -/
def withoutSource (keep : Bool) (src : Source) (r : Reqs) : Reqs :=
  { r with
    held := r.held.filter (fun x => x.req.src != src)
    pending :=
      if keep then r.pending.map (fun x => if x.req.src = src then { x with live := false } else x)
      else r.pending.filter (fun x => x.req.src != src)
    inflight := r.inflight.filter (fun x => x.req.src != src) }

/-- An engine without a context (70 R511). -/
def idleBank (b : Bank) : Bool := b.hs == .idle && !b.hung && !b.stopped && b.resident == none

/-- The PASID Cache of an engine after a device reset: invalid (70 R511, R517), or kept (10 R70; log 41). -/
def pcAfterReset (keep : Bool) (old new : Bank) : Prop := if keep = true then new.pc = old.pc else new.pc.valid = false

/-- A descriptor register is not to be read: no command streamer has written it since the last device or bus reset (10 R46, 93
U1). -/
def unwritten (b : Bank) : Prop := ∀ d : DescName, (b.desc d).get = .error (.refused .descriptorUnwritten)

/-- The requests held back by a stopped context leave with it (47 R453; log 22): those of the engine that name no other context
than its own. -/
def heldAfter (s : State) (e : Engine) : List HeldReq :=
  if (s.bank e).stopped = true then
    s.reqs.held.filter (fun h => !(h.req.src == .engine e && (h.pasid == none || h.pasid == (s.bank e).resident)))
  else s.reqs.held

end Sys2Proof.Rules
end

