-- ==== Sys2Proof/Certificates/Slice0/Obligations.lean ====
section
/-! DEFINITION. The statements for the provers. -/

open Sys2Proof Sys2Proof.Machine

/-! ## Encoding and the step -/

/-- Every well-formed operation survives the writing and reading of its frame, with every operand. The frame is the model's
own (log 2). -/
def Obligations.DecodeEncode : Prop := ∀ i : Instr, WellFormed i → decode (encode i) = .ok i

/-- What the decoder answers is well-formed: an entry row has its fixed bits, an atomic an aligned address. -/
def Obligations.DecodeWellFormed : Prop := ∀ (bs : List Byte) (i : Instr), decode bs = .ok i → WellFormed i

/-- Words written out from the spec's encodings decode to the operations they stand for (30 R180, R184, R186). -/
def Obligations.TableWordsDecode : Prop :=
  decodeTableWord 8 0xC0 = some (.apu0000 .rcs 0) ∧ decodeTableWord 8 0xC7 = some (.apu0111 .rcs 0) ∧
  decodeTableWord 8 0xCF = some (.apu1111 .rcs 0) ∧ decodeTableWord 32 0x00010001 = some .availableRcs ∧
  decodeTableWord 32 0x00020002 = some .launchedRcs ∧
  decodeTableWord 64 0x00B = some (.xlateGgtt 0x00B ⟨.engine .rcs, .hdc, 0, .read 1⟩) ∧
  decodeTableWord 64 0x11B = some (.xlatePpgtt48 0x11B ⟨.engine .rcs, .hdc, 0, .read 1⟩)

/-- One step with an operation at the head of the queue is the meaning of that operation; `withFetchWord` puts it there. -/
def Obligations.StepRunsOperation : Prop :=
  (∀ (s : State) (frame : List Byte) (rest : List Input) (i : Instr),
    s.inputs = .op frame :: rest → decode frame = .ok i → step s = exec i (s.setInputs rest)) ∧
  (∀ (s : State) (nbits w : Nat) (i : Instr),
    decodeTableWord nbits w = some i → step (s.withFetchWord nbits w) = exec i s)

/-! ## The invariant -/

/-- The machine right after reset meets the invariant. -/
def Obligations.ResetInv : Prop := State.reset.Inv

/-- Every step keeps the invariant, whatever event it takes. -/
def Obligations.StepKeepsInv : Prop := ∀ s t : State, s.Inv → step s = .next t → t.Inv

/-- What reset leaves where the spec gives a value (10 R70); no context is stopped, a field of the model (log 22). -/
def Obligations.ResetValues : Prop :=
  State.reset.regs.trttL3ptr = 0 ∧ State.reset.regs.trttNull = 0 ∧ State.reset.regs.trttInvalid = 0 ∧
  State.reset.regs.trvadr = 0 ∧ State.reset.regs.trtte = 0 ∧ State.reset.regs.bypassDis = false ∧
  State.reset.regs.adNonwbIgnore = false ∧
  ∀ e : Engine, (State.reset.bank e).hs = .idle ∧ (State.reset.bank e).hung = false ∧
    (State.reset.bank e).stopped = false ∧ ∀ d : DescName, ((State.reset.bank e).desc d).get = .error (.refused .descriptorUnwritten)

/-! ## Whole-machine rules -/

/-- A translation or a page response changes memory only by newly set A, D and EA bits of aligned entries; no other bit of
any byte changes, none of these bits is cleared (47 R458, R431). -/
def Obligations.TranslationsOnlySetADE : Prop :=
  ∀ (i : Instr) (s t : State), Rules.isTranslation i = true → Memory.wf s.mem = true → exec i s = .next t →
    onlySetsADE s t

/-- The walks of legacy contexts, of the global GTT and of advanced contexts without A&D support write no memory
(47 R430, R458). -/
def Obligations.PlainWalksWriteNothing : Prop :=
  (∀ (elem : Word64) (r : Request) (s t : State), exec (.xlateGgtt elem r) s = .next t → t.mem = s.mem) ∧
  (∀ (elem : Word64) (r : Request) (s t : State), exec (.xlatePpgtt32 elem r) s = .next t → t.mem = s.mem) ∧
  (∀ (elem : Word64) (r : Request) (s t : State), exec (.xlatePpgtt48 elem r) s = .next t → t.mem = s.mem) ∧
  (∀ (elem : Word64) (r : Request) (s t : State), bit elem 4 = false → exec (.xlateAdv elem r) s = .next t →
    t.mem = s.mem)

/-- No row but a translation, a page-update atomic and the two that program the global GTT writes memory. -/
def Obligations.OtherRowsKeepMemory : Prop :=
  ∀ (i : Instr) (s t : State), Rules.isTranslation i = false → Rules.isApu i = false → Rules.isGttStore i = false →
    exec i s = .next t → t.mem = s.mem

/-- Only messages and resets move a hand-shake or change which context is resident (45 R352, 10 R68). -/
def Obligations.OnlyDeliveryMovesHandShakes : Prop :=
  ∀ (i : Instr) (s t : State) (e : Engine), Rules.isDelivery i = false → exec i s = .next t →
    (t.bank e).hs = (s.bank e).hs ∧ (t.bank e).resident = (s.bank e).resident ∧
    t.iommu.pasidState = s.iommu.pasidState

/-- No row of the opcode table but a device or bus reset writes the MMIO registers, the null-tile counter aside. What writes of a
CPU or a command streamer, which are no rows, do is RegisterWrites. -/
def Obligations.RowsKeepControlRegisters : Prop :=
  ∀ (i : Instr) (s t : State), i ≠ .resetDevice → i ≠ .resetBus → exec i s = .next t →
    t.regs = { s.regs with nullTileCount := t.regs.nullTileCount } ∧ t.plat = s.plat ∧ t.inputs = s.inputs

/-! ## Page-update atomics -/

/-- The eight operations for a final page-table entry (47 R434 to R441): the entry `old` at `pa` becomes the value the rule
gives and is returned; nothing else changes. The guard (not present; read-only under `w`) is the spec's own decision, R433
[D38], log 28. That the update is as indivisible on other memory than write-back is the model's choice, log 49. -/
def Obligations.ApuFinalRows : Prop :=
  ∀ (s : State) (e : Engine) (pa old : Word64),
    Memory.wf s.mem = true → memType s.plat pa.toNat = .wb ∨ s.regs.adNonwbIgnore = true →
    memRead64 s pa.toNat = .ok old →
    Rules.apuDone s (exec (.apu0000 e pa) s) pa.toNat (Rules.setIf (bit old 0) old 0x020) ∧
    Rules.apuDone s (exec (.apu0001 e pa) s) pa.toNat (Rules.setIf (bit old 0) old 0x060) ∧
    Rules.apuDone s (exec (.apu0010 e pa) s) pa.toNat (Rules.setIf (bit old 0) old 0x420) ∧
    Rules.apuDone s (exec (.apu0011 e pa) s) pa.toNat (Rules.setIf (bit old 0) old 0x460) ∧
    Rules.apuDone s (exec (.apu0100 e pa) s) pa.toNat (Rules.setIf (bit old 0) old 0x020) ∧
    Rules.apuDone s (exec (.apu0101 e pa) s) pa.toNat (Rules.setIf (bit old 0 && bit old 1) old 0x060) ∧
    Rules.apuDone s (exec (.apu0110 e pa) s) pa.toNat (Rules.setIf (bit old 0) old 0x420) ∧
    Rules.apuDone s (exec (.apu0111 e pa) s) pa.toNat (Rules.setIf (bit old 0 && bit old 1) old 0x460)

/-- The eight operations for an intermediate paging entry (47 R442 to R449). The guard is the spec's own decision, R433 [D38],
log 28. That the update is as indivisible on other memory than write-back is the model's choice, log 49. -/
def Obligations.ApuIntermediateRows : Prop :=
  ∀ (s : State) (e : Engine) (pa old : Word64),
    Memory.wf s.mem = true → memType s.plat pa.toNat = .wb ∨ s.regs.adNonwbIgnore = true →
    memRead64 s pa.toNat = .ok old →
    Rules.apuDone s (exec (.apu1000 e pa) s) pa.toNat (Rules.setIf (bit old 0) old 0x020) ∧
    Rules.apuDone s (exec (.apu1001 e pa) s) pa.toNat (Rules.setIf (bit old 0) old 0x060) ∧
    Rules.apuDone s (exec (.apu1010 e pa) s) pa.toNat (Rules.setIf (bit old 0) old 0x420) ∧
    Rules.apuDone s (exec (.apu1011 e pa) s) pa.toNat (Rules.setIf (bit old 0) old 0x460) ∧
    Rules.apuDone s (exec (.apu1100 e pa) s) pa.toNat (Rules.setIf (bit old 0) old 0x020) ∧
    Rules.apuDone s (exec (.apu1101 e pa) s) pa.toNat (Rules.setIf (bit old 0 && bit old 1) old 0x060) ∧
    Rules.apuDone s (exec (.apu1110 e pa) s) pa.toNat (Rules.setIf (bit old 0) old 0x420) ∧
    Rules.apuDone s (exec (.apu1111 e pa) s) pa.toNat (Rules.setIf (bit old 0 && bit old 1) old 0x460)

/-- On memory that is not write-back, unless the check is off, every page-update atomic raises the catastrophic error and
updates nothing (47 R452, R453). On a part that keeps 47 R453 the context that the engine runs makes no further progress: no
request of the engine is translated. On one that keeps 60 R466, and where no context runs, nothing else changes; which of the
two rules holds is the model's parameter (log 22). The context ID reported is the one the engine's Element Descriptor holds
(log 39). -/
def Obligations.ApuNonWriteBack : Prop :=
  ∀ (s : State) (e : Engine) (pa : Word64), memType s.plat pa.toNat ≠ .wb → s.regs.adNonwbIgnore = false →
    ∀ i ∈ Rules.apuRows e pa,
      let u := s.emit (.catastrophic (.engine e) (ctxIdOf s (.engine e)) .nonWBPagingEntry)
      let runs := (s.bank e).hs = .launchedReceived ∨ (s.bank e).hs = .running
      (s.plat.stopOnCatastrophic = false ∨ ¬ runs → exec i s = .next u) ∧
      (s.plat.stopOnCatastrophic = true → runs →
        ∃ t, exec i s = .next t ∧ t = u.setBank e { s.bank e with stopped := true } ∧ ∀ p, gateOpen t p (.engine e) = false)

/-! ## Entry rows -/

/-- The IA32e formats that point to a table (30 R140, R141, R143, R195; 44 R317, R321): the rights are ANDed, XD is ORed, the
base is bits (HAW-1):12, bit 11 of a PDE selects 64 KB pages under FL64KPE. -/
def Obligations.Ia32ePointerRows : Prop :=
  ∀ (s : State) (e : Word64) (fl64k : Bool), field e s.plat.haw (52 - s.plat.haw) = 0 → bit e 0 = true → bit e 7 = false →
    let st := s.walker.stage
    let out := EntryOut.table (Rules.frame s.plat.haw 12 e)
    Rules.entryDone s (exec (.iaPml4e e) s)
      ⟨bit e 1, bit e 2, bit e 63, false, false, bit e 4, bit e 3, false, out⟩ ∧
    Rules.entryDone s (exec (.iaPdpePd e) s)
      ⟨st.rw && bit e 1, st.us && bit e 2, st.xd || bit e 63, false, false, bit e 4, bit e 3, false, out⟩ ∧
    Rules.entryDone s (exec (.iaPdePt e fl64k) s)
      ⟨st.rw && bit e 1, st.us && bit e 2, st.xd || bit e 63, bit e 11 && fl64k, false, bit e 4, bit e 3, false, out⟩

/-- The IA32e formats that map a page (30 R142, R144, R145, R146, R195; 44 R317, R324). -/
def Obligations.Ia32eLeafRows : Prop :=
  ∀ (s : State) (e : Word64), field e s.plat.haw (52 - s.plat.haw) = 0 → bit e 0 = true →
    let st := s.walker.stage
    let leaf (pat bits : Nat) : Stage :=
      ⟨st.rw && bit e 1, st.us && bit e 2, st.xd || bit e 63, false, bit e pat, bit e 4, bit e 3, bit e 6,
        .leaf bits (Rules.frame s.plat.haw bits e) false⟩
    (bit e 7 = true → field e 13 17 = 0 → Rules.entryDone s (exec (.iaPdpe1G e) s) (leaf 12 30)) ∧
    (bit e 7 = true → field e 13 8 = 0 → Rules.entryDone s (exec (.iaPde2M e) s) (leaf 12 21)) ∧
    (field e 12 4 = 0 → Rules.entryDone s (exec (.iaPte64K e) s) (leaf 7 16)) ∧
    Rules.entryDone s (exec (.iaPte4K e) s) (leaf 7 12)

/-- Every paging-entry row refuses a word that is not of its format: not present, or of the other size (30 R187); every IA32e
row refuses a word of its format in which a Reserved bit is 1 (44 R326, 30 R207): bits 51:HAW in all seven, and those of the
PML4E, the large pages and the 64 KB page. -/
def Obligations.EntryRowsRefuse : Prop :=
  ∀ (s : State) (e : Word64) (fl64k : Bool),
    (bit e 0 = false → ∀ i ∈ Rules.entryRows e fl64k, exec i s = .refused .entryPattern) ∧
    (bit e 7 = true → ∀ i ∈ [Instr.iaPdpePd e, .iaPdePt e fl64k, .p48PdpePd e, .p48PdePt e],
      exec i s = .refused .entryPattern) ∧
    (bit e 7 = false → ∀ i ∈ [Instr.iaPdpe1G e, .iaPde2M e, .p48Pdpe1G e, .p48Pde2M e],
      exec i s = .refused .entryPattern) ∧
    (field e s.plat.haw (52 - s.plat.haw) ≠ 0 → ∀ i ∈ Rules.ia32eRows e fl64k, WellFormed i →
      exec i s = .refused .reservedBits) ∧
    (bit e 0 = true → (bit e 7 = true → exec (.iaPml4e e) s = .refused .reservedBits) ∧
    (bit e 7 = true → field e 13 17 ≠ 0 → exec (.iaPdpe1G e) s = .refused .reservedBits) ∧
    (bit e 7 = true → field e 13 8 ≠ 0 → exec (.iaPde2M e) s = .refused .reservedBits) ∧
    (field e 12 4 ≠ 0 → exec (.iaPte64K e) s = .refused .reservedBits))

/-- The legacy formats that point to a table (30 R150, R155, R156, R158): the base is bits (HAW-1):12, bit 11 of a page
directory entry selects 64 KB pages under IPS_ENABLE (41 R253, R257; 42 R278). That no right is taken from a 48b pointer entry
is the spec's own reading, R276 [D18], and U24 allows any value (log 28); the accumulators are log 12. -/
def Obligations.LegacyPointerRows : Prop :=
  ∀ (s : State) (e : Word64), bit e 0 = true →
    let st := s.walker.stage
    let out := EntryOut.table (Rules.frame s.plat.haw 12 e)
    Rules.entryDone s (exec (.p32Pde e) s) ⟨true, true, false, bit e 11 && s.regs.ipsEnable, false, false, false, false, out⟩ ∧
    Rules.entryDone s (exec (.p48Pml4e e) s) ⟨true, true, false, false, false, false, false, false, out⟩ ∧
    (bit e 7 = false →
      Rules.entryDone s (exec (.p48PdpePd e) s) ⟨st.rw, st.us, st.xd, false, false, false, false, false, out⟩ ∧
      Rules.entryDone s (exec (.p48PdePt e) s)
        ⟨st.rw, st.us, st.xd, bit e 11 && s.regs.ipsEnable, false, false, false, false, out⟩)

/-- The legacy formats that map a page (30 R151, R152, R157, R159, R160, R161): R/W and the Null bit are the leaf's own
(41 R256, R257; 42 R279), PAT is bit 7 of a PTE and bit 12 of a large page (42 R272). That the upper levels of a 48b walk do
not take the right to write is the spec's own reading, R276 [D18], and U24 allows any value (log 28). -/
def Obligations.LegacyLeafRows : Prop :=
  ∀ (s : State) (e : Word64), bit e 0 = true →
    let st := s.walker.stage
    let leaf (pat bits : Nat) : Stage :=
      ⟨bit e 1, st.us, st.xd, false, bit e pat, bit e 4, bit e 3, false,
        .leaf bits (Rules.frame s.plat.haw bits e) (bit e 9)⟩
    Rules.entryDone s (exec (.p32Pte4K e) s) (leaf 7 12) ∧ Rules.entryDone s (exec (.p32Pte64K e) s) (leaf 7 16) ∧
    Rules.entryDone s (exec (.p48Pte4K e) s) (leaf 7 12) ∧ Rules.entryDone s (exec (.p48Pte64K e) s) (leaf 7 16) ∧
    (bit e 7 = true →
      Rules.entryDone s (exec (.p48Pde2M e) s) (leaf 12 21) ∧ Rules.entryDone s (exec (.p48Pdpe1G e) s) (leaf 12 30))

/-- The global GTT entry and the three TR-TT entries (30 R170, R175 to R177; 40 R224 to R226): a global page is writable
and never Null; Invalid comes before Null, and each before an address. -/
def Obligations.GgttAndTrttRows : Prop :=
  ∀ (s : State) (e : Word64) (l1 : Word32),
    let st := s.walker.stage
    let out : EntryOut :=
      if bit e 0 = true then .trInvalid else if bit e 1 = true then .trNull
      else .trTable (BitVec.ofNat 64 (field e 12 36 * 2 ^ 12))
    (bit e 0 = true →
      Rules.entryDone s (exec (.ggttPte e) s)
        ⟨true, true, false, false, false, false, false, false, .leaf 12 (Rules.frame s.plat.haw 12 e) false⟩) ∧
    Rules.entryDone s (exec (.trttL3e e) s) { Stage.fresh with out := out } ∧
    Rules.entryDone s (exec (.trttL2e e) s) { st with out := out } ∧
    Rules.entryDone s (exec (.trttL1e l1) s) { st with out :=
      if l1 = s.regs.trttInvalid then .trInvalid else if l1 = s.regs.trttNull then .trNull else .trTile l1 }

/-! ## Translations -/

/-- A request of a source that is not Running, that is hung, or whose context a catastrophic error has stopped, waits: nothing
else changes. It is translated once its source
runs (and, if it belonged to a PASID, that context): when GAM takes it up, and by the machine on its own when it is the
oldest and nothing else is to be done; with nothing at all to be done the machine stays as it is (45 R356, 60 R478; logs 3,
11); that requests of a stopped context (47 R453) wait is
log 22. -/
def Obligations.RequestsWaitForRunning : Prop :=
  (∀ (s : State) (r : Request) (elem : Word64) (use : CacheUse), r.wellFormed = true → gateOpen s none r.src = false →
    let t := s.addHeld ⟨r, none⟩
    exec (.xlateGgtt elem r) s = .next t ∧ exec (.xlatePpgtt32 elem r) s = .next t ∧
    exec (.xlatePpgtt48 elem r) s = .next t ∧ exec (.xlateAdv elem r) s = .next t ∧
    exec (.xlateTrtt r) s = .next t ∧ exec (.tlbLookup use r) s = .next t) ∧
  (∀ (s : State) (k : Nat) (h : HeldReq) (use : CacheUse) (rest : List Input),
    s.inputs = .grant k use :: rest → s.reqs.held[k]? = some h →
    (gateOpen s h.pasid h.req.src = false → step s = .next (s.setInputs rest)) ∧
    (gateOpen s h.pasid h.req.src = true → step s = exec (.tlbLookup use h.req)
      { s with inputs := rest, reqs := { s.reqs with held := s.reqs.held.eraseIdx k } })) ∧
  ∀ s : State, Rules.quiet s → (∀ e, Rules.owes s e = false) →
    (∀ (h : HeldReq) (l : List HeldReq), s.reqs.held = h :: l → gateOpen s h.pasid h.req.src = true →
      step s = exec (.tlbLookup noCache h.req) { s with reqs := { s.reqs with held := l } }) ∧
    ((∀ h ∈ s.reqs.held, gateOpen s h.pasid h.req.src = false) → step s = .next s)

/-- XLATE.GGTT is the walk of 43 R300: GTI gets the access, or a fault hangs the source; where the rule refuses, so does
the row. A not-present entry met by an aperture or display access is refused (43 R307, 60 R485), and so is a CPU access in
the aperture that the table leads into its own memory: the spec lets the CPU reach it through the alias only (20 R90, R92;
the model's reading, log 43). What the walk leaves for the caches (`w`) aside, nothing else changes. -/
def Obligations.XlateGgtt : Prop :=
  ∀ (s : State) (elem : Word64) (r : Request),
    WellFormed (.xlateGgtt elem r) → gateOpen s none r.src = true → Rules.holdsLegacy s elem r.src = true →
    Rules.trttOff s r.src = true → 6 ≤ s.plat.haw →
    (∀ x, Rules.ggtt s r.va = .ok x → Rules.noContext r.src = false ∨ (∃ pa attrs, x = .phys pa attrs) →
      (∀ pa attrs, x = .phys pa attrs → Rules.gsmByCpu s.plat r pa = false) →
      ∃ w, exec (.xlateGgtt elem r) s = .next (Rules.endLegacy (setWalked s w) r (ctxIdOf s r.src) x)) ∧
    (∀ pa attrs, Rules.ggtt s r.va = .ok (.phys pa attrs) → Rules.gsmByCpu s.plat r pa = true →
      exec (.xlateGgtt elem r) s = .refused .stolenNotVisible) ∧
    (Rules.ggtt s r.va = .ok (.fault .notPresent 1) → Rules.noContext r.src = true →
      exec (.xlateGgtt elem r) s = .refused .notPresentNoContext) ∧
    (∀ e, Rules.ggtt s r.va = .error e → exec (.xlateGgtt elem r) s = toOutcome (.error e))

/-- XLATE.PPGTT32 is the walk of 41 R251 from the pointer that `va[31:30]` selects (41 R252). An address with a bit above 31 is
refused (30 R191, 41 R250, 93 U14), by TLB.LOOKUP too. That a dropped write or an atomic is completed with the null indicator
too is the model's choice, log 47. -/
def Obligations.XlatePpgtt32 : Prop :=
  ∀ (s : State) (e : Engine) (elem pdp : Word64) (r : Request),
    WellFormed (.xlatePpgtt32 elem r) → r.src = .engine e → gateOpen s none r.src = true →
    Rules.holdsLegacy s elem r.src = true →
    (2 ^ 32 ≤ r.va.toNat → exec (.xlatePpgtt32 elem r) s = .refused .vaOutOfRange ∧
      ∀ use, exec (.tlbLookup use r) s = .refused .vaOutOfRange) ∧
    (Rules.trttOff s r.src = true → 6 ≤ s.plat.haw → r.va.toNat < 2 ^ 32 →
    Rules.written (Rules.pdpOf (s.bank e) r.va) pdp = true →
    (∀ x, Rules.ppgtt32 s pdp r.acc.isWrite r.va = .ok x →
      ∃ w, exec (.xlatePpgtt32 elem r) s = .next (Rules.endLegacy (setWalked s w) r (ctxIdOf s r.src) x)) ∧
    (∀ e, Rules.ppgtt32 s pdp r.acc.isWrite r.va = .error e → exec (.xlatePpgtt32 elem r) s = toOutcome (.error e)))

/-- XLATE.PPGTT48 is the walk of 42 R272 from PDP0 (42 R273), for canonical addresses where the TR-TT stage does not
apply. An address that is not canonical is refused (30 R191, 42 R286, 93 U14), by XLATE.TRTT and TLB.LOOKUP too. The outcome
of a write under a read-only pointer entry is the spec's own reading, R276 [D18], and U24 allows any value (log 28). That a
dropped write or an atomic is completed with the null indicator too is the model's choice, log 47. -/
def Obligations.XlatePpgtt48 : Prop :=
  ∀ (s : State) (e : Engine) (elem pdp0 : Word64) (r : Request),
    WellFormed (.xlatePpgtt48 elem r) → r.src = .engine e → gateOpen s none r.src = true →
    Rules.holdsLegacy s elem r.src = true →
    (canonical r.va = false → exec (.xlatePpgtt48 elem r) s = .refused .vaOutOfRange ∧
      exec (.xlateTrtt r) s = .refused .vaOutOfRange ∧ ∀ use, exec (.tlbLookup use r) s = .refused .vaOutOfRange) ∧
    (Rules.noTrtt s r.src r.va = true → 6 ≤ s.plat.haw → canonical r.va = true →
    Rules.written (s.bank e).pdp0 pdp0 = true →
    (∀ x, Rules.ppgtt48 s pdp0 r.acc.isWrite r.va = .ok x →
      ∃ w, exec (.xlatePpgtt48 elem r) s = .next (Rules.endLegacy (setWalked s w) r (ctxIdOf s r.src) x)) ∧
    (∀ e, Rules.ppgtt48 s pdp0 r.acc.isWrite r.va = .error e → exec (.xlatePpgtt48 elem r) s = toOutcome (.error e)))

/-- XLATE.ADV is the walk of 44 R317 with the fetches of R318, where the TR-TT stage does not apply and PC and CC hold the
record of 44 R316; `t` is the state with the A, D and EA bits the fetches have set. An abandoned walk ends the request as an
errored cycle (60 R466), and its context with it on a part that keeps 47 R453 (the model's parameter, log 22). An address that is not canonical is refused
(30 R191, 93 U14), by XLATE.TRTT and TLB.LOOKUP too. The A and EA bits that stand after a
Privilege fault (44 R325, 93 U25) and the D bit that is set under a read-only upper level (47 R433 [D38], 93 U26) are the
spec's own readings, where any value is allowed (log 28). -/
def Obligations.XlateAdv : Prop :=
  ∀ (s : State) (e : Engine) (elem pdp0 : Word64) (r : Request) (c : CtxEntry),
    WellFormed (.xlateAdv elem r) → r.src = .engine e → gateOpen s none r.src = true →
    Rules.holdsAdvanced s elem e = true →
    (canonical r.va = false → exec (.xlateAdv elem r) s = .refused .vaOutOfRange ∧
      exec (.xlateTrtt r) s = .refused .vaOutOfRange ∧ ∀ use, exec (.tlbLookup use r) s = .refused .vaOutOfRange) ∧
    (Rules.noTrtt s r.src r.va = true → s.regs.gttCacheEnable = false →
    canonical r.va = true → Rules.written (s.bank e).pdp0 pdp0 = true → (s.bank e).pc.valid = true →
    s.iommu.cc.find? (fun y => y.fn == BitVec.ofNat 3 (field elem 9 3)) = some c →
    let walked := Rules.adv s e (Rules.advOf s.plat.haw elem (s.bank e).pc c) r.acc.isWrite (Rules.er r) r.va
    (∀ t x, walked = .ok (t, x) → ∃ w, exec (.xlateAdv elem r) s =
      .next (Rules.endAdv (setWalked t w) r (BitVec.ofNat 20 (field pdp0 0 20)) (ctxIdOf s r.src) r.va x)) ∧
    (∀ e, walked = .error e → exec (.xlateAdv elem r) s = toOutcome (.error e)))

/-- An invalid PASID Cache or an empty Context Cache is filled from the IOMMU's tables before the translation (46 R391,
R392): the translation is the one of the state with the cache filled. -/
def Obligations.AdvancedCachesRefill : Prop :=
  ∀ (s : State) (e : Engine) (elem pdp0 : Word64) (r : Request),
    r.src = .engine e → gateOpen s none r.src = true → Rules.holdsAdvanced s elem e = true →
    Rules.written (s.bank e).pdp0 pdp0 = true →
    (∀ x : PasidEntry, (s.bank e).pc.valid = false → x.ok = true →
      s.iommu.pasids.find? (fun y => y.fn == BitVec.ofNat 3 (field elem 9 3) && y.pasid == BitVec.ofNat 20 (field pdp0 0 20))
        = some x →
      exec (.xlateAdv elem r) s =
        exec (.xlateAdv elem r) (s.setBank e { s.bank e with pc := ⟨true, x.pml4, x.eafe, x.fl64kpe⟩ })) ∧
    (∀ c : CtxEntry, (s.bank e).pc.valid = true →
      s.iommu.cc.find? (fun y => y.fn == BitVec.ofNat 3 (field elem 9 3)) = none →
      s.iommu.ctxs.find? (fun y => y.fn == BitVec.ofNat 3 (field elem 9 3)) = some c →
      exec (.xlateAdv elem r) s = exec (.xlateAdv elem r) (s.setIommu { s.iommu with cc := c :: s.iommu.cc }))

/-- XLATE.TRTT in a legacy 48b context (40 R220, R223, R227, R228): a Null tile completes the request with zeros and counts,
an Invalid tile completes it and reports, a tile is walked at its address, a table or a tile inside the TR-VA range is
refused; a table read that faults gives a free value and the state awaits a reset, with no page request (40 R230). In an
advanced context the same, but a table read that faults waits with a page request for a read at the table's address (40
R229, R230), and one that ends in a catastrophic error ends the request as an errored cycle, and on a part that keeps 47 R453
its context (60 R466; logs 17, 22). Invalid before
Null where the two registers are equal is log 27, where a walk waits is log 17. That a dropped write or an atomic is
completed with the null indicator too is the model's choice, log 47. -/
def Obligations.XlateTrtt : Prop :=
  (∀ (s : State) (elem pdp0 : Word64) (r : Request),
    WellFormed (.xlateTrtt r) → gateOpen s none r.src = true → fitsRow 0x11B 0x11B elem = true →
    Rules.holdsLegacy s elem r.src = true → s.regs.bypassDis = true → trttEn s.regs = true → trttTtloc s.regs = true →
    isTrva s.regs r.va = true → 6 ≤ s.plat.haw → canonical r.va = true → Rules.written (s.bank .rcs).pdp0 pdp0 = true →
    Rules.endTr48 pdp0 (ctxIdOf s r.src) r (Rules.trtt (Rules.tables48 pdp0) false s r.va) (exec (.xlateTrtt r) s)) ∧
  ∀ (s : State) (elem pdp0 : Word64) (r : Request) (c : CtxEntry),
    WellFormed (.xlateTrtt r) → gateOpen s none r.src = true → fitsRow 0x00B 0x003 elem = true →
    Rules.holdsAdvanced s elem .rcs = true → s.regs.gttCacheEnable = false → s.regs.bypassDis = true →
    trttEn s.regs = true → trttTtloc s.regs = true → isTrva s.regs r.va = true → canonical r.va = true →
    Rules.written (s.bank .rcs).pdp0 pdp0 = true → (s.bank .rcs).pc.valid = true →
    s.iommu.cc.find? (fun z => z.fn == BitVec.ofNat 3 (field elem 9 3)) = some c →
    let a := Rules.advOf s.plat.haw elem (s.bank .rcs).pc c
    Rules.endTrAdv a (BitVec.ofNat 20 (field pdp0 0 20)) (ctxIdOf s r.src) r
      (Rules.trtt (Rules.tablesAdv .rcs a) true s r.va) (exec (.xlateTrtt r) s)

/-- An XLATE row under the descriptor its source holds and XLATE.TRTT are one translation, with the TR-TT stage in front of
each where it applies (40 R220; log 13). -/
def Obligations.XlateRowsAgree : Prop :=
  ∀ (s : State) (elem : Word64) (r : Request), gateOpen s none r.src = true →
    (Rules.holdsLegacy s elem r.src = true →
      (fitsRow 0x10B 0x00B elem = true → exec (.xlateGgtt elem r) s = exec (.xlateTrtt r) s) ∧
      (fitsRow 0x11B 0x10B elem = true → exec (.xlatePpgtt32 elem r) s = exec (.xlateTrtt r) s) ∧
      (fitsRow 0x11B 0x11B elem = true → exec (.xlatePpgtt48 elem r) s = exec (.xlateTrtt r) s)) ∧
    (∀ e, r.src = .engine e → Rules.holdsAdvanced s elem e = true → fitsRow 0x00B 0x003 elem = true →
      exec (.xlateAdv elem r) s = exec (.xlateTrtt r) s)

/-- TR-TT enabled with tables in physical space, or in a PPGTT32 or GGTT context of Render, is refused (40 R221, R232), and so
is a MASK that is neither 0000b nor 1111b (10 R25, 30 R206, 40 R222), in a legacy 48b and in an advanced context. -/
def Obligations.TrttMisprogrammed : Prop :=
  (∀ (s : State) (elem pdp : Word64) (r : Request),
    r.wellFormed = true → r.src = .engine .rcs → gateOpen s none r.src = true → Rules.holdsLegacy s elem r.src = true →
    s.regs.bypassDis = true → trttEn s.regs = true →
    (fitsRow 0x10B 0x00B elem = true → r.va.toNat < 2 ^ 32 → exec (.xlateTrtt r) s = .refused .trttWrongMode) ∧
    (fitsRow 0x11B 0x10B elem = true → r.va.toNat < 2 ^ 32 → Rules.written (Rules.pdpOf (s.bank .rcs) r.va) pdp = true →
      exec (.xlateTrtt r) s = .refused .trttWrongMode) ∧
    (fitsRow 0x11B 0x11B elem = true → canonical r.va = true → Rules.written (s.bank .rcs).pdp0 pdp = true →
      trttTtloc s.regs = false → exec (.xlateTrtt r) s = .refused .trttPhysical) ∧
    (fitsRow 0x11B 0x11B elem = true → canonical r.va = true → Rules.written (s.bank .rcs).pdp0 pdp = true →
      trttTtloc s.regs = true → s.regs.trvadr.toNat / 16 % 16 ≠ 0 → s.regs.trvadr.toNat / 16 % 16 ≠ 15 →
      exec (.xlateTrtt r) s = .refused .trvaMask)) ∧
  ∀ (s : State) (elem pdp0 : Word64) (r : Request) (c : CtxEntry),
    r.wellFormed = true → r.src = .engine .rcs → gateOpen s none r.src = true → fitsRow 0x00B 0x003 elem = true →
    Rules.holdsAdvanced s elem .rcs = true → s.regs.gttCacheEnable = false → canonical r.va = true →
    Rules.written (s.bank .rcs).pdp0 pdp0 = true → (s.bank .rcs).pc.valid = true →
    s.iommu.cc.find? (fun z => z.fn == BitVec.ofNat 3 (field elem 9 3)) = some c →
    s.regs.bypassDis = true → trttEn s.regs = true →
    (trttTtloc s.regs = false → exec (.xlateTrtt r) s = .refused .trttPhysical) ∧
    (trttTtloc s.regs = true → s.regs.trvadr.toNat / 16 % 16 ≠ 0 → s.regs.trvadr.toNat / 16 % 16 ≠ 15 →
      exec (.xlateTrtt r) s = .refused .trvaMask)

/-! ## Translation caches -/

/-- TLB.LOOKUP on an entry of the client's TLB without a recorded fault that passes the checks of 46 R384 is a hit, whatever
TRVADR holds by then (46 R381): the frame with the page offset, behind the second level that the entry was made under (log 36),
or the null completion. A large page while the GTT cache is on is refused (46 R394), and so is a CPU access in the aperture that
the entry leads into the memory of the global table (20 R90, R92; log 43). That a dropped write or an atomic is completed
with the null indicator too is the model's choice, log 47. Of entries of several page sizes for the address, the one filled
last answers, log 42. An entry made for a TR-VA while TRTTE.EN was 0 or the bypass was on still answers once TR-TT is active, of
which 46 R381 does not speak: the model's choice, log 14. -/
def Obligations.TlbLookupHit : Prop :=
  ∀ (s u : State) (c : Ctx) (r : Request) (use : CacheUse) (t : TlbEntry) (act : Bool) (pa : Nat),
    r.wellFormed = true → gateOpen s none r.src = true → contextOf s r.src r.va = .ok (u, c) →
    trttActive s.regs r.src c.tag.mode = .ok act → use.tlb = true →
    u.caches.tlb.find? (fun y => y.tag == c.tag && y.group == r.client.tlbGroup && y.page == r.va.toNat / 2 ^ y.bits)
      = some t →
    t.reason = none →
    (r.acc.isWrite = true → (t.attrs.rw = true ∨ c.wp = false) ∧ (t.attrs.dirty = true ∨ c.ad = false)) →
    (s.plat.xdEnforce = true → Rules.er r = true → t.attrs.xd = false) →
    (t.bits ≥ 21 → s.regs.gttCacheEnable = true → exec (.tlbLookup use r) s = .refused .gttCacheObligation) ∧
    ((t.bits < 21 ∨ s.regs.gttCacheEnable = false) →
    (t.null = true → exec (.tlbLookup use r) s = .next (nullCompletion (setWalked u none) r)) ∧
    (t.null = false → secondLevel s.plat t.nested (t.frame + r.va.toNat % 2 ^ t.bits) = .ok pa →
      exec (.tlbLookup use r) s = if Rules.gsmByCpu s.plat r pa then .refused .stolenNotVisible
        else .next ((setWalked u none).addInFlight ⟨r, c.ctxid, pa, t.attrs.toAttrs⟩)))

/-- FILTERED_FAULT (60 R486): a look-up that meets a faulted entry whose reason applies to the request waits for the page
response already asked for, with no new page request; nothing else changes (what the look-up leaves for the caches, `w`,
aside). Of entries of several page sizes for the address, the one filled last is looked at, log 42. A fault recorded for a
TR-VA under an old TRVADR still filters (46 R381), and so does one recorded while TRTTE.EN was 0 or the bypass was on, which is
the model's choice, log 14. -/
def Obligations.TlbLookupFiltered : Prop :=
  ∀ (s u : State) (c : Ctx) (r : Request) (use : CacheUse) (t : TlbEntry) (act : Bool) (reason : FaultReason),
    r.wellFormed = true → gateOpen s none r.src = true → contextOf s r.src r.va = .ok (u, c) →
    trttActive s.regs r.src c.tag.mode = .ok act → use.tlb = true →
    u.caches.tlb.find? (fun y => y.tag == c.tag && y.group == r.client.tlbGroup && y.page == r.va.toNat / 2 ^ y.bits)
      = some t →
    t.reason = some reason →
    (reason = .writeProtect → r.acc.isWrite = true) → (reason = .execute → Rules.er r = true) →
    ∃ w, exec (.tlbLookup use r) s = .next ((setWalked u w).addPending ⟨r, c.pasid, r.va, none, true⟩)

/-- Without an entry for the address a look-up is the walk from memory (46 R384), and so it is where it leaves the copies
aside, whatever the caches hold (46 R380). -/
def Obligations.TlbLookupMiss : Prop :=
  ∀ (s : State) (r : Request),
    ((∀ t ∈ s.caches.tlb, t.tag.src = r.src → t.page ≠ r.va.toNat / 2 ^ t.bits) →
      Rules.noTrtt s r.src r.va = true →
      exec (.tlbLookup ⟨true, false, false, false⟩ r) s = exec (.xlateTrtt r) s) ∧
    exec (.tlbLookup noCache r) s = exec (.xlateTrtt r) s

/-- A write through an entry that is read-only or, under A&D support, not dirty drops the entry before anything else: a
translation made so does not leave it in the TLB (46 R386, R389), also where TR-TT has come to apply to the address (46
R381). Of entries of several page sizes for the address, the one filled last is looked at, log 42. -/
def Obligations.StaleEntryIsDropped : Prop :=
  ∀ (s u v : State) (c : Ctx) (r : Request) (use : CacheUse) (t : TlbEntry) (act : Bool),
    gateOpen s none r.src = true → contextOf s r.src r.va = .ok (u, c) →
    trttActive s.regs r.src c.tag.mode = .ok act → use.tlb = true →
    u.caches.tlb.find? (fun y => y.tag == c.tag && y.group == r.client.tlbGroup && y.page == r.va.toNat / 2 ^ y.bits)
      = some t →
    t.reason = none → r.acc.isWrite = true →
    (t.attrs.rw = false ∧ c.wp = true) ∨ (c.ad = true ∧ t.attrs.dirty = false) →
    exec (.tlbLookup use r) s = .next v → t ∉ v.caches.tlb

/-- TLB.FILL leaves the chosen parts of the record of the last operation's walks in the caches, once, each in the place of
an older copy of its own, and nothing else changes (46 R385, R390, R394, R397). The record of a translation without TR-TT
stage (46 R385, R388, R390): an entry with the walk's results if it ended in an address or in the null completion, a faulted
entry only if a page request was sent, present pointers with the A bit set under A&D support and none that a write has left
unchanged (44 R325), a line only while the GTT cache is on. The record, and what takes the place of what, are logs 14 and 42; that an entry keeps whether its context was
nested is log 36. That a dropped write or an atomic is completed with the null indicator too is the model's choice, log
47. -/
def Obligations.TlbFill : Prop :=
  (∀ (s : State) (sel : FillSel),
    ∃ t, exec (.tlbFill sel) s = .next t ∧ t = { s with caches := t.caches, walker := ⟨s.walker.stage, none⟩ } ∧
      (s.walker.walked = none → t.caches = s.caches) ∧
      ∀ w, s.walker.walked = some w →
        (∀ x, x ∈ t.caches.tlb ↔ (sel.tlb = true ∧ x ∈ w.tlb) ∨ (x ∈ s.caches.tlb ∧ ¬ (sel.tlb = true ∧
          ∃ y ∈ w.tlb, y.tag = x.tag ∧ y.group = x.group ∧ y.bits = x.bits ∧ y.page = x.page))) ∧
        (∀ x, x ∈ t.caches.pwc ↔ (sel.pwc = true ∧ x ∈ w.pwc) ∨ (x ∈ s.caches.pwc ∧ ¬ (sel.pwc = true ∧
          ∃ y ∈ w.pwc, y.tag = x.tag ∧ y.addr = x.addr))) ∧
        (∀ x, x ∈ t.caches.gtt ↔ (sel.gtt = true ∧ x ∈ w.gtt) ∨ (x ∈ s.caches.gtt ∧ ¬ (sel.gtt = true ∧
          ∃ y ∈ w.gtt, y.base = x.base))) ∧
        (∀ x, x ∈ t.caches.tr ↔ (sel.tr = true ∧ x ∈ w.tr) ∨ (x ∈ s.caches.tr ∧ ¬ (sel.tr = true ∧
          ∃ y ∈ w.tr, y.tag = x.tag ∧ y.tile = x.tile)))) ∧
  ∀ (s u v : State) (c : Ctx) (r : Request) (use : CacheUse) (act : Bool) (w : WalkRecord),
    gateOpen s none r.src = true → contextOf s r.src r.va = .ok (u, c) →
    trttActive s.regs r.src c.tag.mode = .ok act → (act && isTrva s.regs r.va) = false → use.tr = false →
    exec (.tlbLookup use r) s = .next v → v.walker.walked = some w →
    w.tr = [] ∧ w.tlb.length ≤ 1 ∧
    (∀ x ∈ w.tlb, x.tag = c.tag ∧ x.group = r.client.tlbGroup ∧ x.page = r.va.toNat / 2 ^ x.bits ∧
      (x.reason = none → x.null = true → v.outputs.head? = some (.response r (List.replicate r.acc.replySize 0) true)) ∧
      (x.reason = none → x.null = false → ∃ pa attrs,
        v.reqs.inflight = s.reqs.inflight ++ [⟨r, c.ctxid, pa, attrs⟩] ∧ x.attrs = attrs.cached ∧ x.nested = c.nested ∧
        secondLevel s.plat c.nested (x.frame + r.va.toNat % 2 ^ x.bits) = .ok pa) ∧
      (∀ q, x.reason = some q → (c.fm = .stream ∨ c.fm = .halt) ∧
        v.reqs.pageRequests = s.reqs.pageRequests ++ [⟨c.pasid, c.ctxid, r.va, q, Rules.kind r⟩])) ∧
    (∀ x ∈ w.pwc, x.tag = c.tag ∧ bit x.entry 0 = true ∧ (c.ad = true → bit x.entry 5 = true) ∧
      (c.ad = true → r.acc.isWrite = true → c.wp = true → bit x.entry 1 = true)) ∧
    (∀ x ∈ w.gtt, x.tag = c.tag ∧ s.regs.gttCacheEnable = true)

/-- What a translation makes of the other cached copies it chooses to use. Cached entries above the page table stand for those
in memory in all three PPGTT walks, but a write-protect fault is not taken from them, and a Privilege or Execute fault drops
them (46 R386, R390, R411; 60 R488); a present entry of a GTT-cache line stands for the one in memory, and one that is not
present is not used (46 R394); a cached TR-TT result is acted on without the TR-TT walk, whatever TRVADR holds by then (46
R381), a Null result counts each time and an Invalid result reports each time (46 R397; the last is the decision 92 D35). How
copies are chosen and matched is logs 14 and 18. That a dropped write or an atomic is completed with the null indicator too
is the model's choice, log 47. -/
def Obligations.CachedCopies : Prop :=
  (∀ (s : State) (e : Engine) (elem pdp : Word64) (r : Request),
    WellFormed (.xlatePpgtt32 elem r) → r.src = .engine e → gateOpen s none r.src = true →
    Rules.holdsLegacy s elem r.src = true → Rules.trttOff s r.src = true → 6 ≤ s.plat.haw → r.va.toNat < 2 ^ 32 →
    Rules.written (Rules.pdpOf (s.bank e) r.va) pdp = true →
    let tag : Tag := ⟨.engine e, .ppgtt32, Rules.frame s.plat.haw 12 pdp⟩
    Rules.endsAs (exec (.tlbLookup ⟨false, false, true, false⟩ r) s)
      (Rules.usedCopies tag (Rules.still s (Rules.ppgtt32Via (Rules.readCopy s tag) s pdp r.acc.isWrite r.va))
        fun t => Rules.still t (Rules.ppgtt32 t pdp r.acc.isWrite r.va))
      fun t x => Rules.endLegacy t r (ctxIdOf s r.src) x) ∧
  (∀ (s : State) (e : Engine) (elem pdp0 : Word64) (r : Request),
    WellFormed (.xlatePpgtt48 elem r) → r.src = .engine e → gateOpen s none r.src = true →
    Rules.holdsLegacy s elem r.src = true → Rules.noTrtt s r.src r.va = true → 6 ≤ s.plat.haw → canonical r.va = true →
    Rules.written (s.bank e).pdp0 pdp0 = true →
    let tag : Tag := ⟨.engine e, .ppgtt48, Rules.frame s.plat.haw 12 pdp0⟩
    Rules.endsAs (exec (.tlbLookup ⟨false, false, true, false⟩ r) s)
      (Rules.usedCopies tag (Rules.still s (Rules.ppgtt48Via (Rules.readCopy s tag) s pdp0 r.acc.isWrite r.va))
        fun t => Rules.still t (Rules.ppgtt48 t pdp0 r.acc.isWrite r.va))
      fun t x => Rules.endLegacy t r (ctxIdOf s r.src) x) ∧
  (∀ (s : State) (e : Engine) (elem pdp0 : Word64) (r : Request) (c : CtxEntry),
    WellFormed (.xlateAdv elem r) → r.src = .engine e → gateOpen s none r.src = true →
    Rules.holdsAdvanced s elem e = true → Rules.noTrtt s r.src r.va = true → s.regs.gttCacheEnable = false →
    canonical r.va = true → Rules.written (s.bank e).pdp0 pdp0 = true → (s.bank e).pc.valid = true →
    s.iommu.cc.find? (fun y => y.fn == BitVec.ofNat 3 (field elem 9 3)) = some c →
    let pasid : BitVec 20 := BitVec.ofNat 20 (field pdp0 0 20)
    let tag : Tag := ⟨.engine e, .adv, pasid.toNat⟩
    let a := Rules.advOf s.plat.haw elem (s.bank e).pc c
    Rules.endsAs (exec (.tlbLookup ⟨false, false, true, false⟩ r) s)
      (Rules.usedCopies tag (Rules.advVia (Rules.copiesOf s tag) s e a r.acc.isWrite (Rules.er r) r.va)
        fun t => Rules.adv t e a r.acc.isWrite (Rules.er r) r.va)
      fun t x => Rules.endAdv t r pasid (ctxIdOf s r.src) r.va x) ∧
  (∀ (s : State) (elem : Word64) (r : Request) (l : GttLine) (pte : Word64),
    WellFormed (.xlateGgtt elem r) → gateOpen s none r.src = true → Rules.holdsLegacy s elem r.src = true →
    Rules.trttOff s r.src = true → s.regs.gttCacheEnable = true → r.va.toNat < 2 ^ 32 →
    8 * field r.va 12 20 < s.plat.gsmSize →
    s.caches.gtt.find? (fun y => y.base == (s.plat.gsmBase + 8 * field r.va 12 20) / 64 * 64) = some l →
    l.entries[(s.plat.gsmBase + 8 * field r.va 12 20) % 64 / 8]? = some pte →
    (bit pte 0 = true → ∀ pa, Rules.nested s (Rules.frame s.plat.haw 12 pte + r.va.toNat % 2 ^ 12) = .ok pa →
      (Rules.gsmByCpu s.plat r pa = false →
        ∃ w, exec (.tlbLookup ⟨false, false, false, true⟩ r) s = .next ((setWalked s w).addInFlight
          ⟨r, ctxIdOf s r.src, pa, ⟨false, false, false, true, some true, false, false, false⟩⟩)) ∧
      (Rules.gsmByCpu s.plat r pa = true →
        exec (.tlbLookup ⟨false, false, false, true⟩ r) s = .refused .stolenNotVisible)) ∧
    (bit pte 0 = false → exec (.tlbLookup ⟨false, false, false, true⟩ r) s = exec (.xlateGgtt elem r) s)) ∧
  (∀ (s : State) (elem pdp0 : Word64) (r : Request) (x : TrEntry),
    WellFormed (.xlateTrtt r) → gateOpen s none r.src = true → fitsRow 0x11B 0x11B elem = true →
    Rules.holdsLegacy s elem r.src = true → s.regs.bypassDis = true → trttEn s.regs = true → trttTtloc s.regs = true →
    trvaLegal s.regs = true → 6 ≤ s.plat.haw → canonical r.va = true → Rules.written (s.bank .rcs).pdp0 pdp0 = true →
    s.caches.tr.find? (fun y => y.tag == ⟨.engine .rcs, .ppgtt48, Rules.frame s.plat.haw 12 pdp0⟩ &&
      y.tile == field r.va 16 32) = some x →
    let o := exec (.tlbLookup ⟨false, true, false, false⟩ r) s
    Rules.endTr48 pdp0 (ctxIdOf s r.src) r (.ok (s, .ok x.result)) o ∧
    (x.result = .null → o = .next (nullCompletion (Rules.oneMoreNull (setWalked s none)) r)) ∧
    (x.result = .invalid → o = .next (nullCompletion ((setWalked s none).emit (.invalidTile r.va)) r))) ∧
  ∀ (s : State) (elem pdp0 : Word64) (r : Request) (c : CtxEntry) (x : TrEntry),
    WellFormed (.xlateTrtt r) → gateOpen s none r.src = true → fitsRow 0x00B 0x003 elem = true →
    Rules.holdsAdvanced s elem .rcs = true → s.regs.gttCacheEnable = false → s.regs.bypassDis = true →
    trttEn s.regs = true → trttTtloc s.regs = true → trvaLegal s.regs = true → canonical r.va = true →
    Rules.written (s.bank .rcs).pdp0 pdp0 = true → (s.bank .rcs).pc.valid = true →
    s.iommu.cc.find? (fun z => z.fn == BitVec.ofNat 3 (field elem 9 3)) = some c →
    let pasid : BitVec 20 := BitVec.ofNat 20 (field pdp0 0 20)
    s.caches.tr.find? (fun y => y.tag == ⟨.engine .rcs, .adv, pasid.toNat⟩ && y.tile == field r.va 16 32) = some x →
    let o := exec (.tlbLookup ⟨false, true, false, false⟩ r) s
    Rules.endTrAdv (Rules.advOf s.plat.haw elem (s.bank .rcs).pc c) pasid (ctxIdOf s r.src) r (.ok (s, .ok x.result)) o ∧
    (x.result = .null → o = .next (nullCompletion (Rules.oneMoreNull (setWalked s none)) r)) ∧
    (x.result = .invalid → o = .next (nullCompletion ((setWalked s none).emit (.invalidTile r.va)) r))

/-- TLBINV.CS drops every entry of every translation cache; CC and PC stay (46 R405). The model's record of the last walk goes
too, here and at TLBINV.PAGE_RESPONSE (log 14). -/
def Obligations.TlbinvCs : Prop :=
  ∀ s : State, exec .tlbinvCs s = .next { s with caches := ⟨[], [], [], []⟩, walker := ⟨s.walker.stage, none⟩ } ∧
    ∀ (p : BitVec 20) (va : Word64) (t : State), exec (.tlbinvPageResponse p va) s = .next t →
      t.walker = ⟨s.walker.stage, none⟩

/-- TLBINV.CTXSW drops what is tagged with the engine, and nothing of other sources (46 R407). The model's record of the last
walk goes too (log 14). -/
def Obligations.TlbinvCtxsw : Prop :=
  ∀ (s : State) (e : Engine),
    ∃ t, exec (.tlbinvCtxsw e) s = .next t ∧ t = { s with caches := t.caches, walker := ⟨s.walker.stage, none⟩ } ∧
      (∀ x, x ∈ t.caches.tlb ↔ x ∈ s.caches.tlb ∧ x.tag.src ≠ .engine e) ∧
      (∀ x, x ∈ t.caches.pwc ↔ x ∈ s.caches.pwc ∧ x.tag.src ≠ .engine e) ∧
      (∀ x, x ∈ t.caches.gtt ↔ x ∈ s.caches.gtt ∧ x.tag.src ≠ .engine e) ∧
      (∀ x, x ∈ t.caches.tr ↔ x ∈ s.caches.tr ∧ x.tag.src ≠ .engine e)

/-- TLBINV.PAGE_RESPONSE drops the faulted entries of the PASID whose page contains the address; entries that are not
faulted stay, and nothing else of the machine changes (46 R408). Of the model's own record of walks TlbinvCs speaks. -/
def Obligations.TlbinvPageResponse : Prop :=
  ∀ (s : State) (p : BitVec 20) (va : Word64),
    ∃ t, exec (.tlbinvPageResponse p va) s = .next t ∧
      t = { s with caches := { s.caches with tlb := t.caches.tlb }, walker := t.walker } ∧
      ∀ x, x ∈ t.caches.tlb ↔ x ∈ s.caches.tlb ∧
        ¬ (x.reason.isSome = true ∧ x.tag.mode = .adv ∧ x.tag.root = p.toNat ∧ x.page = va.toNat / 2 ^ x.bits)

/-- TLBINV.SVM (46 R404, R406), for every scope and choice of stages, exactly: the final-TLB stage drops the TLB entries in
scope, large pages that contain the address included, the TR-TT results of its tile and the GTT-cache lines of its address
spaces; the PWC stage the cached pointers; the PASID Cache stage makes the PASID Cache of every engine in scope invalid, and
the engine's cached items go with it (46 R392); the Context Cache stage empties the Context Cache, and with it every PASID
Cache and the cached items of every advanced context (46 R391). Nothing else changes. What the PWC, line and Context Cache
stages make of a narrow scope is log 44, the record of the last walk log 14. -/
def Obligations.TlbinvSvm : Prop :=
  ∀ (s : State) (sc : SvmScope) (st : SvmStages),
    ∃ t, exec (.tlbinvSvm sc st) s = .next t ∧
      t = { s with caches := t.caches, banks := t.banks, iommu := { s.iommu with cc := if st.cc then [] else s.iommu.cc },
                   walker := ⟨s.walker.stage, none⟩ } ∧
      (∀ x, x ∈ t.caches.tlb ↔ x ∈ s.caches.tlb ∧ ¬ Rules.svmLow s sc st x.tag ∧
        ¬ (st.tlb = true ∧ Rules.svmTag sc x.tag ∧ Rules.svmAt sc fun va => x.page = va.toNat / 2 ^ x.bits)) ∧
      (∀ x, x ∈ t.caches.tr ↔ x ∈ s.caches.tr ∧ ¬ Rules.svmLow s sc st x.tag ∧
        ¬ (st.tlb = true ∧ Rules.svmTag sc x.tag ∧ Rules.svmAt sc fun va => x.tile = field va 16 32)) ∧
      (∀ x, x ∈ t.caches.gtt ↔ x ∈ s.caches.gtt ∧ ¬ Rules.svmLow s sc st x.tag ∧
        ¬ (st.tlb = true ∧ Rules.svmTag sc x.tag)) ∧
      (∀ x, x ∈ t.caches.pwc ↔ x ∈ s.caches.pwc ∧ ¬ Rules.svmLow s sc st x.tag ∧
        ¬ (st.pwc = true ∧ Rules.svmTag sc x.tag)) ∧
      ∀ e, t.bank e = { s.bank e with pc := { (s.bank e).pc with valid := (t.bank e).pc.valid } } ∧
        ((t.bank e).pc.valid = true ↔
          (s.bank e).pc.valid = true ∧ ¬ (st.pc = true ∧ Rules.svmEngine s sc e) ∧ st.cc = false)

/-- The invalidation wait answers once GTI is EMPTY, and waits until then: with no event queued the machine answers the
waiting descriptors (46 R409). -/
def Obligations.InvWait : Prop :=
  ∀ s : State,
    (s.reqs.inflight = [] → exec .invWait s = .next (s.emit .invWaitDone)) ∧
    (s.reqs.inflight ≠ [] → exec .invWait s = .next (s.setReqs { s.reqs with invWaits := s.reqs.invWaits + 1 })) ∧
    (s.inputs = [] → s.reqs.inflight = [] → s.reqs.invWaits ≠ 0 →
      step s = .next { s with
        reqs := { s.reqs with invWaits := 0 }, outputs := List.replicate s.reqs.invWaits .invWaitDone ++ s.outputs })

/-! ## Messages -/

/-- Context Available in Idle or Running (45 R353): the PASID Cache becomes invalid, the context is retired, and the counter of
its PASID falls by one (45 R362, 70 R515); GAM answers Receive Ready once no request of the engine is in flight. The pending
requests of a Fault-and-Stream context that leaves are dropped, a waiting TR-TT walk aside; those of the contexts before it
stay, whatever the context IDs (60 R482, 92 D43, 45 R362, 70 R534), and of every one that stays the model's mark falls (log
11). A stop of the context ends with it, and the requests it held back are gone (47 R453; log 22). -/
def Obligations.ContextAvailable : Prop :=
  ∀ (s : State) (e : Engine), (s.bank e).hs = .idle ∨ (s.bank e).hs = .running →
    ∃ t, exec (Rules.availableOf e) s = .next t ∧
      t = { s with banks := t.banks, iommu := t.iommu, reqs := t.reqs, outputs := t.outputs } ∧
      (t.bank e).pc = { (s.bank e).pc with valid := false } ∧ (t.bank e).resident = none ∧
      (∀ d, (t.bank e).desc d = (s.bank e).desc d) ∧ (t.bank e).hung = (s.bank e).hung ∧
      (∀ e', e' ≠ e → t.bank e' = s.bank e') ∧
      t.iommu = { s.iommu with pasidState := t.iommu.pasidState } ∧ ((s.bank e).resident = none → t.iommu = s.iommu) ∧
      (∀ q, (s.bank e).resident = some q → sparseWf 0 s.iommu.pasidState = true → Rules.countsDown s t q) ∧
      (if s.reqs.deferAcks = false ∧ ∀ f ∈ s.reqs.inflight, f.req.src ≠ .engine e then
        (t.bank e).hs = .readySent ∧ t.outputs = .gamWrite (Rules.csAddress e) 0x00010001 :: s.outputs
      else (t.bank e).hs = .availableReceived ∧ t.outputs = s.outputs) ∧
      (t.bank e).stopped = false ∧ t.reqs = { s.reqs with pending := t.reqs.pending, held := Rules.heldAfter s e } ∧
      (∀ (q : BitVec 20) (d : Word64), (s.bank e).resident = some q → Rules.written (s.bank e).elem d = true →
        t.reqs.pending = (if bit d 3 = false ∧ faultModelOf s.plat (field d 6 2) = .stream then
          s.reqs.pending.filter (fun p => !(p.req.src == .engine e && p.live && p.tr == none))
        else s.reqs.pending).map (Rules.hasLeft e)) ∧
      ((s.bank e).resident = none → t.reqs.pending = s.reqs.pending.map (Rules.hasLeft e))

/-- Context Receive Ready (45 R353, 30 R184): GAM writes 0x00010001 to the engine's address, unless a request of the engine
is still in flight. GAM gives this answer on its own too, unless it delays it (log 10); when it does so, after the accesses, the
invalidation waits and the answers owed to the engines before this one, is log 3. -/
def Obligations.ContextReceiveReady : Prop :=
  ∀ (s : State) (e : Engine), (s.bank e).hs = .availableReceived →
    ((∀ f ∈ s.reqs.inflight, f.req.src ≠ .engine e) →
      let t := (s.setBank e { s.bank e with hs := .readySent }).emit (.gamWrite (Rules.csAddress e) 0x00010001)
      exec (Rules.receiveReadyOf e) s = .next t ∧
      (Rules.quiet s → s.reqs.deferAcks = false → (∀ x ∈ Rules.ackedBefore e, Rules.owes s x = false) → step s = .next t)) ∧
    ((∃ f ∈ s.reqs.inflight, f.req.src = .engine e) → exec (Rules.receiveReadyOf e) s = .next s)

/-- Context Launched with a legacy Element Descriptor (45 R355): the engine's cached items go from the TLBs, the page-walk
caches, the GTT cache and the TR-TT results (46 R407), GAM confirms, and the engine runs; an invalid descriptor is reported
and the delivery goes on (60 R467). A context ID that another engine's context has is refused (70 R534, 93 U36; what counts as
active is log 33). The model's record of the last walks goes too (log 14). -/
def Obligations.ContextLaunchedLegacy : Prop :=
  ∀ (s : State) (e : Engine) (d : Word64), (s.bank e).hs = .readySent → Rules.written (s.bank e).elem d = true →
    bit d 1 = true → bit d 3 = true → field d 6 2 = 0 →
    (Rules.idTaken s e d = true → exec (Rules.launchedOf e) s = .refused .contextIdReused) ∧
    (Rules.idTaken s e d = false → ∃ t, exec (Rules.launchedOf e) s = .next t ∧
      t = { s with banks := t.banks, caches := t.caches, outputs := t.outputs, walker := ⟨s.walker.stage, none⟩ } ∧
      t.bank e = { s.bank e with hs := if s.reqs.deferAcks then .launchedReceived else .running } ∧
      (∀ e', e' ≠ e → t.bank e' = s.bank e') ∧ Rules.onlyOthersStay s t e ∧
      t.outputs = (if s.reqs.deferAcks then [] else [.gamWrite (Rules.csAddress e) 0x00020002]) ++
        (if bit d 0 then [] else [.descriptorError e]) ++ s.outputs)

/-- Context Launched with an advanced Element Descriptor (45 R355): the engine's cached items go from the four caches (46
R407), the PASID Cache holds the PASID entry, the Context Cache the context entry (46 R391, R392), the counter of the PASID
rises by one, GAM confirms, unless it delays its answer (log 10). With the GTT cache on it is refused (46 R394, 70 R541),
and so is a context ID that another engine's context has (70 R534, 93 U36; what counts as active is log 33). The model's record of the last walks goes too (log 14). -/
def Obligations.ContextLaunchedAdvanced : Prop :=
  ∀ (s : State) (e : Engine) (d pdp0 : Word64) (x : PasidEntry) (c : CtxEntry),
    let cached := s.iommu.cc.find? (fun y => y.fn == BitVec.ofNat 3 (field d 9 3))
    (s.bank e).hs = .readySent → Rules.written (s.bank e).elem d = true → Rules.written (s.bank e).pdp0 pdp0 = true →
    bit d 1 = true → bit d 3 = false → field d 6 2 ≠ 0 →
    faultModelOf s.plat (field d 6 2) = .stream ∨ faultModelOf s.plat (field d 6 2) = .halt →
    s.iommu.pasids.find? (fun y => y.fn == BitVec.ofNat 3 (field d 9 3) && y.pasid == BitVec.ofNat 20 (field pdp0 0 20))
      = some x → x.ok = true →
    cached = some c ∨ (cached = none ∧ s.iommu.ctxs.find? (fun y => y.fn == BitVec.ofNat 3 (field d 9 3)) = some c) →
    sparseWf 0 s.iommu.pasidState = true →
    (Rules.idTaken s e d = true → exec (Rules.launchedOf e) s = .refused .contextIdReused) ∧
    (Rules.idTaken s e d = false → s.regs.gttCacheEnable = true →
      exec (Rules.launchedOf e) s = .refused .gttCacheObligation) ∧
    (Rules.idTaken s e d = false → s.regs.gttCacheEnable = false → ∃ t, exec (Rules.launchedOf e) s = .next t ∧
      t = { s with banks := t.banks, caches := t.caches, outputs := t.outputs, walker := ⟨s.walker.stage, none⟩,
                   iommu := { s.iommu with
                     cc := if cached.isSome then s.iommu.cc else c :: s.iommu.cc, pasidState := t.iommu.pasidState } } ∧
      t.bank e = { s.bank e with
        hs := if s.reqs.deferAcks then .launchedReceived else .running
        pc := ⟨true, x.pml4, x.eafe, x.fl64kpe⟩, resident := some (BitVec.ofNat 20 (field pdp0 0 20)) } ∧
      (∀ e', e' ≠ e → t.bank e' = s.bank e') ∧ Rules.onlyOthersStay s t e ∧
      (∀ q, sparseGet 0 t.iommu.pasidState q =
        sparseGet 0 s.iommu.pasidState q + if q = field pdp0 0 20 then 1 else 0) ∧
      t.outputs = (if s.reqs.deferAcks then [] else [.gamWrite (Rules.csAddress e) 0x00020002]) ++
        (if bit d 0 then [] else [.descriptorError e]) ++ s.outputs)

/-- Context Confirmed (45 R356, 30 R184): GAM writes 0x00020002 to the engine's address, the engine runs. GAM gives this answer
on its own too, unless it delays it (log 10); when it does so, after the accesses, the invalidation waits and the answers owed
to the engines before this one, is log 3. -/
def Obligations.ContextConfirmed : Prop :=
  ∀ (s : State) (e : Engine), (s.bank e).hs = .launchedReceived →
    let t := (s.setBank e { s.bank e with hs := .running }).emit (.gamWrite (Rules.csAddress e) 0x00020002)
    exec (Rules.confirmedOf e) s = .next t ∧
    (Rules.quiet s → s.reqs.deferAcks = false → (∀ x ∈ Rules.ackedBefore e, Rules.owes s x = false) → step s = .next t)

/-- A message in a hand-shake state the diagram does not allow is refused (45 R352). -/
def Obligations.MessagesInSequence : Prop :=
  ∀ (s : State) (e : Engine),
    ((s.bank e).hs ≠ .idle → (s.bank e).hs ≠ .running → exec (Rules.availableOf e) s = .refused .messageOutOfSequence) ∧
    ((s.bank e).hs ≠ .availableReceived → exec (Rules.receiveReadyOf e) s = .refused .messageOutOfSequence) ∧
    ((s.bank e).hs ≠ .readySent → exec (Rules.launchedOf e) s = .refused .messageOutOfSequence) ∧
    ((s.bank e).hs ≠ .launchedReceived → exec (Rules.confirmedOf e) s = .refused .messageOutOfSequence)

/-- A command streamer writes a DWord of a descriptor register between Receive Ready and Launched; that a write at another time
is refused is the model's choice (log 46). The register
counts as written and answers its value (log 38), the other DWord, the other registers and engines keep their values, and
nothing else of the machine changes (45 R354, 10 R46). -/
def Obligations.DescriptorWrites : Prop :=
  ∀ (s : State) (e : Engine) (d : DescName) (high : Bool) (v : Word32) (rest : List Input),
    s.inputs = .csWrite e d high v :: rest →
    ((s.bank e).hs ≠ .readySent → step s = .refused .descriptorWriteOutOfPhase) ∧
    ((s.bank e).hs = .readySent → ∃ t, step s = .next t ∧ (∀ e', e' ≠ e → t.bank e' = s.bank e') ∧
      (∀ d', d' ≠ d → (t.bank e).desc d' = (s.bank e).desc d') ∧ (t.bank e).hs = .readySent ∧
      (t.bank e).hung = (s.bank e).hung ∧ (t.bank e).pc = (s.bank e).pc ∧ (t.bank e).resident = (s.bank e).resident ∧
      (t.bank e).stopped = (s.bank e).stopped ∧
      field ((t.bank e).desc d).value (if high then 32 else 0) 32 = v.toNat ∧
      field ((t.bank e).desc d).value (if high then 0 else 32) 32 =
        field ((s.bank e).desc d).value (if high then 0 else 32) 32 ∧
      ((t.bank e).desc d).get = .ok ((t.bank e).desc d).value ∧
      t = { s with banks := t.banks, inputs := rest })

/-- Writes and reads of the registers. A write to a named register stores its fields and keeps its reserved bits 0, and a read
shows them (10 R22 to R26, R28, R30, R33); the GTT cache is not turned on while an advanced context runs (70 R541). The
bypass control is bit 0 of 0x4DFC (10 R27), bit 31 of 0x4A30 is stored (10 R29). A CPU write to a descriptor register is
ignored, a read shows its bits (10 R40, R46, 92 D17). A message register reads 0 (10 R48). In the
Null range a write is taken and changes nothing, and a read gives any value (20 R89, 92 D29). A masked 32-bit write of a command
streamer to its engine's CS-to-GAM address (30 R184, R185, R206) is Context Available with data bit 0 and mask bit 16,
Context Launched with data bit 1 and mask bit 17, no message with neither, and refused with both or with another bit; at
another address it is refused. Registers by name are 92 D24, and log 23. That alignment is tested on the offset in GTTMMADR
is the model's choice, log 50. -/
def Obligations.RegisterWrites : Prop :=
  ∀ (s : State) (v : Word32) (rest : List Input) (use : CacheUse),
    let u := s.setInputs rest
    let at4 := fun (o : Nat) => s.inputs = .cpuWrite (s.plat.gttmmadrBase + o) (leBytes 4 v.toNat) use :: rest
    let rd4 := fun (o : Nat) => s.inputs = .cpuRead (s.plat.gttmmadrBase + o) 4 use :: rest
    (∀ n : RegName, s.inputs = .regWrite n v :: rest → n ≠ .nullTileCount →
      (n = .gttCache → v.getLsbD 0 = true → ∀ e, (s.bank e).resident = none) →
      step s = .next (u.setRegs (Rules.regAfter s.regs v n))) ∧
    (∀ e, s.inputs = .regWrite .gttCache v :: rest → v.getLsbD 0 = true → (s.bank e).resident ≠ none →
      step s = .refused .gttCacheObligation) ∧
    (s.inputs = .regWrite .nullTileCount v :: rest → step s = .refused .counterWrite) ∧
    (∀ n : RegName, s.inputs = .regRead n :: rest → Rules.readDone u (step s) fun x => Rules.regShows s.regs x n) ∧
    (at4 0x4DFC → step s = .next (u.setRegs { s.regs with bypassDis := v.getLsbD 0 })) ∧
    (rd4 0x4DFC → Rules.readDone u (step s) fun x => x % 2 = s.regs.bypassDis.toNat) ∧
    (at4 0x4A30 → step s = .next (u.setRegs { s.regs with colorZ := v.getLsbD 31 })) ∧
    (rd4 0x4A30 → Rules.readDone u (step s) fun x => x / 2 ^ 31 = s.regs.colorZ.toNat) ∧
    (∀ (e : Engine) (d : DescName) (high : Bool),
      (at4 (Rules.descOffset e d + if high then 4 else 0) → step s = .next u) ∧
      (rd4 (Rules.descOffset e d + if high then 4 else 0) →
        step s = .next (u.emit (.cpuData (field ((s.bank e).desc d).value (if high then 32 else 0) 32))))) ∧
    (∀ o : Nat, 0x170000 ≤ o → o ≤ 0x17FFFC → o % 4 = 0 →
      (at4 o → step s = .next u) ∧ (rd4 o → Rules.readDone u (step s) fun x => x < 2 ^ 32)) ∧
    (∀ e : Engine, rd4 (Rules.gamAddress e) ∨ rd4 (Rules.csAddress e) → step s = .next (u.emit (.cpuData 0))) ∧
    (∀ e : Engine, s.inputs = .csMessage (Rules.gamAddress e) v :: rest →
      let ready := v.getLsbD 0 && v.getLsbD 16
      let launch := v.getLsbD 1 && v.getLsbD 17
      (v.toNat / 4 % 2 ^ 14 ≠ 0 ∨ v.toNat / 2 ^ 18 ≠ 0 → step s = .refused .messageReservedBits) ∧
      (v.toNat / 4 % 2 ^ 14 = 0 → v.toNat / 2 ^ 18 = 0 →
        step s = match ready, launch with
          | true, true => .refused .messageBoth
          | true, false => exec (Rules.availableOf e) u
          | false, true => exec (Rules.launchedOf e) u
          | false, false => .next u)) ∧
    (∀ o : Nat, s.inputs = .csMessage o v :: rest → (∀ e, o ≠ Rules.gamAddress e) → step s = .refused .mmioOutsideSpec)

/-! ## The global GTT, data accesses, page responses -/

/-- A CPU access in GMADR is a request of the aperture at the offset in GMADR, translated by the global GTT under the default
context (20 R81, 43 R301, 10 R47), from a cached copy where it chooses to use one (46 R380) and else from memory. The client
it carries is the model's choice (log 24). A CPU access to plain memory, outside the apertures and stolen memory (20 R80 to
R85, R88, R92), reads or stores its bytes and no others, and faults beyond the address space; which range an access belongs to
is log 24. -/
def Obligations.ApertureAccess : Prop :=
  (∀ (s : State) (a n : Nat) (d : List Byte) (use : CacheUse) (rest : List Input),
    s.plat.gmadrBase ≤ a → a < s.plat.gmadrBase + s.plat.gmadrSize →
    a < s.plat.gttmmadrBase ∨ s.plat.gttmmadrBase + 0x1000000 ≤ a →
    let req := fun (acc : Access) => Request.mk .aperture .state (BitVec.ofNat 64 (a - s.plat.gmadrBase)) acc
    (s.inputs = .cpuRead a n use :: rest → step s = exec (.tlbLookup use (req (.read n))) (s.setInputs rest)) ∧
    (s.inputs = .cpuWrite a d use :: rest → step s = exec (.tlbLookup use (req (.write d))) (s.setInputs rest)) ∧
    (s.inputs = .cpuRead a n noCache :: rest →
      step s = exec (.xlateGgtt 0x00B (req (.read n))) (s.setInputs rest)) ∧
    (s.inputs = .cpuWrite a d noCache :: rest →
      step s = exec (.xlateGgtt 0x00B (req (.write d))) (s.setInputs rest))) ∧
  ∀ (s : State) (a n : Nat) (d : List Byte) (use : CacheUse) (rest : List Input), Memory.wf s.mem = true →
    (s.inputs = .cpuRead a n use :: rest → Rules.plainRange s.plat a n →
      (a + n ≤ 2 ^ s.plat.haw → step s = .next ((s.setInputs rest).emit (.cpuData (leNat (s.mem.bytes a n))))) ∧
      (2 ^ s.plat.haw < a + n → step s = .fault (.physOutside a))) ∧
    (s.inputs = .cpuWrite a d use :: rest → Rules.plainRange s.plat a d.length →
      (a + d.length ≤ 2 ^ s.plat.haw → ∃ t, step s = .next t ∧ t.mem.bytes a d.length = d ∧
        sameOutside s t a d.length ∧ t = { s with mem := t.mem, inputs := rest }) ∧
      (2 ^ s.plat.haw < a + d.length → step s = .fault (.physOutside a)))

/-- GTT.WRITE stores the bytes of the value in the table, and nothing else changes, cached copies neither; GTT.READ returns
the bytes of the table and changes nothing (43 R303); an access that is not aligned is refused (20 R97, 93 U5; log 9). A CPU
access of 1, 2, 4 or 8 bytes in GTTMMADR from 8 MB on is one, and one of another width is refused (20 R97, log 9); a store at
the table itself does not reach it, and is refused by name (20 R90, R92; which range an access belongs to is the model's
choice, log 24). MI_UPDATE_GTT of an entry beyond GSM_SIZE is refused (log 37). That alignment is tested on the offset in
GTTMMADR is the model's choice, log 50. -/
def Obligations.GttProgramming : Prop :=
  (∀ (s : State) (off : BitVec 23) (w : Width) (v : Word64), Memory.wf s.mem = true →
    (off.toNat % w.bytes = 0 → off.toNat + w.bytes ≤ s.plat.gsmSize →
      s.plat.gsmBase + off.toNat + w.bytes ≤ 2 ^ s.plat.haw →
      (∃ t, exec (.gttWrite off w v) s = .next t ∧
        t.mem.bytes (s.plat.gsmBase + off.toNat) w.bytes = leBytes w.bytes v.toNat ∧
        sameOutside s t (s.plat.gsmBase + off.toNat) w.bytes ∧ t = { s with mem := t.mem }) ∧
      exec (.gttRead off w) s = .next (s.emit (.cpuData (leNat (s.mem.bytes (s.plat.gsmBase + off.toNat) w.bytes))))) ∧
    (off.toNat % w.bytes ≠ 0 → exec (.gttWrite off w v) s = .refused .accessIllegal ∧
      exec (.gttRead off w) s = .refused .accessIllegal) ∧
    (∀ (use : CacheUse) (d : List Byte) (n : Nat) (rest : List Input),
      let a := s.plat.gttmmadrBase + 0x800000 + off.toNat
      (s.inputs = .cpuWrite a (leBytes w.bytes v.toNat) use :: rest → step s = exec (.gttWrite off w v) (s.setInputs rest)) ∧
      (s.inputs = .cpuRead a w.bytes use :: rest → step s = exec (.gttRead off w) (s.setInputs rest)) ∧
      (s.inputs = .cpuWrite a d use :: rest → (∀ x : Width, d.length ≠ x.bytes) → step s = .refused .accessIllegal) ∧
      (s.inputs = .cpuRead a n use :: rest → (∀ x : Width, n ≠ x.bytes) → step s = .refused .accessIllegal)) ∧
    ∀ (a : Nat) (use : CacheUse) (d : List Byte) (rest : List Input),
      s.inputs = .cpuWrite a d use :: rest → d ≠ [] → s.plat.gsmBase ≤ a → a < s.plat.gsmBase + s.plat.gsmSize →
      a < s.plat.gmadrBase ∨ s.plat.gmadrBase + s.plat.gmadrSize ≤ a →
      a + d.length ≤ s.plat.gttmmadrBase ∨ s.plat.gttmmadrBase + 0x1000000 ≤ a → s.plat.gms.toNat ≤ 128 →
      step s = .refused .stolenNotVisible) ∧
  ∀ (s : State) (g : Word32) (v : Word64), s.plat.gsmSize ≤ 8 * (g.toNat / 2 ^ 12 % 2 ^ 20) →
    exec (.miUpdateGtt g v) s = .refused .beyondGsm

/-- MI_UPDATE_GTT stores the value at `g[31:12]` times 8 of the table, which is `g` shifted by 9 for a page address, and nothing
else changes (30 R196; 43 R305). An entry beyond GSM_SIZE is GttProgramming's. -/
def Obligations.MiUpdateGtt : Prop :=
  ∀ (s : State) (g : Word32) (v : Word64), Memory.wf s.mem = true →
    let off := 8 * (g.toNat / 2 ^ 12 % 2 ^ 20)
    off ≤ 0x7FFFF8 ∧ (g.toNat % 2 ^ 12 = 0 → off = g.toNat / 2 ^ 9) ∧
    (off < s.plat.gsmSize → s.plat.gsmBase + off + 8 ≤ 2 ^ s.plat.haw →
      ∃ t, exec (.miUpdateGtt g v) s = .next t ∧ memRead64 t (s.plat.gsmBase + off) = .ok v ∧
        sameOutside s t (s.plat.gsmBase + off) 8 ∧ t = { s with mem := t.mem })

/-- What the data access is that GTI performs (47 R455, R457; 20 R111), in a step as HungSourcesWait says: a write stores its bytes and no others, a read returns the bytes at
the address, an atomic on memory that is not write-back changes nothing and is reported. That a fetch sees every store
performed before it is the model's choice, log 48. -/
def Obligations.DataAccess : Prop :=
  ∀ (s : State) (f : InFlight), Memory.wf s.mem = true → f.pa + f.req.acc.size ≤ 2 ^ s.plat.haw →
    (∀ d, f.req.acc = .write d → ∃ t, performAccess s f = .ok t ∧ t.mem.bytes f.pa d.length = d ∧
      sameOutside s t f.pa d.length ∧ t = { s with mem := t.mem, outputs := .response f.req [] false :: s.outputs }) ∧
    (∀ n, f.req.acc = .read n ∨ f.req.acc = .fetch n →
      performAccess s f = .ok (s.emit (.response f.req (s.mem.bytes f.pa n) false))) ∧
    (∀ op d, f.req.acc = .atomic op d → memType s.plat f.pa = .wb → ∃ t new, performAccess s f = .ok t ∧
      new.length = d.length ∧ t.mem.bytes f.pa d.length = new ∧ sameOutside s t f.pa d.length ∧
      t = { s with mem := t.mem, outputs := .response f.req new false :: s.outputs }) ∧
    (∀ op d, f.req.acc = .atomic op d → memType s.plat f.pa ≠ .wb → ∃ t, performAccess s f = .ok t ∧
      t = { s with free := t.free, outputs := .response f.req (freeBytes s.free d.length) false ::
        .catastrophic f.req.src f.ctxid .nonWBAtomic :: s.outputs })

/-- GTI performs no access of a hung source (60 R478). An access of a source that is not hung is performed in a step of its own
and leaves the queue of accesses, and with the last one the waiting Invalidation Wait Descriptors are answered (46 R409, 20
R115; log 15): when an event asks for it, and, with no event queued, the oldest such access by the machine on its own (log 3).
What the access does is DataAccess. -/
def Obligations.HungSourcesWait : Prop :=
  ∀ (s : State) (k : Nat) (f : InFlight), s.reqs.inflight[k]? = some f →
    (∀ rest : List Input, s.inputs = .perform k :: rest →
      (isHung s f.req.src = true → step s = .next (s.setInputs rest)) ∧
      (isHung s f.req.src = false →
        Rules.performs (step s) { s with inputs := rest, reqs := { s.reqs with inflight := s.reqs.inflight.eraseIdx k } } f)) ∧
    (s.inputs = [] → isHung s f.req.src = false →
      (∀ j < k, ∀ g, s.reqs.inflight[j]? = some g → isHung s g.req.src = true) →
      Rules.performs (step s) { s with reqs := { s.reqs with inflight := s.reqs.inflight.eraseIdx k } } f)

/-- A page response that answers no pending request drops faulted TLB entries and the page requests it answers
(60 R483). -/
def Obligations.PageResponseUnmatched : Prop :=
  ∀ (s : State) (p : BitVec 20) (va : Word64) (ok : Bool) (use : CacheUse),
    (∀ q ∈ s.reqs.pending, ¬ (q.pasid = p ∧ q.va.toNat / 4096 = va.toNat / 4096)) →
    ∃ t, exec (.pageResponse p va ok use) s = .next t ∧ t.reqs.pending = s.reqs.pending ∧ t.mem = s.mem ∧
      t.outputs = s.outputs ∧ t.banks = s.banks ∧ t.regs = s.regs ∧
      (∀ q, q ∈ t.reqs.pageRequests ↔ q ∈ s.reqs.pageRequests ∧ ¬ (q.pasid = p ∧ q.va.toNat / 4096 = va.toNat / 4096)) ∧
      (∀ x ∈ t.caches.tlb, ¬ (x.reason.isSome = true ∧ x.tag.mode = .adv ∧ x.tag.root = p.toNat ∧
        x.page = va.toNat / 2 ^ x.bits))

/-- An unsuccessful page response completes the requests it answers as invalid cycles, oldest first: a free value for a read,
nothing stored for a write (60 R483, R487); of a hung source no request completes, and it waits (60 R478, 93 U29). A TR-TT walk
that waits goes on with a free value for its table read, in a state that awaits a reset (40 R230); without its context running,
its request completes as an invalid cycle (log 17). What the TR-TT registers must not hold by then is refused (30 R206).
That the response answers a 4 KB page, and the order, are log 21. That a dropped write or an atomic is completed with the null indicator too is the model's choice, log 47. -/
def Obligations.PageResponseUnsuccessful : Prop :=
  (∀ (s : State) (p : BitVec 20) (va : Word64) (use : CacheUse) (q : PendingReq),
    q.tr = none → s.reqs.pending.filter (Rules.answers p va) = [q] →
    ∃ t, exec (.pageResponse p va false use) s = .next t ∧ q ∉ t.reqs.pending ∧ t.mem = s.mem ∧ t.banks = s.banks ∧
      if isHung s q.req.src then t.outputs = s.outputs ∧ t.reqs.held = s.reqs.held ++ [⟨q.req, some q.pasid⟩]
      else t.outputs = .response q.req (freeBytes s.free q.req.acc.replySize) false :: s.outputs ∧
        t.reqs.held = s.reqs.held) ∧
  (∀ (s : State) (p : BitVec 20) (va : Word64) (use : CacheUse) (l : List PendingReq),
    s.reqs.pending.filter (Rules.answers p va) = l → (∀ q ∈ l, q.tr = none) →
    exec (.pageResponse p va false use) s = .next (l.foldl
      (fun t q => if isHung s q.req.src then t.addHeld ⟨q.req, some q.pasid⟩ else invalidCycle t q.req)
      (Rules.answered p va s))) ∧
  (∀ (s : State) (p : BitVec 20) (va : Word64) (use : CacheUse) (q : PendingReq) (pt : TrPoint),
    s.reqs.pending.filter (Rules.answers p va) = [q] → q.tr = some pt →
    let u := Rules.answered p va s
    (isHung s q.req.src = true → exec (.pageResponse p va false use) s = .next (u.addHeld ⟨q.req, some q.pasid⟩)) ∧
    (isHung s q.req.src = false → gateOpen s (some q.pasid) q.req.src = false →
      exec (.pageResponse p va false use) s = .next (invalidCycle (Rules.trFailed u).1 q.req))) ∧
  ∀ (s : State) (p : BitVec 20) (va elem pdp0 : Word64) (q : PendingReq) (pt : TrPoint) (c : CtxEntry),
    s.reqs.pending.filter (Rules.answers p va) = [q] → q.tr = some pt → q.req.src = .engine .rcs →
    gateOpen s (some q.pasid) q.req.src = true → fitsRow 0x00B 0x003 elem = true →
    Rules.holdsAdvanced s elem .rcs = true → s.regs.gttCacheEnable = false →
    canonical q.req.va = true → Rules.written (s.bank .rcs).pdp0 pdp0 = true → (s.bank .rcs).pc.valid = true →
    s.iommu.cc.find? (fun z => z.fn == BitVec.ofNat 3 (field elem 9 3)) = some c →
    let a := Rules.advOf s.plat.haw elem (s.bank .rcs).pc c
    let u := (Rules.trFailed (Rules.answered p va s)).1
    let o := exec (.pageResponse p va false noCache) s
    u.reqs.awaitingReset = true ∧
    Rules.resumed s.regs o (Rules.endTrAdv a (BitVec.ofNat 20 (field pdp0 0 20)) (ctxIdOf s q.req.src) q.req
      (Rules.trttGiven (Rules.tablesAdv .rcs a) u pt (Config.freeWord s.free).toNat q.req.va) o)

/-- A successful page response redoes the translation of each request it answers from the TLB look-up, oldest first; one whose
context is not running is held (60 R483, R478; log 11). A TR-TT walk that waits redoes its table read at its level and goes on
(40 R230, 60 R485); what the TR-TT registers must not hold by then is refused (30 R206). That the response answers a 4 KB
page, the order, and that a request which faulted at its tile is translated again from its own address, are log 21, and that the record of the last walks
goes, and is then that of all the translations made, is log 14. That a dropped write or an atomic is completed with the null
indicator too is the model's choice, log 47. -/
def Obligations.PageResponseSuccessful : Prop :=
  (∀ (s : State) (p : BitVec 20) (va : Word64) (use : CacheUse) (q : PendingReq),
    q.tr = none → s.reqs.pending.filter (Rules.answers p va) = [q] → gateOpen s (some p) q.req.src = true →
    exec (.pageResponse p va true use) s = exec (.tlbLookup use q.req) (Rules.answered p va s)) ∧
  (∀ (s : State) (p : BitVec 20) (va : Word64) (use : CacheUse) (l : List PendingReq),
    s.reqs.pending.filter (Rules.answers p va) = l → (∀ q ∈ l, q.tr = none ∧ q.req.wellFormed = true) →
    exec (.pageResponse p va true use) s = Rules.inTurn
      (fun q t => if gateOpen t (some q.pasid) q.req.src then exec (.tlbLookup use q.req) t
        else .next (t.addHeld ⟨q.req, some q.pasid⟩)) l (Rules.answered p va s)) ∧
  (∀ (s : State) (p : BitVec 20) (va : Word64) (use : CacheUse) (q : PendingReq),
    s.reqs.pending.filter (Rules.answers p va) = [q] → q.tr ≠ none → gateOpen s (some q.pasid) q.req.src = false →
    exec (.pageResponse p va true use) s = .next ((Rules.answered p va s).addHeld ⟨q.req, some q.pasid⟩)) ∧
  ∀ (s : State) (p : BitVec 20) (va elem pdp0 : Word64) (q : PendingReq) (pt : TrPoint) (c : CtxEntry),
    s.reqs.pending.filter (Rules.answers p va) = [q] → q.tr = some pt → q.req.src = .engine .rcs →
    gateOpen s (some q.pasid) q.req.src = true → fitsRow 0x00B 0x003 elem = true →
    Rules.holdsAdvanced s elem .rcs = true → s.regs.gttCacheEnable = false →
    canonical q.req.va = true → Rules.written (s.bank .rcs).pdp0 pdp0 = true → (s.bank .rcs).pc.valid = true →
    s.iommu.cc.find? (fun z => z.fn == BitVec.ofNat 3 (field elem 9 3)) = some c →
    let a := Rules.advOf s.plat.haw elem (s.bank .rcs).pc c
    let o := exec (.pageResponse p va true noCache) s
    Rules.resumed s.regs o (Rules.endTrAdv a (BitVec.ofNat 20 (field pdp0 0 20)) (ctxIdOf s q.req.src) q.req
      (Rules.trttAgain (Rules.tablesAdv .rcs a) (Rules.answered p va s) pt q.req.va) o)

/-! ## Resets -/

/-- RESET.ENGINE (70 R511, R513, R515; 45 R362): the engine is Idle, not hung, without a context, its PASID Cache invalid; its
requests are gone; the counter of the PASID that was resident falls by one; which descriptor registers count as written stays, and their values are unspecified;
TLBs, page requests, CC, memory, MMIO registers and other engines stay. The reset of WDBox or of the second VEBOX ends its hang
and drops its requests (log 25). On a part that keeps 10 R70 and 45 R362 the pending requests outlive it, on one that keeps 70
R511 and R513 they do not (the model's parameter, log 41). -/
def Obligations.ResetEngine : Prop :=
  (∀ s : State, exec (.resetEngine .wdbox) s =
    .next { s with wdboxHung := false, reqs := Rules.withoutSource s.plat.keepRequests .wdbox s.reqs }) ∧
  (∀ s : State, exec (.resetEngine .vebox2) s =
    .next { s with vebox2Hung := false, reqs := Rules.withoutSource s.plat.keepRequests .vebox2 s.reqs }) ∧
  ∀ (s : State) (e : Engine),
    ∃ t, exec (.resetEngine (.engine e)) s = .next t ∧ Rules.idleBank (t.bank e) = true ∧
      (t.bank e).pc.valid = false ∧
      (∀ d, ((t.bank e).desc d).loWritten = ((s.bank e).desc d).loWritten ∧
        ((t.bank e).desc d).hiWritten = ((s.bank e).desc d).hiWritten) ∧
      (∀ e', e' ≠ e → t.bank e' = s.bank e') ∧
      t.reqs = Rules.withoutSource s.plat.keepRequests (.engine e) s.reqs ∧ t.plat = s.plat ∧ t.inputs = s.inputs ∧
      t.walker = s.walker ∧
      t.caches = s.caches ∧ t.mem = s.mem ∧ t.regs = s.regs ∧ t.outputs = s.outputs ∧ t.wdboxHung = s.wdboxHung ∧
      t.vebox2Hung = s.vebox2Hung ∧ t.iommu = { s.iommu with pasidState := t.iommu.pasidState } ∧
      ((s.bank e).resident = none → t.iommu = s.iommu) ∧
      ∀ p, (s.bank e).resident = some p → sparseWf 0 s.iommu.pasidState = true →
        ∀ q, sparseGet 0 t.iommu.pasidState q =
          if q = p.toNat then sparseGet 0 s.iommu.pasidState q - 1 else sparseGet 0 s.iommu.pasidState q

/-- RESET.DEVICE (70 R511, R514, R515, R517; 10 R70): every engine is reset and its descriptors are unwritten, the
counter of each PASID falls by the number of engines that ran it, the registers have their defaults, nothing is pending, and no
request of an engine is held or in flight; IOMMU tables, CC, page requests already sent, memory and the translation caches stay. WDBox and the second VEBOX, whose hangs
end, are reset with them, and what display and aperture have under way stays (log 25). On a part that keeps 10 R70 the PASID
Caches, and the pending requests, outlive it, on one that keeps 70 R511 and R517 they do not (the model's two parameters, log
41). -/
def Obligations.ResetDevice : Prop :=
  ∀ s : State, ∃ t, exec .resetDevice s = .next t ∧
    (∀ e, Rules.idleBank (t.bank e) = true ∧ Rules.unwritten (t.bank e) ∧
      Rules.pcAfterReset s.plat.keepPasidCache (s.bank e) (t.bank e)) ∧
    t.regs.trttL3ptr = 0 ∧ t.regs.trttNull = 0 ∧ t.regs.trttInvalid = 0 ∧ t.regs.trvadr = 0 ∧ t.regs.trtte = 0 ∧
    t.regs.bypassDis = false ∧ t.regs.adNonwbIgnore = false ∧ t.wdboxHung = false ∧ t.vebox2Hung = false ∧ t.reqs = Rules.withoutContexts s.plat.keepRequests s.reqs ∧
    (sparseWf 0 s.iommu.pasidState = true →
      ∀ q, sparseGet 0 t.iommu.pasidState q = sparseGet 0 s.iommu.pasidState q - Rules.residents s q) ∧
    t = { s with regs := t.regs, banks := t.banks, wdboxHung := false, vebox2Hung := false, reqs := t.reqs, free := t.free,
                 iommu := { s.iommu with pasidState := t.iommu.pasidState } }

/-- RESET.BUS (70 R510, R514, R517; 10 R70): every engine, WDBox and the second VEBOX are reset, the registers have their
defaults, the PASID Caches are cleared, nothing is waiting, pending, requested or in flight, and the IOMMU-related blocks return
to their reset state; memory stays. 70 R514 does not describe that state: that it is the model's own after reset, with context
and PASID tables, Context Cache and counters empty, is log 6, and that the held and in-flight requests of display and aperture
go too, and that the translation caches stay, is log 25. On a part that keeps 10 R70 pending and page requests outlive it, on
one that keeps 70 R517 they do not (the model's parameter, log 41). -/
def Obligations.ResetBus : Prop :=
  ∀ s : State, ∃ t, exec .resetBus s = .next t ∧
    (∀ e, Rules.idleBank (t.bank e) = true ∧ Rules.unwritten (t.bank e) ∧ (t.bank e).pc.valid = false) ∧
    t.wdboxHung = false ∧ t.vebox2Hung = false ∧
    t.regs.trttL3ptr = 0 ∧ t.regs.trttNull = 0 ∧ t.regs.trttInvalid = 0 ∧ t.regs.trvadr = 0 ∧ t.regs.trtte = 0 ∧
    t.regs.bypassDis = false ∧ t.regs.adNonwbIgnore = false ∧
    t.reqs = { Rules.withoutContexts s.plat.keepRequests s.reqs with
      held := [], inflight := [], invWaits := 0
      pageRequests := if s.plat.keepRequests then s.reqs.pageRequests else [] } ∧ t.iommu = ⟨[], [], [], []⟩ ∧ t.mem = s.mem ∧
    t.caches = s.caches ∧ t.outputs = s.outputs ∧ t.plat = s.plat ∧ t.inputs = s.inputs
end

