-- ==== Sys2Proof/Laws/Autonomous.lean ====
section
/-! SUPPORT. What the machine's own operations can do: the performing of an access, the answers to Invalidation Wait Descriptors,
the acknowledgements owed to engines, and a step with no event queued. -/

namespace Sys2Proof.Machine

/-- `n` responses to Invalidation Wait Descriptors (46 R409). -/
theorem answerWaits_eq (n : Nat) (s : State) :
    answerWaits n s = { s with outputs := List.replicate n .invWaitDone ++ s.outputs } := by
  induction n generalizing s with
  | zero => rfl
  | succ n ih =>
    rw [answerWaits, ih]
    simp only [answerWait, State.emit, List.replicate_succ', List.append_assoc, List.singleton_append]

/-- The waiting Invalidation Wait Descriptors are answered as the rules say (46 R409, 20 R115). -/
theorem flushWaits_eq (s : State) : flushWaits s = Rules.waitsAnswered s := by
  unfold flushWaits Rules.waitsAnswered
  by_cases h : s.reqs.inflight = [] <;> simp [h, answerWaits_eq, State.setReqs]

/-- The performing of an access in flight of a source that is not hung (60 R478). -/
theorem performAt_performs {s : State} {k : Nat} {f : InFlight} (h : s.reqs.inflight[k]? = some f)
    (hh : isHung s f.req.src = false) :
    Rules.performs (toOutcome (performAt k s)) { s with reqs := { s.reqs with inflight := s.reqs.inflight.eraseIdx k } } f := by
  unfold performAt
  simp only [h, hh, State.setReqs, Bool.false_eq_true, if_false]
  constructor <;> intro t ht <;> simp only [ht, bind, Except.bind, flushWaits_eq]
  rfl

/-- An engine to which no acknowledgement is owed gets none. -/
theorem owedAck_none {s : State} {e : Engine} (h : Rules.owes s e = false) : owedAck s e = none := by
  have hb : busy s (.engine e) = !(s.reqs.inflight.all (fun f => f.req.src != .engine e)) := by
    simp only [busy, List.not_all_eq_any_not, bne, Bool.not_not]
  simp only [Rules.owes] at h
  rw [owedAck, hb, Bool.not_not]
  cases hd : s.reqs.deferAcks <;> simp_all

/-- The first engine in order to which an acknowledgement is owed gets it (log 3). -/
theorem owedAck_first {s t : State} {e : Engine} (h : ∀ x ∈ Rules.ackedBefore e, Rules.owes s x = false)
    (ht : owedAck s e = some t) : engines.findSome? (owedAck s) = some t := by
  cases e <;> simp [Rules.ackedBefore] at h <;> simp [engines, List.findSome?, ht, owedAck_none, h]

/-- A step with no event queued, no access to perform and no wait to answer (log 3): an acknowledgement, else a held request,
else nothing. -/
theorem step_quiet {s : State} (h : Rules.quiet s) :
    (∀ t, engines.findSome? (owedAck s) = some t → step s = .next t) ∧
    (engines.findSome? (owedAck s) = none →
      (∀ k, s.reqs.held.findIdx? (fun h => gateOpen s h.pasid h.req.src) = some k →
        step s = toOutcome (grantAt k noCache s)) ∧
      (s.reqs.held.findIdx? (fun h => gateOpen s h.pasid h.req.src) = none → step s = .next s)) := by
  obtain ⟨h1, h2, h3⟩ := h
  have hf : s.reqs.inflight.findIdx? (fun f => !isHung s f.req.src) = none := by
    rw [List.findIdx?_eq_none_iff]; intro f hf; rw [h2 f hf]; rfl
  have hw : (s.reqs.inflight.isEmpty && decide (0 < s.reqs.invWaits)) = false := by
    by_cases he : s.reqs.inflight = [] <;> simp [he, h3]
  refine ⟨fun t ht => ?_, fun ha => ⟨fun k hk => ?_, fun hk => ?_⟩⟩
  · simp only [step, h1, autonomous, hf, hw, ht, Bool.false_eq_true, if_false]; rfl
  · simp only [step, h1, autonomous, hf, hw, ha, hk, Bool.false_eq_true, if_false]
  · simp only [step, h1, autonomous, hf, hw, ha, hk, Bool.false_eq_true, if_false]; rfl

end Sys2Proof.Machine
end

