-- ==== Sys2Proof/Laws/Memory.lean ====
section
/-! SUPPORT. Sparse maps and memory: read after write, and the canonical form. -/

namespace Sys2Proof.Machine

section Sparse
variable {α : Type} [DecidableEq α] (d : α)

/-- A key below the least one reads the default. -/
theorem sparseGet_below (m : List (Nat × α)) (lo a : Nat) (h : sparseWfFrom d lo m = true) (ha : a < lo) :
    sparseGet d m a = d := by
  induction m generalizing lo with
  | nil => rfl
  | cons p m ih =>
    obtain ⟨k, v⟩ := p
    simp only [sparseWfFrom, Bool.and_eq_true, decide_eq_true_eq] at h
    rw [sparseGet, if_neg (by omega)]
    exact ih (k + 1) h.2 (by omega)

/-- A canonical form stays one under a smaller lower bound. -/
theorem sparseWfFrom_mono (m : List (Nat × α)) (lo lo' : Nat) (h : sparseWfFrom d lo m = true) (hl : lo' ≤ lo) :
    sparseWfFrom d lo' m = true := by
  cases m with
  | nil => rfl
  | cons p m =>
    simp only [sparseWfFrom, Bool.and_eq_true, decide_eq_true_eq] at h ⊢
    exact ⟨⟨by omega, h.1.2⟩, h.2⟩

/-- Read after write, on a canonical map. -/
theorem sparseGet_set (m : List (Nat × α)) (lo a b : Nat) (x : α) (h : sparseWfFrom d lo m = true) :
    sparseGet d (sparseSet d m a x) b = if b = a then x else sparseGet d m b := by
  induction m generalizing lo with
  | nil =>
    by_cases hx : x = d <;> by_cases hb : b = a <;> simp [sparseSet, sparseGet, hx, hb]
  | cons p m ih =>
    obtain ⟨k, v⟩ := p
    have h' := h
    simp only [sparseWfFrom, Bool.and_eq_true, decide_eq_true_eq] at h
    unfold sparseSet
    split
    · next hak =>
      split
      · next hx =>
        split
        · next hb => rw [hb, hx]; exact sparseGet_below d _ k a (by simp [sparseWfFrom, h.1.2, h.2]) hak
        · rfl
      · simp [sparseGet]
    · split
      · next hak =>
        subst hak
        split
        · next hx =>
          split
          · next hb => rw [hb, hx]; exact sparseGet_below d _ (a + 1) a h.2 (by omega)
          · next hb => simp [sparseGet, hb]
        · by_cases hb : b = a <;> simp [sparseGet, hb]
      · next h1 h2 =>
        rw [sparseGet, ih (k + 1) h.2, sparseGet]
        by_cases hb : b = k
        · subst hb; simp [Ne.symm h2]
        · simp [hb]

/-- A write keeps the canonical form. -/
theorem sparseWfFrom_set (m : List (Nat × α)) (lo a : Nat) (x : α) (h : sparseWfFrom d lo m = true) (ha : lo ≤ a) :
    sparseWfFrom d lo (sparseSet d m a x) = true := by
  induction m generalizing lo with
  | nil => by_cases hx : x = d <;> simp [sparseSet, sparseWfFrom, hx, ha]
  | cons p m ih =>
    obtain ⟨k, v⟩ := p
    have h' := h
    simp only [sparseWfFrom, Bool.and_eq_true, decide_eq_true_eq] at h
    unfold sparseSet
    split
    · next hak =>
      split
      · exact h'
      · next hx =>
        simp only [sparseWfFrom, Bool.and_eq_true, decide_eq_true_eq]
        exact ⟨⟨ha, hx⟩, ⟨by omega, h.1.2⟩, h.2⟩
    · split
      · next hak =>
        subst hak
        split
        · exact sparseWfFrom_mono d m (a + 1) lo h.2 (by omega)
        · next hx =>
          simp only [sparseWfFrom, Bool.and_eq_true, decide_eq_true_eq]
          exact ⟨⟨ha, hx⟩, h.2⟩
      · next h1 h2 =>
        simp only [sparseWfFrom, Bool.and_eq_true, decide_eq_true_eq]
        exact ⟨h.1, ih (k + 1) h.2 (by omega)⟩

theorem sparseWf_set (m : List (Nat × α)) (a : Nat) (x : α) (h : sparseWf d m = true) :
    sparseWf d (sparseSet d m a x) = true := sparseWfFrom_set d m 0 a x h (Nat.zero_le _)

/-- Canonical maps that read the same are the same. -/
theorem sparse_ext (m n : List (Nat × α)) (lo : Nat) (hm : sparseWfFrom d lo m = true) (hn : sparseWfFrom d lo n = true)
    (h : ∀ a, sparseGet d m a = sparseGet d n a) : m = n := by
  induction m generalizing n lo with
  | nil =>
    cases n with
    | nil => rfl
    | cons p n =>
      obtain ⟨k, v⟩ := p
      simp only [sparseWfFrom, Bool.and_eq_true, decide_eq_true_eq] at hn
      have := h k
      simp only [sparseGet, if_true] at this
      exact absurd this.symm hn.1.2
  | cons p m ih =>
    obtain ⟨k, v⟩ := p
    have hm' := hm
    simp only [sparseWfFrom, Bool.and_eq_true, decide_eq_true_eq] at hm
    cases n with
    | nil =>
      have := h k
      simp only [sparseGet, if_true] at this
      exact absurd this hm.1.2
    | cons q n =>
      obtain ⟨j, w⟩ := q
      have hn' := hn
      simp only [sparseWfFrom, Bool.and_eq_true, decide_eq_true_eq] at hn
      have hkj : k = j := by
        rcases Nat.lt_trichotomy k j with hlt | heq | hgt
        · have h1 := h k
          rw [sparseGet_below d ((j, w) :: n) j k (by simp [sparseWfFrom, hn.1.2, hn.2]) hlt] at h1
          simp only [sparseGet, if_true] at h1
          exact absurd h1 hm.1.2
        · exact heq
        · have h1 := h j
          rw [sparseGet_below d ((k, v) :: m) k j (by simp [sparseWfFrom, hm.1.2, hm.2]) hgt] at h1
          simp only [sparseGet, if_true] at h1
          exact absurd h1.symm hn.1.2
      subst hkj
      have hv : v = w := by have := h k; simpa [sparseGet] using this
      subst hv
      have : m = n := by
        refine ih n (k + 1) hm.2 hn.2 (fun a => ?_)
        by_cases ha : a = k
        · subst ha
          rw [sparseGet_below d m (a + 1) a hm.2 (by omega), sparseGet_below d n (a + 1) a hn.2 (by omega)]
        · have := h a
          simpa [sparseGet, ha] using this
      rw [this]

end Sparse

namespace Memory

/-- A byte write keeps the canonical form. -/
theorem wf_setByte (m : Memory) (a : Nat) (b : Byte) (h : m.wf = true) : (m.setByte a b).wf = true :=
  sparseWf_set _ m a b h

/-- Read after a byte write. -/
theorem byte_setByte (m : Memory) (a x : Nat) (b : Byte) (h : m.wf = true) :
    (m.setByte a b).byte x = if x = a then b else m.byte x := sparseGet_set _ m 0 a x b h

/-- A write of several bytes keeps the canonical form. -/
theorem wf_setBytes (m : Memory) (a : Nat) (bs : List Byte) (h : m.wf = true) : (m.setBytes a bs).wf = true := by
  induction bs generalizing m a with
  | nil => exact h
  | cons b bs ih => exact ih _ _ (wf_setByte m a b h)

/-- Read after a write of several bytes: the byte written there, or what was there before. -/
theorem byte_setBytes (m : Memory) (a x : Nat) (bs : List Byte) (h : m.wf = true) :
    (m.setBytes a bs).byte x = if a ≤ x then (bs[x - a]?).getD (m.byte x) else m.byte x := by
  induction bs generalizing m a with
  | nil => simp [setBytes]
  | cons b bs ih =>
    rw [setBytes, ih _ _ (wf_setByte m a b h), byte_setByte m a x b h]
    rcases Nat.lt_trichotomy x a with hx | hx | hx
    · rw [if_neg (by omega), if_neg (by omega), if_neg (by omega)]
    · subst hx; rw [if_neg (by omega), if_pos rfl, if_pos (Nat.le_refl _)]; simp
    · have h1 : a + 1 ≤ x := by omega
      have h2 : ¬ x = a := by omega
      have h3 : x - a = (x - (a + 1)) + 1 := by omega
      rw [if_pos h1, if_neg h2, if_pos (by omega), h3, List.getElem?_cons_succ]

/-- A write leaves every byte outside it alone. -/
theorem byte_setBytes_outside (m : Memory) (a x : Nat) (bs : List Byte) (h : m.wf = true)
    (hx : x < a ∨ a + bs.length ≤ x) : (m.setBytes a bs).byte x = m.byte x := by
  rw [byte_setBytes m a x bs h]
  split
  · rw [List.getElem?_eq_none (by omega)]; rfl
  · rfl

/-- The bytes of a range are as many as asked for. -/
@[simp] theorem length_bytes (m : Memory) (a n : Nat) : (m.bytes a n).length = n := by
  induction n generalizing a with
  | zero => rfl
  | succ n ih => simp [bytes, ih]

/-- A range of bytes, one by one. -/
theorem getElem?_bytes (m : Memory) (a n i : Nat) (h : i < n) : (m.bytes a n)[i]? = some (m.byte (a + i)) := by
  induction n generalizing a i with
  | zero => omega
  | succ n ih =>
    cases i with
    | zero => rfl
    | succ i => rw [bytes, List.getElem?_cons_succ, ih (a + 1) i (by omega)]; congr 2; omega

/-- Ranges of equal bytes are equal. -/
theorem bytes_congr (m m' : Memory) (a n : Nat) (h : ∀ x, a ≤ x → x < a + n → m.byte x = m'.byte x) :
    m.bytes a n = m'.bytes a n := by
  induction n generalizing a with
  | zero => rfl
  | succ n ih =>
    rw [bytes, bytes, h a (Nat.le_refl _) (by omega), ih (a + 1) (fun x h1 h2 => h x (by omega) (by omega))]

/-- Read after write of the same range. -/
theorem bytes_setBytes_same (m : Memory) (a : Nat) (bs : List Byte) (h : m.wf = true) :
    (m.setBytes a bs).bytes a bs.length = bs := by
  refine List.ext_getElem? (fun i => ?_)
  by_cases hi : i < bs.length
  · rw [getElem?_bytes _ _ _ _ hi, byte_setBytes m a _ bs h, if_pos (by omega), Nat.add_sub_cancel_left,
      List.getElem?_eq_getElem hi]; rfl
  · rw [List.getElem?_eq_none (by simp; omega), List.getElem?_eq_none (by omega)]

/-- Canonical memories that read the same are the same. -/
theorem ext (m n : Memory) (hm : m.wf = true) (hn : n.wf = true) (h : ∀ a, m.byte a = n.byte a) : m = n :=
  sparse_ext _ m n 0 hm hn h

end Memory

/-- Reset memory is in the canonical form. -/
theorem reset_mem_wf : Memory.wf State.reset.mem = true := rfl

end Sys2Proof.Machine
end

