-- ==== Sys2Proof/Laws/Codec.lean ====
section
/-! SUPPORT. Byte order, and the operand parsers of the decoder undo the encoder's writers. -/

namespace Sys2Proof

@[simp] theorem length_leBytes (n v : Nat) : (leBytes n v).length = n := by
  induction n generalizing v with
  | zero => rfl
  | succ n ih => simp [leBytes, ih]

theorem leNat_leBytes (n v : Nat) : leNat (leBytes n v) = v % 256 ^ n := by
  induction n generalizing v with
  | zero => simp [leBytes, leNat, Nat.mod_one]
  | succ n ih =>
    have h : v % 256 ^ (n + 1) = v % 256 + 256 * (v / 256 % 256 ^ n) := by
      rw [Nat.pow_succ', Nat.mod_mul]
    rw [leBytes, leNat, ih, BitVec.toNat_ofNat, h]

theorem leNat_lt (l : List Byte) : leNat l < 256 ^ l.length := by
  induction l with
  | nil => simp [leNat]
  | cons b l ih =>
    have hb : b.toNat < 256 := b.isLt
    rw [leNat, List.length_cons, Nat.pow_succ']
    omega

theorem leBytes_leNat (l : List Byte) : leBytes l.length (leNat l) = l := by
  induction l with
  | nil => rfl
  | cons b l ih =>
    have hb : b.toNat < 256 := b.isLt
    rw [List.length_cons, leBytes, leNat]
    congr 1
    · apply BitVec.eq_of_toNat_eq; rw [BitVec.toNat_ofNat]; omega
    · rw [show (b.toNat + 256 * leNat l) / 256 = leNat l by omega, ih]

/-- A quad word is its eight bytes. -/
theorem ofNat_leBytes64 (v : Word64) : BitVec.ofNat 64 (leNat (leBytes 8 v.toNat)) = v := by
  rw [leNat_leBytes, Nat.mod_eq_of_lt (show v.toNat < 256 ^ 8 from v.isLt), BitVec.ofNat_toNat, BitVec.setWidth_eq]

@[simp] theorem takeBytes_append (l r : List Byte) : takeBytes l.length (l ++ r) = .ok (l, r) := by
  induction l with
  | nil => rfl
  | cons b l ih => simp [takeBytes, ih]

theorem takeLE_append (n v : Nat) (r : List Byte) (h : v < 256 ^ n) : takeLE n (leBytes n v ++ r) = .ok (v, r) := by
  have := takeBytes_append (leBytes n v) r
  rw [length_leBytes] at this
  simp [takeLE, this, leNat_leBytes, Nat.mod_eq_of_lt h]

theorem takeLE_all (n v : Nat) (h : v < 256 ^ n) : takeLE n (leBytes n v) = .ok (v, []) := by
  have := takeLE_append n v [] h
  rwa [List.append_nil] at this

@[simp] theorem engine_ofCode_code (e : Engine) : Engine.ofCode e.code = .ok e := by cases e <;> rfl
@[simp] theorem source_ofCode_code (s : Source) : Source.ofCode s.code = .ok s := by
  cases s with
  | engine e => cases e <;> rfl
  | _ => rfl
@[simp] theorem client_ofCode_code (c : Client) : Client.ofCode c.code = .ok c := by cases c <;> rfl
@[simp] theorem width_ofCode_code (w : Width) : Width.ofCode w.code = .ok w := by cases w <;> rfl

theorem engine_code_lt (e : Engine) : e.code < 256 ^ 1 := by cases e <;> decide
theorem source_code_lt (s : Source) : s.code < 256 ^ 1 := by
  cases s with
  | engine e => cases e <;> decide
  | _ => decide
theorem client_code_lt (c : Client) : c.code < 256 ^ 1 := by cases c <;> decide
theorem width_code_lt (w : Width) : w.code < 256 ^ 1 := by cases w <;> decide
theorem flagsCode_lt (a b c d : Bool) : flagsCode a b c d < 16 := by cases a <;> cases b <;> cases c <;> cases d <;> decide

theorem flagAt_flagsCode (a b c d : Bool) :
    flagAt (flagsCode a b c d) 0 = a ∧ flagAt (flagsCode a b c d) 1 = b ∧ flagAt (flagsCode a b c d) 2 = c ∧
      flagAt (flagsCode a b c d) 3 = d := by
  cases a <;> cases b <;> cases c <;> cases d <;> decide

theorem takeEngine_append (e : Engine) (r : List Byte) : takeEngine (leBytes 1 e.code ++ r) = .ok (e, r) := by
  simp [takeEngine, takeLE_append _ _ _ (engine_code_lt e), bind, Except.bind]

theorem takeSource_append (s : Source) (r : List Byte) : takeSource (leBytes 1 s.code ++ r) = .ok (s, r) := by
  simp [takeSource, takeLE_append _ _ _ (source_code_lt s), bind, Except.bind]

theorem takeWidth_append (w : Width) (r : List Byte) : takeWidth (leBytes 1 w.code ++ r) = .ok (w, r) := by
  simp [takeWidth, takeLE_append _ _ _ (width_code_lt w), bind, Except.bind]

theorem takeBool_append (b : Bool) (r : List Byte) : takeBool (leBytes 1 b.toNat ++ r) = .ok (b, r) := by
  cases b <;> rfl

theorem takeVa_append (v : Word64) (r : List Byte) : takeVa (leBytes 8 v.toNat ++ r) = .ok (v, r) := by
  simp [takeVa, takeLE_append 8 v.toNat r v.isLt, bind, Except.bind]

theorem takePasid_append (p : BitVec 20) (r : List Byte) : takePasid (leBytes 3 p.toNat ++ r) = .ok (p, r) := by
  have h : p.toNat < 2 ^ 20 := p.isLt
  simp only [takePasid, takeLE_append 3 p.toNat r (by omega), bind, Except.bind, if_pos h, BitVec.ofNat_toNat,
    BitVec.setWidth_eq]

theorem takeOffset_append (o : BitVec 23) (r : List Byte) : takeOffset (leBytes 3 o.toNat ++ r) = .ok (o, r) := by
  have h : o.toNat < 2 ^ 23 := o.isLt
  simp only [takeOffset, takeLE_append 3 o.toNat r (by omega), bind, Except.bind, if_pos h, BitVec.ofNat_toNat,
    BitVec.setWidth_eq]

theorem takeFlags_append (a b c d : Bool) (r : List Byte) :
    takeFlags (leBytes 1 (flagsCode a b c d) ++ r) = .ok (flagsCode a b c d, r) := by
  have h := flagsCode_lt a b c d
  simp only [takeFlags, takeLE_append 1 _ r (show flagsCode a b c d < 256 ^ 1 by omega), bind, Except.bind, if_pos h]

theorem takeUse_append (u : CacheUse) (r : List Byte) : takeUse (u.bytes ++ r) = .ok (u, r) := by
  obtain ⟨a, b, c, d⟩ := u
  obtain ⟨h0, h1, h2, h3⟩ := flagAt_flagsCode a b c d
  simp [takeUse, CacheUse.bytes, takeFlags_append, bind, Except.bind, h0, h1, h2, h3]

theorem takeScope_append (sc : SvmScope) (r : List Byte) : takeScope (sc.bytes ++ r) = .ok (sc, r) := by
  cases sc with
  | global => rfl
  | pasid p =>
    simp [takeScope, SvmScope.bytes, List.append_assoc, takeLE_append, takePasid_append, bind, Except.bind]
  | page p va =>
    simp [takeScope, SvmScope.bytes, List.append_assoc, takeLE_append, takePasid_append, takeVa_append, bind, Except.bind]

/-- The tail of a request of 1 to 4096 bytes. -/
theorem takeRequestAt_append (q : Request) (r : List Byte) (h1 : 1 ≤ q.acc.size) (h2 : q.acc.size ≤ 4096) :
    takeRequestAt q.va (q.tailBytes ++ r) = .ok (q, r) := by
  obtain ⟨src, client, va, acc⟩ := q
  simp only at h1 h2
  have hs := source_code_lt src
  have hc := client_code_lt client
  cases acc with
  | read n =>
    simp only [Access.size] at h1 h2
    simp [takeRequestAt, Request.tailBytes, Access.bytes, List.append_assoc, takeLE_append _ _ _ hs, takeLE_append _ _ _ hc,
      takeLE_append 1 0, takeLE_append 2 (n - 1) r (by omega), takeAccess, bind, Except.bind, Nat.sub_add_cancel h1]
  | fetch n =>
    simp only [Access.size] at h1 h2
    simp [takeRequestAt, Request.tailBytes, Access.bytes, List.append_assoc, takeLE_append _ _ _ hs, takeLE_append _ _ _ hc,
      takeLE_append 1 0, takeLE_append 1 3, takeLE_append 2 (n - 1) r (by omega), takeAccess, bind, Except.bind,
      Nat.sub_add_cancel h1]
  | write d =>
    simp only [Access.size] at h1 h2
    simp [takeRequestAt, Request.tailBytes, Access.bytes, List.append_assoc, takeLE_append _ _ _ hs, takeLE_append _ _ _ hc,
      takeLE_append 1 0, takeLE_append 1 1, takeLE_append 2 (d.length - 1) _ (show d.length - 1 < 256 ^ 2 by omega),
      takeAccess, bind, Except.bind, Nat.sub_add_cancel h1]
  | atomic op d =>
    simp only [Access.size] at h1 h2
    have ho : op.toNat < 256 ^ 1 := op.isLt
    simp [takeRequestAt, Request.tailBytes, Access.bytes, List.append_assoc, takeLE_append _ _ _ hs, takeLE_append _ _ _ hc,
      takeLE_append 1 2, takeLE_append 1 op.toNat _ ho,
      takeLE_append 2 (d.length - 1) _ (show d.length - 1 < 256 ^ 2 by omega),
      takeAccess, bind, Except.bind, Nat.sub_add_cancel h1]

/-- A request of 1 to 4096 bytes. -/
theorem takeRequest_append (q : Request) (r : List Byte) (h1 : 1 ≤ q.acc.size) (h2 : q.acc.size ≤ 4096) :
    takeRequest (q.bytes ++ r) = .ok (q, r) := by
  simp [takeRequest, Request.bytes, List.append_assoc, takeLE_append 8 q.va.toNat _ q.va.isLt, bind, Except.bind,
    takeRequestAt_append q r h1 h2]

/-- The size of a well-formed request. -/
theorem size_of_wellFormed {q : Request} (h : q.wellFormed = true) : 1 ≤ q.acc.size ∧ q.acc.size ≤ 4096 := by
  simp only [Request.wellFormed, Bool.and_eq_true, decide_eq_true_eq] at h
  omega

/-- A frame is decoded by its row number. -/
theorem decode_frame (sel w : Nat) (ops : List Byte) (h0 : sel ≠ 0) (h1 : sel < 256) (hw : w < 2 ^ 64) :
    decode (frame sel w ops) = decodeRow sel w ops := by
  simp [decode, frame, takeLE_append 8 w _ hw, takeLE_append 1 sel _ h1, bind, Except.bind, h0]

end Sys2Proof
end

