-- ==== Sys2Proof/Laws/State.lean ====
section
/-! SUPPORT. One lemma for each field of the state and each update of it, and the same for banks. -/

namespace Sys2Proof.Machine

variable (s : State)

@[simp] theorem setRegs_plat (x : Regs) : (s.setRegs x).plat = s.plat := rfl
@[simp] theorem setRegs_regs (x : Regs) : (s.setRegs x).regs = x := rfl
@[simp] theorem setRegs_banks (x : Regs) : (s.setRegs x).banks = s.banks := rfl
@[simp] theorem setRegs_wdboxHung (x : Regs) : (s.setRegs x).wdboxHung = s.wdboxHung := rfl
@[simp] theorem setRegs_vebox2Hung (x : Regs) : (s.setRegs x).vebox2Hung = s.vebox2Hung := rfl
@[simp] theorem setRegs_iommu (x : Regs) : (s.setRegs x).iommu = s.iommu := rfl
@[simp] theorem setRegs_caches (x : Regs) : (s.setRegs x).caches = s.caches := rfl
@[simp] theorem setRegs_walker (x : Regs) : (s.setRegs x).walker = s.walker := rfl
@[simp] theorem setRegs_reqs (x : Regs) : (s.setRegs x).reqs = s.reqs := rfl
@[simp] theorem setRegs_mem (x : Regs) : (s.setRegs x).mem = s.mem := rfl
@[simp] theorem setRegs_free (x : Regs) : (s.setRegs x).free = s.free := rfl
@[simp] theorem setRegs_inputs (x : Regs) : (s.setRegs x).inputs = s.inputs := rfl
@[simp] theorem setRegs_outputs (x : Regs) : (s.setRegs x).outputs = s.outputs := rfl
@[simp] theorem setRegs_bank (x : Regs) (e : Engine) : (s.setRegs x).bank e = s.bank e := rfl

@[simp] theorem setBanks_plat (x : Banks) : (s.setBanks x).plat = s.plat := rfl
@[simp] theorem setBanks_regs (x : Banks) : (s.setBanks x).regs = s.regs := rfl
@[simp] theorem setBanks_banks (x : Banks) : (s.setBanks x).banks = x := rfl
@[simp] theorem setBanks_wdboxHung (x : Banks) : (s.setBanks x).wdboxHung = s.wdboxHung := rfl
@[simp] theorem setBanks_vebox2Hung (x : Banks) : (s.setBanks x).vebox2Hung = s.vebox2Hung := rfl
@[simp] theorem setBanks_iommu (x : Banks) : (s.setBanks x).iommu = s.iommu := rfl
@[simp] theorem setBanks_caches (x : Banks) : (s.setBanks x).caches = s.caches := rfl
@[simp] theorem setBanks_walker (x : Banks) : (s.setBanks x).walker = s.walker := rfl
@[simp] theorem setBanks_reqs (x : Banks) : (s.setBanks x).reqs = s.reqs := rfl
@[simp] theorem setBanks_mem (x : Banks) : (s.setBanks x).mem = s.mem := rfl
@[simp] theorem setBanks_free (x : Banks) : (s.setBanks x).free = s.free := rfl
@[simp] theorem setBanks_inputs (x : Banks) : (s.setBanks x).inputs = s.inputs := rfl
@[simp] theorem setBanks_outputs (x : Banks) : (s.setBanks x).outputs = s.outputs := rfl

@[simp] theorem setIommu_plat (x : Iommu) : (s.setIommu x).plat = s.plat := rfl
@[simp] theorem setIommu_regs (x : Iommu) : (s.setIommu x).regs = s.regs := rfl
@[simp] theorem setIommu_banks (x : Iommu) : (s.setIommu x).banks = s.banks := rfl
@[simp] theorem setIommu_wdboxHung (x : Iommu) : (s.setIommu x).wdboxHung = s.wdboxHung := rfl
@[simp] theorem setIommu_vebox2Hung (x : Iommu) : (s.setIommu x).vebox2Hung = s.vebox2Hung := rfl
@[simp] theorem setIommu_iommu (x : Iommu) : (s.setIommu x).iommu = x := rfl
@[simp] theorem setIommu_caches (x : Iommu) : (s.setIommu x).caches = s.caches := rfl
@[simp] theorem setIommu_walker (x : Iommu) : (s.setIommu x).walker = s.walker := rfl
@[simp] theorem setIommu_reqs (x : Iommu) : (s.setIommu x).reqs = s.reqs := rfl
@[simp] theorem setIommu_mem (x : Iommu) : (s.setIommu x).mem = s.mem := rfl
@[simp] theorem setIommu_free (x : Iommu) : (s.setIommu x).free = s.free := rfl
@[simp] theorem setIommu_inputs (x : Iommu) : (s.setIommu x).inputs = s.inputs := rfl
@[simp] theorem setIommu_outputs (x : Iommu) : (s.setIommu x).outputs = s.outputs := rfl
@[simp] theorem setIommu_bank (x : Iommu) (e : Engine) : (s.setIommu x).bank e = s.bank e := rfl

@[simp] theorem setCaches_plat (x : Caches) : (s.setCaches x).plat = s.plat := rfl
@[simp] theorem setCaches_regs (x : Caches) : (s.setCaches x).regs = s.regs := rfl
@[simp] theorem setCaches_banks (x : Caches) : (s.setCaches x).banks = s.banks := rfl
@[simp] theorem setCaches_wdboxHung (x : Caches) : (s.setCaches x).wdboxHung = s.wdboxHung := rfl
@[simp] theorem setCaches_vebox2Hung (x : Caches) : (s.setCaches x).vebox2Hung = s.vebox2Hung := rfl
@[simp] theorem setCaches_iommu (x : Caches) : (s.setCaches x).iommu = s.iommu := rfl
@[simp] theorem setCaches_caches (x : Caches) : (s.setCaches x).caches = x := rfl
@[simp] theorem setCaches_walker (x : Caches) : (s.setCaches x).walker = s.walker := rfl
@[simp] theorem setCaches_reqs (x : Caches) : (s.setCaches x).reqs = s.reqs := rfl
@[simp] theorem setCaches_mem (x : Caches) : (s.setCaches x).mem = s.mem := rfl
@[simp] theorem setCaches_free (x : Caches) : (s.setCaches x).free = s.free := rfl
@[simp] theorem setCaches_inputs (x : Caches) : (s.setCaches x).inputs = s.inputs := rfl
@[simp] theorem setCaches_outputs (x : Caches) : (s.setCaches x).outputs = s.outputs := rfl
@[simp] theorem setCaches_bank (x : Caches) (e : Engine) : (s.setCaches x).bank e = s.bank e := rfl

@[simp] theorem setWalker_plat (x : Walker) : (s.setWalker x).plat = s.plat := rfl
@[simp] theorem setWalker_regs (x : Walker) : (s.setWalker x).regs = s.regs := rfl
@[simp] theorem setWalker_banks (x : Walker) : (s.setWalker x).banks = s.banks := rfl
@[simp] theorem setWalker_wdboxHung (x : Walker) : (s.setWalker x).wdboxHung = s.wdboxHung := rfl
@[simp] theorem setWalker_vebox2Hung (x : Walker) : (s.setWalker x).vebox2Hung = s.vebox2Hung := rfl
@[simp] theorem setWalker_iommu (x : Walker) : (s.setWalker x).iommu = s.iommu := rfl
@[simp] theorem setWalker_caches (x : Walker) : (s.setWalker x).caches = s.caches := rfl
@[simp] theorem setWalker_walker (x : Walker) : (s.setWalker x).walker = x := rfl
@[simp] theorem setWalker_reqs (x : Walker) : (s.setWalker x).reqs = s.reqs := rfl
@[simp] theorem setWalker_mem (x : Walker) : (s.setWalker x).mem = s.mem := rfl
@[simp] theorem setWalker_free (x : Walker) : (s.setWalker x).free = s.free := rfl
@[simp] theorem setWalker_inputs (x : Walker) : (s.setWalker x).inputs = s.inputs := rfl
@[simp] theorem setWalker_outputs (x : Walker) : (s.setWalker x).outputs = s.outputs := rfl
@[simp] theorem setWalker_bank (x : Walker) (e : Engine) : (s.setWalker x).bank e = s.bank e := rfl

@[simp] theorem setReqs_plat (x : Reqs) : (s.setReqs x).plat = s.plat := rfl
@[simp] theorem setReqs_regs (x : Reqs) : (s.setReqs x).regs = s.regs := rfl
@[simp] theorem setReqs_banks (x : Reqs) : (s.setReqs x).banks = s.banks := rfl
@[simp] theorem setReqs_wdboxHung (x : Reqs) : (s.setReqs x).wdboxHung = s.wdboxHung := rfl
@[simp] theorem setReqs_vebox2Hung (x : Reqs) : (s.setReqs x).vebox2Hung = s.vebox2Hung := rfl
@[simp] theorem setReqs_iommu (x : Reqs) : (s.setReqs x).iommu = s.iommu := rfl
@[simp] theorem setReqs_caches (x : Reqs) : (s.setReqs x).caches = s.caches := rfl
@[simp] theorem setReqs_walker (x : Reqs) : (s.setReqs x).walker = s.walker := rfl
@[simp] theorem setReqs_reqs (x : Reqs) : (s.setReqs x).reqs = x := rfl
@[simp] theorem setReqs_mem (x : Reqs) : (s.setReqs x).mem = s.mem := rfl
@[simp] theorem setReqs_free (x : Reqs) : (s.setReqs x).free = s.free := rfl
@[simp] theorem setReqs_inputs (x : Reqs) : (s.setReqs x).inputs = s.inputs := rfl
@[simp] theorem setReqs_outputs (x : Reqs) : (s.setReqs x).outputs = s.outputs := rfl
@[simp] theorem setReqs_bank (x : Reqs) (e : Engine) : (s.setReqs x).bank e = s.bank e := rfl

@[simp] theorem setMem_plat (x : Memory) : (s.setMem x).plat = s.plat := rfl
@[simp] theorem setMem_regs (x : Memory) : (s.setMem x).regs = s.regs := rfl
@[simp] theorem setMem_banks (x : Memory) : (s.setMem x).banks = s.banks := rfl
@[simp] theorem setMem_wdboxHung (x : Memory) : (s.setMem x).wdboxHung = s.wdboxHung := rfl
@[simp] theorem setMem_vebox2Hung (x : Memory) : (s.setMem x).vebox2Hung = s.vebox2Hung := rfl
@[simp] theorem setMem_iommu (x : Memory) : (s.setMem x).iommu = s.iommu := rfl
@[simp] theorem setMem_caches (x : Memory) : (s.setMem x).caches = s.caches := rfl
@[simp] theorem setMem_walker (x : Memory) : (s.setMem x).walker = s.walker := rfl
@[simp] theorem setMem_reqs (x : Memory) : (s.setMem x).reqs = s.reqs := rfl
@[simp] theorem setMem_mem (x : Memory) : (s.setMem x).mem = x := rfl
@[simp] theorem setMem_free (x : Memory) : (s.setMem x).free = s.free := rfl
@[simp] theorem setMem_inputs (x : Memory) : (s.setMem x).inputs = s.inputs := rfl
@[simp] theorem setMem_outputs (x : Memory) : (s.setMem x).outputs = s.outputs := rfl
@[simp] theorem setMem_bank (x : Memory) (e : Engine) : (s.setMem x).bank e = s.bank e := rfl

@[simp] theorem setFree_plat (x : Nat) : (s.setFree x).plat = s.plat := rfl
@[simp] theorem setFree_regs (x : Nat) : (s.setFree x).regs = s.regs := rfl
@[simp] theorem setFree_banks (x : Nat) : (s.setFree x).banks = s.banks := rfl
@[simp] theorem setFree_wdboxHung (x : Nat) : (s.setFree x).wdboxHung = s.wdboxHung := rfl
@[simp] theorem setFree_vebox2Hung (x : Nat) : (s.setFree x).vebox2Hung = s.vebox2Hung := rfl
@[simp] theorem setFree_iommu (x : Nat) : (s.setFree x).iommu = s.iommu := rfl
@[simp] theorem setFree_caches (x : Nat) : (s.setFree x).caches = s.caches := rfl
@[simp] theorem setFree_walker (x : Nat) : (s.setFree x).walker = s.walker := rfl
@[simp] theorem setFree_reqs (x : Nat) : (s.setFree x).reqs = s.reqs := rfl
@[simp] theorem setFree_mem (x : Nat) : (s.setFree x).mem = s.mem := rfl
@[simp] theorem setFree_free (x : Nat) : (s.setFree x).free = x := rfl
@[simp] theorem setFree_inputs (x : Nat) : (s.setFree x).inputs = s.inputs := rfl
@[simp] theorem setFree_outputs (x : Nat) : (s.setFree x).outputs = s.outputs := rfl
@[simp] theorem setFree_bank (x : Nat) (e : Engine) : (s.setFree x).bank e = s.bank e := rfl

@[simp] theorem setInputs_plat (x : List Input) : (s.setInputs x).plat = s.plat := rfl
@[simp] theorem setInputs_regs (x : List Input) : (s.setInputs x).regs = s.regs := rfl
@[simp] theorem setInputs_banks (x : List Input) : (s.setInputs x).banks = s.banks := rfl
@[simp] theorem setInputs_wdboxHung (x : List Input) : (s.setInputs x).wdboxHung = s.wdboxHung := rfl
@[simp] theorem setInputs_vebox2Hung (x : List Input) : (s.setInputs x).vebox2Hung = s.vebox2Hung := rfl
@[simp] theorem setInputs_iommu (x : List Input) : (s.setInputs x).iommu = s.iommu := rfl
@[simp] theorem setInputs_caches (x : List Input) : (s.setInputs x).caches = s.caches := rfl
@[simp] theorem setInputs_walker (x : List Input) : (s.setInputs x).walker = s.walker := rfl
@[simp] theorem setInputs_reqs (x : List Input) : (s.setInputs x).reqs = s.reqs := rfl
@[simp] theorem setInputs_mem (x : List Input) : (s.setInputs x).mem = s.mem := rfl
@[simp] theorem setInputs_free (x : List Input) : (s.setInputs x).free = s.free := rfl
@[simp] theorem setInputs_inputs (x : List Input) : (s.setInputs x).inputs = x := rfl
@[simp] theorem setInputs_outputs (x : List Input) : (s.setInputs x).outputs = s.outputs := rfl
@[simp] theorem setInputs_bank (x : List Input) (e : Engine) : (s.setInputs x).bank e = s.bank e := rfl

@[simp] theorem setWdboxHung_plat (x : Bool) : (s.setWdboxHung x).plat = s.plat := rfl
@[simp] theorem setWdboxHung_regs (x : Bool) : (s.setWdboxHung x).regs = s.regs := rfl
@[simp] theorem setWdboxHung_banks (x : Bool) : (s.setWdboxHung x).banks = s.banks := rfl
@[simp] theorem setWdboxHung_wdboxHung (x : Bool) : (s.setWdboxHung x).wdboxHung = x := rfl
@[simp] theorem setWdboxHung_vebox2Hung (x : Bool) : (s.setWdboxHung x).vebox2Hung = s.vebox2Hung := rfl
@[simp] theorem setWdboxHung_iommu (x : Bool) : (s.setWdboxHung x).iommu = s.iommu := rfl
@[simp] theorem setWdboxHung_caches (x : Bool) : (s.setWdboxHung x).caches = s.caches := rfl
@[simp] theorem setWdboxHung_walker (x : Bool) : (s.setWdboxHung x).walker = s.walker := rfl
@[simp] theorem setWdboxHung_reqs (x : Bool) : (s.setWdboxHung x).reqs = s.reqs := rfl
@[simp] theorem setWdboxHung_mem (x : Bool) : (s.setWdboxHung x).mem = s.mem := rfl
@[simp] theorem setWdboxHung_free (x : Bool) : (s.setWdboxHung x).free = s.free := rfl
@[simp] theorem setWdboxHung_inputs (x : Bool) : (s.setWdboxHung x).inputs = s.inputs := rfl
@[simp] theorem setWdboxHung_outputs (x : Bool) : (s.setWdboxHung x).outputs = s.outputs := rfl
@[simp] theorem setWdboxHung_bank (x : Bool) (e : Engine) : (s.setWdboxHung x).bank e = s.bank e := rfl

@[simp] theorem setVebox2Hung_plat (x : Bool) : (s.setVebox2Hung x).plat = s.plat := rfl
@[simp] theorem setVebox2Hung_regs (x : Bool) : (s.setVebox2Hung x).regs = s.regs := rfl
@[simp] theorem setVebox2Hung_banks (x : Bool) : (s.setVebox2Hung x).banks = s.banks := rfl
@[simp] theorem setVebox2Hung_wdboxHung (x : Bool) : (s.setVebox2Hung x).wdboxHung = s.wdboxHung := rfl
@[simp] theorem setVebox2Hung_vebox2Hung (x : Bool) : (s.setVebox2Hung x).vebox2Hung = x := rfl
@[simp] theorem setVebox2Hung_iommu (x : Bool) : (s.setVebox2Hung x).iommu = s.iommu := rfl
@[simp] theorem setVebox2Hung_caches (x : Bool) : (s.setVebox2Hung x).caches = s.caches := rfl
@[simp] theorem setVebox2Hung_walker (x : Bool) : (s.setVebox2Hung x).walker = s.walker := rfl
@[simp] theorem setVebox2Hung_reqs (x : Bool) : (s.setVebox2Hung x).reqs = s.reqs := rfl
@[simp] theorem setVebox2Hung_mem (x : Bool) : (s.setVebox2Hung x).mem = s.mem := rfl
@[simp] theorem setVebox2Hung_free (x : Bool) : (s.setVebox2Hung x).free = s.free := rfl
@[simp] theorem setVebox2Hung_inputs (x : Bool) : (s.setVebox2Hung x).inputs = s.inputs := rfl
@[simp] theorem setVebox2Hung_outputs (x : Bool) : (s.setVebox2Hung x).outputs = s.outputs := rfl
@[simp] theorem setVebox2Hung_bank (x : Bool) (e : Engine) : (s.setVebox2Hung x).bank e = s.bank e := rfl

@[simp] theorem emit_plat (x : Output) : (s.emit x).plat = s.plat := rfl
@[simp] theorem emit_regs (x : Output) : (s.emit x).regs = s.regs := rfl
@[simp] theorem emit_banks (x : Output) : (s.emit x).banks = s.banks := rfl
@[simp] theorem emit_wdboxHung (x : Output) : (s.emit x).wdboxHung = s.wdboxHung := rfl
@[simp] theorem emit_vebox2Hung (x : Output) : (s.emit x).vebox2Hung = s.vebox2Hung := rfl
@[simp] theorem emit_iommu (x : Output) : (s.emit x).iommu = s.iommu := rfl
@[simp] theorem emit_caches (x : Output) : (s.emit x).caches = s.caches := rfl
@[simp] theorem emit_walker (x : Output) : (s.emit x).walker = s.walker := rfl
@[simp] theorem emit_reqs (x : Output) : (s.emit x).reqs = s.reqs := rfl
@[simp] theorem emit_mem (x : Output) : (s.emit x).mem = s.mem := rfl
@[simp] theorem emit_free (x : Output) : (s.emit x).free = s.free := rfl
@[simp] theorem emit_inputs (x : Output) : (s.emit x).inputs = s.inputs := rfl
@[simp] theorem emit_outputs (x : Output) : (s.emit x).outputs = x :: s.outputs := rfl
@[simp] theorem emit_bank (x : Output) (e : Engine) : (s.emit x).bank e = s.bank e := rfl

/-! ## Banks -/

@[simp] theorem banks_get_set_same (b : Banks) (e : Engine) (x : Bank) : (b.set e x).get e = x := by cases e <;> rfl

theorem banks_get_set_other (b : Banks) (e e' : Engine) (x : Bank) (h : e' ≠ e) : (b.set e x).get e' = b.get e' := by
  cases e <;> cases e' <;> first | rfl | exact absurd rfl h

theorem setBanks_bank (x : Banks) (e : Engine) : (s.setBanks x).bank e = x.get e := rfl

@[simp] theorem setBank_bank_same (e : Engine) (x : Bank) : (s.setBank e x).bank e = x := banks_get_set_same _ _ _

theorem setBank_bank_other (e e' : Engine) (x : Bank) (h : e' ≠ e) : (s.setBank e x).bank e' = s.bank e' :=
  banks_get_set_other _ _ _ _ h

theorem setBank_bank (e e' : Engine) (x : Bank) : (s.setBank e x).bank e' = if e' = e then x else s.bank e' := by
  split
  · next h => subst h; simp
  · next h => exact setBank_bank_other s e e' x h

@[simp] theorem setBank_plat (e : Engine) (x : Bank) : (s.setBank e x).plat = s.plat := rfl
@[simp] theorem setBank_regs (e : Engine) (x : Bank) : (s.setBank e x).regs = s.regs := rfl
@[simp] theorem setBank_banks (e : Engine) (x : Bank) : (s.setBank e x).banks = s.banks.set e x := rfl
@[simp] theorem setBank_wdboxHung (e : Engine) (x : Bank) : (s.setBank e x).wdboxHung = s.wdboxHung := rfl
@[simp] theorem setBank_vebox2Hung (e : Engine) (x : Bank) : (s.setBank e x).vebox2Hung = s.vebox2Hung := rfl
@[simp] theorem setBank_iommu (e : Engine) (x : Bank) : (s.setBank e x).iommu = s.iommu := rfl
@[simp] theorem setBank_caches (e : Engine) (x : Bank) : (s.setBank e x).caches = s.caches := rfl
@[simp] theorem setBank_walker (e : Engine) (x : Bank) : (s.setBank e x).walker = s.walker := rfl
@[simp] theorem setBank_reqs (e : Engine) (x : Bank) : (s.setBank e x).reqs = s.reqs := rfl
@[simp] theorem setBank_mem (e : Engine) (x : Bank) : (s.setBank e x).mem = s.mem := rfl
@[simp] theorem setBank_free (e : Engine) (x : Bank) : (s.setBank e x).free = s.free := rfl
@[simp] theorem setBank_inputs (e : Engine) (x : Bank) : (s.setBank e x).inputs = s.inputs := rfl
@[simp] theorem setBank_outputs (e : Engine) (x : Bank) : (s.setBank e x).outputs = s.outputs := rfl

/-! ## Requests and reports -/

@[simp] theorem addHeld_plat (x : HeldReq) : (s.addHeld x).plat = s.plat := rfl
@[simp] theorem addHeld_regs (x : HeldReq) : (s.addHeld x).regs = s.regs := rfl
@[simp] theorem addHeld_banks (x : HeldReq) : (s.addHeld x).banks = s.banks := rfl
@[simp] theorem addHeld_wdboxHung (x : HeldReq) : (s.addHeld x).wdboxHung = s.wdboxHung := rfl
@[simp] theorem addHeld_vebox2Hung (x : HeldReq) : (s.addHeld x).vebox2Hung = s.vebox2Hung := rfl
@[simp] theorem addHeld_iommu (x : HeldReq) : (s.addHeld x).iommu = s.iommu := rfl
@[simp] theorem addHeld_caches (x : HeldReq) : (s.addHeld x).caches = s.caches := rfl
@[simp] theorem addHeld_walker (x : HeldReq) : (s.addHeld x).walker = s.walker := rfl
@[simp] theorem addHeld_reqs (x : HeldReq) : (s.addHeld x).reqs = { s.reqs with held := s.reqs.held ++ [x] } := rfl
@[simp] theorem addHeld_mem (x : HeldReq) : (s.addHeld x).mem = s.mem := rfl
@[simp] theorem addHeld_free (x : HeldReq) : (s.addHeld x).free = s.free := rfl
@[simp] theorem addHeld_inputs (x : HeldReq) : (s.addHeld x).inputs = s.inputs := rfl
@[simp] theorem addHeld_outputs (x : HeldReq) : (s.addHeld x).outputs = s.outputs := rfl
@[simp] theorem addHeld_bank (x : HeldReq) (e : Engine) : (s.addHeld x).bank e = s.bank e := rfl

@[simp] theorem addPending_plat (x : PendingReq) : (s.addPending x).plat = s.plat := rfl
@[simp] theorem addPending_regs (x : PendingReq) : (s.addPending x).regs = s.regs := rfl
@[simp] theorem addPending_banks (x : PendingReq) : (s.addPending x).banks = s.banks := rfl
@[simp] theorem addPending_wdboxHung (x : PendingReq) : (s.addPending x).wdboxHung = s.wdboxHung := rfl
@[simp] theorem addPending_vebox2Hung (x : PendingReq) : (s.addPending x).vebox2Hung = s.vebox2Hung := rfl
@[simp] theorem addPending_iommu (x : PendingReq) : (s.addPending x).iommu = s.iommu := rfl
@[simp] theorem addPending_caches (x : PendingReq) : (s.addPending x).caches = s.caches := rfl
@[simp] theorem addPending_walker (x : PendingReq) : (s.addPending x).walker = s.walker := rfl
@[simp] theorem addPending_reqs (x : PendingReq) : (s.addPending x).reqs = { s.reqs with pending := s.reqs.pending ++ [x] } := rfl
@[simp] theorem addPending_mem (x : PendingReq) : (s.addPending x).mem = s.mem := rfl
@[simp] theorem addPending_free (x : PendingReq) : (s.addPending x).free = s.free := rfl
@[simp] theorem addPending_inputs (x : PendingReq) : (s.addPending x).inputs = s.inputs := rfl
@[simp] theorem addPending_outputs (x : PendingReq) : (s.addPending x).outputs = s.outputs := rfl
@[simp] theorem addPending_bank (x : PendingReq) (e : Engine) : (s.addPending x).bank e = s.bank e := rfl

@[simp] theorem addInFlight_plat (x : InFlight) : (s.addInFlight x).plat = s.plat := rfl
@[simp] theorem addInFlight_regs (x : InFlight) : (s.addInFlight x).regs = s.regs := rfl
@[simp] theorem addInFlight_banks (x : InFlight) : (s.addInFlight x).banks = s.banks := rfl
@[simp] theorem addInFlight_wdboxHung (x : InFlight) : (s.addInFlight x).wdboxHung = s.wdboxHung := rfl
@[simp] theorem addInFlight_vebox2Hung (x : InFlight) : (s.addInFlight x).vebox2Hung = s.vebox2Hung := rfl
@[simp] theorem addInFlight_iommu (x : InFlight) : (s.addInFlight x).iommu = s.iommu := rfl
@[simp] theorem addInFlight_caches (x : InFlight) : (s.addInFlight x).caches = s.caches := rfl
@[simp] theorem addInFlight_walker (x : InFlight) : (s.addInFlight x).walker = s.walker := rfl
@[simp] theorem addInFlight_reqs (x : InFlight) : (s.addInFlight x).reqs = { s.reqs with inflight := s.reqs.inflight ++ [x] } := rfl
@[simp] theorem addInFlight_mem (x : InFlight) : (s.addInFlight x).mem = s.mem := rfl
@[simp] theorem addInFlight_free (x : InFlight) : (s.addInFlight x).free = s.free := rfl
@[simp] theorem addInFlight_inputs (x : InFlight) : (s.addInFlight x).inputs = s.inputs := rfl
@[simp] theorem addInFlight_outputs (x : InFlight) : (s.addInFlight x).outputs = s.outputs := rfl
@[simp] theorem addInFlight_bank (x : InFlight) (e : Engine) : (s.addInFlight x).bank e = s.bank e := rfl

@[simp] theorem addPageRequest_plat (x : PageReq) : (s.addPageRequest x).plat = s.plat := rfl
@[simp] theorem addPageRequest_regs (x : PageReq) : (s.addPageRequest x).regs = s.regs := rfl
@[simp] theorem addPageRequest_banks (x : PageReq) : (s.addPageRequest x).banks = s.banks := rfl
@[simp] theorem addPageRequest_wdboxHung (x : PageReq) : (s.addPageRequest x).wdboxHung = s.wdboxHung := rfl
@[simp] theorem addPageRequest_vebox2Hung (x : PageReq) : (s.addPageRequest x).vebox2Hung = s.vebox2Hung := rfl
@[simp] theorem addPageRequest_iommu (x : PageReq) : (s.addPageRequest x).iommu = s.iommu := rfl
@[simp] theorem addPageRequest_caches (x : PageReq) : (s.addPageRequest x).caches = s.caches := rfl
@[simp] theorem addPageRequest_walker (x : PageReq) : (s.addPageRequest x).walker = s.walker := rfl
@[simp] theorem addPageRequest_reqs (x : PageReq) :
    (s.addPageRequest x).reqs = { s.reqs with pageRequests := s.reqs.pageRequests ++ [x] } := rfl
@[simp] theorem addPageRequest_mem (x : PageReq) : (s.addPageRequest x).mem = s.mem := rfl
@[simp] theorem addPageRequest_free (x : PageReq) : (s.addPageRequest x).free = s.free := rfl
@[simp] theorem addPageRequest_inputs (x : PageReq) : (s.addPageRequest x).inputs = s.inputs := rfl
@[simp] theorem addPageRequest_outputs (x : PageReq) : (s.addPageRequest x).outputs = .pageRequest x :: s.outputs := rfl
@[simp] theorem addPageRequest_bank (x : PageReq) (e : Engine) : (s.addPageRequest x).bank e = s.bank e := rfl

@[simp] theorem nullCompletion_plat (r : Request) : (nullCompletion s r).plat = s.plat := rfl
@[simp] theorem nullCompletion_regs (r : Request) : (nullCompletion s r).regs = s.regs := rfl
@[simp] theorem nullCompletion_banks (r : Request) : (nullCompletion s r).banks = s.banks := rfl
@[simp] theorem nullCompletion_wdboxHung (r : Request) : (nullCompletion s r).wdboxHung = s.wdboxHung := rfl
@[simp] theorem nullCompletion_vebox2Hung (r : Request) : (nullCompletion s r).vebox2Hung = s.vebox2Hung := rfl
@[simp] theorem nullCompletion_iommu (r : Request) : (nullCompletion s r).iommu = s.iommu := rfl
@[simp] theorem nullCompletion_caches (r : Request) : (nullCompletion s r).caches = s.caches := rfl
@[simp] theorem nullCompletion_walker (r : Request) : (nullCompletion s r).walker = s.walker := rfl
@[simp] theorem nullCompletion_reqs (r : Request) : (nullCompletion s r).reqs = s.reqs := rfl
@[simp] theorem nullCompletion_mem (r : Request) : (nullCompletion s r).mem = s.mem := rfl
@[simp] theorem nullCompletion_free (r : Request) : (nullCompletion s r).free = s.free := rfl
@[simp] theorem nullCompletion_inputs (r : Request) : (nullCompletion s r).inputs = s.inputs := rfl
@[simp] theorem nullCompletion_outputs (r : Request) : (nullCompletion s r).outputs = .response r (List.replicate r.acc.replySize 0) true :: s.outputs := rfl
@[simp] theorem nullCompletion_bank (r : Request) (e : Engine) : (nullCompletion s r).bank e = s.bank e := rfl

@[simp] theorem invalidCycle_plat (r : Request) : (invalidCycle s r).plat = s.plat := rfl
@[simp] theorem invalidCycle_regs (r : Request) : (invalidCycle s r).regs = s.regs := rfl
@[simp] theorem invalidCycle_banks (r : Request) : (invalidCycle s r).banks = s.banks := rfl
@[simp] theorem invalidCycle_wdboxHung (r : Request) : (invalidCycle s r).wdboxHung = s.wdboxHung := rfl
@[simp] theorem invalidCycle_vebox2Hung (r : Request) : (invalidCycle s r).vebox2Hung = s.vebox2Hung := rfl
@[simp] theorem invalidCycle_iommu (r : Request) : (invalidCycle s r).iommu = s.iommu := rfl
@[simp] theorem invalidCycle_caches (r : Request) : (invalidCycle s r).caches = s.caches := rfl
@[simp] theorem invalidCycle_walker (r : Request) : (invalidCycle s r).walker = s.walker := rfl
@[simp] theorem invalidCycle_reqs (r : Request) : (invalidCycle s r).reqs = s.reqs := rfl
@[simp] theorem invalidCycle_mem (r : Request) : (invalidCycle s r).mem = s.mem := rfl
@[simp] theorem invalidCycle_free (r : Request) : (invalidCycle s r).free = s.free + r.acc.replySize := rfl
@[simp] theorem invalidCycle_inputs (r : Request) : (invalidCycle s r).inputs = s.inputs := rfl
@[simp] theorem invalidCycle_outputs (r : Request) : (invalidCycle s r).outputs = .response r (freeBytes s.free r.acc.replySize) false :: s.outputs := rfl
@[simp] theorem invalidCycle_bank (r : Request) (e : Engine) : (invalidCycle s r).bank e = s.bank e := rfl

/-- Everything the stopping of a context can do (47 R453; log 22). -/
theorem stopContext_spec (src : Source) :
    stopContext s src = s ∨ ∃ e, src = .engine e ∧ s.plat.stopOnCatastrophic = true ∧ (s.bank e).active = true ∧
      stopContext s src = s.setBank e { s.bank e with stopped := true } := by
  cases src with
  | engine e =>
    cases hc : s.plat.stopOnCatastrophic && (s.bank e).active
    · exact .inl (by simp [stopContext, hc])
    · rw [Bool.and_eq_true] at hc
      exact .inr ⟨e, rfl, hc.1, hc.2, by simp [stopContext, hc]⟩
  | wdbox => exact .inl rfl
  | vebox2 => exact .inl rfl
  | display => exact .inl rfl
  | aperture => exact .inl rfl

@[simp] theorem stopContext_plat (src : Source) : (stopContext s src).plat = s.plat := by
  rcases stopContext_spec s src with h | ⟨e, -, -, -, h⟩ <;> rw [h]; rfl
@[simp] theorem stopContext_regs (src : Source) : (stopContext s src).regs = s.regs := by
  rcases stopContext_spec s src with h | ⟨e, -, -, -, h⟩ <;> rw [h]; rfl
@[simp] theorem stopContext_wdboxHung (src : Source) : (stopContext s src).wdboxHung = s.wdboxHung := by
  rcases stopContext_spec s src with h | ⟨e, -, -, -, h⟩ <;> rw [h]; rfl
@[simp] theorem stopContext_vebox2Hung (src : Source) : (stopContext s src).vebox2Hung = s.vebox2Hung := by
  rcases stopContext_spec s src with h | ⟨e, -, -, -, h⟩ <;> rw [h]; rfl
@[simp] theorem stopContext_iommu (src : Source) : (stopContext s src).iommu = s.iommu := by
  rcases stopContext_spec s src with h | ⟨e, -, -, -, h⟩ <;> rw [h]; rfl
@[simp] theorem stopContext_caches (src : Source) : (stopContext s src).caches = s.caches := by
  rcases stopContext_spec s src with h | ⟨e, -, -, -, h⟩ <;> rw [h]; rfl
@[simp] theorem stopContext_walker (src : Source) : (stopContext s src).walker = s.walker := by
  rcases stopContext_spec s src with h | ⟨e, -, -, -, h⟩ <;> rw [h]; rfl
@[simp] theorem stopContext_reqs (src : Source) : (stopContext s src).reqs = s.reqs := by
  rcases stopContext_spec s src with h | ⟨e, -, -, -, h⟩ <;> rw [h]; rfl
@[simp] theorem stopContext_mem (src : Source) : (stopContext s src).mem = s.mem := by
  rcases stopContext_spec s src with h | ⟨e, -, -, -, h⟩ <;> rw [h]; rfl
@[simp] theorem stopContext_free (src : Source) : (stopContext s src).free = s.free := by
  rcases stopContext_spec s src with h | ⟨e, -, -, -, h⟩ <;> rw [h]; rfl
@[simp] theorem stopContext_inputs (src : Source) : (stopContext s src).inputs = s.inputs := by
  rcases stopContext_spec s src with h | ⟨e, -, -, -, h⟩ <;> rw [h]; rfl
@[simp] theorem stopContext_outputs (src : Source) : (stopContext s src).outputs = s.outputs := by
  rcases stopContext_spec s src with h | ⟨e, -, -, -, h⟩ <;> rw [h]; rfl

/-- A stopped context leaves every bank but the mark as it was. -/
theorem stopContext_bank (src : Source) (e : Engine) :
    (stopContext s src).bank e = { s.bank e with stopped := ((stopContext s src).bank e).stopped } := by
  rcases stopContext_spec s src with h | ⟨e', -, -, -, h⟩ <;> rw [h]
  rw [setBank_bank]; split
  · next he => rw [he]
  · rfl

end Sys2Proof.Machine
end

