-- ==== Sys2Proof/Laws/Ops.lean ====
section
/-! SUPPORT. What each shared operation can do: one lemma for each, which says everything it can answer. -/

namespace Sys2Proof.Machine

/-! ## Results that can stop -/

theorem bind_ok {α β : Type} (x : Res α) (f : α → Res β) (b : β) :
    (x >>= f) = .ok b ↔ ∃ a, x = .ok a ∧ f a = .ok b := by
  cases x with
  | error e => simp [bind, Except.bind]
  | ok a => simp [bind, Except.bind]

@[simp] theorem ok_bind {α β : Type} (a : α) (f : α → Res β) : ((.ok a : Res α) >>= f) = f a := rfl

@[simp] theorem refuse_bind {α β : Type} (r : Refusal) (f : α → Res β) : ((refuse r : Res α) >>= f) = refuse r := rfl

@[simp] theorem refuse_ne_ok {α : Type} (r : Refusal) (a : α) : ((refuse r : Res α) = .ok a) ↔ False := by
  simp [refuse]

@[simp] theorem require_ok (b : Bool) (r : Refusal) (u : Unit) : require b r = .ok u ↔ b = true := by
  cases b <;> simp [require, refuse]

@[simp] theorem require_true (r : Refusal) : require true r = .ok () := rfl
@[simp] theorem require_false (r : Refusal) : require false r = refuse r := rfl

@[simp] theorem toOutcome_next (x : Res State) (t : State) : toOutcome x = .next t ↔ x = .ok t := by
  cases x with
  | ok s => simp [toOutcome]
  | error e => cases e <;> simp [toOutcome]

@[simp] theorem toOutcome_ok (t : State) : toOutcome (.ok t) = .next t := rfl
@[simp] theorem toOutcome_refuse (r : Refusal) : toOutcome (refuse r) = .refused r := rfl

/-! ## Memory operations -/

theorem memRead_spec {s : State} {pa n : Nat} {d : List Byte} :
    memRead s pa n = .ok d ↔ inSpace s.plat pa n = true ∧ d = s.mem.bytes pa n := by
  unfold memRead; split
  · simp_all; exact eq_comm
  · simp_all

theorem memWrite_spec {s t : State} {pa : Nat} {d : List Byte} :
    memWrite s pa d = .ok t ↔ inSpace s.plat pa d.length = true ∧ t = s.setMem (s.mem.setBytes pa d) := by
  unfold memWrite; split
  · simp_all; exact eq_comm
  · simp_all

theorem memRead64_spec {s : State} {pa : Nat} {v : Word64} :
    memRead64 s pa = .ok v ↔ inSpace s.plat pa 8 = true ∧ v = BitVec.ofNat 64 (leNat (s.mem.bytes pa 8)) := by
  simp only [memRead64, bind_ok, memRead_spec, Except.ok.injEq]
  constructor
  · rintro ⟨_, ⟨h, rfl⟩, rfl⟩; exact ⟨h, rfl⟩
  · rintro ⟨h, rfl⟩; exact ⟨_, ⟨h, rfl⟩, rfl⟩

theorem memWrite64_spec {s t : State} {pa : Nat} {v : Word64} :
    memWrite64 s pa v = .ok t ↔
      inSpace s.plat pa 8 = true ∧ t = s.setMem (s.mem.setBytes pa (leBytes 8 v.toNat)) := by
  simp [memWrite64, memWrite_spec]

/-- A 64-bit read sees the bytes it stands for. -/
theorem leBytes_memRead64 {s : State} {pa : Nat} {v : Word64} (h : memRead64 s pa = .ok v) :
    leBytes 8 v.toNat = s.mem.bytes pa 8 := by
  obtain ⟨_, rfl⟩ := memRead64_spec.mp h
  have hl : leNat (s.mem.bytes pa 8) < 2 ^ 64 := by
    have := leNat_lt (s.mem.bytes pa 8); rwa [Memory.length_bytes] at this
  rw [BitVec.toNat_ofNat, Nat.mod_eq_of_lt hl]
  have := leBytes_leNat (s.mem.bytes pa 8); rwa [Memory.length_bytes] at this

/-- Read after a 64-bit write at the same address. -/
theorem memRead64_memWrite64 {s t : State} {pa : Nat} {v : Word64} (hw : Memory.wf s.mem = true)
    (h : memWrite64 s pa v = .ok t) : memRead64 t pa = .ok v := by
  obtain ⟨hi, rfl⟩ := memWrite64_spec.mp h
  refine memRead64_spec.mpr ⟨hi, ?_⟩
  have := Memory.bytes_setBytes_same s.mem pa (leBytes 8 v.toNat) hw
  rw [length_leBytes] at this
  rw [setMem_mem, this, ofNat_leBytes64]

/-- A memory write leaves every other byte alone. -/
theorem memWrite_outside {s t : State} {pa : Nat} {d : List Byte} (hw : Memory.wf s.mem = true)
    (h : memWrite s pa d = .ok t) (x : Nat) (hx : x < pa ∨ pa + d.length ≤ x) : t.mem.byte x = s.mem.byte x := by
  obtain ⟨_, rfl⟩ := memWrite_spec.mp h
  exact Memory.byte_setBytes_outside s.mem pa x d hw hx

/-- A memory write keeps the canonical form. -/
theorem memWrite_wf {s t : State} {pa : Nat} {d : List Byte} (hw : Memory.wf s.mem = true)
    (h : memWrite s pa d = .ok t) : Memory.wf t.mem = true := by
  obtain ⟨_, rfl⟩ := memWrite_spec.mp h
  exact Memory.wf_setBytes s.mem pa d hw

/-! ## Descriptor registers and page faults -/

theorem descReg_get_spec {r : DescReg} {v : Word64} :
    r.get = .ok v ↔ (r.loWritten = true ∨ r.hiWritten = true) ∧ v = r.value := by
  unfold DescReg.get DescReg.isWritten; split
  · simp_all; exact eq_comm
  · simp_all

/-- Everything the taking of a page fault can do (60 R477 to R482). -/
theorem takePageFault_spec {s t : State} {c : Ctx} {r : Request} {va : Word64} {reason : FaultReason}
    {tr : Option TrPoint} (h : takePageFault s c r va reason tr = .ok t) :
    (c.fm = .hang ∧ s.plat.hangSkip = true ∧ t = invalidCycle s r) ∨
    (c.fm = .hang ∧ s.plat.hangSkip = false ∧ t = setHung s true r.src) ∨
    ((c.fm = .stream ∨ c.fm = .halt) ∧
      t = (s.addPending ⟨r, c.pasid, va, tr, true⟩).addPageRequest ⟨c.pasid, c.ctxid, va, reason, faultKind r tr⟩) := by
  unfold takePageFault at h
  split at h
  · next hf =>
    split at h
    · simp at h
    · simp at h
    all_goals
      cases hs : s.plat.hangSkip <;> simp [hs] at h <;> simp [hf, h]
  · next hf => simp at h; simp [hf, h]
  · next hf => simp at h; simp [hf, h]
  · simp at h

/-! ## Page-update atomics -/

/-- Everything a page-update atomic can do (47 R431, R452). -/
theorem apu_spec {op : ApuOp} {src : Source} {c : Word32} {pa : Nat} {s : State} {x : State × Option Word64} :
    apu op src c pa s = .ok x ↔
      (apuAllowed s pa = true ∧ inSpace s.plat pa 8 = true ∧
        ∃ old, memRead64 s pa = .ok old ∧
          x = (s.setMem (s.mem.setBytes pa (leBytes 8 (op.apply old).toNat)), some (op.apply old))) ∨
      (apuAllowed s pa = false ∧ x = (s.emit (.catastrophic src c .nonWBPagingEntry), none)) := by
  unfold apu
  cases ha : apuAllowed s pa
  · simp only [Bool.false_eq_true, if_false, false_and, false_or, true_and, reportCatastrophic, Except.ok.injEq]
    exact eq_comm
  · simp only [if_true, bind_ok, memWrite64_spec]
    constructor
    · rintro ⟨old, ho, s', ⟨hi, rfl⟩, hx⟩
      simp at hx
      exact .inl ⟨trivial, hi, old, ho, hx.symm⟩
    · rintro (⟨-, hi, old, ho, rfl⟩ | ⟨h, -⟩)
      · exact ⟨old, ho, _, ⟨hi, rfl⟩, rfl⟩
      · cases h

/-- The value written differs only in newly set A, D and EA bits. -/
theorem apuOp_apply_or (op : ApuOp) (old : Word64) : ∃ b : Word64, op.apply old = old ||| (b &&& 0x460) := by
  unfold ApuOp.apply
  split
  · exact ⟨0, by simp⟩
  · refine ⟨op.sets, ?_⟩
    obtain ⟨i, w, e, r⟩ := op
    congr 1
    cases i <;> cases w <;> cases e <;> cases r <;> decide

/-- The bytes of `old ||| b` are those of `old` with the bytes of `b` ored in. -/
theorem leBytes_or (n : Nat) (a b : Nat) : leBytes n (a ||| b) = List.zipWith (· ||| ·) (leBytes n a) (leBytes n b) := by
  induction n generalizing a b with
  | zero => rfl
  | succ n ih =>
    have h1 : (a ||| b) / 256 = a / 256 ||| b / 256 := by
      rw [show (256 : Nat) = 2 ^ 8 from rfl, ← Nat.shiftRight_eq_div_pow, ← Nat.shiftRight_eq_div_pow,
        ← Nat.shiftRight_eq_div_pow, Nat.shiftRight_or_distrib]
    have h2 : BitVec.ofNat 8 (a ||| b) = BitVec.ofNat 8 a ||| BitVec.ofNat 8 b := by
      apply BitVec.eq_of_toNat_eq; simp
    simp only [leBytes, List.zipWith, h1, h2, ih]

end Sys2Proof.Machine
end

