-- ==== Sys2Proof/Laws/Walk.lean ====
section
/-! SUPPORT. What a walk can change: A, D and EA bits of entries of a context with A&D support, and reports. -/

namespace Sys2Proof.Machine

/-! ## Newly set A, D, EA bits -/

theorem onlySetsADE_refl (s : State) : onlySetsADE s s := fun x => ⟨0, by simp⟩

theorem onlySetsADE_of_mem {s t : State} (h : t.mem = s.mem) : onlySetsADE s t := fun x => ⟨0, by simp [h]⟩

theorem onlySetsADE_trans {s t u : State} (h1 : onlySetsADE s t) (h2 : onlySetsADE t u) : onlySetsADE s u := by
  intro x
  obtain ⟨a, ha⟩ := h1 x
  obtain ⟨b, hb⟩ := h2 x
  refine ⟨a ||| b, ?_⟩
  rw [hb, ha, BitVec.or_assoc]
  congr 1
  ext i hi
  simp only [BitVec.getElem_or, BitVec.getElem_and]
  cases a[i] <;> cases b[i] <;> cases (adeMask x)[i] <;> rfl

theorem leBytes_and (n : Nat) (a b : Nat) : leBytes n (a &&& b) = List.zipWith (· &&& ·) (leBytes n a) (leBytes n b) := by
  induction n generalizing a b with
  | zero => rfl
  | succ n ih =>
    have h1 : (a &&& b) / 256 = a / 256 &&& b / 256 := by
      rw [show (256 : Nat) = 2 ^ 8 from rfl, ← Nat.shiftRight_eq_div_pow, ← Nat.shiftRight_eq_div_pow,
        ← Nat.shiftRight_eq_div_pow, Nat.shiftRight_and_distrib]
    have h2 : BitVec.ofNat 8 (a &&& b) = BitVec.ofNat 8 a &&& BitVec.ofNat 8 b := by
      apply BitVec.eq_of_toNat_eq; simp
    simp only [leBytes, List.zipWith, h1, h2, ih]

/-- The bytes of `b &&& 0x460` lie in the masks of an aligned entry. -/
theorem leBytes_ade (b : Word64) (i : Nat) (hi : i < 8) :
    ∃ c : Byte, (leBytes 8 (b &&& 0x460).toNat)[i]? = some (c &&& adeMask i) := by
  have hl : i < (leBytes 8 b.toNat).length := by simpa using hi
  refine ⟨(leBytes 8 b.toNat)[i], ?_⟩
  rw [BitVec.toNat_and, leBytes_and, List.getElem?_zipWith, List.getElem?_eq_getElem hl]
  have hm : (leBytes 8 (0x460 : Word64).toNat)[i]? = some (adeMask i) := by
    have : ∀ j < 8, (leBytes 8 (0x460 : Word64).toNat)[j]? = some (adeMask j) := by decide
    exact this i hi
  rw [hm]

/-- A page-update atomic on an aligned entry only sets A, D and EA bits. -/
theorem apu_onlySetsADE {op : ApuOp} {s : State} {pa : Nat} {old : Word64} (hw : Memory.wf s.mem = true)
    (hp : pa % 8 = 0) (ho : memRead64 s pa = .ok old) :
    onlySetsADE s (s.setMem (s.mem.setBytes pa (leBytes 8 (op.apply old).toNat))) := by
  intro x
  obtain ⟨b, hb⟩ := apuOp_apply_or op old
  have hold := leBytes_memRead64 ho
  rw [setMem_mem, Memory.byte_setBytes s.mem pa x _ hw]
  split
  · next hx =>
    by_cases hi : x - pa < 8
    · obtain ⟨c, hc⟩ := leBytes_ade b (x - pa) hi
      have hm : adeMask (x - pa) = adeMask x := by
        have : (x - pa) % 8 = x % 8 := by omega
        simp [adeMask, this]
      have hg : (leBytes 8 old.toNat)[x - pa]? = some (s.mem.byte x) := by
        rw [hold, Memory.getElem?_bytes s.mem pa 8 _ hi]; congr 2; omega
      refine ⟨c, ?_⟩
      rw [hb, BitVec.toNat_or, leBytes_or, List.getElem?_zipWith, hg, hc, hm]; rfl
    · refine ⟨0, ?_⟩
      rw [List.getElem?_eq_none (by simp; omega)]; simp
  · exact ⟨0, by simp⟩

/-! ## Steps of a walk -/

/-- What a walk may change: memory only by A, D, EA bits, reports; nothing at all without A&D support. -/
structure WalkFrame (ad : Bool) (s t : State) : Prop where
  eq : t = { s with mem := t.mem, outputs := t.outputs }
  wf : Memory.wf s.mem = true → Memory.wf t.mem = true
  ade : Memory.wf s.mem = true → onlySetsADE s t
  plain : ad = false → t = s

theorem WalkFrame.refl (ad : Bool) (s : State) : WalkFrame ad s s := ⟨rfl, id, fun _ => onlySetsADE_refl s, fun _ => rfl⟩

theorem WalkFrame.trans {ad : Bool} {s t u : State} (h1 : WalkFrame ad s t) (h2 : WalkFrame ad t u) : WalkFrame ad s u where
  eq := by rw [h2.eq, h1.eq]
  wf h := h2.wf (h1.wf h)
  ade h := onlySetsADE_trans (h1.ade h) (h2.ade (h1.wf h))
  plain h := (h2.plain h).trans (h1.plain h)

theorem WalkFrame.plat {ad : Bool} {s t : State} (h : WalkFrame ad s t) : t.plat = s.plat := by rw [h.eq]
theorem WalkFrame.regs {ad : Bool} {s t : State} (h : WalkFrame ad s t) : t.regs = s.regs := by rw [h.eq]
theorem WalkFrame.banks {ad : Bool} {s t : State} (h : WalkFrame ad s t) : t.banks = s.banks := by rw [h.eq]
theorem WalkFrame.iommu {ad : Bool} {s t : State} (h : WalkFrame ad s t) : t.iommu = s.iommu := by rw [h.eq]
theorem WalkFrame.inputs {ad : Bool} {s t : State} (h : WalkFrame ad s t) : t.inputs = s.inputs := by rw [h.eq]
theorem WalkFrame.reqs {ad : Bool} {s t : State} (h : WalkFrame ad s t) : t.reqs = s.reqs := by rw [h.eq]

/-- Reading an entry from memory (44 R318). -/
theorem fetchMemory_frame {s t : State} {env : WalkEnv} {level addr : Nat} {e : Option Word64} (ha : addr % 8 = 0)
    (h : fetchMemory s env level addr = .ok (t, e)) : WalkFrame env.ctx.ad s t := by
  unfold fetchMemory at h
  split at h
  · next had =>
    rcases apu_spec.mp h with ⟨-, -, old, ho, hx⟩ | ⟨-, hx⟩ <;> injection hx with ht _ <;> subst ht
    · exact ⟨rfl, fun hw => Memory.wf_setBytes _ _ _ hw, fun hw => apu_onlySetsADE hw ha ho, fun hf => by simp [had] at hf⟩
    · exact ⟨rfl, id, fun _ => onlySetsADE_of_mem rfl, fun hf => by simp [had] at hf⟩
  · simp only [bind_ok, Except.ok.injEq, Prod.mk.injEq] at h
    obtain ⟨_, -, rfl, -⟩ := h
    exact WalkFrame.refl _ _

/-- Reading an entry (46 R390, R394). -/
theorem fetchEntry_frame {s t : State} {env : WalkEnv} {level addr : Nat} {x : Option Word64 × Option GttLine}
    (ha : addr % 8 = 0) (h : fetchEntry s env level addr = .ok (t, x)) : WalkFrame env.ctx.ad s t := by
  unfold fetchEntry at h
  split at h
  · simp only [Except.ok.injEq, Prod.mk.injEq] at h; rw [← h.1]; exact WalkFrame.refl _ _
  · simp only [bind_ok] at h
    obtain ⟨⟨u, e⟩, hu, h⟩ := h
    have hf := fetchMemory_frame ha hu
    split at h
    · simp only [bind_ok, Except.ok.injEq, Prod.mk.injEq] at h
      obtain ⟨_, -, rfl, -⟩ := h; exact hf
    · simp only [Except.ok.injEq, Prod.mk.injEq] at h; rw [← h.1]; exact hf

/-- SecondLevel keeps the offset in a page (20 R93). -/
theorem secondLevel_mod {p : Platform} {n : Bool} {gpa pa : Nat} (h : secondLevel p n gpa = .ok pa) :
    pa % 4096 = gpa % 4096 := by
  unfold secondLevel at h
  split at h
  · split at h
    · simp only [Except.ok.injEq] at h; omega
    · simp at h
    · simp only [Except.ok.injEq] at h; omega
  · simp only [Except.ok.injEq] at h; omega

/-- A table address that an entry points to is a multiple of 4096 (30 R195). -/
theorem outOf_table {k : EntryKind} {haw : Nat} {e : Word64} {b : Nat} (h : k.outOf haw e = .table b) : b % 4096 = 0 := by
  unfold EntryKind.outOf at h
  split at h
  · injection h with h; rw [← h, addrField]; exact Nat.mul_mod_left _ _
  · cases h

/-- Everything the taking of an entry can do (44 R326). -/
theorem takeEntry_spec {k : EntryKind} {haw : Nat} {ips fl : Bool} {st st' : Stage} {e : Word64} :
    takeEntry k haw ips fl st e = .ok st' ↔ k.reservedSet haw e = false ∧ st' = k.stageAfter haw ips fl st e := by
  unfold takeEntry
  cases h : k.reservedSet haw e
  · simp; exact eq_comm
  · simp

/-- The reading of the levels of a walk from an aligned table. -/
theorem walkLevels_frame (env : WalkEnv) (levels : List Nat) {s t : State} {tbl : Nat} {st : Stage} {log : WalkLog}
    {w : WalkEnd} (ha : tbl % 8 = 0) (h : walkLevels env levels s tbl st log = .ok (t, w)) : WalkFrame env.ctx.ad s t := by
  induction levels generalizing s tbl st log with
  | nil => simp [walkLevels] at h
  | cons level rest ih =>
    simp only [walkLevels, bind_ok] at h
    obtain ⟨⟨u, e, line⟩, hu, h⟩ := h
    have hf := fetchEntry_frame (by omega) hu
    split at h
    · simp only [Except.ok.injEq, Prod.mk.injEq] at h; rw [← h.1]; exact hf
    · split at h
      · split at h
        · simp at h
        · simp only [bind_ok] at h
          obtain ⟨st', hst, h⟩ := h
          split at h
          · next base hb =>
            simp only [bind_ok] at h
            obtain ⟨tbl', ht, h⟩ := h
            obtain ⟨-, rfl⟩ := takeEntry_spec.mp hst
            have h1 := outOf_table hb
            have h2 := secondLevel_mod ht
            exact hf.trans (ih (by omega) h)
          · simp only [bind_ok, Except.ok.injEq, Prod.mk.injEq] at h
            obtain ⟨_, -, rfl, -⟩ := h; exact hf
          all_goals simp at h
      · simp only [Except.ok.injEq, Prod.mk.injEq] at h; rw [← h.1]; exact hf

/-- The end of a walk changes nothing. -/
theorem finishLeaf_state {s t : State} {env : WalkEnv} {level : Nat} {st : Stage} {log : WalkLog} {bits frame : Nat}
    {null : Bool} {x : XlateEnd × Option WalkRecord} (h : finishLeaf s env level st log bits frame null = .ok (t, x)) :
    t = s := by
  unfold finishLeaf at h
  split at h
  · simp only [Except.ok.injEq, Prod.mk.injEq] at h; exact h.1.symm
  · split at h
    · simp only [Except.ok.injEq, Prod.mk.injEq] at h; exact h.1.symm
    · simp only [bind_ok, Except.ok.injEq, Prod.mk.injEq] at h
      obtain ⟨_, -, h, -⟩ := h; exact h.symm

/-- A context whose table addresses are aligned: every context but a global-GTT one has a page-aligned root; the global
GTT is read without A&D support. -/
def Ctx.aligned (c : Ctx) : Prop := if c.tag.mode = .ggtt then c.ad = false else c.root % 4096 = 0

/-- A walk reading plain entries changes nothing, whatever its table's address. -/
theorem walkLevels_plain (env : WalkEnv) (levels : List Nat) (had : env.ctx.ad = false) {s t : State} {tbl : Nat}
    {st : Stage} {log : WalkLog} {w : WalkEnd} (h : walkLevels env levels s tbl st log = .ok (t, w)) : t = s := by
  have fetch : ∀ {u : State} {level addr : Nat} {x : Option Word64 × Option GttLine},
      fetchEntry s env level addr = .ok (u, x) → u = s := by
    intro u level addr x hu
    unfold fetchEntry at hu
    split at hu
    · simp only [Except.ok.injEq, Prod.mk.injEq] at hu; exact hu.1.symm
    · simp only [fetchMemory, had, Bool.false_eq_true, if_false, bind_ok, Except.ok.injEq] at hu
      obtain ⟨_, ⟨_, -, rfl⟩, hu⟩ := hu
      split at hu
      · simp only [bind_ok, Except.ok.injEq, Prod.mk.injEq] at hu
        obtain ⟨_, -, hu, -⟩ := hu; exact hu.symm
      · simp only [Except.ok.injEq, Prod.mk.injEq] at hu; exact hu.1.symm
  induction levels generalizing tbl st log with
  | nil => simp [walkLevels] at h
  | cons level rest ih =>
    simp only [walkLevels, bind_ok] at h
    obtain ⟨⟨u, e, line⟩, hu, h⟩ := h
    obtain rfl := fetch hu
    split at h
    · simp only [Except.ok.injEq, Prod.mk.injEq] at h; exact h.1.symm
    · split at h
      · split at h
        · simp at h
        · simp only [bind_ok] at h
          obtain ⟨st', hst, h⟩ := h
          split at h
          · simp only [bind_ok] at h
            obtain ⟨tbl', -, h⟩ := h
            exact ih h
          · simp only [bind_ok, Except.ok.injEq, Prod.mk.injEq] at h
            obtain ⟨_, -, h, -⟩ := h; exact h.symm
          all_goals simp at h
      · simp only [Except.ok.injEq, Prod.mk.injEq] at h; exact h.1.symm

/-- A single walk. -/
theorem walkOnce_frame {s t : State} {env : WalkEnv} {x : XlateEnd × Option WalkRecord} (ha : env.ctx.aligned)
    (h : walkOnce s env = .ok (t, x)) : WalkFrame env.ctx.ad s t := by
  simp only [walkOnce, bind_ok] at h
  obtain ⟨tbl, ht, ⟨u, w⟩, hu, h⟩ := h
  have hf : WalkFrame env.ctx.ad s u := by
    unfold Ctx.aligned at ha
    unfold topTable at ht
    split at ha
    · have := walkLevels_plain env _ ha hu
      subst this; exact WalkFrame.refl _ _
    · next hm =>
      simp only [beq_iff_eq, hm, if_false] at ht
      have := secondLevel_mod ht
      exact walkLevels_frame env _ (by omega) hu
  split at h
  · simp only [Except.ok.injEq, Prod.mk.injEq] at h; rw [← h.1]; exact hf
  · simp only [Except.ok.injEq, Prod.mk.injEq] at h; rw [← h.1]; exact hf
  · split at h
    · rw [finishLeaf_state h]; exact hf
    all_goals simp at h

/-- Everything a walk can do: end as one pass does, be redone from memory after a write-protect fault (46 R386), or drop the
pointers of its address space after another fault (46 R411). -/
theorem walk_spec {s t : State} {env : WalkEnv} {x : XlateEnd} {w : Option WalkRecord} (h : walk s env = .ok (t, x, w)) :
    ∃ u, (walkOnce s env = .ok (u, x, w) ∧ (t = u ∨ t = dropPwcOf u env.ctx.tag)) ∨
      (∃ y v w', walkOnce s env = .ok (u, y, v) ∧ walkOnce u { env with use := noCache } = .ok (t, x, w') ∧
        w = joinRec w' (v.map WalkRecord.unfaulted)) := by
  simp only [walk, bind_ok] at h
  obtain ⟨⟨u, y, v⟩, hu, h⟩ := h
  refine ⟨u, ?_⟩
  simp only at h
  split at h
  · split at h
    · simp only [bind_ok, Except.ok.injEq, Prod.mk.injEq] at h
      obtain ⟨⟨t', x', w'⟩, hw, rfl, rfl, rfl⟩ := h
      exact .inr ⟨_, _, _, hu, hw, rfl⟩
    · injection h with h; injection h with h1 h2; injection h2 with h2 h3; subst h1 h2 h3; exact .inl ⟨hu, .inl rfl⟩
  · injection h with h; injection h with h1 h2; injection h2 with h2 h3; subst h1 h2 h3
    exact .inl ⟨hu, by split <;> simp⟩
  · injection h with h; injection h with h1 h2; injection h2 with h2 h3; subst h1 h2 h3
    exact .inl ⟨hu, by split <;> simp⟩
  all_goals
    injection h with h; injection h with h1 h2; injection h2 with h2 h3; subst h1 h2 h3; exact .inl ⟨hu, .inl rfl⟩

/-- A walk that uses no cached copy is one pass from memory. -/
theorem walk_noCache (s : State) (env : WalkEnv) (h1 : env.use.pwc = false) (h2 : env.use.gtt = false) :
    walk s env = walkOnce s env := by
  unfold walk
  cases walkOnce s env with
  | error e => rfl
  | ok x =>
    obtain ⟨t, x, w⟩ := x
    simp only [ok_bind, h1, h2, Bool.or_self, Bool.false_eq_true, if_false]
    split <;> rfl

/-- Without A&D support a walk writes no memory. -/
theorem walk_plain_mem {s t : State} {env : WalkEnv} {x : XlateEnd × Option WalkRecord} (ha : env.ctx.aligned)
    (had : env.ctx.ad = false) (h : walk s env = .ok (t, x)) : t.mem = s.mem := by
  obtain ⟨x, w⟩ := x
  obtain ⟨u, ⟨hu, ht⟩ | ⟨y, v, w', hu, ht, -⟩⟩ := walk_spec h
  · rw [← (walkOnce_frame ha hu).plain had]
    rcases ht with rfl | rfl <;> rfl
  · rw [(walkOnce_frame (env := { env with use := noCache }) ha ht).plain had, (walkOnce_frame ha hu).plain had]

end Sys2Proof.Machine
end

