-- ==== Sys2Proof/Laws/Calm.lean ====
section
/-! SUPPORT. What translations, data accesses and page responses leave alone. -/

namespace Sys2Proof.Machine

/-- What every operation but a message, a reset and a register write keeps: parameters, the queue, the hand-shakes, the
counters; a PASID Cache is filled only while its engine runs. -/
structure Calm (s t : State) : Prop where
  plat : t.plat = s.plat
  inputs : t.inputs = s.inputs
  wf : Memory.wf s.mem = true → Memory.wf t.mem = true
  regs : t.regs = { s.regs with nullTileCount := t.regs.nullTileCount }
  hs : ∀ e, (t.bank e).hs = (s.bank e).hs
  resident : ∀ e, (t.bank e).resident = (s.bank e).resident
  pc : ∀ e, (t.bank e).pc.valid = true → (s.bank e).pc.valid = true ∨ (s.bank e).hs = .running
  pasid : t.iommu.pasidState = s.iommu.pasidState
  stopped : ∀ e, (t.bank e).stopped = true → (s.bank e).stopped = true ∨ (s.bank e).active = true

/-- What a translation keeps: also every bit of memory but newly set A, D and EA bits. -/
structure TransFrame (s t : State) : Prop extends Calm s t where
  ade : Memory.wf s.mem = true → onlySetsADE s t

theorem Calm.refl (s : State) : Calm s s := ⟨rfl, rfl, id, rfl, fun _ => rfl, fun _ => rfl, fun _ h => .inl h, rfl, fun _ h => .inl h⟩

theorem Calm.trans {s t u : State} (h1 : Calm s t) (h2 : Calm t u) : Calm s u where
  plat := h2.plat.trans h1.plat
  inputs := h2.inputs.trans h1.inputs
  wf h := h2.wf (h1.wf h)
  regs := by rw [h2.regs, h1.regs]
  hs e := (h2.hs e).trans (h1.hs e)
  resident e := (h2.resident e).trans (h1.resident e)
  pc e h := (h2.pc e h).elim (h1.pc e) (fun hr => .inr (by rw [← h1.hs e]; exact hr))
  pasid := h2.pasid.trans h1.pasid
  stopped e h := (h2.stopped e h).elim (h1.stopped e) (fun ha => .inr (by simpa only [Bank.active, h1.hs] using ha))

theorem TransFrame.refl (s : State) : TransFrame s s := ⟨Calm.refl s, fun _ => onlySetsADE_refl s⟩

theorem TransFrame.trans {s t u : State} (h1 : TransFrame s t) (h2 : TransFrame t u) : TransFrame s u :=
  ⟨h1.toCalm.trans h2.toCalm, fun h => onlySetsADE_trans (h1.ade h) (h2.ade (h1.wf h))⟩

/-- A change of reports, caches, walker state, requests and free values only. -/
theorem TransFrame.of_eq {s t : State} (hp : t.plat = s.plat) (hi : t.inputs = s.inputs) (hm : t.mem = s.mem)
    (hr : t.regs = s.regs) (hb : t.banks = s.banks) (ho : t.iommu = s.iommu) : TransFrame s t where
  plat := hp
  inputs := hi
  wf h := by rw [hm]; exact h
  regs := by rw [hr]
  hs e := by simp only [State.bank, hb]
  resident e := by simp only [State.bank, hb]
  pc e h := .inl (by simp only [State.bank, hb] at h ⊢; exact h)
  pasid := by rw [ho]
  stopped e h := .inl (by simp only [State.bank, hb] at h ⊢; exact h)
  ade _ := onlySetsADE_of_mem hm

theorem WalkFrame.trans_frame {ad : Bool} {s t : State} (h : WalkFrame ad s t) : TransFrame s t where
  plat := h.plat
  inputs := h.inputs
  wf := h.wf
  regs := by rw [h.regs]
  hs e := by simp only [State.bank, h.banks]
  resident e := by simp only [State.bank, h.banks]
  pc e hv := .inl (by simp only [State.bank, h.banks] at hv ⊢; exact hv)
  pasid := by rw [h.iommu]
  stopped e hv := .inl (by simp only [State.bank, h.banks] at hv ⊢; exact hv)
  ade := h.ade

/-- A change of one bank that keeps its hand-shake, its resident context and its PASID Cache. -/
theorem TransFrame.of_bank {s : State} {e : Engine} {b : Bank} (h1 : b.hs = (s.bank e).hs)
    (h2 : b.resident = (s.bank e).resident)
    (h3 : b.pc.valid = true → (s.bank e).pc.valid = true ∨ (s.bank e).hs = .running)
    (h4 : b.stopped = true → (s.bank e).stopped = true ∨ (s.bank e).active = true) : TransFrame s (s.setBank e b) where
  plat := rfl
  inputs := rfl
  wf := id
  regs := rfl
  hs e' := by rw [setBank_bank]; split <;> simp_all
  resident e' := by rw [setBank_bank]; split <;> simp_all
  pc e' h := by
    rw [setBank_bank] at h
    split at h
    · next he => subst he; exact h3 h
    · exact .inl h
  pasid := rfl
  stopped e' h := by
    rw [setBank_bank] at h
    split at h
    · next he => subst he; exact h4 h
    · exact .inl h
  ade _ := onlySetsADE_of_mem rfl

/-! ## Pieces of a translation -/

theorem setWalked_frame (s : State) (w : Option WalkRecord) : TransFrame s (setWalked s w) :=
  .of_eq rfl rfl rfl rfl rfl rfl
theorem addHeld_frame (s : State) (h : HeldReq) : TransFrame s (s.addHeld h) := .of_eq rfl rfl rfl rfl rfl rfl
theorem addPending_frame (s : State) (h : PendingReq) : TransFrame s (s.addPending h) := .of_eq rfl rfl rfl rfl rfl rfl
theorem addInFlight_frame (s : State) (h : InFlight) : TransFrame s (s.addInFlight h) := .of_eq rfl rfl rfl rfl rfl rfl
theorem addPageRequest_frame (s : State) (h : PageReq) : TransFrame s (s.addPageRequest h) := .of_eq rfl rfl rfl rfl rfl rfl
theorem nullCompletion_frame (s : State) (r : Request) : TransFrame s (nullCompletion s r) := .of_eq rfl rfl rfl rfl rfl rfl
theorem invalidCycle_frame (s : State) (r : Request) : TransFrame s (invalidCycle s r) := .of_eq rfl rfl rfl rfl rfl rfl
theorem emit_frame (s : State) (o : Output) : TransFrame s (s.emit o) := .of_eq rfl rfl rfl rfl rfl rfl
theorem trBadRead_frame (s : State) : TransFrame s (trBadRead s).1 := .of_eq rfl rfl rfl rfl rfl rfl
theorem setReqs_frame (s : State) (r : Reqs) : TransFrame s (s.setReqs r) := .of_eq rfl rfl rfl rfl rfl rfl
theorem setCaches_frame (s : State) (c : Caches) : TransFrame s (s.setCaches c) := .of_eq rfl rfl rfl rfl rfl rfl

theorem countNullTile_frame (s : State) : TransFrame s (countNullTile s) :=
  ⟨⟨rfl, rfl, id, rfl, fun _ => rfl, fun _ => rfl, fun _ h => .inl h, rfl, fun _ h => .inl h⟩, fun _ => onlySetsADE_of_mem rfl⟩

theorem setHung_frame (s : State) (b : Bool) (src : Source) : TransFrame s (setHung s b src) := by
  cases src with
  | engine e => exact .of_bank rfl rfl .inl .inl
  | wdbox => exact .of_eq rfl rfl rfl rfl rfl rfl
  | vebox2 => exact .of_eq rfl rfl rfl rfl rfl rfl
  | display => exact .refl s
  | aperture => exact .refl s

theorem stopContext_frame (s : State) (src : Source) : TransFrame s (stopContext s src) := by
  rcases stopContext_spec s src with h | ⟨e, -, -, ha, h⟩ <;> rw [h]
  · exact .refl s
  · exact .of_bank rfl rfl .inl (fun _ => .inr ha)

theorem erroredCycle_frame (s : State) (r : Request) : TransFrame s (erroredCycle s r) :=
  (invalidCycle_frame s r).trans (stopContext_frame _ _)

theorem takePageFault_frame {s t : State} {c : Ctx} {r : Request} {va : Word64} {reason : FaultReason}
    {tr : Option TrPoint} (h : takePageFault s c r va reason tr = .ok t) : TransFrame s t := by
  rcases takePageFault_spec h with ⟨-, -, rfl⟩ | ⟨-, -, rfl⟩ | ⟨-, rfl⟩
  · exact invalidCycle_frame _ _
  · exact setHung_frame _ _ _
  · exact (addPending_frame _ _).trans (addPageRequest_frame _ _)

theorem walk_frame {s t : State} {env : WalkEnv} {x : XlateEnd × Option WalkRecord} (ha : env.ctx.aligned)
    (h : walk s env = .ok (t, x)) : TransFrame s t := by
  obtain ⟨x, w⟩ := x
  obtain ⟨u, ⟨hu, rfl | rfl⟩ | ⟨y, v, w', hu, ht, -⟩⟩ := walk_spec h
  · exact (walkOnce_frame ha hu).trans_frame
  · exact (walkOnce_frame ha hu).trans_frame.trans (setCaches_frame _ _)
  · exact (walkOnce_frame ha hu).trans_frame.trans (walkOnce_frame (env := { env with use := noCache }) ha ht).trans_frame

theorem xlate_frame {s t : State} {env : WalkEnv} {x : XlateEnd × Option WalkRecord} (ha : env.ctx.aligned)
    (h : xlate s env = .ok (t, x)) : TransFrame s t := by
  unfold xlate at h
  split at h
  · simp only [bind_ok, Except.ok.injEq, Prod.mk.injEq] at h
    obtain ⟨_, -, rfl, -⟩ := h; exact .refl _
  · simp only [Except.ok.injEq, Prod.mk.injEq] at h; rw [← h.1]; exact .refl _
  · next t use _ => exact TransFrame.trans (setCaches_frame _ _) (walk_frame (env := { env with use := use }) ha h)
  · exact walk_frame ha h

theorem finalXlate_frame {s t : State} {c : Ctx} {use : CacheUse} {r : Request} {va : Word64} {e : Option WalkRecord}
    (ha : c.aligned) (h : finalXlate s c use r va e = .ok t) : TransFrame s t := by
  simp only [finalXlate, bind_ok] at h
  obtain ⟨⟨u, x, w⟩, hu, h⟩ := h
  have hf := (xlate_frame (env := ⟨c, use, r.client.tlbGroup, va, r.acc.isWrite, r.er⟩) ha hu).trans
    (setWalked_frame _ (joinRec w e))
  simp only at h
  split at h
  · simp only [bind_ok, Except.ok.injEq] at h
    obtain ⟨_, -, rfl⟩ := h; exact hf.trans (addInFlight_frame _ _)
  · injection h with h; subst h; exact hf.trans (nullCompletion_frame _ _)
  · exact hf.trans (takePageFault_frame h)
  · injection h with h; subst h; exact hf.trans (addPending_frame _ _)
  · injection h with h; subst h; exact hf.trans (erroredCycle_frame _ _)

theorem trRead_frame {s t : State} {c : Ctx} {use : CacheUse} {r : Request} {level : Nat} {base tva : Word64}
    {v : Option Word64} (ha : c.aligned) (h : trRead s c use r level base tva = .ok (t, v)) : TransFrame s t := by
  simp only [trRead, bind_ok] at h
  obtain ⟨⟨u, x, w⟩, hu, h⟩ := h
  have hf := (xlate_frame (env := ⟨c, use, r.client.tlbGroup, tva, false, false⟩) ha hu).trans
    (setWalked_frame _ (joinRec w u.walker.walked))
  simp only at h
  split at h
  · simp only [bind_ok, Except.ok.injEq, Prod.mk.injEq] at h
    obtain ⟨_, -, rfl, -⟩ := h; exact hf
  · simp only [Except.ok.injEq, Prod.mk.injEq] at h; rw [← h.1]; exact hf
  · split at h
    · simp only [bind_ok, Except.ok.injEq, Prod.mk.injEq] at h
      obtain ⟨_, hp, rfl, -⟩ := h
      exact hf.trans (takePageFault_frame hp)
    · simp only [Except.ok.injEq, Prod.mk.injEq] at h; rw [← h.1]; exact hf.trans (trBadRead_frame _)
  · simp only [Except.ok.injEq, Prod.mk.injEq] at h; rw [← h.1]; exact hf.trans (addPending_frame _ _)
  · simp only [Except.ok.injEq, Prod.mk.injEq] at h; rw [← h.1]; exact hf.trans (erroredCycle_frame _ _)

theorem trLevels_frame {c : Ctx} {use : CacheUse} {r : Request} (levels : List Nat) {s t : State} {base : Word64}
    {forced : Option Word64} {x : Option TrResult} (ha : c.aligned)
    (h : trLevels c use r levels s base forced = .ok (t, x)) : TransFrame s t := by
  induction levels generalizing s base forced with
  | nil => simp [trLevels] at h
  | cons level rest ih =>
    simp only [trLevels, bind_ok] at h
    obtain ⟨_, -, ⟨u, v⟩, hu, h⟩ := h
    have hf : TransFrame s u := by
      cases forced with
      | some f => simp only [trValue, Except.ok.injEq, Prod.mk.injEq] at hu; rw [← hu.1]; exact .refl _
      | none => exact trRead_frame ha hu
    simp only at h
    split at h
    · simp only [Except.ok.injEq, Prod.mk.injEq] at h; rw [← h.1]; exact hf
    · split at h
      · simp only [Except.ok.injEq, Prod.mk.injEq] at h; rw [← h.1]; exact hf
      · simp only [Except.ok.injEq, Prod.mk.injEq] at h; rw [← h.1]; exact hf
      · simp only [Except.ok.injEq, Prod.mk.injEq] at h; rw [← h.1]; exact hf
      · exact hf.trans (ih h)
      all_goals simp at h

theorem trWalk_frame {s t : State} {c : Ctx} {use : CacheUse} {r : Request} {x : Option TrResult} (ha : c.aligned)
    (h : trWalk s c use r = .ok (t, x)) : TransFrame s t := (setWalked_frame s none).trans (trLevels_frame _ ha h)

theorem afterTr_frame {s t : State} {c : Ctx} {use : CacheUse} {r : Request} {x : TrResult} (ha : c.aligned)
    (h : afterTr s c use r x = .ok t) : TransFrame s t := by
  unfold afterTr at h
  split at h
  · injection h with h; subst h
    exact (countNullTile_frame _).trans (nullCompletion_frame _ _)
  · injection h with h; subst h
    exact (emit_frame _ _).trans (nullCompletion_frame _ _)
  · simp only [bind_ok] at h
    obtain ⟨_, -, h⟩ := h
    exact finalXlate_frame ha h

theorem finishTr_frame {s t : State} {c : Ctx} {use : CacheUse} {r : Request} {x : Option TrResult} (ha : c.aligned)
    (h : finishTr c use r (s, x) = .ok t) : TransFrame s t := by
  cases x with
  | none => simp only [finishTr, Except.ok.injEq] at h; rw [← h]; exact .refl _
  | some x => exact (setWalked_frame _ _).trans (afterTr_frame ha h)

theorem throughTr_frame {s₀ s t : State} {c : Ctx} {use : CacheUse} {r : Request} {d : Res State} (ha : c.aligned)
    (hs : TransFrame s₀ s) (hd : d = .ok t → TransFrame s₀ t) (h : throughTr s c use r d = .ok t) : TransFrame s₀ t := by
  unfold throughTr at h
  split at h
  · exact (hs.trans (setWalked_frame s none)).trans (afterTr_frame ha h)
  · split at h
    · simp only [bind_ok] at h
      obtain ⟨⟨v, x⟩, hx, h⟩ := h
      exact (hs.trans (trWalk_frame ha hx)).trans (finishTr_frame ha h)
    · exact hd h

/-- A translation in its context (40 R220). -/
theorem translateIn_frame {s t : State} {c : Ctx} {use : CacheUse} {r : Request} (ha : c.aligned)
    (h : translateIn s c use r = .ok t) : TransFrame s t := by
  simp only [translateIn, bind_ok] at h
  obtain ⟨act, -, h⟩ := h
  split at h
  · split at h
    · exact finalXlate_frame ha h
    · exact finalXlate_frame ha h
    · exact throughTr_frame ha (setCaches_frame s _) (finalXlate_frame ha) h
    · exact throughTr_frame ha (.refl s) (finalXlate_frame ha) h
  · exact finalXlate_frame ha h

/-! ## The context of a request -/

theorem lookupCtx_frame {s t : State} {fn : BitVec 3} {x : CtxEntry} (h : lookupCtx s fn = .ok (t, x)) :
    TransFrame s t := by
  unfold lookupCtx at h
  split at h
  · simp only [Except.ok.injEq, Prod.mk.injEq] at h; rw [← h.1]; exact .refl _
  · split at h
    · simp at h
    · simp only [Except.ok.injEq, Prod.mk.injEq] at h
      rw [← h.1]
      exact ⟨⟨rfl, rfl, id, rfl, fun _ => rfl, fun _ => rfl, fun _ h => .inl h, rfl, fun _ h => .inl h⟩, fun _ => onlySetsADE_of_mem rfl⟩

/-- Everything the filling of a PASID Cache can do (46 R392). -/
theorem fillPc_spec {s t : State} {e : Engine} {fn : BitVec 3} {p : BitVec 20} :
    fillPc s e fn p = .ok t ↔ ∃ x, lookupPasid s fn p = .ok x ∧
      t = s.setBank e { s.bank e with pc := ⟨true, x.pml4, x.eafe, x.fl64kpe⟩ } := by
  simp only [fillPc, bind_ok, Except.ok.injEq]
  constructor <;> rintro ⟨x, h1, h2⟩ <;> exact ⟨x, h1, h2.symm⟩

theorem refillPc_frame {s t : State} {e : Engine} {fn : BitVec 3} {p : BitVec 20} (hr : (s.bank e).hs = .running)
    (h : refillPc s e fn p = .ok t) : TransFrame s t := by
  unfold refillPc at h
  split at h
  · injection h with h; subst h; exact .refl _
  · obtain ⟨x, -, rfl⟩ := fillPc_spec.mp h
    exact .of_bank rfl rfl (fun _ => .inr hr) .inl

theorem addrField_mod (haw lo : Nat) (e : Word64) : addrField haw lo e % 2 ^ lo = 0 := Nat.mul_mod_left _ _

theorem legacyCtx_aligned (src : Source) (m : Mode) (c : Word32) (root : Nat) (h : root % 4096 = 0) :
    (legacyCtx src m c root).aligned := by
  unfold Ctx.aligned legacyCtx; split <;> simp_all

/-- The context of a running engine: aligned, and nothing is touched but its PASID Cache and the Context Cache. -/
theorem engineCtx_frame {s t : State} {e : Engine} {va : Word64} {c : Ctx} (hr : (s.bank e).hs = .running)
    (h : engineCtx s e va = .ok (t, c)) : TransFrame s t ∧ c.aligned := by
  simp only [engineCtx, bind_ok] at h
  obtain ⟨d, -, m, -, fm, -, _, -, h⟩ := h
  split at h
  · simp only [Except.ok.injEq, Prod.mk.injEq] at h
    obtain ⟨rfl, rfl⟩ := h
    exact ⟨.refl _, legacyCtx_aligned _ _ _ _ rfl⟩
  · simp only [bind_ok, Except.ok.injEq, Prod.mk.injEq] at h
    obtain ⟨p, -, rfl, rfl⟩ := h
    exact ⟨.refl _, legacyCtx_aligned _ _ _ _ (addrField_mod _ 12 _)⟩
  · simp only [bind_ok, Except.ok.injEq, Prod.mk.injEq] at h
    obtain ⟨p, -, rfl, rfl⟩ := h
    exact ⟨.refl _, legacyCtx_aligned _ _ _ _ (addrField_mod _ 12 _)⟩
  · simp only [advCtx, bind_ok, Except.ok.injEq, Prod.mk.injEq] at h
    obtain ⟨_, -, pdp0, -, u, hu, ⟨u', x⟩, hx, rfl, rfl⟩ := h
    refine ⟨(refillPc_frame hr hu).trans (lookupCtx_frame hx), ?_⟩
    unfold Ctx.aligned
    exact addrField_mod _ 12 _

/-- The gate of a request of an engine is open only while the engine runs (45 R356). -/
theorem gateOpen_engine {s : State} {h : Option (BitVec 20)} {e : Engine} (hg : gateOpen s h (.engine e) = true) :
    (s.bank e).hs = .running := by
  simp only [gateOpen, Bool.and_eq_true, beq_iff_eq] at hg; exact hg.1.1.1

theorem contextOf_frame {s t : State} {h : Option (BitVec 20)} {src : Source} {va : Word64} {c : Ctx}
    (hg : gateOpen s h src = true) (hc : contextOf s src va = .ok (t, c)) : TransFrame s t ∧ c.aligned := by
  cases src with
  | engine e => exact engineCtx_frame (gateOpen_engine hg) hc
  | wdbox =>
    simp only [contextOf, bind_ok, Except.ok.injEq, Prod.mk.injEq] at hc
    obtain ⟨_, -, rfl, rfl⟩ := hc; exact ⟨.refl _, legacyCtx_aligned _ _ _ _ rfl⟩
  | vebox2 =>
    simp only [contextOf, bind_ok, Except.ok.injEq, Prod.mk.injEq] at hc
    obtain ⟨_, -, rfl, rfl⟩ := hc; exact ⟨.refl _, legacyCtx_aligned _ _ _ _ rfl⟩
  | display =>
    simp only [contextOf, bind_ok, Except.ok.injEq, Prod.mk.injEq] at hc
    obtain ⟨_, -, rfl, rfl⟩ := hc; exact ⟨.refl _, legacyCtx_aligned _ _ _ _ rfl⟩
  | aperture =>
    simp only [contextOf, bind_ok, Except.ok.injEq, Prod.mk.injEq] at hc
    obtain ⟨_, -, rfl, rfl⟩ := hc; exact ⟨.refl _, legacyCtx_aligned _ _ _ _ rfl⟩

/-! ## Whole operations -/

/-- A complete translation (40 R220). -/
theorem translate_frame {use : CacheUse} {h : Option (BitVec 20)} {r : Request} {s t : State}
    (ht : translate use h r s = .ok t) : TransFrame s t := by
  simp only [translate, bind_ok] at ht
  obtain ⟨_, -, ht⟩ := ht
  split at ht
  · next hg =>
    simp only [bind_ok] at ht
    obtain ⟨⟨u, c⟩, hc, ht⟩ := ht
    obtain ⟨hf, ha⟩ := contextOf_frame hg hc
    exact hf.trans (translateIn_frame ha ht)
  · injection ht with ht; subst ht; exact addHeld_frame _ _

theorem answerWaits_frame (n : Nat) (s : State) : TransFrame s (answerWaits n s) := by
  induction n generalizing s with
  | zero => exact .refl s
  | succ n ih => exact (emit_frame s _).trans (ih _)

theorem flushWaits_frame (s : State) : TransFrame s (flushWaits s) := by
  unfold flushWaits
  split
  · exact (setReqs_frame s _).trans (answerWaits_frame _ _)
  · exact .refl s

theorem memWrite_calm {s t : State} {pa : Nat} {d : List Byte} (h : memWrite s pa d = .ok t) : Calm s t := by
  obtain ⟨_, rfl⟩ := memWrite_spec.mp h
  exact ⟨rfl, rfl, Memory.wf_setBytes _ _ _, rfl, fun _ => rfl, fun _ => rfl, fun _ h => .inl h, rfl, fun _ h => .inl h⟩

/-- The data access of a request (47 R455, R457). -/
theorem performAccess_calm {s t : State} {f : InFlight} (h : performAccess s f = .ok t) : Calm s t := by
  unfold performAccess at h
  split at h
  · simp only [bind_ok, Except.ok.injEq] at h
    obtain ⟨_, -, rfl⟩ := h; exact (emit_frame _ _).toCalm
  · simp only [bind_ok, Except.ok.injEq] at h
    obtain ⟨_, -, rfl⟩ := h; exact (emit_frame _ _).toCalm
  · simp only [bind_ok, Except.ok.injEq] at h
    obtain ⟨_, hw, rfl⟩ := h; exact (memWrite_calm hw).trans (emit_frame _ _).toCalm
  · split at h
    · simp only [bind_ok, Except.ok.injEq] at h
      obtain ⟨_, -, _, hw, rfl⟩ := h; exact (memWrite_calm hw).trans (emit_frame _ _).toCalm
    · injection h with h; subst h
      exact ((emit_frame _ _).trans (invalidCycle_frame _ _)).toCalm

theorem performAt_calm {k : Nat} {s t : State} (h : performAt k s = .ok t) : Calm s t := by
  unfold performAt at h
  split at h
  · injection h with h; subst h; exact .refl _
  · split at h
    · injection h with h; subst h; exact .refl _
    · simp only [bind_ok, Except.ok.injEq] at h
      obtain ⟨_, hp, rfl⟩ := h
      exact ((setReqs_frame s _).toCalm.trans (performAccess_calm hp)).trans (flushWaits_frame _).toCalm

theorem grantAt_frame {k : Nat} {use : CacheUse} {s t : State} (h : grantAt k use s = .ok t) : TransFrame s t := by
  unfold grantAt at h
  split at h
  · injection h with h; subst h; exact .refl _
  · split at h
    · exact (setReqs_frame s _).trans (translate_frame h)
    · injection h with h; subst h; exact .refl _

theorem rowXlate_frame {m : Mode} {elem : Word64} {r : Request} {s t : State} (h : rowXlate m elem r s = .ok t) :
    TransFrame s t := by
  unfold rowXlate at h
  split at h
  · simp only [bind_ok] at h
    obtain ⟨_, -, h⟩ := h; exact translate_frame h
  · exact translate_frame h

/-- One answered request. -/
theorem resume_frame {use : CacheUse} {q : PendingReq} {s t : State}
    (h : resumeFixed use q s = .ok t ∨ resumeUnfixed use q s = .ok t) : TransFrame s t := by
  rcases h with h | h
  · unfold resumeFixed at h
    split at h
    · exact translate_frame h
    · split at h
      · next hg =>
        simp only [bind_ok, resumeTr] at h
        obtain ⟨⟨u, c⟩, hc, _, -, ⟨v, x⟩, hx, h⟩ := h
        obtain ⟨hf, ha⟩ := contextOf_frame hg hc
        exact ((hf.trans (setWalked_frame _ none)).trans (trLevels_frame _ ha hx)).trans (finishTr_frame ha h)
      · injection h with h; subst h; exact addHeld_frame _ _
  · unfold resumeUnfixed at h
    split at h
    · injection h with h; subst h; exact addHeld_frame _ _
    split at h
    · injection h with h; subst h; exact invalidCycle_frame _ _
    · split at h
      · next hg =>
        simp only [bind_ok, resumeTr] at h
        obtain ⟨⟨u, c⟩, hc, _, -, ⟨v, x⟩, hx, h⟩ := h
        obtain ⟨hf, ha⟩ := contextOf_frame hg hc
        exact (((hf.trans (trBadRead_frame _)).trans (setWalked_frame _ none)).trans (trLevels_frame _ ha hx)).trans
          (finishTr_frame ha h)
      · injection h with h; subst h; exact (trBadRead_frame _).trans (invalidCycle_frame _ _)

theorem resumeAll_frame {ok : Bool} {use : CacheUse} (l : List PendingReq) {s t : State}
    (h : resumeAll ok use l s = .ok t) : TransFrame s t := by
  induction l generalizing s with
  | nil => simp only [resumeAll, Except.ok.injEq] at h; rw [← h]; exact .refl _
  | cons q l ih =>
    simp only [resumeAll, bind_ok] at h
    obtain ⟨u, hu, h⟩ := h
    have hq : TransFrame s u := resume_frame (use := use) (q := q) (by cases ok <;> simp_all)
    exact (hq.trans (setWalked_frame _ _)).trans (ih h)

/-- A page response (60 R483). -/
theorem pageResponseOp_frame {p : BitVec 20} {va : Word64} {ok : Bool} {use : CacheUse} {s t : State}
    (h : pageResponseOp p va ok use s = .ok t) : TransFrame s t := by
  unfold pageResponseOp at h
  refine TransFrame.trans ?_ (resumeAll_frame _ h)
  exact .of_eq rfl rfl rfl rfl rfl rfl

end Sys2Proof.Machine
end

