-- ==== Sys2Proof/Laws/Delivery.lean ====
section
/-! SUPPORT. Messages, resets, invalidations and register writes: what they can do, and what they keep of the invariant and
of the PASID_State counters. -/

namespace Sys2Proof.Machine

/-! ## The invariant by parts -/

theorem banks_all_iff (b : Banks) (p : Bank → Bool) : b.all p = true ↔ ∀ e, p (b.get e) = true := by
  constructor
  · intro h e; simp only [Banks.all, Bool.and_eq_true] at h; cases e <;> simp [Banks.get, h]
  · intro h
    have h1 := h .rcs; have h2 := h .bcs; have h3 := h .vecs; have h4 := h .vcs0; have h5 := h .vcs1
    simp only [Banks.get] at h1 h2 h3 h4 h5
    simp [Banks.all, h1, h2, h3, h4, h5]

theorem Bank.consistent_iff (p : Platform) (b : Bank) : b.consistent p = true ↔
    b.hs = .running ∨ b.hs = .launchedReceived ∨
      ((p.keepPasidCache = true ∨ b.pc.valid = false) ∧ b.resident = none ∧ b.stopped = false) := by
  simp [Bank.consistent, or_assoc, and_assoc]

/-- The consistency of every bank. -/
theorem State.Tidy.bank {s : State} (h : s.Tidy) (e : Engine) : (s.bank e).consistent s.plat = true :=
  (banks_all_iff s.banks _).mp h.2.2.1 e

/-- One bank changes: the count changes by that bank's part. -/
theorem countResident_set (b : Banks) (e : Engine) (x : Bank) (p : Nat) :
    (b.set e x).countResident p + (b.get e).counted p = b.countResident p + x.counted p := by
  cases e <;> simp only [Banks.countResident, Banks.set, Banks.get] <;> omega

theorem counted_le (b : Banks) (e : Engine) (p : Nat) : (b.get e).counted p ≤ b.countResident p := by
  cases e <;> simp only [Banks.countResident, Banks.get] <;> omega

theorem countResident_congr (b b' : Banks) (p : Nat) (h : ∀ e, (b.get e).resident = (b'.get e).resident) :
    b.countResident p = b'.countResident p := by
  have h1 := h .rcs; have h2 := h .bcs; have h3 := h .vecs; have h4 := h .vcs0; have h5 := h .vcs1
  simp only [Banks.get] at h1 h2 h3 h4 h5
  simp [Banks.countResident, Bank.counted, h1, h2, h3, h4, h5]

theorem Regs.reservedClear_count (g : Regs) (n : Nat) : ({ g with nullTileCount := n } : Regs).reservedClear = g.reservedClear :=
  rfl

/-- A calm operation keeps the invariant. -/
theorem Calm.tidy {s t : State} (h : Calm s t) (hi : s.Tidy) : t.Tidy := by
  refine ⟨h.wf hi.1, ?_, ?_, ?_⟩
  · rw [h.regs, Regs.reservedClear_count]; exact hi.2.1
  · rw [banks_all_iff]
    intro e
    have hb := (Bank.consistent_iff _ _).mp (hi.bank e)
    have h1 := h.hs e; have h2 := h.resident e; have h3 := h.pc e; have h4 := h.stopped e
    simp only [State.bank, Bank.active, Bool.or_eq_true, beq_iff_eq] at h1 h2 h3 h4 hb
    rw [Bank.consistent_iff, h1, h2, h.plat]
    by_cases hrun : (s.banks.get e).hs = .running
    · exact .inl hrun
    by_cases hlau : (s.banks.get e).hs = .launchedReceived
    · exact .inr (.inl hlau)
    obtain ⟨hb, hr, hst⟩ := (hb.resolve_left hrun).resolve_left hlau
    refine .inr (.inr ⟨hb.imp_right fun hb => ?_, hr, ?_⟩)
    · cases hv : (t.banks.get e).pc.valid
      · rfl
      · rcases h3 hv with h | h
        · rw [hb] at h; cases h
        · exact absurd h hrun
    · cases hv : (t.banks.get e).stopped
      · rfl
      · rcases h4 hv with h | h | h
        · rw [hst] at h; cases h
        · exact absurd h hlau
        · exact absurd h hrun
  · rw [h.pasid]; exact hi.2.2.2

/-- A calm operation keeps the counters right. -/
theorem Calm.counts {s t : State} (h : Calm s t) (hc : s.countsResidents) : t.countsResidents := by
  intro p
  rw [h.pasid, hc p]
  exact countResident_congr _ _ _ (fun e => (h.resident e).symm)

/-! ## Counters -/

theorem Calm.inv {s t : State} (h : Calm s t) (hg : s.Inv) : t.Inv := ⟨h.tidy hg.1, h.counts hg.2⟩

/-- The invariant after a change of one bank. -/
theorem tidy_setBank {s : State} {e : Engine} {b : Bank} (hi : s.Tidy) (hb : b.consistent s.plat = true) : (s.setBank e b).Tidy := by
  refine ⟨hi.1, hi.2.1, ?_, hi.2.2.2⟩
  rw [banks_all_iff]
  intro e'
  have := setBank_bank s e e' b
  simp only [State.bank] at this
  rw [this]
  split
  · exact hb
  · exact hi.bank e'

/-- The counters after a change of one bank that keeps its resident context. -/
theorem counts_setBank {s : State} {e : Engine} {b : Bank} (hc : s.countsResidents)
    (hr : b.resident = (s.bank e).resident) : (s.setBank e b).countsResidents := by
  intro p
  rw [setBank_iommu, hc p]
  refine countResident_congr _ _ _ (fun e' => ?_)
  have := setBank_bank s e e' b
  simp only [State.bank] at this hr
  rw [this]
  split
  · next h => subst h; exact hr.symm
  · rfl

/-- Retiring the context of an engine (70 R515): its counter falls by one, and it has no context. -/
theorem retire_spec (s : State) (e : Engine) :
    ((s.bank e).resident = none ∧ retire s e = s) ∨
    ∃ p, (s.bank e).resident = some p ∧
      retire s e = (setPasidCount s p (pasidCount s p - 1)).setBank e { s.bank e with resident := none } := by
  unfold retire
  split
  · next h => exact .inl ⟨h, rfl⟩
  · next p h => exact .inr ⟨p, h, rfl⟩

theorem retire_bank (s : State) (e e' : Engine) :
    (retire s e).bank e' = if e' = e then { s.bank e with resident := none } else s.bank e' := by
  rcases retire_spec s e with ⟨h, hr⟩ | ⟨p, h, hr⟩ <;> rw [hr]
  · split
    · next he =>
      subst he
      rw [show (s.bank e') = { s.bank e' with resident := (s.bank e').resident } from rfl, h]
    · rfl
  · exact setBank_bank _ _ _ _

/-- Retiring keeps everything but the counter and the engine's resident context. -/
theorem retire_inv {s : State} (e : Engine) (hg : s.Inv) : State.Inv (retire s e) := by
  rcases retire_spec s e with ⟨h, hr⟩ | ⟨p, h, hr⟩ <;> rw [hr]
  · exact hg
  · obtain ⟨hi, hc⟩ := hg
    have hs : (setPasidCount s p (pasidCount s p - 1)).Tidy := ⟨hi.1, hi.2.1, hi.2.2.1, sparseWf_set _ _ _ _ hi.2.2.2⟩
    refine ⟨tidy_setBank hs ?_, ?_⟩
    · have hb := (Bank.consistent_iff _ _).mp (hi.bank e)
      rw [Bank.consistent_iff]
      rcases hb with hb | hb | ⟨hb, hn⟩
      · exact .inl hb
      · exact .inr (.inl hb)
      · rw [h] at hn; cases hn.1
    · intro q
      have h1 := countResident_set s.banks e { s.bank e with resident := none } q
      have h2 : (s.banks.get e).counted q = if p.toNat = q then 1 else 0 := by
        have : (s.banks.get e).resident = some p := h
        simp [Bank.counted, this]
      have h3 : ({ s.bank e with resident := none } : Bank).counted q = 0 := by simp [Bank.counted]
      have h4 := hc q
      have h6 := hc p.toNat
      have h5 := counted_le s.banks e q
      simp only [setBank_iommu, setBank_banks, setPasidCount, setIommu_iommu, setIommu_banks, pasidCount]
      rw [sparseGet_set 0 s.iommu.pasidState 0 p.toNat q _ hi.2.2.2]
      split
      · next hq =>
        subst hq
        rw [if_pos rfl] at h2
        simp only [State.bank] at h1 h3 ⊢
        omega
      · next hq =>
        rw [if_neg (Ne.symm hq)] at h2
        simp only [State.bank] at h1 h3 ⊢
        omega

/-- Installing a context on an engine that has none (70 R515). -/
theorem install_inv {s : State} (e : Engine) (p : BitVec 20) (hg : s.Inv) (hn : (s.bank e).resident = none)
    (hh : (s.bank e).hs = .launchedReceived) : State.Inv (install s e p) := by
  obtain ⟨hi, hc⟩ := hg
  have hs : (setPasidCount s p (pasidCount s p + 1)).Tidy := ⟨hi.1, hi.2.1, hi.2.2.1, sparseWf_set _ _ _ _ hi.2.2.2⟩
  refine ⟨tidy_setBank hs ((Bank.consistent_iff _ _).mpr (.inr (.inl hh))), ?_⟩
  intro q
  have h1 := countResident_set s.banks e { s.bank e with resident := some p } q
  have h2 : (s.banks.get e).counted q = 0 := by
    have : (s.banks.get e).resident = none := hn
    simp [Bank.counted, this]
  have h3 : ({ s.bank e with resident := some p } : Bank).counted q = if p.toNat = q then 1 else 0 := by
    simp [Bank.counted]
  have h4 := hc q
  simp only [install, setBank_iommu, setBank_banks, setPasidCount, setIommu_iommu, setIommu_banks, pasidCount]
  rw [sparseGet_set 0 s.iommu.pasidState 0 p.toNat q _ hi.2.2.2]
  split
  · next hq =>
    subst hq
    rw [if_pos rfl] at h3
    simp only [State.bank] at h1 h3 ⊢
    omega
  · next hq =>
    rw [if_neg (Ne.symm hq)] at h3
    simp only [State.bank] at h1 h3 ⊢
    omega

/-! ## Messages -/

theorem sendReady_inv {s : State} {e : Engine} (hg : s.Inv) (hh : (s.bank e).hs = .availableReceived) :
    State.Inv (sendReady s e) := by
  have hb := (Bank.consistent_iff _ _).mp (hg.1.bank e)
  rw [hh] at hb
  have h1 : State.Inv (setHs s e .readySent) := by
    refine ⟨tidy_setBank hg.1 ((Bank.consistent_iff _ _).mpr ?_), counts_setBank hg.2 rfl⟩
    rcases hb with hb | hb | hb
    · cases hb
    · cases hb
    · exact .inr (.inr hb)
  exact (emit_frame _ _).toCalm.inv h1

theorem sendConfirmed_inv {s : State} {e : Engine} (hg : s.Inv) : State.Inv (sendConfirmed s e) :=
  (emit_frame _ _).toCalm.inv
    ⟨tidy_setBank hg.1 ((Bank.consistent_iff _ _).mpr (.inl rfl)), counts_setBank hg.2 rfl⟩

theorem readyIfDrained_inv {s : State} {e : Engine} (hg : s.Inv) (hh : (s.bank e).hs = .availableReceived) :
    State.Inv (readyIfDrained s e) := by
  unfold readyIfDrained; split
  · exact hg
  · exact sendReady_inv hg hh

theorem leavePending_frame (s : State) (e : Engine) : TransFrame s (leavePending s e) := setReqs_frame _ _

theorem dropStopped_frame (s : State) (e : Engine) : TransFrame s (dropStopped s e) := by
  unfold dropStopped; split
  · exact setReqs_frame _ _
  · exact .refl s

theorem msgAvailable_inv {e : Engine} {s t : State} (hg : s.Inv) (h : msgAvailable e s = .ok t) : t.Inv := by
  simp only [msgAvailable, bind_ok, Except.ok.injEq] at h
  obtain ⟨_, -, h⟩ := h
  have h1 := retire_inv e (((dropStopped_frame s e).trans (leavePending_frame _ e)).toCalm.inv hg)
  generalize hu : retire (leavePending (dropStopped s e) e) e = u at h1 h
  have hr : (u.bank e).resident = none := by rw [← hu, retire_bank]; simp
  have h2 : State.Inv (u.setBank e { u.bank e with
      pc := { (u.bank e).pc with valid := false }, hs := .availableReceived, stopped := false }) :=
    ⟨tidy_setBank h1.1 ((Bank.consistent_iff _ _).mpr (.inr (.inr ⟨.inr rfl, hr, rfl⟩))), counts_setBank h1.2 rfl⟩
  rw [← h]
  split
  · exact h2
  · exact readyIfDrained_inv h2 (by simp)

theorem msgReceiveReady_inv {e : Engine} {s t : State} (hg : s.Inv) (h : msgReceiveReady e s = .ok t) : t.Inv := by
  simp only [msgReceiveReady, bind_ok, Except.ok.injEq, require_ok, beq_iff_eq] at h
  obtain ⟨_, hh, rfl⟩ := h
  exact readyIfDrained_inv hg hh

theorem msgConfirmed_inv {e : Engine} {s t : State} (hg : s.Inv) (h : msgConfirmed e s = .ok t) : t.Inv := by
  simp only [msgConfirmed, bind_ok, Except.ok.injEq] at h
  obtain ⟨_, -, rfl⟩ := h
  exact sendConfirmed_inv hg

theorem invalidateEngine_frame (e : Engine) (s : State) : TransFrame s (invalidateEngine e s) := .of_eq rfl rfl rfl rfl rfl rfl

theorem checkValid_frame (s : State) (e : Engine) (d : Word64) : TransFrame s (checkValid s e d) := by
  unfold checkValid; split
  · exact .refl s
  · exact emit_frame _ _

/-- The context requirements of an advanced context (45 R355). -/
theorem launchAdvanced_inv {s t : State} {e : Engine} {d : Word64} (hg : s.Inv) (hn : (s.bank e).resident = none)
    (hh : (s.bank e).hs = .launchedReceived) (h : launchAdvanced s e d = .ok t) : t.Inv := by
  simp only [launchAdvanced, bind_ok, Except.ok.injEq] at h
  obtain ⟨_, -, pdp0, -, u, hu, ⟨v, x⟩, hv, rfl⟩ := h
  obtain ⟨y, -, rfl⟩ := fillPc_spec.mp hu
  have h1 : State.Inv (s.setBank e { s.bank e with pc := ⟨true, y.pml4, y.eafe, y.fl64kpe⟩ }) :=
    ⟨tidy_setBank hg.1 ((Bank.consistent_iff _ _).mpr (.inr (.inl hh))), counts_setBank hg.2 rfl⟩
  have h2 := lookupCtx_frame hv
  refine install_inv e _ (h2.toCalm.inv h1) ?_ ?_
  · rw [h2.resident]; simp [hn]
  · rw [h2.hs]; simp [hh]

theorem msgLaunched_inv {e : Engine} {s t : State} (hg : s.Inv) (h : msgLaunched e s = .ok t) : t.Inv := by
  simp only [msgLaunched, bind_ok, Except.ok.injEq, require_ok, beq_iff_eq] at h
  obtain ⟨_, hh, d, -, m, -, _, -, _, -, u, hu, h⟩ := h
  have hb := (Bank.consistent_iff _ _).mp (hg.1.bank e)
  rw [hh] at hb
  have hn : (s.bank e).resident = none := by
    rcases hb with hb | hb | hb
    · cases hb
    · cases hb
    · exact hb.2.1
  have h1 : State.Inv (setHs s e .launchedReceived) :=
    ⟨tidy_setBank hg.1 ((Bank.consistent_iff _ _).mpr (.inr (.inl rfl))), counts_setBank hg.2 rfl⟩
  have hf := (checkValid_frame (setHs s e .launchedReceived) e d).trans (invalidateEngine_frame e _)
  have h2 := hf.toCalm.inv h1
  have h3 : u.Inv := by
    split at hu
    · refine launchAdvanced_inv h2 ?_ ?_ hu
      · rw [hf.resident]; simp [setHs, hn]
      · rw [hf.hs]; simp [setHs]
    · injection hu with hu; subst hu; exact h2
  rw [← h]
  split
  · exact h3
  · exact sendConfirmed_inv h3

theorem csMessage_inv {e : Engine} {v : Word32} {s t : State} (hg : s.Inv) (h : csMessage e v s = .ok t) : t.Inv := by
  simp only [csMessage, bind_ok] at h
  obtain ⟨_, -, _, -, h⟩ := h
  split at h
  · exact msgAvailable_inv hg h
  · split at h
    · exact msgLaunched_inv hg h
    · injection h with h; subst h; exact hg

theorem csMessageAt_inv {o : Nat} {v : Word32} {s t : State} (hg : s.Inv) (h : csMessageAt o v s = .ok t) : t.Inv := by
  unfold csMessageAt at h
  split at h
  · simp at h
  · exact csMessage_inv hg h

theorem csWrite_inv {e : Engine} {d : DescName} {b : Bool} {v : Word32} {s t : State} (hg : s.Inv)
    (h : csWrite e d b v s = .ok t) : t.Inv := by
  simp only [csWrite, bind_ok, Except.ok.injEq] at h
  obtain ⟨_, -, rfl⟩ := h
  have hd : ∀ x, ((s.bank e).setDesc d x).hs = (s.bank e).hs ∧ ((s.bank e).setDesc d x).resident = (s.bank e).resident ∧
      ((s.bank e).setDesc d x).pc = (s.bank e).pc ∧ ((s.bank e).setDesc d x).stopped = (s.bank e).stopped := by
    intro x; cases d <;> exact ⟨rfl, rfl, rfl, rfl⟩
  have hb := (Bank.consistent_iff _ _).mp (hg.1.bank e)
  refine ⟨tidy_setBank hg.1 ((Bank.consistent_iff _ _).mpr ?_), counts_setBank hg.2 (hd _).2.1⟩
  rw [(hd _).1, (hd _).2.1, (hd _).2.2.1, (hd _).2.2.2]; exact hb

/-! ## Invalidations -/

/-- What an invalidation of PASID Caches keeps: a PASID Cache may only become invalid. -/
theorem invalidatePc_frame (sc : SvmScope) (s : State) : TransFrame s (invalidatePc sc s) := by
  have hb : ∀ e, (s.banks.dropPc sc).get e = (s.banks.get e).dropPc sc := by intro e; cases e <;> rfl
  have hd : ∀ b : Bank, (b.dropPc sc).hs = b.hs ∧ (b.dropPc sc).resident = b.resident ∧
      ((b.dropPc sc).pc.valid = true → b.pc.valid = true) ∧ (b.dropPc sc).stopped = b.stopped := by
    intro b; unfold Bank.dropPc; split <;> simp
  refine ⟨⟨rfl, rfl, id, rfl, fun e => ?_, fun e => ?_, fun e h => .inl ?_, rfl, fun e h => .inl ?_⟩,
    fun _ => onlySetsADE_of_mem rfl⟩
  · exact (congrArg Bank.hs (hb e)).trans (hd _).1
  · exact (congrArg Bank.resident (hb e)).trans (hd _).2.1
  · have : ((s.banks.dropPc sc).get e).pc.valid = true := h
    rw [hb] at this; exact (hd _).2.2.1 this
  · have : ((s.banks.dropPc sc).get e).stopped = true := h
    rw [hb, (hd _).2.2.2] at this; exact this

theorem setCc_frame (s : State) (l : List CtxEntry) : TransFrame s (s.setIommu { s.iommu with cc := l }) :=
  ⟨⟨rfl, rfl, id, rfl, fun _ => rfl, fun _ => rfl, fun _ h => .inl h, rfl, fun _ h => .inl h⟩, fun _ => onlySetsADE_of_mem rfl⟩

theorem invalidateCc_frame (s : State) : TransFrame s (invalidateCc s) :=
  ((setCc_frame s []).trans (invalidatePc_frame .global _)).trans (setCaches_frame _ _)

theorem invalidateSvm_frame (sc : SvmScope) (st : SvmStages) (s : State) : TransFrame s (invalidateSvm sc st s) := by
  have h1 : ∀ (b : Bool) (u v : State), TransFrame u v → TransFrame u (if b then v else u) := by
    intro b u v h; cases b
    · exact .refl u
    · exact h
  unfold invalidateSvm
  exact ((((h1 _ _ _ (setCaches_frame _ _)).trans (h1 _ _ _ (setCaches_frame _ _))).trans
    (h1 _ _ _ (invalidatePc_frame sc _))).trans (h1 _ _ _ (invalidateCc_frame _))).trans (setWalked_frame _ _)

/-! ## Resets -/

theorem Banks.get_map (f : Bank → Bank) (b : Banks) (e : Engine) : (b.map f).get e = f (b.get e) := by cases e <;> rfl

/-- The invariant after a change of every bank that keeps its hand-shake, its resident context and its stop, and makes no PASID
Cache valid. -/
theorem mapBanks_inv {s : State} {f : Bank → Bank} (hg : s.Inv)
    (hf : ∀ b, (f b).hs = b.hs ∧ (f b).resident = b.resident ∧ (f b).stopped = b.stopped ∧
      ((f b).pc.valid = true → b.pc.valid = true)) : State.Inv (s.setBanks (s.banks.map f)) := by
  have hb : ∀ e, (s.setBanks (s.banks.map f)).bank e = f (s.bank e) := fun e => Banks.get_map f s.banks e
  have hc : Calm s (s.setBanks (s.banks.map f)) := by
    refine ⟨rfl, rfl, id, rfl, fun e => ?_, fun e => ?_, fun e h => .inl ?_, rfl, fun e h => .inl ?_⟩
    · rw [hb]; exact (hf _).1
    · rw [hb]; exact (hf _).2.1
    · rw [hb] at h; exact (hf _).2.2.2 h
    · rw [hb, (hf _).2.2.1] at h; exact h
  exact hc.inv hg

/-- The PASID Cache of a reset engine is kept, or invalid (70 R511; log 41). -/
theorem resetBank_pc_or (keepPc : Bool) (n : Nat) (b : Bank) : keepPc = true ∨ (resetBank keepPc n b).pc.valid = false := by
  cases keepPc <;> simp [resetBank, PasidCache.invalid]

theorem resetEngineOp_plat (k : Bool) (e : Engine) (s : State) : (resetEngineOp k e s).plat = s.plat := by
  rcases retire_spec s e with ⟨-, hr⟩ | ⟨p, -, hr⟩ <;> simp only [resetEngineOp, hr] <;> rfl

/-- The reset of an engine keeps the invariant, where it keeps a PASID Cache only if the part does. -/
theorem resetEngineOp_inv {s : State} {k : Bool} (e : Engine) (hk : k = true → s.plat.keepPasidCache = true) (hg : s.Inv) :
    State.Inv (resetEngineOp k e s) := by
  have h1 := retire_inv e hg
  have h2 : State.Inv (discardRequests (.engine e) (retire s e)) := (setReqs_frame _ _).toCalm.inv h1
  have hf : State.Inv ((discardRequests (.engine e) (retire s e)).setFree ((discardRequests (.engine e) (retire s e)).free + 5)) :=
    (TransFrame.of_eq rfl rfl rfl rfl rfl rfl : TransFrame (discardRequests (.engine e) (retire s e)) _).toCalm.inv h2
  refine ⟨tidy_setBank hf.1 ((Bank.consistent_iff _ _).mpr (.inr (.inr ⟨?_, rfl, rfl⟩))), counts_setBank hf.2 ?_⟩
  · refine (resetBank_pc_or k _ _).imp_left fun h => ?_
    rw [← hk h]
    rcases retire_spec s e with ⟨-, hr⟩ | ⟨p, -, hr⟩ <;> rw [hr] <;> rfl
  · have : ((retire s e).bank e).resident = none := by rw [retire_bank]; simp
    exact this.symm

theorem resetWdbox_inv {s : State} (hg : s.Inv) : State.Inv (resetWdbox s) :=
  (TransFrame.of_eq rfl rfl rfl rfl rfl rfl : TransFrame s (resetWdbox s)).toCalm.inv hg

theorem resetVebox2_inv {s : State} (hg : s.Inv) : State.Inv (resetVebox2 s) :=
  (TransFrame.of_eq rfl rfl rfl rfl rfl rfl : TransFrame s (resetVebox2 s)).toCalm.inv hg

theorem resetSource_inv {s : State} (src : Source) (hg : s.Inv) : State.Inv (resetSource src s) := by
  cases src with
  | engine e => exact resetEngineOp_inv e (fun h => by cases h) hg
  | wdbox => exact resetWdbox_inv hg
  | vebox2 => exact resetVebox2_inv hg
  | display => exact hg
  | aperture => exact hg

theorem resetAllSources_inv {s : State} (hg : s.Inv) : State.Inv (resetAllSources s) := by
  have h (e : Engine) {t : State} (ht : t.plat = s.plat ∧ t.Inv) :
      (resetEngineOp s.plat.keepPasidCache e t).plat = s.plat ∧ State.Inv (resetEngineOp s.plat.keepPasidCache e t) :=
    ⟨(resetEngineOp_plat _ _ _).trans ht.1, resetEngineOp_inv e (fun hk => by rw [ht.1]; exact hk) ht.2⟩
  exact resetVebox2_inv (resetWdbox_inv (h .bcs (h .vecs (h .vcs1 (h .vcs0 (h .rcs ⟨rfl, hg⟩))))).2)

theorem resetRegs_reservedClear (n : Nat) : (resetRegs n).reservedClear = true := by
  simp [Regs.reservedClear, resetRegs, field]

theorem resetDeviceOp_inv {s : State} (hg : s.Inv) : State.Inv (resetDeviceOp s) := by
  have h1 := resetAllSources_inv hg
  have h2 : State.Inv (((resetAllSources s).setRegs (resetRegs (resetAllSources s).free)).setFree ((resetAllSources s).free + 3)) :=
    ⟨⟨h1.1.1, resetRegs_reservedClear _, h1.1.2.2.1, h1.1.2.2.2⟩, h1.2⟩
  exact (setReqs_frame _ _).toCalm.inv (mapBanks_inv h2 fun _ => ⟨rfl, rfl, rfl, id⟩)

/-- The banks after the reset of one engine (70 R511). -/
theorem resetEngineOp_bank (k : Bool) (e e' : Engine) (s : State) :
    (resetEngineOp k e s).bank e' = if e' = e then resetBank k s.free (s.bank e) else s.bank e' := by
  have hf : (discardRequests (.engine e) (retire s e)).free = s.free := by
    rcases retire_spec s e with ⟨-, hr⟩ | ⟨p, -, hr⟩ <;> rw [hr] <;> rfl
  have hd : ∀ x, (discardRequests (.engine e) (retire s e)).bank x = (retire s e).bank x := fun _ => rfl
  have hb : ∀ n x, ((discardRequests (.engine e) (retire s e)).setFree n).bank x = (retire s e).bank x := fun _ _ => rfl
  simp only [resetEngineOp]
  rw [setBank_bank, hf, hb, hd, retire_bank, retire_bank]
  split
  · simp only [if_true]; rfl
  · rfl

theorem resetWdbox_bank (s : State) (e : Engine) : (resetWdbox s).bank e = s.bank e := rfl
theorem resetVebox2_bank (s : State) (e : Engine) : (resetVebox2 s).bank e = s.bank e := rfl

/-- The banks after a device reset: those of engine resets, of which no descriptor register counts as written (70 R511, R514,
93 U1). -/
theorem resetDeviceOp_bank (s : State) (e : Engine) :
    ∃ n, (resetDeviceOp s).bank e = (resetBank s.plat.keepPasidCache n (s.bank e)).unwritten := by
  have h : (resetDeviceOp s).bank e = ((resetAllSources s).bank e).unwritten := Banks.get_map _ _ _
  rw [h, resetAllSources, resetVebox2_bank, resetWdbox_bank]
  cases e <;> simp only [resetEngineOp_bank] <;> exact ⟨_, rfl⟩

/-- The banks after a bus reset: the PASID Caches are cleared too (10 R70). -/
theorem resetBusOp_bank (s : State) (e : Engine) :
    ∃ n, (resetBusOp s).bank e = (resetBank s.plat.keepPasidCache n (s.bank e)).unwritten.clearPc := by
  obtain ⟨n, hn⟩ := resetDeviceOp_bank s e
  exact ⟨n, by rw [← hn]; exact Banks.get_map _ _ _⟩

/-- Every engine has no resident context after a device reset. -/
theorem resetDeviceOp_resident (s : State) (e : Engine) : ((resetDeviceOp s).bank e).resident = none := by
  obtain ⟨n, hn⟩ := resetDeviceOp_bank s e
  rw [hn]; rfl

theorem resetBusOp_inv {s : State} (hg : s.Inv) : State.Inv (resetBusOp s) := by
  have h1 : State.Inv ((resetDeviceOp s).setBanks ((resetDeviceOp s).banks.map Bank.clearPc)) :=
    mapBanks_inv (resetDeviceOp_inv hg) fun _ => ⟨rfl, rfl, rfl, fun h => by cases h⟩
  refine ⟨⟨h1.1.1, h1.1.2.1, h1.1.2.2.1, rfl⟩, fun p => ?_⟩
  have h := countResident_congr ((resetDeviceOp s).banks.map Bank.clearPc) ⟨.initial, .initial, .initial, .initial, .initial⟩ p
    fun e => by
      rw [Banks.get_map]
      exact (resetDeviceOp_resident s e).trans (by cases e <;> rfl)
  exact h.symm

/-! ## Register writes and CPU accesses -/

/-- The bits of a field. -/
theorem field_ofNat (n lo k : Nat) (h : n < 2 ^ 64) : field (BitVec.ofNat 64 n) lo k = n / 2 ^ lo % 2 ^ k := by
  rw [field, BitVec.toNat_ofNat, Nat.mod_eq_of_lt h]

theorem field_lt (v : Word64) (lo k : Nat) : field v lo k < 2 ^ k := Nat.mod_lt _ (by positivity)

theorem l3WithLo_reserved (old : Word64) (v : Word32) :
    field (l3WithLo old v) 0 16 = 0 ∧ field (l3WithLo old v) 48 16 = 0 := by
  have h1 := field_lt old 32 16
  have h2 : v.toNat < 2 ^ 32 := v.isLt
  unfold l3WithLo
  rw [field_ofNat _ _ _ (by omega), field_ofNat _ _ _ (by omega)]
  omega

theorem l3WithHi_reserved (old : Word64) (v : Word32) :
    field (l3WithHi old v) 0 16 = 0 ∧ field (l3WithHi old v) 48 16 = 0 := by
  have h1 := field_lt old 16 16
  have h2 : v.toNat < 2 ^ 32 := v.isLt
  unfold l3WithHi
  rw [field_ofNat _ _ _ (by omega), field_ofNat _ _ _ (by omega)]
  omega

/-- A state with other registers whose reserved bits are clear. -/
theorem setRegs_inv {s : State} {g : Regs} (hg : s.Inv) (h : g.reservedClear = true) : State.Inv (s.setRegs g) :=
  ⟨⟨hg.1.1, h, hg.1.2.2.1, hg.1.2.2.2⟩, hg.2⟩

theorem reservedClear_iff (g : Regs) : g.reservedClear = true ↔
    field g.trttL3ptr 0 16 = 0 ∧ field g.trttL3ptr 48 16 = 0 ∧ g.trvadr.toNat < 2 ^ 8 ∧ g.trtte.toNat < 2 ^ 2 := by
  simp [Regs.reservedClear, and_assoc]

theorem regWrite_inv {r : RegName} {v : Word32} {s t : State} (hg : s.Inv) (h : regWrite r v s = .ok t) : t.Inv := by
  have hr := (reservedClear_iff _).mp hg.1.2.1
  cases r <;> simp only [regWrite, Except.ok.injEq, refuse_ne_ok, bind_ok] at h <;>
    first | subst h | (obtain ⟨_, -, rfl⟩ := h)
  all_goals refine setRegs_inv hg ((reservedClear_iff _).mpr ?_)
  · exact ⟨(l3WithLo_reserved _ _).1, (l3WithLo_reserved _ _).2, hr.2.2⟩
  · exact ⟨(l3WithHi_reserved _ _).1, (l3WithHi_reserved _ _).2, hr.2.2⟩
  · exact hr
  · exact hr
  · refine ⟨hr.1, hr.2.1, ?_, hr.2.2.2⟩
    show (v &&& 0xFF).toNat < 2 ^ 8
    rw [BitVec.toNat_and]; exact Nat.and_lt_two_pow _ (by decide)
  · refine ⟨hr.1, hr.2.1, hr.2.2.1, ?_⟩
    show (v &&& 0x3).toNat < 2 ^ 2
    rw [BitVec.toNat_and]; exact Nat.and_lt_two_pow _ (by decide)
  · exact hr
  · exact hr
  · exact hr

theorem regRead_frame (r : RegName) (s : State) : TransFrame s (regRead r s) := by
  cases r <;> exact .of_eq rfl rfl rfl rfl rfl rfl

theorem mmioRead_frame {o n : Nat} {s t : State} (h : mmioRead o n s = .ok t) : TransFrame s t := by
  simp only [mmioRead, bind_ok, Except.ok.injEq] at h
  obtain ⟨_, -, ⟨u, v⟩, hu, rfl⟩ := h
  refine TransFrame.trans ?_ (emit_frame _ _)
  unfold mmioDword at hu
  split at hu
  · simp only [Except.ok.injEq, Prod.mk.injEq] at hu; rw [← hu.1]; exact .of_eq rfl rfl rfl rfl rfl rfl
  · simp only [Except.ok.injEq, Prod.mk.injEq] at hu; rw [← hu.1]; exact .of_eq rfl rfl rfl rfl rfl rfl
  · simp only [Except.ok.injEq, Prod.mk.injEq] at hu; rw [← hu.1]; exact .refl _
  · simp only [Except.ok.injEq, Prod.mk.injEq] at hu; rw [← hu.1]; exact .refl _
  · simp only [Except.ok.injEq, Prod.mk.injEq] at hu; rw [← hu.1]; exact .of_eq rfl rfl rfl rfl rfl rfl
  · simp at hu

theorem mmioWrite_inv {o : Nat} {d : List Byte} {s t : State} (hg : s.Inv) (h : mmioWrite o d s = .ok t) : t.Inv := by
  simp only [mmioWrite, bind_ok] at h
  obtain ⟨_, -, h⟩ := h
  split at h
  · split at h <;> injection h with h <;> subst h
    · exact setRegs_inv hg hg.1.2.1
    · exact hg
  · split at h <;> injection h with h <;> subst h
    · exact setRegs_inv hg hg.1.2.1
    · exact hg
  · injection h with h; subst h; exact hg
  · injection h with h; subst h; exact hg
  · injection h with h; subst h; exact hg
  · simp at h

theorem aliasWrite_calm {off : Nat} {d : List Byte} {s t : State} (h : aliasWrite off d s = .ok t) : Calm s t := by
  simp only [aliasWrite, bind_ok] at h
  obtain ⟨_, -, h⟩ := h; exact memWrite_calm h

theorem aliasRead_frame {off n : Nat} {s t : State} (h : aliasRead off n s = .ok t) : TransFrame s t := by
  simp only [aliasRead, bind_ok, Except.ok.injEq] at h
  obtain ⟨_, -, _, -, rfl⟩ := h; exact emit_frame _ _

theorem miUpdate_calm {g : Word32} {v : Word64} {s t : State} (h : miUpdate g v s = .ok t) : Calm s t := by
  simp only [miUpdate, bind_ok] at h
  obtain ⟨_, -, h⟩ := h; exact memWrite_calm h

theorem cpuRead_frame {a n : Nat} {use : CacheUse} {s t : State} (h : cpuRead a n use s = .ok t) : TransFrame s t := by
  simp only [cpuRead, bind_ok] at h
  obtain ⟨g, -, h⟩ := h
  split at h
  · exact mmioRead_frame h
  · simp at h
  · simp only [bind_ok] at h
    obtain ⟨_, -, h⟩ := h; exact aliasRead_frame h
  · exact translate_frame h
  · simp at h
  · simp only [bind_ok, Except.ok.injEq] at h
    obtain ⟨_, -, rfl⟩ := h; exact emit_frame _ _

theorem cpuWrite_inv {a : Nat} {d : List Byte} {use : CacheUse} {s t : State} (hg : s.Inv)
    (h : cpuWrite a d use s = .ok t) : t.Inv := by
  simp only [cpuWrite, bind_ok] at h
  obtain ⟨g, -, h⟩ := h
  split at h
  · exact mmioWrite_inv hg h
  · simp at h
  · simp only [bind_ok] at h
    obtain ⟨_, -, h⟩ := h; exact (aliasWrite_calm h).inv hg
  · exact (translate_frame h).toCalm.inv hg
  · simp at h
  · exact (memWrite_calm h).inv hg

theorem evict_frame (c : CacheName) (k : Nat) (s : State) : TransFrame s (evict c k s) := by
  cases c
  case cc => exact setCc_frame _ _
  all_goals exact setCaches_frame _ _

theorem evictPc_frame (e : Engine) (s : State) : TransFrame s (evictPc e s) :=
  .of_bank rfl rfl (fun h => by simp at h) .inl

theorem prefetchPml4_frame {k idx : Nat} {s t : State} (h : prefetchPml4 k idx s = .ok t) : TransFrame s t := by
  unfold prefetchPml4 at h
  split at h
  · injection h with h; subst h; exact .refl _
  · split at h
    · simp only [bind_ok, Except.ok.injEq] at h
      obtain ⟨_, -, rfl⟩ := h
      split
      · exact setCaches_frame _ _
      · exact .refl _
    · injection h with h; subst h; exact .refl _

end Sys2Proof.Machine
end

