-- ==== Sys2Proof/Laws/Refine.lean ====
section
/-! SUPPORT. The walks of the machine and the transcribed pseudo-code of `Rules` agree, without cached copies; and small
lemmas about descriptors, contexts and messages for the statements over them. -/

namespace Sys2Proof.Machine

theorem addrField_frame (haw lo : Nat) (e : Word64) : addrField haw lo e = Rules.frame haw lo e := by
  unfold addrField Rules.frame field
  congr 1
  by_cases h : lo ≤ haw
  · obtain ⟨k, rfl⟩ := Nat.exists_eq_add_of_le h
    rw [Nat.pow_add, Nat.mod_mul_right_div_self, Nat.add_sub_cancel_left]
  · have h1 : 2 ^ haw ≤ 2 ^ lo := Nat.pow_le_pow_right (by decide) (by omega)
    have h2 : e.toNat % 2 ^ haw < 2 ^ haw := Nat.mod_lt _ (by positivity)
    rw [Nat.div_eq_of_lt (by omega), show haw - lo = 0 by omega, Nat.pow_zero, Nat.mod_one]

/-- Reading a line of entries never fails in the address space. -/
theorem readEntries_ok (s : State) (n pa : Nat) (h : pa + 8 * n ≤ 2 ^ s.plat.haw) : ∃ l, readEntries s pa n = .ok l := by
  induction n generalizing pa with
  | zero => exact ⟨[], rfl⟩
  | succ n ih =>
    obtain ⟨l, hl⟩ := ih (pa + 8) (by omega)
    have : memRead64 s pa = .ok (BitVec.ofNat 64 (leNat (s.mem.bytes pa 8))) :=
      memRead64_spec.mpr ⟨by simp [inSpace]; omega, rfl⟩
    exact ⟨_, by simp only [readEntries, this, hl]; rfl⟩

theorem readLine_ok (s : State) (t : Tag) (addr : Nat) (v : Word64) (hh : 6 ≤ s.plat.haw) (h : memRead64 s addr = .ok v) :
    ∃ l, readLine s t addr = .ok l := by
  unfold readLine
  split
  · have hi : addr + 8 ≤ 2 ^ s.plat.haw := by simpa [inSpace] using (memRead64_spec.mp h).1
    obtain ⟨k, hk⟩ := Nat.exists_eq_add_of_le hh
    have h64 : 2 ^ s.plat.haw = 64 * 2 ^ k := by rw [hk, Nat.pow_add]
    obtain ⟨l, hl⟩ := readEntries_ok s 8 (lineBase addr) (by unfold lineBase; omega)
    exact ⟨_, by simp only [hl]; rfl⟩
  · exact ⟨none, rfl⟩

/-- The walk ends as the pseudo-code says, in the same state. -/
def SameEnd (s : State) (x : Res XlateEnd) (y : Res (State × XlateEnd × Option WalkRecord)) : Prop :=
  match x with
  | .ok x => ∃ w, y = .ok (s, x, w)
  | .error e => y = .error e

theorem sameEnd_bind {α : Type} {s : State} (a : Res α) (f : α → Res XlateEnd) (g : α → Res (State × XlateEnd × Option WalkRecord))
    (h : ∀ v, a = .ok v → SameEnd s (f v) (g v)) : SameEnd s (a >>= f) (a >>= g) := by
  cases a with
  | error e => rfl
  | ok v => exact h v rfl

/-- How a walk that looks into no GTT-cache line reads the entries above the page table. -/
def readVia (s : State) (env : WalkEnv) : Rules.Reads :=
  if env.use.pwc then Rules.readCopy s env.ctx.tag else Rules.entry s

/-- How it reads an entry of a level. -/
def levelRead (s : State) (env : WalkEnv) (level : Nat) : Rules.Reads :=
  if level = 1 then Rules.entry s else readVia s env

theorem readVia_noCache (s : State) (env : WalkEnv) (h : env.use.pwc = false) : readVia s env = Rules.entry s := by
  simp [readVia, h]

/-- A fetch without A&D support is a plain read, or the copy (44 R318, 46 R390). -/
theorem fetch_plain (s : State) (env : WalkEnv) (level tbl idx : Nat) (hu : env.use.gtt = false) (ha : env.ctx.ad = false)
    (hh : 6 ≤ s.plat.haw) :
    (∀ v, levelRead s env level tbl idx = .ok v → ∃ l, fetchEntry s env level (tbl + 8 * idx) = .ok (s, some v, l)) ∧
    (∀ e, levelRead s env level tbl idx = .error e → fetchEntry s env level (tbl + 8 * idx) = .error e) := by
  have key : (∀ v, memRead64 s (tbl + 8 * idx) = .ok v →
        ∃ l, (fetchCached s env level (tbl + 8 * idx) = none → fetchEntry s env level (tbl + 8 * idx) = .ok (s, some v, l))) ∧
      (∀ e, memRead64 s (tbl + 8 * idx) = .error e → fetchCached s env level (tbl + 8 * idx) = none →
        fetchEntry s env level (tbl + 8 * idx) = .error e) := by
    constructor
    · intro v hv
      obtain ⟨l, hl⟩ := readLine_ok s env.ctx.tag (tbl + 8 * idx) v hh hv
      by_cases h1 : level = 1
      · subst h1; exact ⟨l, fun hc => by simp [fetchEntry, hc, fetchMemory, ha, hv, hl]⟩
      · exact ⟨none, fun hc => by simp [fetchEntry, hc, fetchMemory, ha, hv, h1]⟩
    · intro e he hc
      simp only [fetchEntry, hc, fetchMemory, ha, he]; rfl
  by_cases h1 : level = 1
  · subst h1
    have hc : fetchCached s env 1 (tbl + 8 * idx) = none := by simp [fetchCached, hu]
    exact ⟨fun v hv => let ⟨l, hl⟩ := key.1 v hv; ⟨l, hl hc⟩, fun e he => key.2 e he hc⟩
  · have hl : levelRead s env level = readVia s env := by simp [levelRead, h1]
    rw [hl]
    cases hp : env.use.pwc with
    | false =>
      have hc : fetchCached s env level (tbl + 8 * idx) = none := by simp [fetchCached, h1, hp]
      rw [readVia_noCache s env hp]
      exact ⟨fun v hv => let ⟨l, hl⟩ := key.1 v hv; ⟨l, hl hc⟩, fun e he => key.2 e he hc⟩
    | true =>
      have hr : readVia s env = Rules.readCopy s env.ctx.tag := by simp [readVia, hp]
      have hc : fetchCached s env level (tbl + 8 * idx) = Rules.copiesOf s env.ctx.tag (tbl + 8 * idx) := by
        simp [fetchCached, h1, hp, pwcFind, Rules.copiesOf]
      rw [hr]
      unfold Rules.readCopy
      cases hcc : Rules.copiesOf s env.ctx.tag (tbl + 8 * idx) with
      | none =>
        rw [hcc] at hc
        exact ⟨fun v hv => let ⟨l, hl⟩ := key.1 v hv; ⟨l, hl hc⟩, fun e he => key.2 e he hc⟩
      | some w =>
        rw [hcc] at hc
        exact ⟨fun v hv => ⟨none, by cases hv; simp [fetchEntry, hc]⟩, fun e he => by cases he⟩

/-- What a walk makes of the end of its levels. -/
def conclude (env : WalkEnv) (x : State × WalkEnd) : Res (State × XlateEnd × Option WalkRecord) :=
  match x with
  | (s, .abandoned log) => .ok (s, .abandoned, some (log.record []))
  | (s, .notPresent level log) => .ok (s, .fault .notPresent level, some (faultRecord env .notPresent log))
  | (s, .leaf level st log) =>
    match st.out with
    | .leaf bits frame null => finishLeaf s env level st log bits frame null
    | .start => refuse .noLeaf
    | .table _ => refuse .noLeaf
    | .trTable _ => refuse .noLeaf
    | .trNull => refuse .noLeaf
    | .trInvalid => refuse .noLeaf
    | .trTile _ => refuse .noLeaf

theorem walkOnce_eq (s : State) (env : WalkEnv) : walkOnce s env =
    (topTable s env.ctx env.va >>= fun tbl => walkLevels env (levelsOf env.ctx.tag.mode) s tbl Stage.fresh ⟨[], none, []⟩ >>= conclude env) := by
  unfold walkOnce
  cases topTable s env.ctx env.va with
  | error e => rfl
  | ok tbl =>
    simp only [ok_bind]
    congr 1
    funext x
    obtain ⟨t, w⟩ := x
    cases w <;> rfl

/-- One level of a walk without A&D support agrees with the pseudo-code, if what follows a present entry does. -/
theorem sameEnd_level (s : State) (env : WalkEnv) (level : Nat) (rest : List Nat) (tbl : Nat) (st : Stage) (log : WalkLog)
    (hu : env.use.gtt = false) (ha : env.ctx.ad = false) (hh : 6 ≤ s.plat.haw) (idx : Nat)
    (hidx : indexOf env.ctx.tag.mode level st.big env.va = idx)
    (F : Word64 → Res XlateEnd)
    (hnp : ∀ v, bit v 0 = false → F v = .ok (.fault .notPresent level))
    (hp : ∀ v l, bit v 0 = true → SameEnd s (F v)
      ((match entryKind env.ctx.tag.mode level st.big v with
        | none => refuse .noLeaf
        | some k => do
          let st ← takeEntry k s.plat.haw s.regs.ipsEnable env.ctx.fl64k st v
          match st.out with
          | .table base => do
            let tbl' ← secondLevel s.plat env.ctx.nested base
            walkLevels env rest s tbl' st ((log.addTable env level tbl).addPointer env
              (fetchCached s env level (tbl + 8 * idx)).isSome level (tbl + 8 * idx) v)
          | .leaf _ _ _ => do
            require (level == 1 || !s.regs.gttCacheEnable) .gttCacheObligation
            .ok (s, .leaf level st { log.addTable env level tbl with gtt := l })
          | .start => refuse .noLeaf
          | .trTable _ => refuse .noLeaf
          | .trNull => refuse .noLeaf
          | .trInvalid => refuse .noLeaf
          | .trTile _ => refuse .noLeaf : Res (State × WalkEnd)) >>= conclude env)) :
    SameEnd s (levelRead s env level tbl idx >>= F) (walkLevels env (level :: rest) s tbl st log >>= conclude env) := by
  unfold walkLevels
  simp only [hidx]
  obtain ⟨h1, h2⟩ := fetch_plain s env level tbl idx hu ha hh
  cases hm : levelRead s env level tbl idx with
  | error e => simp only [h2 e hm]; rfl
  | ok v =>
    obtain ⟨l, hl⟩ := h1 v hm
    simp only [hl, ok_bind]
    cases hb : bit v 0 with
    | false =>
      rw [hnp v hb]
      simp only [Bool.false_eq_true, if_false, ok_bind]
      exact ⟨_, rfl⟩
    | true =>
      simp only [if_true]
      exact hp v l hb

theorem sameEnd_legacyLeaf (s : State) (env : WalkEnv) (level bits pat : Nat) (st : Stage) (log : WalkLog) (v : Word64)
    (hs : env.ctx.sup = false) (hn : env.ctx.nested = true) (hco : env.ctx.coh = false) (hx : env.ctx.nxe = false)
    (hst : st = ⟨bit v 1, true, false, st.big, bit v pat, bit v 4, bit v 3, false, .leaf bits (addrField s.plat.haw bits v) (bit v 9)⟩) :
    SameEnd s (Rules.legacyLeaf s env.wr env.va level bits pat v) (conclude env (s, .leaf level st log)) := by
  obtain ⟨rw_, us, xd, big, p, pcd, pwt, dirty, out⟩ := st
  simp only [Stage.mk.injEq] at hst
  obtain ⟨rfl, rfl, rfl, -, rfl, rfl, rfl, rfl, rfl⟩ := hst
  simp only [conclude, finishLeaf, Rules.legacyLeaf]
  cases h9 : bit v 9
  · simp only [Bool.false_eq_true, if_false, leafFault, hs, hx, Ctx.wp, Bool.not_false, Bool.not_true, Bool.and_false, Bool.true_or, Bool.and_true]
    by_cases hw : env.wr = true ∧ bit v 1 = false
    · simp only [hw, and_self, if_true, Bool.not_false, Bool.and_self]; exact ⟨_, rfl⟩
    · have : (env.wr && !bit v 1) = false := by
        cases h1 : env.wr <;> cases h2 : bit v 1 <;> simp_all
      simp only [hw, if_false, this, Bool.false_eq_true]
      have e1 : Rules.nested s (Rules.frame s.plat.haw bits v + env.va.toNat % 2 ^ bits) =
        secondLevel s.plat env.ctx.nested (addrField s.plat.haw bits v + offsetOf bits env.va) := by
        rw [hn, addrField_frame]; rfl
      rw [e1]
      refine sameEnd_bind _ _ _ (fun pa _ => ?_)
      simp only [attrsOf, hco]; exact ⟨_, rfl⟩
  · exact ⟨_, rfl⟩

theorem sameEnd_pte (s : State) (env : WalkEnv) (pde : Word64) (st : Stage) (log : WalkLog)
    (hm : env.ctx.tag.mode = .ppgtt32 ∨ env.ctx.tag.mode = .ppgtt48)
    (hu : env.use.gtt = false) (ha : env.ctx.ad = false) (hh : 6 ≤ s.plat.haw)
    (hs : env.ctx.sup = false) (hn : env.ctx.nested = true) (hco : env.ctx.coh = false) (hx : env.ctx.nxe = false)
    (hus : st.us = true) (hxd : st.xd = false) (hb : st.big = (bit pde 11 && s.regs.ipsEnable)) :
    SameEnd s (Rules.legacyPte s env.wr env.va pde)
      (secondLevel s.plat env.ctx.nested (addrField s.plat.haw 12 pde) >>= fun tbl =>
        walkLevels env [1] s tbl st log >>= conclude env) := by
  unfold Rules.legacyPte
  have e1 : Rules.nested s (Rules.frame s.plat.haw 12 pde) = secondLevel s.plat env.ctx.nested (addrField s.plat.haw 12 pde) := by
    rw [hn, addrField_frame]; rfl
  simp only [e1]
  refine sameEnd_bind _ _ _ (fun tbl _ => ?_)
  rw [← hb]
  refine sameEnd_level s env 1 [] tbl st log hu ha hh _ ?_ _ ?_ ?_
  · rcases hm with hm | hm <;> rw [hm] <;> cases st.big <;> rfl
  · intro v hv; simp [hv]
  · intro v l hv
    simp only [hv, Bool.true_eq_false, if_false]
    rcases hm with hm | hm <;> cases hbig : st.big
    all_goals
      simp only [hm, entryKind, Bool.false_eq_true, if_false, if_true]
      simp only [takeEntry, EntryKind.reservedSet, EntryKind.isIa32e, Bool.false_and, Bool.false_eq_true, if_false, ok_bind, EntryKind.stageAfter, EntryKind.outOf, EntryKind.leafBits, beq_self_eq_true, Bool.true_or, require_true]
      refine sameEnd_legacyLeaf s env 1 _ 7 _ _ v hs hn hco hx ?_
      simp [EntryKind.isTop, EntryKind.rwAfter, EntryKind.isIa32e, EntryKind.leafBits, EntryKind.patBit, EntryKind.hasCacheBits, EntryKind.nullBit, hus, hxd, EntryKind.selectsBig]

theorem bind_assoc' {α β γ : Type} (x : Res α) (f : α → Res β) (g : β → Res γ) : (x >>= f) >>= g = x >>= fun a => f a >>= g := by
  cases x <;> rfl

/-- A walk for a legacy context that looks into no GTT-cache line. -/
structure LegacyEnv (env : WalkEnv) : Prop where
  hu : env.use.gtt = false
  ha : env.ctx.ad = false
  hs : env.ctx.sup = false
  hn : env.ctx.nested = true
  hco : env.ctx.coh = false
  hx : env.ctx.nxe = false

/-- The walk of a legacy 32b context is the pseudo-code of 41 R251. -/
theorem sameEnd_32 (s : State) (env : WalkEnv) (pdp : Word64) (hm : env.ctx.tag.mode = .ppgtt32) (L : LegacyEnv env) (hh : 6 ≤ s.plat.haw)
    (hr : env.ctx.root = addrField s.plat.haw 12 pdp) : SameEnd s (Rules.ppgtt32Via (readVia s env) s pdp env.wr env.va) (walkOnce s env) := by
  rw [walkOnce_eq s env]
  unfold Rules.ppgtt32Via topTable
  simp only [hm, show (Mode.ppgtt32 == Mode.ggtt) = false from rfl, Bool.false_eq_true, if_false]
  have e1 : Rules.nested s (Rules.frame s.plat.haw 12 pdp) = secondLevel s.plat env.ctx.nested env.ctx.root := by
    rw [L.hn, hr, addrField_frame]; rfl
  rw [e1]
  refine sameEnd_bind _ _ _ (fun tbl _ => ?_)
  refine sameEnd_level s env 2 [1] tbl Stage.fresh ⟨[], none, []⟩ L.hu L.ha hh _ ?_ _ ?_ ?_
  · rw [hm]; rfl
  · intro v hv; simp [hv]
  · intro v l hv
    simp only [hv, Bool.true_eq_false, if_false]
    simp only [hm, entryKind, takeEntry, EntryKind.reservedSet, EntryKind.isIa32e, Bool.false_and, Bool.false_eq_true, if_false, ok_bind, EntryKind.stageAfter, EntryKind.outOf, EntryKind.leafBits, bind_assoc']
    refine sameEnd_pte s env v _ _ (.inl hm) L.hu L.ha hh L.hs L.hn L.hco L.hx rfl rfl ?_
    simp [EntryKind.selectsBig]

/-- The walk of a legacy 48b context is the pseudo-code of 42 R272. -/
theorem sameEnd_48 (s : State) (env : WalkEnv) (pdp : Word64) (hm : env.ctx.tag.mode = .ppgtt48) (L : LegacyEnv env) (hh : 6 ≤ s.plat.haw)
    (hr : env.ctx.root = addrField s.plat.haw 12 pdp) : SameEnd s (Rules.ppgtt48Via (readVia s env) s pdp env.wr env.va) (walkOnce s env) := by
  rw [walkOnce_eq s env]
  unfold Rules.ppgtt48Via topTable
  have hnest : ∀ v : Word64, Rules.nested s (Rules.frame s.plat.haw 12 v) = secondLevel s.plat env.ctx.nested (addrField s.plat.haw 12 v) := by
    intro v; rw [L.hn, addrField_frame]; rfl
  have hl : levelsOf Mode.ppgtt48 = [4, 3, 2, 1] := rfl
  simp only [hm, show (Mode.ppgtt48 == Mode.ggtt) = false from rfl, Bool.false_eq_true, if_false, hnest, hr, hl]
  refine sameEnd_bind _ _ _ (fun tbl _ => ?_)
  refine sameEnd_level s env 4 [3, 2, 1] tbl Stage.fresh ⟨[], none, []⟩ L.hu L.ha hh _ ?_ _ ?_ ?_
  · rw [hm]; rfl
  · intro v hv; simp [hv]
  intro v l hv
  simp only [hv, Bool.true_eq_false, if_false]
  simp only [hm, entryKind, takeEntry, EntryKind.reservedSet, EntryKind.isIa32e, Bool.false_and, Bool.false_eq_true, if_false, ok_bind, EntryKind.stageAfter, EntryKind.outOf, EntryKind.leafBits, bind_assoc']
  refine sameEnd_bind _ _ _ (fun tbl _ => ?_)
  refine sameEnd_level s env 3 [2, 1] tbl _ _ L.hu L.ha hh _ ?_ _ ?_ ?_
  · rw [hm]; rfl
  · intro v hv; simp [hv]
  intro v l hv
  simp only [hv, Bool.true_eq_false, if_false]
  cases h7 : bit v 7
  case true =>
    simp only [if_true, hm, entryKind, h7, takeEntry, EntryKind.reservedSet, EntryKind.isIa32e, Bool.false_and, Bool.false_eq_true, if_false, ok_bind, EntryKind.stageAfter, EntryKind.outOf, EntryKind.leafBits, bind_assoc', show ((3:Nat) == 1) = false from rfl, Bool.false_or, Rules.largePageAllowed]
    refine sameEnd_bind _ _ _ (fun _ _ => ?_)
    refine sameEnd_legacyLeaf s env 3 _ 12 _ _ v L.hs L.hn L.hco L.hx ?_
    simp [EntryKind.isTop, EntryKind.rwAfter, EntryKind.isIa32e, EntryKind.leafBits, EntryKind.patBit, EntryKind.hasCacheBits, EntryKind.nullBit, EntryKind.selectsBig, Stage.fresh]
  case false =>
  simp only [hm, entryKind, h7, takeEntry, EntryKind.reservedSet, EntryKind.isIa32e, Bool.false_and, Bool.false_eq_true, if_false, ok_bind, EntryKind.stageAfter, EntryKind.outOf, EntryKind.leafBits, bind_assoc']
  refine sameEnd_bind _ _ _ (fun tbl _ => ?_)
  refine sameEnd_level s env 2 [1] tbl _ _ L.hu L.ha hh _ ?_ _ ?_ ?_
  · rw [hm]; rfl
  · intro v hv; simp [hv]
  intro v l hv
  simp only [hv, Bool.true_eq_false, if_false]
  cases h7 : bit v 7
  case true =>
    simp only [if_true, hm, entryKind, h7, takeEntry, EntryKind.reservedSet, EntryKind.isIa32e, Bool.false_and, Bool.false_eq_true, if_false, ok_bind, EntryKind.stageAfter, EntryKind.outOf, EntryKind.leafBits, bind_assoc', show ((2:Nat) == 1) = false from rfl, Bool.false_or, Rules.largePageAllowed]
    refine sameEnd_bind _ _ _ (fun _ _ => ?_)
    refine sameEnd_legacyLeaf s env 2 _ 12 _ _ v L.hs L.hn L.hco L.hx ?_
    simp [EntryKind.isTop, EntryKind.rwAfter, EntryKind.isIa32e, EntryKind.leafBits, EntryKind.patBit, EntryKind.hasCacheBits, EntryKind.nullBit, EntryKind.selectsBig, Stage.fresh]
  case false =>
  simp only [hm, entryKind, h7, takeEntry, EntryKind.reservedSet, EntryKind.isIa32e, Bool.false_and, Bool.false_eq_true, if_false, ok_bind, EntryKind.stageAfter, EntryKind.outOf, EntryKind.leafBits, bind_assoc']
  refine sameEnd_pte s env v _ _ (.inr hm) L.hu L.ha hh L.hs L.hn L.hco L.hx rfl rfl ?_
  simp [EntryKind.selectsBig]


/-- The walk of the global GTT is the pseudo-code of 43 R300. -/
theorem sameEnd_ggtt (s : State) (env : WalkEnv) (hm : env.ctx.tag.mode = .ggtt) (L : LegacyEnv env) (hh : 6 ≤ s.plat.haw)
    (hv : env.va.toNat < 2 ^ 32) : SameEnd s (Rules.ggtt s env.va) (walkOnce s env) := by
  rw [walkOnce_eq s env]
  unfold Rules.ggtt topTable
  simp only [hm, beq_self_eq_true, if_true, hv, decide_true, require_true, ok_bind]
  by_cases hg : 8 * field env.va 12 20 < s.plat.gsmSize
  · simp only [hg, decide_true, require_true, ok_bind, if_true]
    refine sameEnd_level s env 1 [] s.plat.gsmBase Stage.fresh ⟨[], none, []⟩ L.hu L.ha hh _ ?_ _ ?_ ?_
    · rw [hm]; rfl
    · intro v hv; simp [hv]
    · intro v l hv
      simp only [hv, Bool.true_eq_false, if_false]
      simp only [hm, entryKind, takeEntry, EntryKind.reservedSet, EntryKind.isIa32e, Bool.false_and, Bool.false_eq_true, if_false, ok_bind, EntryKind.stageAfter, EntryKind.outOf, EntryKind.leafBits, beq_self_eq_true, Bool.true_or, require_true, conclude, finishLeaf, EntryKind.nullBit, leafFault, EntryKind.rwAfter, L.hs, L.hx, Stage.fresh, EntryKind.isTop, if_true]
      simp only [Bool.not_false, Bool.not_true, Bool.and_false, Bool.false_and, Bool.false_eq_true, if_false, bne_self_eq_false]
      have e1 : Rules.nested s (Rules.frame s.plat.haw 12 v + env.va.toNat % 2 ^ 12) =
          secondLevel s.plat env.ctx.nested (addrField s.plat.haw 12 v + offsetOf 12 env.va) := by
        rw [L.hn, addrField_frame]; rfl
      rw [e1]
      refine sameEnd_bind _ _ _ (fun pa _ => ?_)
      simp only [attrsOf, L.hco]; exact ⟨_, rfl⟩
  · simp only [hg, decide_false, if_false]; rfl

theorem one_testBit (k : Nat) (h : k ≠ 0) : Nat.testBit 1 k = false := by
  cases k with
  | zero => exact absurd rfl h
  | succ n => rw [Nat.testBit_succ]; simp

theorem bit_or_one (d : Word64) (k : Nat) (hk : k ≠ 0) : bit (d ||| 1) k = bit d k := by
  unfold bit BitVec.getLsbD
  rw [BitVec.toNat_or, Nat.testBit_or, show BitVec.toNat (1 : Word64) = 1 from rfl, one_testBit k hk, Bool.or_false]

theorem field_or_one (d : Word64) (lo n : Nat) (h : lo ≠ 0) : field (d ||| 1) lo n = field d lo n := by
  unfold field
  rw [BitVec.toNat_or]
  congr 1
  apply Nat.eq_of_testBit_eq
  intro i
  rw [Nat.testBit_div_two_pow, Nat.testBit_div_two_pow, Nat.testBit_or, show BitVec.toNat (1 : Word64) = 1 from rfl,
    one_testBit _ (by omega), Bool.or_false]

theorem fits_bit (m v : Nat) (w : Word64) (h : fitsRow m v w = true) (k : Nat) (hm : m.testBit k = true) :
    bit w k = v.testBit k := by
  simp only [fitsRow, beq_iff_eq] at h
  have := congrArg (fun x => Nat.testBit x k) h
  simp only [Nat.testBit_and, hm, Bool.and_true] at this
  rw [← this]; rfl

/-- What `Rules.holdsLegacy` says of an engine. -/
theorem holds_engine {s : State} {elem : Word64} {e : Engine} (h : Rules.holdsLegacy s elem (.engine e) = true) :
    ∃ d, (s.bank e).elem.get = .ok d ∧ d ||| 1 = elem ∧ field elem 6 2 = 0 ∧ (s.bank e).elem.value = d := by
  simp only [Rules.holdsLegacy, Bool.and_eq_true, beq_iff_eq] at h
  exact ⟨_, by simp [DescReg.get, DescReg.isWritten, h.1.1.1], h.1.2, h.2, rfl⟩

theorem legacyCtx_env (env : WalkEnv) (hu : env.use.gtt = false) {src m c root} (h : env.ctx = legacyCtx src m c root) : LegacyEnv env := by
  constructor
  · exact hu
  all_goals rw [h]; rfl

theorem or_one_self (elem : Word64) (h : bit elem 0 = true) : elem ||| 1 = elem := by
  apply BitVec.eq_of_getLsbD_eq
  intro i hi
  rw [BitVec.getLsbD_or]
  by_cases h0 : i = 0
  · subst h0; simp [bit] at h; simp [h]
  · have := bit_or_one elem i h0; unfold bit at this; rw [BitVec.getLsbD_or] at this; exact this

theorem or_one_or_one (d : Word64) : d ||| 1 ||| 1 = d ||| 1 := by
  rw [BitVec.or_assoc, BitVec.or_self]

theorem joinRec_none (w : Option WalkRecord) : joinRec w none = w := by cases w <;> rfl

/-- ER and the reported kind as the rules say them (44 R330, 60 R469). -/
theorem er_eq (r : Request) : r.er = Rules.er r := by
  unfold Request.er Rules.er; cases r.acc <;> simp [Access.isFetch, Access.isRead]
theorem kind_eq (r : Request) : r.acc.kind = Rules.kind r := by unfold Rules.kind Access.kind; cases r.acc <;> rfl

/-- Only a CPU access in the aperture is kept from the global table. -/
theorem mayReach_of_src (p : Platform) {r : Request} (h : r.src ≠ .aperture) (pa : Nat) : mayReach p r pa = true := by
  simp [mayReach, h]

/-- A legacy walk neither is abandoned nor filtered. -/
structure Ends (x : Res XlateEnd) : Prop where
  h : ∀ y, x = .ok y → y ≠ .abandoned ∧ ∀ q, y ≠ .filtered q

theorem ends_bind {α} (a : Res α) (f : α → Res XlateEnd) (h : ∀ v, Ends (f v)) : Ends (a >>= f) := by
  cases a with
  | error e => exact ⟨fun y hy => by cases hy⟩
  | ok v => exact h v

theorem ends_ok {y : XlateEnd} (h : y ≠ .abandoned ∧ ∀ q, y ≠ .filtered q) : Ends (.ok y) := by
  exact ⟨fun z hz => by cases hz; exact h⟩

theorem ends_leaf (s wr va l b p e) : Ends (Rules.legacyLeaf s wr va l b p e) := by
  unfold Rules.legacyLeaf
  split
  · exact ends_ok (by simp)
  split
  · exact ends_ok (by simp)
  · exact ends_bind _ _ (fun _ => ends_ok (by simp))
theorem ends_pte (s wr va e) : Ends (Rules.legacyPte s wr va e) := by
  unfold Rules.legacyPte
  refine ends_bind _ _ fun _ => ends_bind _ _ fun _ => ?_
  split
  · exact ends_ok (by simp)
  · exact ends_leaf ..
theorem ends_ggtt (s va) : Ends (Rules.ggtt s va) := by
  unfold Rules.ggtt
  refine ends_bind _ _ fun _ => ends_bind _ _ fun _ => ends_bind _ _ fun _ => ?_
  split
  · exact ends_ok (by simp)
  · exact ends_bind _ _ (fun _ => ends_ok (by simp))
theorem ends_32 (rd s p wr va) : Ends (Rules.ppgtt32Via rd s p wr va) := by
  unfold Rules.ppgtt32Via
  refine ends_bind _ _ fun _ => ends_bind _ _ fun _ => ?_
  split
  · exact ends_ok (by simp)
  · exact ends_pte ..
theorem ends_48 (rd s p wr va) : Ends (Rules.ppgtt48Via rd s p wr va) := by
  unfold Rules.ppgtt48Via
  refine ends_bind _ _ fun _ => ends_bind _ _ fun _ => ?_
  split
  · exact ends_ok (by simp)
  refine ends_bind _ _ fun _ => ends_bind _ _ fun _ => ?_
  split
  · exact ends_ok (by simp)
  split
  · exact ends_bind _ _ fun _ => ends_leaf ..
  refine ends_bind _ _ fun _ => ends_bind _ _ fun _ => ?_
  split
  · exact ends_ok (by simp)
  split
  · exact ends_bind _ _ fun _ => ends_leaf ..
  exact ends_pte ..

/-- Everything the check of the TR-TT registers can answer (93 U2, U3). -/
theorem trttLegal_eq (g : Regs) : trttLegal g =
    if g.bypassDis = true ∧ trttEn g = true ∧ trttTtloc g = false then refuse .trttPhysical
    else if trvaLegal g = true then .ok () else refuse .trvaMask := by
  unfold trttLegal require
  cases g.bypassDis <;> cases trttEn g <;> cases trttTtloc g <;> cases trvaLegal g <;> rfl

theorem trtt_off {s : State} {src : Source} (h : Rules.trttOff s src = true) (m : Mode) : trttActive s.regs src m = .ok false := by
  unfold trttActive
  unfold Rules.trttOff at h
  have : (s.regs.bypassDis && trttEn s.regs && src == .engine .rcs) = false := by
    cases h1 : s.regs.bypassDis <;> cases h2 : trttEn s.regs <;> cases h3 : (src == .engine .rcs) <;> simp_all [bne]
  simp [this]

theorem no_trtt {s : State} {src : Source} {va : Word64} {m : Mode} (h : Rules.noTrtt s src va = true) (hm : m = .ppgtt48 ∨ m = .adv) :
    ∃ a, trttActive s.regs src m = .ok a ∧ (a && isTrva s.regs va) = false := by
  unfold trttActive
  unfold Rules.noTrtt at h
  by_cases hc : (s.regs.bypassDis && trttEn s.regs && src == .engine .rcs) = true
  · have h2 : (trttTtloc s.regs = true ∧ trvaLegal s.regs = true) ∧ isTrva s.regs va = false := by
      simp only [Bool.and_eq_true] at hc
      simpa [hc.1.1, hc.1.2, hc.2, bne] using h
    refine ⟨true, ?_, by simp [h2.2]⟩
    rcases hm with rfl | rfl <;> simp [hc, trttLegal_eq, h2.1.1, h2.1.2]
  · refine ⟨false, ?_, rfl⟩
    simp [hc]

theorem ctxIdOf_elem (s : State) (e : Engine) (d : Word64) (h : (s.bank e).elem.value = d) : ctxIdOf s (.engine e) = elemCtxId d := by
  simp [ctxIdOf, elemCtxId, h]

theorem pdpOf_eq (b : Bank) (va : Word64) : pdpSelect b va = Rules.pdpOf b va := by
  unfold pdpSelect Rules.pdpOf
  generalize field va 30 2 = n
  rcases n with _ | _ | _ | n <;> simp

theorem written_get {d : DescReg} {v : Word64} (h : Rules.written d v = true) : d.get = .ok v := by
  simp only [Rules.written, Bool.and_eq_true, beq_iff_eq] at h
  simp [DescReg.get, DescReg.isWritten, h.1.1, h.2]

/-- The walk ends as the pseudo-code says, in the state it says. -/
def SameEndAdv (x : Res (State × XlateEnd)) (y : Res (State × XlateEnd × Option WalkRecord)) : Prop :=
  match x with
  | .ok (t, x) => ∃ w, y = .ok (t, x, w)
  | .error e => y = .error e

theorem sameEndAdv_bind {α : Type} (a : Res α) (f : α → Res (State × XlateEnd)) (g : α → Res (State × XlateEnd × Option WalkRecord))
    (h : ∀ v, a = .ok v → SameEndAdv (f v) (g v)) : SameEndAdv (a >>= f) (a >>= g) := by
  cases a with
  | error e => rfl
  | ok v => exact h v rfl

/-- A walk for an advanced context that looks into no GTT-cache line, with the parameters of 44 R316. -/
structure AdvEnv (env : WalkEnv) (e : Engine) (a : Rules.Adv) : Prop where
  hu : env.use.gtt = false
  hm : env.ctx.tag.mode = .adv
  hsrc : env.ctx.tag.src = .engine e
  had : env.ctx.ad = a.ad
  hsup : env.ctx.sup = a.sup
  hcoh : env.ctx.coh = a.coh
  hid : env.ctx.ctxid = a.ctxid
  heafe : env.ctx.eafe = a.eafe
  hfl : env.ctx.fl64k = a.fl64kpe
  hnxe : env.ctx.nxe = a.nxe
  hne : env.ctx.nested = a.neste
  hwpe : env.ctx.wpe = a.wpe

/-- The copies that a walk uses. -/
def copiesUsed (s : State) (env : WalkEnv) : Rules.Copies := fun pa =>
  if env.use.pwc then Rules.copiesOf s env.ctx.tag pa else none

theorem copiesUsed_noCache (s : State) (env : WalkEnv) (h : env.use.pwc = false) : copiesUsed s env = fun _ => none := by
  funext; simp [copiesUsed, h]

theorem copiesUsed_caches {s t : State} (h : t.caches = s.caches) (env : WalkEnv) : copiesUsed t env = copiesUsed s env := by
  funext; simp [copiesUsed, Rules.copiesOf, h]

theorem fetch_regs {s t : State} {e a i wr pa v} (h : Rules.fetch s e a i wr pa = .ok (t, v)) :
    t.regs = s.regs ∧ t.plat = s.plat ∧ t.caches = s.caches := by
  unfold Rules.fetch at h
  split at h
  · rcases apu_spec.mp h with ⟨-, -, o, -, h⟩ | ⟨-, h⟩
    · cases h; exact ⟨rfl, rfl, rfl⟩
    · cases h; exact ⟨rfl, rfl, rfl⟩
  · cases hm : memRead64 s pa with
    | error z => rw [hm] at h; cases h
    | ok z => rw [hm] at h; cases h; exact ⟨rfl, rfl, rfl⟩

theorem fetchVia_regs {pw : Rules.Copies} {s t : State} {e a l wr pa v} (h : Rules.fetchVia pw s e a l wr pa = .ok (t, v)) :
    t.regs = s.regs ∧ t.plat = s.plat ∧ t.caches = s.caches := by
  unfold Rules.fetchVia at h
  split at h
  · cases h; exact ⟨rfl, rfl, rfl⟩
  · exact fetch_regs h

theorem fetch_adv {env e a} (H : AdvEnv env e a) (s : State) (level addr : Nat) (hg : s.regs.gttCacheEnable = false) :
    fetchEntry s env level addr =
      (Rules.fetchVia (copiesUsed s env) s e a level env.wr addr >>= fun x => .ok (x.1, x.2, none)) := by
  have hf : fetchMemory s env level addr = Rules.fetch s e a (level != 1) env.wr addr := by
    simp only [fetchMemory, Rules.fetch, H.had, fetchOp, Ctx.wp, H.hsup, H.hwpe, H.heafe, H.hsrc, H.hid, Rules.Adv.wp]
  have hc : fetchCached s env level addr = if level = 1 then none else copiesUsed s env addr := by
    unfold fetchCached copiesUsed
    by_cases h1 : level = 1
    · simp [h1, H.hu]
    · simp only [h1, beq_iff_eq, if_false]; rfl
  unfold fetchEntry Rules.fetchVia
  rw [hc, hf]
  generalize (if level = 1 then none else copiesUsed s env addr) = v
  cases v with
  | some v => rfl
  | none =>
    cases hr : Rules.fetch s e a (level != 1) env.wr addr with
    | error x => rfl
    | ok x =>
      obtain ⟨t, v⟩ := x
      have hg' : t.regs.gttCacheEnable = false := by rw [(fetch_regs hr).1]; exact hg
      simp only [ok_bind]
      by_cases h1 : level = 1
      · simp [h1, readLine, hg']
      · simp [h1]

/-- The leaf of an advanced walk (44 R317). -/
theorem adv_leaf {env e a} (H : AdvEnv env e a) (s : State) (level bits pat : Nat) (st : Stage) (log : WalkLog) (v : Word64)
    (rw us xd : Bool)
    (hst : st = ⟨rw, us, xd, st.big, bit v pat, bit v 4, bit v 3, bit v 6, .leaf bits (addrField s.plat.haw bits v) false⟩) :
    SameEndAdv (Rules.advLeaf s a env.wr env.er env.va level bits pat rw us xd v >>= fun x => .ok (s, x))
      (conclude env (s, .leaf level st log)) := by
  obtain ⟨rw_, us_, xd_, big, p, pcd, pwt, dirty, out⟩ := st
  simp only [Stage.mk.injEq] at hst
  obtain ⟨rfl, rfl, rfl, -, rfl, rfl, rfl, rfl, rfl⟩ := hst
  simp only [conclude, finishLeaf, Rules.advLeaf, Bool.false_eq_true, if_false, leafFault]
  have w1 : env.ctx.wp = a.wp := by simp [Ctx.wp, Rules.Adv.wp, H.hsup, H.hwpe]
  by_cases h1 : a.sup = false ∧ us_ = false
  · have : (!env.ctx.sup && !us_) = true := by simp [H.hsup, h1.1, h1.2]
    rw [if_pos h1]; simp only [this, if_true, ok_bind]; exact ⟨_, rfl⟩
  have n1 : (!env.ctx.sup && !us_) = false := by
    rw [H.hsup]; cases h : a.sup <;> cases h' : us_ <;> simp_all
  by_cases h2 : env.wr = true ∧ rw_ = false ∧ a.wp = true
  · have : (env.wr && !rw_ && env.ctx.wp) = true := by simp [w1, h2.1, h2.2.1, h2.2.2]
    rw [if_neg h1, if_pos h2]
    simp only [n1, this, if_true, if_false, ok_bind, Bool.false_eq_true]; exact ⟨_, rfl⟩
  have n2 : (env.wr && !rw_ && env.ctx.wp) = false := by
    rw [w1]; cases h : env.wr <;> cases h' : rw_ <;> cases h'' : a.wp <;> simp_all
  rw [if_neg h1, if_neg h2]
  simp only [n1, n2, if_false, Bool.false_eq_true]
  by_cases h3 : s.plat.xdEnforce = true ∧ env.er = true ∧ a.nxe = true ∧ xd_ = true
  · have : (s.plat.xdEnforce && env.er && env.ctx.nxe && xd_) = true := by simp [H.hnxe, h3.1, h3.2.1, h3.2.2.1, h3.2.2.2]
    rw [if_pos h3]
    simp only [this, if_true]
    exact ⟨_, rfl⟩
  have n3 : (s.plat.xdEnforce && env.er && env.ctx.nxe && xd_) = false := by
    rw [H.hnxe]; cases h : s.plat.xdEnforce <;> cases h' : env.er <;> cases h'' : a.nxe <;> cases h4 : xd_ <;> simp_all
  rw [if_neg h3]
  simp only [n3, if_false, Bool.false_eq_true]
  have e1 : secondLevel s.plat a.neste (Rules.frame s.plat.haw bits v + env.va.toNat % 2 ^ bits) =
    secondLevel s.plat env.ctx.nested (addrField s.plat.haw bits v + offsetOf bits env.va) := by
    rw [H.hne, addrField_frame]; rfl
  rw [e1, bind_assoc']
  refine sameEndAdv_bind _ _ _ (fun pa _ => ?_)
  simp only [ok_bind, attrsOf, H.hcoh]; exact ⟨_, rfl⟩

/-- A leaf format at a level of an advanced walk. -/
theorem adv_level_leaf {env e a} {cached : Bool} (H : AdvEnv env e a) (t : State) (level bits pat : Nat) (k : EntryKind) (st : Stage) (log : WalkLog) (line) (v : Word64) (tbl : Nat) (rest)
    (res : Bool)
    (hk : k.leafBits = some bits) (hp : k.patBit v = bit v pat) (hi : k.isIa32e = true) (ht : k.isTop = false) (hr : k.reservedSet t.plat.haw v = res)
    (hg : t.regs.gttCacheEnable = false) :
    SameEndAdv (require (!res) .reservedBits >>= fun _ => require (level == 1 || !t.regs.gttCacheEnable) .gttCacheObligation >>= fun _ =>
        Rules.advLeaf t a env.wr env.er env.va level bits pat (st.rw && bit v 1) (st.us && bit v 2) (st.xd || bit v 63) v >>= fun x => .ok (t, x))
      ((takeEntry k t.plat.haw t.regs.ipsEnable env.ctx.fl64k st v >>= fun st =>
        (match st.out with
          | .table base => do
            let tbl' ← secondLevel t.plat env.ctx.nested base
            walkLevels env rest t tbl' st (log.addPointer env cached level tbl v)
          | .leaf _ _ _ => do
            require (level == 1 || !t.regs.gttCacheEnable) .gttCacheObligation
            .ok (t, .leaf level st { log with gtt := line })
          | .start => refuse .noLeaf
          | .trTable _ => refuse .noLeaf
          | .trNull => refuse .noLeaf
          | .trInvalid => refuse .noLeaf
          | .trTile _ => refuse .noLeaf : Res (State × WalkEnd))) >>= conclude env) := by
  unfold takeEntry
  rw [hr]
  cases res
  · simp only [Bool.not_false, require_true, ok_bind, Bool.false_eq_true, if_false, hg, Bool.or_true]
    have ho : (k.stageAfter t.plat.haw t.regs.ipsEnable env.ctx.fl64k st v) =
      ⟨st.rw && bit v 1, st.us && bit v 2, st.xd || bit v 63, k.selectsBig t.regs.ipsEnable env.ctx.fl64k v, bit v pat, bit v 4, bit v 3, bit v 6, .leaf bits (addrField t.plat.haw bits v) false⟩ := by
      simp [EntryKind.stageAfter, ht, EntryKind.rwAfter, hi, hp, EntryKind.hasCacheBits, hk, EntryKind.outOf, EntryKind.nullBit]
    rw [ho]
    simp only [ok_bind]
    exact adv_leaf H t level bits pat _ _ v _ _ _ rfl
  · rfl

/-- A pointer format at a level of an advanced walk. -/
theorem adv_level_ptr {env e a} {pw : Rules.Copies} {cached : Bool} (H : AdvEnv env e a) (t : State) (level : Nat) (k : EntryKind) (st : Stage) (log : WalkLog) (line) (v : Word64) (tbl : Nat) (rest)
    (res : Bool) (htop : k.isTop = true → st = Stage.fresh)
    (hk : k.leafBits = none) (hi : k.isIa32e = true) (hr : k.reservedSet t.plat.haw v = res)
    (big : Bool) (hb : k.selectsBig t.regs.ipsEnable env.ctx.fl64k v = big)
    (ih : ∀ tbl st log, SameEndAdv (Rules.advLoop pw e a env.wr env.er env.va rest t tbl st.big st.rw st.us st.xd)
      (walkLevels env rest t tbl st log >>= conclude env)) :
    SameEndAdv (require (!res) .reservedBits >>= fun _ => secondLevel t.plat a.neste (Rules.frame t.plat.haw 12 v) >>= fun tbl =>
        Rules.advLoop pw e a env.wr env.er env.va rest t tbl big (st.rw && bit v 1) (st.us && bit v 2) (st.xd || bit v 63))
      ((takeEntry k t.plat.haw t.regs.ipsEnable env.ctx.fl64k st v >>= fun st =>
        (match st.out with
          | .table base => do
            let tbl' ← secondLevel t.plat env.ctx.nested base
            walkLevels env rest t tbl' st (log.addPointer env cached level tbl v)
          | .leaf _ _ _ => do
            require (level == 1 || !t.regs.gttCacheEnable) .gttCacheObligation
            .ok (t, .leaf level st { log with gtt := line })
          | .start => refuse .noLeaf
          | .trTable _ => refuse .noLeaf
          | .trNull => refuse .noLeaf
          | .trInvalid => refuse .noLeaf
          | .trTile _ => refuse .noLeaf : Res (State × WalkEnd))) >>= conclude env) := by
  unfold takeEntry
  rw [hr]
  cases res
  · simp only [Bool.not_false, require_true, ok_bind, Bool.false_eq_true, if_false]
    have hst : (if k.isTop = true then Stage.fresh else st) = st := by
      split
      · rename_i h; exact (htop h).symm
      · rfl
    have ho : (k.stageAfter t.plat.haw t.regs.ipsEnable env.ctx.fl64k st v) =
      ⟨st.rw && bit v 1, st.us && bit v 2, st.xd || bit v 63, big, k.patBit v, bit v 4, bit v 3, false, .table (addrField t.plat.haw 12 v)⟩ := by
      simp [EntryKind.stageAfter, hst, EntryKind.rwAfter, hi, EntryKind.hasCacheBits, hk, EntryKind.outOf, hb]
    rw [ho]
    simp only [bind_assoc', H.hne, addrField_frame]
    refine sameEndAdv_bind _ _ _ (fun tbl _ => ?_)
    exact ih tbl ⟨st.rw && bit v 1, st.us && bit v 2, st.xd || bit v 63, big, k.patBit v, bit v 4, bit v 3, false, _⟩ _
  · rfl

theorem adv_loop {env e a} {pw : Rules.Copies} (H : AdvEnv env e a) (ls : List Nat) (hl : ls = [1] ∨ ls = [2,1] ∨ ls = [3,2,1] ∨ ls = [4,3,2,1]) (s : State) (tbl : Nat) (st : Stage) (log : WalkLog)
    (hg : s.regs.gttCacheEnable = false) (hpw : copiesUsed s env = pw) (htop : ls = [4,3,2,1] → st = Stage.fresh) :
    SameEndAdv (Rules.advLoop pw e a env.wr env.er env.va ls s tbl st.big st.rw st.us st.xd)
      (walkLevels env ls s tbl st log >>= conclude env) := by
  induction ls generalizing s tbl st log with
  | nil => simp at hl
  | cons level rest ih =>
    have hlev : (level = 1 ∧ rest = []) ∨ (level = 2 ∧ rest = [1]) ∨ (level = 3 ∧ rest = [2,1]) ∨ (level = 4 ∧ rest = [3,2,1]) := by
      simpa using hl
    have hidx : indexOf env.ctx.tag.mode level st.big env.va = Rules.advIndex level st.big env.va := by
      rw [H.hm]
      rcases hlev with ⟨rfl, -⟩ | ⟨rfl, -⟩ | ⟨rfl, -⟩ | ⟨rfl, -⟩ <;> cases st.big <;> rfl
    unfold Rules.advLoop walkLevels
    simp only [hidx, fetch_adv H s _ _ hg, hpw]
    cases hf : Rules.fetchVia pw s e a level env.wr (tbl + 8 * Rules.advIndex level st.big env.va) with
    | error z => rfl
    | ok z =>
      obtain ⟨t, v⟩ := z
      obtain ⟨hr, hp, hca⟩ := fetchVia_regs hf
      have hpw' : copiesUsed t env = pw := by rw [copiesUsed_caches hca, hpw]
      have hg' : t.regs.gttCacheEnable = false := by rw [hr]; exact hg
      simp only [ok_bind]
      cases v with
      | none => exact ⟨_, rfl⟩
      | some v =>
      simp only []
      cases hb : bit v 0
      · simp only [if_true, Bool.false_eq_true, if_false]; exact ⟨_, rfl⟩
      simp only [Bool.true_eq_false, if_false, if_true, H.hm]
      rcases hlev with ⟨rfl, rfl⟩ | ⟨rfl, rfl⟩ | ⟨rfl, rfl⟩ | ⟨rfl, rfl⟩
      · cases hbig : st.big
        · exact adv_level_leaf H t 1 12 7 .iaPte4K st (log.addTable env 1 tbl) none v _ _ _ rfl rfl rfl rfl
            (by simp [EntryKind.reservedSet, Rules.reservedSet, EntryKind.isIa32e]) hg'
        · exact adv_level_leaf H t 1 16 7 .iaPte64K st (log.addTable env 1 tbl) none v _ _ _ rfl rfl rfl rfl
            (by simp [EntryKind.reservedSet, Rules.reservedSet, EntryKind.isIa32e]) hg'
      · cases h7 : bit v 7
        · simp only [entryKind, h7, Bool.false_eq_true, if_false, and_false, false_or, show ¬ (2:Nat) = 1 from by decide]
          exact adv_level_ptr H t 2 .iaPdePt st (log.addTable env 2 tbl) none v _ _ _ (by simp [EntryKind.isTop]) rfl rfl
            (by simp [EntryKind.reservedSet, Rules.reservedSet, EntryKind.isIa32e, h7]) _ (by simp [EntryKind.selectsBig, H.hfl])
            (fun tbl st log => ih (.inl rfl) t tbl st log hg' hpw' (by simp))
        · simp only [entryKind, h7, if_true, and_true, or_true, show ¬ (2:Nat) = 1 from by decide, show ¬ (2:Nat) = 3 from by decide, if_false]
          exact adv_level_leaf H t 2 21 12 .iaPde2M st (log.addTable env 2 tbl) none v _ _ _ rfl rfl rfl rfl
            (by simp [EntryKind.reservedSet, Rules.reservedSet, EntryKind.isIa32e, h7]) hg'
      · cases h7 : bit v 7
        · simp only [entryKind, h7, Bool.false_eq_true, if_false, and_false, false_or, show ¬ (3:Nat) = 1 from by decide]
          exact adv_level_ptr H t 3 .iaPdpePd st (log.addTable env 3 tbl) none v _ _ _ (by simp [EntryKind.isTop]) rfl rfl
            (by simp [EntryKind.reservedSet, Rules.reservedSet, EntryKind.isIa32e, h7]) _ (by simp [EntryKind.selectsBig])
            (fun tbl st log => ih (.inr (.inl rfl)) t tbl st log hg' hpw' (by simp))
        · simp only [entryKind, h7, if_true, and_true, true_or, show ¬ (3:Nat) = 1 from by decide, false_or, if_false]
          exact adv_level_leaf H t 3 30 12 .iaPdpe1G st (log.addTable env 3 tbl) none v _ _ _ rfl rfl rfl rfl
            (by simp [EntryKind.reservedSet, Rules.reservedSet, EntryKind.isIa32e, h7]) hg'
      · have hst := htop rfl
        simp only [entryKind, show ¬ (4:Nat) = 1 from by decide, show ¬ (4:Nat) = 3 from by decide, show ¬ (4:Nat) = 2 from by decide, false_or, false_and, if_false]
        exact adv_level_ptr H t 4 .iaPml4e st (log.addTable env 4 tbl) none v _ _ _ (fun _ => hst) rfl rfl
            (by simp [EntryKind.reservedSet, Rules.reservedSet, EntryKind.isIa32e]) _ (by simp [EntryKind.selectsBig])
            (fun tbl st log => ih (.inr (.inr (.inl rfl))) t tbl st log hg' hpw' (by simp))

/-- The walk of an advanced context is the pseudo-code of 44 R317. -/
theorem sameEnd_adv {env e a} (H : AdvEnv env e a) (s : State) (hg : s.regs.gttCacheEnable = false) (hroot : env.ctx.root = a.pml4) :
    SameEndAdv (Rules.advVia (copiesUsed s env) s e a env.wr env.er env.va) (walkOnce s env) := by
  rw [walkOnce_eq s env]
  unfold Rules.advVia topTable
  simp only [H.hm, show (Mode.adv == Mode.ggtt) = false from rfl, Bool.false_eq_true, if_false, hroot, H.hne]
  refine sameEndAdv_bind _ _ _ (fun tbl _ => ?_)
  exact adv_loop H [4,3,2,1] (by simp) s tbl Stage.fresh _ hg rfl (fun _ => rfl)

/-! ## The whole walk, and the end of the request -/

theorem sameEndAdv_still {s : State} {x : Res XlateEnd} {y : Res (State × XlateEnd × Option WalkRecord)} (h : SameEnd s x y) :
    SameEndAdv (Rules.still s x) y := by
  cases x with
  | error e => exact h
  | ok x => exact h

/-- A walk without copies is one walk from memory. -/
theorem walk_plain {s : State} {env : WalkEnv} {x : Res (State × XlateEnd)} (hp : env.use.pwc = false) (hg : env.use.gtt = false)
    (h : SameEndAdv x (walkOnce s env)) : SameEndAdv x (walk s env) := by
  rw [walk_noCache s env hp hg]; exact h

/-- A walk that uses copies is redone from memory after a write-protect fault, and drops them after a Privilege or Execute
fault (46 R386, R411). -/
theorem walk_used {s : State} {env : WalkEnv} {x : Res (State × XlateEnd)} {again : State → Res (State × XlateEnd)}
    (hp : env.use.pwc = true) (h : SameEndAdv x (walkOnce s env))
    (h2 : ∀ t y, x = .ok (t, y) → SameEndAdv (again t) (walkOnce t { env with use := noCache })) :
    SameEndAdv (Rules.usedCopies env.ctx.tag x again) (walk s env) := by
  unfold Rules.usedCopies walk
  cases x with
  | error e => simp only [show walkOnce s env = .error e from h]; rfl
  | ok x =>
    obtain ⟨t, y⟩ := x
    obtain ⟨w, hw⟩ := h
    replace h2 := h2 t y rfl
    simp only [hw, ok_bind, hp, Bool.true_or, if_true]
    cases y with
    | fault r l =>
      cases r with
      | writeProtect =>
        simp only []
        cases ha : again t with
        | error e => rw [ha] at h2; simp only [show walkOnce t { env with use := noCache } = .error e from h2]; rfl
        | ok z =>
          rw [ha] at h2
          obtain ⟨v, hv⟩ := h2
          simp only [hv]
          exact ⟨_, rfl⟩
      | privilege => exact ⟨_, rfl⟩
      | execute => exact ⟨_, rfl⟩
      | notPresent => exact ⟨_, rfl⟩
    | phys pa a => exact ⟨_, rfl⟩
    | null => exact ⟨_, rfl⟩
    | filtered r => exact ⟨_, rfl⟩
    | abandoned => exact ⟨_, rfl⟩

theorem still_ok {s t : State} {x : Res XlateEnd} {y : XlateEnd} : Rules.still s x = .ok (t, y) ↔ t = s ∧ x = .ok y := by
  cases x with
  | error e => exact ⟨fun h => (by cases h), fun h => (by cases h.2)⟩
  | ok x => exact ⟨fun h => (by cases h; exact ⟨rfl, rfl⟩), fun h => (by rw [h.1, h.2]; rfl)⟩

/-- What both walks keep, the walk with copies keeps. -/
theorem usedCopies_ends {tag : Tag} {x : Res (State × XlateEnd)} {again : State → Res (State × XlateEnd)} {P : XlateEnd → Prop}
    (h1 : ∀ t y, x = .ok (t, y) → P y) (h2 : ∀ t u y, again t = .ok (u, y) → P y) (t : State) (y : XlateEnd)
    (h : Rules.usedCopies tag x again = .ok (t, y)) : P y := by
  unfold Rules.usedCopies at h
  obtain ⟨⟨u, z⟩, hz, h⟩ := (bind_ok _ _ _).mp h
  have hP := h1 u z hz
  cases z with
  | fault q l =>
    cases q with
    | writeProtect => exact h2 _ _ _ h
    | privilege => cases h; exact hP
    | execute => cases h; exact hP
    | notPresent => cases h; exact hP
  | phys p a => cases h; exact hP
  | null => cases h; exact hP
  | filtered q => cases h; exact hP
  | abandoned => cases h; exact hP

/-- A request's translation by tables, the final TLB aside, ends as a function of the walk's end says. -/
def EndsRes (o : Res State) (x : Res (State × XlateEnd)) (f : State → XlateEnd → State) : Prop :=
  (∀ t y, x = .ok (t, y) → ∃ w, o = .ok (f (setWalked t w) y)) ∧ ∀ e, x = .error e → o = .error e

theorem EndsRes.endsAs {o : Res State} {x : Res (State × XlateEnd)} {f : State → XlateEnd → State} (h : EndsRes o x f) :
    Rules.endsAs (toOutcome o) x f := by
  refine ⟨fun t y hy => ?_, fun e he => by rw [h.2 e he]⟩
  obtain ⟨w, hw⟩ := h.1 t y hy
  exact ⟨w, by rw [hw]; rfl⟩

theorem xlate_noTlb (s : State) (c : Ctx) (use : CacheUse) (g : TlbGroup) (va : Word64) (wr er : Bool) (hu : use.tlb = false) :
    xlate s ⟨c, use, g, va, wr, er⟩ = walk s ⟨c, use, g, va, wr, er⟩ := by
  simp [xlate, tlbLookup, hu]

/-- The final step of a legacy context. -/
theorem final_legacy (s : State) (r : Request) (c : Ctx) (use : CacheUse) (va : Word64) (p : Option WalkRecord)
    (x : Res (State × XlateEnd)) (hfm : c.fm = .hang) (hu : use.tlb = false)
    (hx : SameEndAdv x (walk s ⟨c, use, r.client.tlbGroup, va, r.acc.isWrite, r.er⟩))
    (hfa : ∀ t y, x = .ok (t, y) → y ≠ .abandoned ∧ ∀ q, y ≠ .filtered q)
    (hn : ∀ t a b, x = .ok (t, .fault a b) → Rules.noContext r.src = false)
    (hm : ∀ t pa a, x = .ok (t, .phys pa a) → mayReach t.plat r pa = true) :
    EndsRes (finalXlate s c use r va p) x (fun t y => Rules.endLegacy t r c.ctxid y) := by
  have hxl := xlate_noTlb s c use r.client.tlbGroup va r.acc.isWrite r.er hu
  constructor
  · intro t y hy
    rw [hy] at hx
    obtain ⟨w, hw⟩ := hx
    refine ⟨joinRec w p, ?_⟩
    simp only [finalXlate, hxl, hw, ok_bind]
    cases y with
    | phys pa attrs =>
      have : mayReach (setWalked t (joinRec w p)).plat r pa = true := hm t pa attrs hy
      simp only [this]; rfl
    | null => rfl
    | filtered q => exact absurd rfl ((hfa _ _ hy).2 q)
    | abandoned => exact absurd rfl (hfa _ _ hy).1
    | fault a b =>
      have := hn t a b hy
      simp only [takePageFault, hfm, Rules.endLegacy]
      cases hs : r.src <;> simp [hs, Rules.noContext] at this ⊢
  · intro e he
    rw [he] at hx
    simp only [finalXlate, hxl, show walk s ⟨c, use, r.client.tlbGroup, va, r.acc.isWrite, r.er⟩ = .error e from hx]; rfl

/-- A context is stopped as the rules say (47 R453; log 22). -/
theorem stopContext_eq (s : State) (src : Source) : stopContext s src = Rules.stopped s src := by
  cases src <;> simp [stopContext, Rules.stopped, Bank.active]

/-- An abandoned walk ends its request as the rules say (60 R466, 47 R453). -/
theorem erroredCycle_eq (s : State) (r : Request) : erroredCycle s r = Rules.errored s r := stopContext_eq _ _

/-- The final step of an advanced context. -/
theorem final_adv (s : State) (r : Request) (c : Ctx) (use : CacheUse) (va : Word64) (p : Option WalkRecord)
    (x : Res (State × XlateEnd)) (hfm : c.fm = .stream ∨ c.fm = .halt) (hu : use.tlb = false)
    (hx : SameEndAdv x (walk s ⟨c, use, r.client.tlbGroup, va, r.acc.isWrite, r.er⟩))
    (hfa : ∀ t y, x = .ok (t, y) → ∀ q, y ≠ .filtered q) (hsrc : r.src ≠ .aperture) :
    EndsRes (finalXlate s c use r va p) x (fun t y => Rules.endAdv t r c.pasid c.ctxid va y) := by
  have hxl := xlate_noTlb s c use r.client.tlbGroup va r.acc.isWrite r.er hu
  constructor
  · intro t y hy
    rw [hy] at hx
    obtain ⟨w, hw⟩ := hx
    refine ⟨joinRec w p, ?_⟩
    simp only [finalXlate, hxl, hw, ok_bind]
    cases y with
    | phys pa attrs =>
      have : mayReach (setWalked t (joinRec w p)).plat r pa = true := mayReach_of_src _ hsrc _
      simp only [this]; rfl
    | null => rfl
    | filtered q => exact absurd rfl (hfa t _ hy q)
    | abandoned => exact congrArg Except.ok (erroredCycle_eq _ _)
    | fault a b =>
      rcases hfm with h | h <;> simp only [takePageFault, h, Rules.endAdv, faultKind, ← kind_eq] <;> rfl
  · intro e he
    rw [he] at hx
    simp only [finalXlate, hxl, show walk s ⟨c, use, r.client.tlbGroup, va, r.acc.isWrite, r.er⟩ = .error e from hx]; rfl

/-- The pseudo-code never answers a filtered fault. -/
structure Unfiltered (x : Res (State × XlateEnd)) : Prop where
  h : ∀ t y, x = .ok (t, y) → ∀ q, y ≠ .filtered q

theorem unfiltered_bind {α} (a : Res α) (f : α → Res (State × XlateEnd)) (h : ∀ v, Unfiltered (f v)) : Unfiltered (a >>= f) := by
  cases a with
  | error e => exact ⟨fun t y hy => by cases hy⟩
  | ok v => exact h v
theorem unfiltered_ok {s : State} {y : XlateEnd} (h : ∀ q, y ≠ .filtered q) : Unfiltered (.ok (s, y)) := by
  exact ⟨fun t z hz => by cases hz; exact h⟩

theorem unfiltered_loop (pw e a wr er va ls s tbl b1 b2 b3 b4) : Unfiltered (Rules.advLoop pw e a wr er va ls s tbl b1 b2 b3 b4) := by
  induction ls generalizing s tbl b1 b2 b3 b4 with
  | nil => exact ⟨fun t y hy => by cases hy⟩
  | cons l rest ih =>
    unfold Rules.advLoop
    refine unfiltered_bind _ _ fun ⟨t, v⟩ => ?_
    cases v with
    | none => exact unfiltered_ok (by simp)
    | some v =>
      simp only []
      split
      · exact unfiltered_ok (by simp)
      refine unfiltered_bind _ _ fun _ => ?_
      split
      · refine unfiltered_bind _ _ fun _ => ?_
        generalize hx : Rules.advLeaf .. = x
        cases x with
        | error e => exact ⟨fun t y hy => by cases hy⟩
        | ok x =>
          refine unfiltered_ok (fun q hq => ?_)
          subst hq
          unfold Rules.advLeaf at hx
          split at hx
          · cases hx
          split at hx
          · cases hx
          split at hx
          · cases hx
          obtain ⟨p, -, h⟩ := (bind_ok _ _ _).mp hx
          cases h
      · exact unfiltered_bind _ _ fun _ => ih ..


/-! ## Messages by engine -/

theorem exec_availableOf (e : Engine) (s : State) : exec (Rules.availableOf e) s = toOutcome (msgAvailable e s) := by
  cases e <;> rfl
theorem exec_receiveReadyOf (e : Engine) (s : State) :
    exec (Rules.receiveReadyOf e) s = toOutcome (msgReceiveReady e s) := by cases e <;> rfl
theorem exec_launchedOf (e : Engine) (s : State) : exec (Rules.launchedOf e) s = toOutcome (msgLaunched e s) := by
  cases e <;> rfl
theorem exec_confirmedOf (e : Engine) (s : State) : exec (Rules.confirmedOf e) s = toOutcome (msgConfirmed e s) := by
  cases e <;> rfl
theorem gamOffset_eq (e : Engine) : gamOffset e = Rules.csAddress e := by cases e <;> rfl

/-! ## Fixed bits of an entry word -/

theorem presentEntry_eq (e : Word64) : presentEntry e = bit e 0 := by
  unfold presentEntry fitsRow bit BitVec.getLsbD
  rw [Nat.testBit_zero, Nat.and_one_is_mod]
  rcases Nat.mod_two_eq_zero_or_one e.toNat with h | h <;> simp [h]

end Sys2Proof.Machine
end

