-- ==== Sys2Proof/Laws/Stage.lean ====
section
/-! SUPPORT. The contexts of requests, and the TR-TT stage of the machine as the transcribed pseudo-code of `Rules`. -/

namespace Sys2Proof.Machine

/-! ## Contexts -/

/-- The context of a request in a legacy 32b context. -/
theorem contextOf_32 {s : State} {e : Engine} {elem pdp va : Word64} (hfit : fitsRow 0x11B 0x10B elem = true)
    (hh : Rules.holdsLegacy s elem (.engine e) = true) (hva : va.toNat < 2 ^ 32)
    (hp : Rules.written (Rules.pdpOf (s.bank e) va) pdp = true) :
    contextOf s (.engine e) va =
      .ok (s, legacyCtx (.engine e) .ppgtt32 (ctxIdOf s (.engine e)) (addrField s.plat.haw 12 pdp)) := by
  have b1 := fits_bit _ _ _ hfit 1 (by decide)
  have b3 := fits_bit _ _ _ hfit 3 (by decide)
  have b8 := fits_bit _ _ _ hfit 8 (by decide)
  have b4 := fits_bit _ _ _ hfit 4 (by decide)
  obtain ⟨d, hd, hde, hf0, hval⟩ := holds_engine hh
  have c1 : bit d 1 = true := by rw [← bit_or_one d 1 (by decide), hde, b1]; decide
  have c3 : bit d 3 = true := by rw [← bit_or_one d 3 (by decide), hde, b3]; decide
  have c8 : bit d 8 = true := by rw [← bit_or_one d 8 (by decide), hde, b8]; decide
  have c4 : bit d 4 = false := by rw [← bit_or_one d 4 (by decide), hde, b4]; decide
  have cf : field d 6 2 = 0 := by rw [← field_or_one d 6 2 (by decide), hde]; exact hf0
  have hm : elemMode d = .ok .ppgtt32 := by simp [elemMode, elemOne, c1, elemLegacy, c3, elemPriv, c8, elemAd48b, c4]
  have hfm : elemFaultModel s.plat d = .ok .hang := by simp [elemFaultModel, elemLegacy, c3, elemFaultField, cf]
  have hv' : vaInRange .ppgtt32 va = true := decide_eq_true hva
  simp only [contextOf, engineCtx, hd, hm, hfm, ok_bind, hv', require_true, ctxIdOf_elem s e d hval, pdpOf_eq, written_get hp]

/-- The context of a request in a legacy 48b context. -/
theorem contextOf_48 {s : State} {e : Engine} {elem pdp0 va : Word64} (hfit : fitsRow 0x11B 0x11B elem = true)
    (hh : Rules.holdsLegacy s elem (.engine e) = true) (hva : canonical va = true)
    (hp : Rules.written (s.bank e).pdp0 pdp0 = true) :
    contextOf s (.engine e) va =
      .ok (s, legacyCtx (.engine e) .ppgtt48 (ctxIdOf s (.engine e)) (addrField s.plat.haw 12 pdp0)) := by
  have b1 := fits_bit _ _ _ hfit 1 (by decide)
  have b3 := fits_bit _ _ _ hfit 3 (by decide)
  have b8 := fits_bit _ _ _ hfit 8 (by decide)
  have b4 := fits_bit _ _ _ hfit 4 (by decide)
  obtain ⟨d, hd, hde, hf0, hval⟩ := holds_engine hh
  have c1 : bit d 1 = true := by rw [← bit_or_one d 1 (by decide), hde, b1]; decide
  have c3 : bit d 3 = true := by rw [← bit_or_one d 3 (by decide), hde, b3]; decide
  have c8 : bit d 8 = true := by rw [← bit_or_one d 8 (by decide), hde, b8]; decide
  have c4 : bit d 4 = true := by rw [← bit_or_one d 4 (by decide), hde, b4]; decide
  have cf : field d 6 2 = 0 := by rw [← field_or_one d 6 2 (by decide), hde]; exact hf0
  have hm : elemMode d = .ok .ppgtt48 := by simp [elemMode, elemOne, c1, elemLegacy, c3, elemPriv, c8, elemAd48b, c4]
  have hfm : elemFaultModel s.plat d = .ok .hang := by simp [elemFaultModel, elemLegacy, c3, elemFaultField, cf]
  simp only [contextOf, engineCtx, hd, hm, hfm, ok_bind, vaInRange, hva, require_true, ctxIdOf_elem s e d hval, written_get hp]

/-- The context of a request in an advanced context whose caches are filled. -/
def advCtxOf (s : State) (e : Engine) (a : Rules.Adv) (pdp0 : Word64) (fm : FaultModel) : Ctx where
  tag := ⟨.engine e, .adv, (BitVec.ofNat 20 (field pdp0 0 20)).toNat⟩
  fm := fm
  pasid := BitVec.ofNat 20 (field pdp0 0 20)
  ctxid := ctxIdOf s (.engine e)
  ad := a.ad
  sup := a.sup
  coh := a.coh
  eafe := a.eafe
  fl64k := a.fl64kpe
  nxe := a.nxe
  nested := a.neste
  wpe := a.wpe
  root := a.pml4

theorem contextOf_adv {s : State} {e : Engine} {elem pdp0 va : Word64} {x : CtxEntry} (hfit : fitsRow 0x00B 0x003 elem = true)
    (hh : Rules.holdsAdvanced s elem e = true) (hg : s.regs.gttCacheEnable = false) (hva : canonical va = true)
    (hp : Rules.written (s.bank e).pdp0 pdp0 = true) (hpc : (s.bank e).pc.valid = true)
    (hcc : s.iommu.cc.find? (fun y => y.fn == BitVec.ofNat 3 (field elem 9 3)) = some x) :
    ∃ fm, (fm = .stream ∨ fm = .halt) ∧ contextOf s (.engine e) va =
      .ok (s, advCtxOf s e (Rules.advOf s.plat.haw elem (s.bank e).pc x) pdp0 fm) := by
  have b1 := fits_bit _ _ _ hfit 1 (by decide)
  have b3 := fits_bit _ _ _ hfit 3 (by decide)
  simp only [Rules.holdsAdvanced, Bool.and_eq_true, beq_iff_eq, bne_iff_ne, Bool.or_eq_true] at hh
  obtain ⟨⟨⟨hw, hde⟩, hf0⟩, hfmo⟩ := hh
  set d := (s.bank e).elem.value with hval
  have hd : (s.bank e).elem.get = .ok d := by simp [DescReg.get, DescReg.isWritten, hw.1, hval]
  have c1 : bit d 1 = true := by rw [← bit_or_one d 1 (by decide), hde, b1]; decide
  have c3 : bit d 3 = false := by rw [← bit_or_one d 3 (by decide), hde, b3]; decide
  have cf : field d 6 2 = field elem 6 2 := by rw [← field_or_one d 6 2 (by decide), hde]
  have hm : elemMode d = .ok .adv := by simp [elemMode, elemOne, c1, elemLegacy, c3]
  have hfm : ∃ fm, elemFaultModel s.plat d = .ok fm ∧ (fm = .stream ∨ fm = .halt) := by
    unfold elemFaultModel elemLegacy elemFaultField
    rw [c3, cf]
    simp only [Bool.false_eq_true, if_false, hf0]
    rcases hfmo with h | h <;> rw [h] <;> simp
  obtain ⟨fm, hfm, hfm2⟩ := hfm
  have k4 : bit d 4 = bit elem 4 := by rw [← bit_or_one d 4 (by decide), hde]
  have k8 : bit d 8 = bit elem 8 := by rw [← bit_or_one d 8 (by decide), hde]
  have k5 : bit d 5 = bit elem 5 := by rw [← bit_or_one d 5 (by decide), hde]
  have kfn : field d 9 3 = field elem 9 3 := by rw [← field_or_one d 9 3 (by decide), hde]
  have hcc' : lookupCtx s (elemFn d) = .ok (s, x) := by simp only [lookupCtx, elemFn, kfn, hcc]
  refine ⟨fm, hfm2, ?_⟩
  simp only [contextOf, engineCtx, hd, hm, hfm, ok_bind, vaInRange, hva, require_true, advCtx, hg, Bool.not_false,
    written_get hp, refillPc, hpc, if_true, hcc']
  simp only [advCtxOf, Rules.advOf, elemAd48b, elemPriv, elemCoh, k4, k8, k5, pasidOf, addrField_frame]
  rw [← ctxIdOf_elem s e d hval.symm]

theorem advCtxOf_env (s : State) (e : Engine) (elem pdp0 : Word64) (x : CtxEntry) (fm : FaultModel) (use : CacheUse)
    (g : TlbGroup) (va : Word64) (wr er : Bool) (hd : ((s.bank e).elem.value ||| 1) = elem) (hu : use.gtt = false) :
    AdvEnv ⟨advCtxOf s e (Rules.advOf s.plat.haw elem (s.bank e).pc x) pdp0 fm, use, g, va, wr, er⟩ e
      (Rules.advOf s.plat.haw elem (s.bank e).pc x) := by
  have kid : field (s.bank e).elem.value 32 32 = field elem 32 32 := by rw [← field_or_one _ 32 32 (by decide), hd]
  constructor <;> simp [advCtxOf, hu, Rules.advOf, ctxIdOf, kid]

/-! ## The record of walks takes no part in a walk -/

/-- A pair with another record in its state. -/
def withRec {α : Type} (w : Option WalkRecord) (x : Res (State × α)) : Res (State × α) := x.map fun p => (setWalked p.1 w, p.2)

theorem withRec_bind {α β : Type} (w : Option WalkRecord) (x : Res (State × α)) (f : State × α → Res (State × β))
    (hf : ∀ t v, f (setWalked t w, v) = withRec w (f (t, v))) : (withRec w x >>= f) = withRec w (x >>= f) := by
  cases x with
  | error e => rfl
  | ok p => exact hf p.1 p.2

theorem apu_setWalked (op : ApuOp) (src : Source) (i : Word32) (pa : Nat) (s : State) (w : Option WalkRecord) :
    apu op src i pa (setWalked s w) = withRec w (apu op src i pa s) := by
  unfold apu
  rw [show apuAllowed (setWalked s w) pa = apuAllowed s pa from rfl, show memRead64 (setWalked s w) pa = memRead64 s pa from rfl]
  split
  · cases memRead64 s pa with
    | error e => rfl
    | ok v =>
      simp only [ok_bind, memWrite64, memWrite, show (setWalked s w).plat = s.plat from rfl]
      split <;> rfl
  · rfl

theorem fetch_setWalked (s : State) (w) (e a i wr pa) :
    Rules.fetch (setWalked s w) e a i wr pa = withRec w (Rules.fetch s e a i wr pa) := by
  unfold Rules.fetch
  split
  · exact apu_setWalked ..
  · rw [show memRead64 (setWalked s w) pa = memRead64 s pa from rfl]
    cases memRead64 s pa <;> rfl

theorem fetchVia_setWalked (pw : Rules.Copies) (s : State) (w) (e a l wr pa) :
    Rules.fetchVia pw (setWalked s w) e a l wr pa = withRec w (Rules.fetchVia pw s e a l wr pa) := by
  unfold Rules.fetchVia
  split
  · rfl
  · exact fetch_setWalked ..

theorem advLoop_setWalked (pw : Rules.Copies) (e a wr er va ls) (s : State) (w) (tbl b1 b2 b3 b4) :
    Rules.advLoop pw e a wr er va ls (setWalked s w) tbl b1 b2 b3 b4 = withRec w (Rules.advLoop pw e a wr er va ls s tbl b1 b2 b3 b4) := by
  induction ls generalizing s tbl b1 b2 b3 b4 with
  | nil => rfl
  | cons l rest ih =>
    unfold Rules.advLoop
    rw [fetchVia_setWalked]
    refine withRec_bind w _ _ fun t v => ?_
    cases v with
    | none => rfl
    | some v =>
      simp only [show (setWalked t w).plat = t.plat from rfl, show (setWalked t w).regs = t.regs from rfl]
      split
      · rfl
      cases require (!Rules.reservedSet t.plat.haw l b1 v) .reservedBits with
      | error e => rfl
      | ok u =>
        simp only [ok_bind]
        split
        · cases require (l == 1 || !t.regs.gttCacheEnable) .gttCacheObligation with
          | error e => rfl
          | ok u =>
            simp only [ok_bind, show ∀ bits pat rw us xd, Rules.advLeaf (setWalked t w) a wr er va l bits pat rw us xd v = Rules.advLeaf t a wr er va l bits pat rw us xd v from fun _ _ _ _ _ => rfl]
            generalize Rules.advLeaf .. = z
            cases z <;> rfl
        · cases secondLevel t.plat a.neste (Rules.frame t.plat.haw 12 v) with
          | error e => rfl
          | ok tb => simp only [ok_bind]; exact ih ..

theorem adv_setWalked (s : State) (w) (e a wr er va) :
    Rules.adv (setWalked s w) e a wr er va = withRec w (Rules.adv s e a wr er va) := by
  unfold Rules.adv Rules.advVia
  rw [show secondLevel (setWalked s w).plat a.neste a.pml4 = secondLevel s.plat a.neste a.pml4 from rfl]
  cases secondLevel s.plat a.neste a.pml4 with
  | error e => rfl
  | ok tb => exact advLoop_setWalked ..

/-- What a walk of an advanced context keeps. -/
theorem advLoop_keeps (pw : Rules.Copies) (e a wr er va ls) (s t : State) (tbl b1 b2 b3 b4) (x)
    (h : Rules.advLoop pw e a wr er va ls s tbl b1 b2 b3 b4 = .ok (t, x)) :
    t.regs = s.regs ∧ t.plat = s.plat ∧ t.caches = s.caches := by
  induction ls generalizing s tbl b1 b2 b3 b4 with
  | nil => cases h
  | cons l rest ih =>
    unfold Rules.advLoop at h
    obtain ⟨⟨u, v⟩, hf, h⟩ := (bind_ok _ _ _).mp h
    obtain ⟨k1, k2, k3⟩ := fetchVia_regs hf
    suffices t.regs = u.regs ∧ t.plat = u.plat ∧ t.caches = u.caches by rw [← k1, ← k2, ← k3]; exact this
    cases v with
    | none => cases h; exact ⟨rfl, rfl, rfl⟩
    | some v =>
      simp only [] at h
      split at h
      · cases h; exact ⟨rfl, rfl, rfl⟩
      obtain ⟨-, -, h⟩ := (bind_ok _ _ _).mp h
      split at h
      · obtain ⟨-, -, h⟩ := (bind_ok _ _ _).mp h
        obtain ⟨y, -, h⟩ := (bind_ok _ _ _).mp h
        cases h; exact ⟨rfl, rfl, rfl⟩
      · obtain ⟨tb, -, h⟩ := (bind_ok _ _ _).mp h
        exact ih _ _ _ _ _ _ h

theorem advVia_keeps (pw : Rules.Copies) (s t : State) (e a wr er va x) (h : Rules.advVia pw s e a wr er va = .ok (t, x)) :
    t.regs = s.regs ∧ t.plat = s.plat ∧ t.caches = s.caches := by
  unfold Rules.advVia at h
  obtain ⟨tb, -, h⟩ := (bind_ok _ _ _).mp h
  exact advLoop_keeps _ _ _ _ _ _ _ _ _ _ _ _ _ _ _ h

theorem unfiltered_adv (pw s e a wr er va) : Unfiltered (Rules.advVia pw s e a wr er va) := by
  unfold Rules.advVia; exact unfiltered_bind _ _ fun _ => unfiltered_loop ..

/-! ## The TR-TT stage -/

/-- The tables that a TR-TT table lies behind are walked as the pseudo-code says, in the states of an invariant. -/
structure TablesOk (X : Rules.Tables) (c : Ctx) (use : CacheUse) (g : TlbGroup) (I : State → Prop) : Prop where
  walk : ∀ s tva, I s → SameEndAdv (X s tva) (walk s ⟨c, use, g, tva, false, false⟩)
  setWalked : ∀ s w tva, X (setWalked s w) tva = withRec w (X s tva)
  keeps : ∀ s t x tva, I s → X s tva = .ok (t, x) → I t ∧ ∀ q, x ≠ .filtered q
  rec_ : ∀ s w, I s → I (Machine.setWalked s w)
  failed : ∀ s, I s → I (Rules.trFailed s).1

/-- What becomes of the request where a table read stopped: it waits (40 R230), or is an errored cycle (60 R466, 47 R453). -/
def stopsAt (c : Ctx) (r : Request) (s : State) : Rules.TrStop → State
  | .waits level base tva reason =>
    (s.addPending ⟨r, c.pasid, tva, some ⟨level, base⟩, true⟩).addPageRequest ⟨c.pasid, c.ctxid, tva, reason, .read⟩
  | .ended => erroredCycle s r

/-- The stage of the machine ends as the pseudo-code says, records aside. -/
def TrSame {α β : Type} (f : α → β) (c : Ctx) (r : Request) (x : Res (State × Except Rules.TrStop α)) (y : Res (State × Option β)) : Prop :=
  match x with
  | .error e => y = .error e
  | .ok (t, .ok v) => ∃ w, y = .ok (setWalked t w, some (f v))
  | .ok (t, .error stop) => ∃ w, y = .ok (stopsAt c r (setWalked t w) stop, none)

theorem trBadRead_setWalked (s : State) (w) : trBadRead (setWalked s w) = (setWalked (Rules.trFailed s).1 w, Config.freeWord s.free) := rfl

theorem trRead_same {X c use r I} (H : TablesOk X c use r.client.tlbGroup I) (hu : use.tlb = false)
    (hfm : c.sendsRequest = true → c.fm = .stream ∨ c.fm = .halt)
    (s : State) (w) (level : Nat) (base tva : Word64) (off : Nat) (htva : tva = base + BitVec.ofNat 64 off) (hi : I s)
    (hr : isTrva s.regs tva = false) :
    TrSame (BitVec.ofNat 64) c r (Rules.trRead X c.sendsRequest s level base off (trEntrySize level))
      (trRead (setWalked s w) c use r level base tva) := by
  subst htva
  unfold Rules.trRead Machine.trRead
  rw [xlate_noTlb _ _ _ _ _ _ _ hu]
  have hw := H.walk _ (base + BitVec.ofNat 64 off) (H.rec_ s w hi)
  rw [H.setWalked] at hw
  simp only [hr, Bool.not_false, require_true, ok_bind]
  cases hx : X s (base + BitVec.ofNat 64 off) with
  | error e => rw [hx] at hw; simp only [show walk _ _ = Except.error e from hw]; rfl
  | ok p =>
    obtain ⟨t, x⟩ := p
    rw [hx] at hw
    obtain ⟨v, hv⟩ := hw
    simp only [hv, ok_bind]
    cases x with
    | phys pa a =>
      simp only []
      generalize hz : (setWalked (setWalked t w) (joinRec v (setWalked t w).walker.walked)) = z
      have : memRead z pa (trEntrySize level) = memRead t pa (trEntrySize level) := by rw [← hz]; rfl
      rw [this]
      cases memRead t pa (trEntrySize level) with
      | error e => rfl
      | ok d => exact ⟨_, by rw [← hz]; rfl⟩
    | null => exact ⟨_, rfl⟩
    | fault q l =>
      simp only []
      cases hs : c.sendsRequest with
      | true =>
        simp only [if_true]
        refine ⟨joinRec v (setWalked t w).walker.walked, ?_⟩
        rcases hfm hs with h | h <;> simp only [takePageFault, h] <;> rfl
      | false =>
        refine ⟨joinRec v (setWalked t w).walker.walked, ?_⟩
        simp only [Bool.false_eq_true, if_false]
        rw [BitVec.ofNat_toNat, BitVec.setWidth_eq]
        rfl
    | filtered q => exact absurd rfl ((H.keeps _ _ _ _ hi hx).2 q)
    | abandoned => exact ⟨_, rfl⟩

/-- Reads keep the invariant. -/
theorem trRead_keeps {X c use g I} (H : TablesOk X c use g I) {s t : State} {waits level base off n v} (hi : I s)
    (h : Rules.trRead X waits s level base off n = .ok (t, v)) : I t := by
  unfold Rules.trRead at h
  obtain ⟨-, -, h⟩ := (bind_ok _ _ _).mp h
  obtain ⟨⟨u, x⟩, hx, h⟩ := (bind_ok _ _ _).mp h
  have hu := (H.keeps _ _ _ _ hi hx).1
  cases x with
  | phys pa a =>
    obtain ⟨d, -, h⟩ := (bind_ok _ _ _).mp h
    cases h; exact hu
  | null => cases h; exact hu
  | fault q l =>
    simp only [] at h
    split at h
    · cases h; exact hu
    · cases h; exact H.failed _ hu
  | filtered q => cases h; exact hu
  | abandoned => cases h; exact hu

/-- What the machine makes of the entry of a level. -/
def trNextLevel (c : Ctx) (use : CacheUse) (r : Request) (level : Nat) (rest : List Nat) (s : State) (v : Word64) :
    Res (State × Option TrResult) :=
  match (if level == 1 then trL1Out s.regs (v.truncate 32) else trPointerOut v) with
  | .trNull => .ok (s, some .null)
  | .trInvalid => .ok (s, some .invalid)
  | .trTile l1 => .ok (s, some (.tile l1))
  | .trTable b => trLevels c use r rest s (sext48 b.toNat) none
  | .start => refuse .noLeaf
  | .table _ => refuse .noLeaf
  | .leaf _ _ _ => refuse .noLeaf

theorem trOffset_eq (level : Nat) (va : Word64) (hl : level = 3 ∨ level = 2 ∨ level = 1) :
    trEntrySize level * trIndex level va = Rules.trOffset level va := by
  rcases hl with rfl | rfl | rfl <;> rfl

/-- One level of the stage. -/
theorem tr_level {X c use r I} (H : TablesOk X c use r.client.tlbGroup I) (hu : use.tlb = false)
    (hfm : c.sendsRequest = true → c.fm = .stream ∨ c.fm = .halt) (level : Nat) (hl : level = 3 ∨ level = 2 ∨ level = 1) (rest : List Nat)
    (s : State) (w) (base : Word64) (hi : I s) (K : State → Nat → Res (State × Except Rules.TrStop TrResult))
    (hK : ∀ t v w, I t → TrSame id c r (K t v) (trNextLevel c use r level rest (setWalked t w) (BitVec.ofNat 64 v))) :
    TrSame id c r (Rules.trRead X c.sendsRequest s level base (Rules.trOffset level r.va) (trEntrySize level) >>= fun p =>
        match p.2 with
        | .error x => .ok (p.1, .error x)
        | .ok v => K p.1 v)
      (trLevels c use r (level :: rest) (setWalked s w) base none) := by
  unfold trLevels trValue
  rw [trOffset_eq level r.va hl]
  cases hr : isTrva s.regs (base + BitVec.ofNat 64 (Rules.trOffset level r.va)) with
  | true =>
    simp only [show isTrva (setWalked s w).regs (base + BitVec.ofNat 64 (Rules.trOffset level r.va)) = true from hr, Bool.not_true, require_false]
    unfold Rules.trRead
    simp only [hr, Bool.not_true, require_false]; rfl
  | false =>
    simp only [show isTrva (setWalked s w).regs (base + BitVec.ofNat 64 (Rules.trOffset level r.va)) = false from hr, Bool.not_false, require_true, ok_bind]
    have h := trRead_same H hu hfm s w level base _ _ rfl hi hr
    cases hx : Rules.trRead X c.sendsRequest s level base (Rules.trOffset level r.va) (trEntrySize level) with
    | error e => rw [hx] at h; simp only [show trRead _ _ _ _ _ _ _ = Except.error e from h]; rfl
    | ok p =>
      obtain ⟨t, v⟩ := p
      rw [hx] at h
      have ht := trRead_keeps H hi hx
      cases v with
      | error stop =>
        obtain ⟨w', hw'⟩ := h
        simp only [hw', ok_bind]
        exact ⟨w', rfl⟩
      | ok v =>
        obtain ⟨w', hw'⟩ := h
        simp only [hw', ok_bind]
        exact hK t v w' ht

/-- One level of the stage, with the value of its table read given. -/
theorem tr_given (c : Ctx) (use : CacheUse) (r : Request) (level : Nat) (hl : level = 3 ∨ level = 2 ∨ level = 1) (rest : List Nat)
    (s : State) (w) (base : Word64) (v : Nat) (K : Res (State × Except Rules.TrStop TrResult))
    (hK : TrSame id c r K (trNextLevel c use r level rest (setWalked s w) (BitVec.ofNat 64 v))) :
    TrSame id c r (require (!isTrva s.regs (base + BitVec.ofNat 64 (Rules.trOffset level r.va))) .trttTableInTrva >>= fun _ => K)
      (trLevels c use r (level :: rest) (setWalked s w) base (some (BitVec.ofNat 64 v))) := by
  unfold trLevels trValue
  rw [trOffset_eq level r.va hl]
  simp only [show (setWalked s w).regs = s.regs from rfl]
  cases hr : isTrva s.regs (base + BitVec.ofNat 64 (Rules.trOffset level r.va)) with
  | true => rfl
  | false => simp only [Bool.not_false, require_true, ok_bind]; exact hK

theorem trL1_same (c : Ctx) (use : CacheUse) (r : Request) (rest : List Nat) (s : State) (w) (v : Nat) :
    TrSame id c r (.ok (s, .ok (Rules.trL1 s.regs v))) (trNextLevel c use r 1 rest (setWalked s w) (BitVec.ofNat 64 v)) := by
  refine ⟨w, ?_⟩
  have ht : (BitVec.ofNat 64 v).truncate 32 = BitVec.ofNat 32 v := by
    apply BitVec.eq_of_toNat_eq
    simp only [BitVec.truncate_eq_setWidth, BitVec.toNat_setWidth, BitVec.toNat_ofNat]
    omega
  unfold trNextLevel
  simp only [beq_self_eq_true, if_true, ht, show (setWalked s w).regs = s.regs from rfl, id]
  unfold trL1Out Rules.trL1
  by_cases h1 : BitVec.ofNat 32 v = s.regs.trttInvalid
  · simp only [h1, if_true]
  by_cases h2 : BitVec.ofNat 32 v = s.regs.trttNull
  · rw [if_neg h1, if_pos h2, if_neg h1, if_pos h2]
  · rw [if_neg h1, if_neg h2, if_neg h1, if_neg h2]

theorem trFrom_same (c : Ctx) (use : CacheUse) (r : Request) (level : Nat) (hl : level ≠ 1) (rest : List Nat) (s : State) (w) (v : Nat)
    (next : Word64 → Res (State × Except Rules.TrStop TrResult))
    (hn : ∀ b, TrSame id c r (next b) (trLevels c use r rest (setWalked s w) b none)) :
    TrSame id c r (Rules.trFrom s v next) (trNextLevel c use r level rest (setWalked s w) (BitVec.ofNat 64 v)) := by
  have h0 : bit (BitVec.ofNat 64 v) 0 = decide (v % 2 = 1) := by
    unfold bit BitVec.getLsbD
    rw [Nat.testBit_zero, BitVec.toNat_ofNat]
    rw [decide_eq_decide]
    omega
  have h1 : bit (BitVec.ofNat 64 v) 1 = decide (v / 2 % 2 = 1) := by
    unfold bit BitVec.getLsbD
    rw [Nat.testBit_succ, Nat.testBit_zero, BitVec.toNat_ofNat]
    rw [decide_eq_decide]
    omega
  unfold trNextLevel trPointerOut Rules.trFrom
  simp only [beq_iff_eq, hl, if_false, h0, h1]
  by_cases k0 : v % 2 = 1
  · simp only [k0, decide_true, if_true]; exact ⟨w, rfl⟩
  by_cases k1 : v / 2 % 2 = 1
  · simp only [k0, k1, decide_true, decide_false, if_true, if_false, Bool.false_eq_true]; exact ⟨w, rfl⟩
  simp only [k0, k1, decide_false, if_false, Bool.false_eq_true]
  convert hn (Rules.trNext v) using 2
  unfold Rules.trNext Rules.canon
  congr 1
  simp only [addrField, BitVec.toNat_ofNat]
  omega

theorem trtt1_same {X c use r I} (H : TablesOk X c use r.client.tlbGroup I) (hu : use.tlb = false)
    (hfm : c.sendsRequest = true → c.fm = .stream ∨ c.fm = .halt) (s : State) (w) (base : Word64) (hi : I s) :
    TrSame id c r (Rules.trtt1 X c.sendsRequest s base r.va) (trLevels c use r [1] (setWalked s w) base none) := by
  exact tr_level H hu hfm 1 (by simp) [] s w base hi _ fun t v w _ => trL1_same c use r [] t w v

theorem trtt2_same {X c use r I} (H : TablesOk X c use r.client.tlbGroup I) (hu : use.tlb = false)
    (hfm : c.sendsRequest = true → c.fm = .stream ∨ c.fm = .halt) (s : State) (w) (base : Word64) (hi : I s) :
    TrSame id c r (Rules.trtt2 X c.sendsRequest s base r.va) (trLevels c use r [2, 1] (setWalked s w) base none) := by
  exact tr_level H hu hfm 2 (by simp) [1] s w base hi _ fun t v w ht =>
    trFrom_same c use r 2 (by decide) [1] t w v _ fun b => trtt1_same H hu hfm t w b ht

theorem trtt3_same {X c use r I} (H : TablesOk X c use r.client.tlbGroup I) (hu : use.tlb = false)
    (hfm : c.sendsRequest = true → c.fm = .stream ∨ c.fm = .halt) (s : State) (w) (base : Word64) (hi : I s) :
    TrSame id c r (Rules.trtt3 X c.sendsRequest s base r.va) (trLevels c use r [3, 2, 1] (setWalked s w) base none) := by
  exact tr_level H hu hfm 3 (by simp) [2, 1] s w base hi _ fun t v w ht =>
    trFrom_same c use r 3 (by decide) [2, 1] t w v _ fun b => trtt2_same H hu hfm t w b ht

/-- The stage from its L3 table is the pseudo-code of 40 R223. -/
theorem trtt_same {X c use r I} (H : TablesOk X c use r.client.tlbGroup I) (hu : use.tlb = false)
    (hfm : c.sendsRequest = true → c.fm = .stream ∨ c.fm = .halt) (s : State) (hi : I s) :
    TrSame id c r (Rules.trtt X c.sendsRequest s r.va) (trWalk s c use r) := by
  have hb : trttL3Base s.regs = Rules.canon (field s.regs.trttL3ptr 16 32 * 2 ^ 16) := by
    unfold trttL3Base Rules.canon
    rw [addrField_frame]
    unfold Rules.frame
    rw [show 48 - 16 = 32 from rfl]
  unfold trWalk Rules.trtt
  rw [← hb]
  exact trtt3_same H hu hfm s none _ hi

/-- A waiting stage goes on with its table read redone (40 R230). -/
theorem trttAgain_same {X c use r I} (H : TablesOk X c use r.client.tlbGroup I) (hu : use.tlb = false)
    (hs : c.sendsRequest = true) (hfm : c.fm = .stream ∨ c.fm = .halt) (s : State) (w) (pt : TrPoint) (hi : I s) :
    TrSame id c r (Rules.trttAgain X s pt r.va) (trLevels c use r (trLevelsFrom pt.level) (setWalked s w) pt.base none) := by
  have h3 := trtt3_same H hu (fun _ => hfm) s w pt.base hi
  have h2 := trtt2_same H hu (fun _ => hfm) s w pt.base hi
  have h1 := trtt1_same H hu (fun _ => hfm) s w pt.base hi
  rw [hs] at h1 h2 h3
  unfold Rules.trttAgain
  by_cases k3 : pt.level = 3
  · rw [if_pos k3, k3]; exact h3
  by_cases k2 : pt.level = 2
  · rw [if_neg k3, if_pos k2, k2]; exact h2
  rw [if_neg k3, if_neg k2]
  have : trLevelsFrom pt.level = [1] := by unfold trLevelsFrom; split <;> simp_all
  rw [this]; exact h1

/-- A waiting stage goes on with a given value (40 R230). -/
theorem trttGiven_same {X c use r I} (H : TablesOk X c use r.client.tlbGroup I) (hu : use.tlb = false)
    (hs : c.sendsRequest = true) (hfm : c.fm = .stream ∨ c.fm = .halt) (s : State) (w) (pt : TrPoint) (v : Nat) (hi : I s) :
    TrSame id c r (Rules.trttGiven X s pt v r.va)
      (trLevels c use r (trLevelsFrom pt.level) (setWalked s w) pt.base (some (BitVec.ofNat 64 v))) := by
  have h2 := fun b => trtt2_same H hu (fun _ => hfm) s w b hi
  have h1 := fun b => trtt1_same H hu (fun _ => hfm) s w b hi
  rw [hs] at h1 h2
  unfold Rules.trttGiven
  by_cases k3 : pt.level = 3
  · rw [if_pos k3, k3]
    exact tr_given c use r 3 (by simp) [2, 1] s w pt.base v _ (trFrom_same c use r 3 (by decide) [2, 1] s w v _ h2)
  by_cases k2 : pt.level = 2
  · rw [if_neg k3, if_pos k2, k2]
    exact tr_given c use r 2 (by simp) [1] s w pt.base v _ (trFrom_same c use r 2 (by decide) [1] s w v _ h1)
  rw [if_neg k3, if_neg k2]
  have k : trLevelsFrom pt.level = [1] := by unfold trLevelsFrom; split <;> simp_all
  have o : Rules.trOffset pt.level r.va = Rules.trOffset 1 r.va := by simp [Rules.trOffset, k3, k2]
  rw [k, o]
  exact tr_given c use r 1 (by simp) [] s w pt.base v _ (trL1_same c use r [] s w v)

/-- The tables of a legacy 48b context. -/
theorem tables48_ok (pdp0 : Word64) (c : Ctx) (use : CacheUse) (g : TlbGroup) {id : Word32} {haw : Nat}
    (hc : c = legacyCtx (.engine .rcs) .ppgtt48 id (addrField haw 12 pdp0)) (hp : use.pwc = false) (hg : use.gtt = false) :
    TablesOk (Rules.tables48 pdp0) c use g (fun s => 6 ≤ s.plat.haw ∧ s.plat.haw = haw) where
  walk s tva hi := by
    have L : LegacyEnv ⟨c, use, g, tva, false, false⟩ := legacyCtx_env _ hg hc
    refine walk_plain hp hg (sameEndAdv_still ?_)
    have := sameEnd_48 s ⟨c, use, g, tva, false, false⟩ pdp0 (by rw [hc]; rfl) L hi.1 (by rw [hc, hi.2]; rfl)
    rwa [readVia_noCache _ _ hp] at this
  setWalked s w tva := by
    unfold Rules.tables48
    rw [show Rules.ppgtt48 (setWalked s w) pdp0 false tva = Rules.ppgtt48 s pdp0 false tva from rfl]
    cases Rules.ppgtt48 s pdp0 false tva <;> rfl
  keeps s t x tva hi h := by
    unfold Rules.tables48 at h
    obtain ⟨y, hy, h⟩ := (bind_ok _ _ _).mp h
    cases h
    exact ⟨hi, ((ends_48 ..).h _ hy).2⟩
  rec_ _ _ hi := hi
  failed _ hi := hi

/-- The tables of an advanced context. -/
theorem tablesAdv_ok {s0 : State} {e : Engine} {elem pdp0 : Word64} {x : CtxEntry} {fm : FaultModel} (use : CacheUse) (g : TlbGroup)
    (hd : ((s0.bank e).elem.value ||| 1) = elem) (hp : use.pwc = false) (hg : use.gtt = false) :
    TablesOk (Rules.tablesAdv e (Rules.advOf s0.plat.haw elem (s0.bank e).pc x))
      (advCtxOf s0 e (Rules.advOf s0.plat.haw elem (s0.bank e).pc x) pdp0 fm) use g (fun s => s.regs.gttCacheEnable = false) where
  walk s tva hi := by
    have E := advCtxOf_env s0 e elem pdp0 x fm use g tva false false hd hg
    have := sameEnd_adv E s hi rfl
    rw [copiesUsed_noCache _ _ hp] at this
    exact walk_plain hp hg this
  setWalked s w tva := adv_setWalked ..
  keeps s t y tva hi h := by
    obtain ⟨k, -, -⟩ := advVia_keeps _ _ _ _ _ _ _ _ _ h
    exact ⟨by rw [k]; exact hi, (unfiltered_adv ..).h _ _ h⟩
  rec_ _ _ hi := hi
  failed _ hi := hi

/-- Acting on a result of the stage in a legacy 48b context. -/
theorem after_48 (pdp0 : Word64) (c : Ctx) (use : CacheUse) (r : Request) (t : State) (w) (y : TrResult) {id : Word32}
    (hc : c = legacyCtx (.engine .rcs) .ppgtt48 id (addrField t.plat.haw 12 pdp0)) (hsrc : r.src = .engine .rcs) (hu : use.tlb = false)
    (hp : use.pwc = false) (hg : use.gtt = false) (hh : 6 ≤ t.plat.haw) :
    Rules.endTr48 pdp0 id r (.ok (t, .ok y)) (toOutcome (afterTr (setWalked t w) c use r y)) := by
  refine ⟨fun z h => (by cases h), fun u h => ?_, fun u h => ?_, fun u l1 h => ?_⟩
  · cases h; exact ⟨w, rfl⟩
  · cases h; exact ⟨w, rfl⟩
  · cases h
    intro va
    have hva : tileVa l1 r.va = va := rfl
    unfold afterTr
    simp only [hva, show (setWalked t w).regs = t.regs from rfl]
    refine ⟨fun ht => by rw [ht]; rfl, fun ht => ?_⟩
    simp only [ht, Bool.not_false, require_true, ok_bind]
    have L : LegacyEnv ⟨c, use, r.client.tlbGroup, va, r.acc.isWrite, r.er⟩ := legacyCtx_env _ hg hc
    have hs := sameEnd_48 (setWalked t w) ⟨c, use, r.client.tlbGroup, va, r.acc.isWrite, r.er⟩ pdp0 (by rw [hc]; rfl) L hh (by rw [hc]; rfl)
    rw [readVia_noCache _ _ hp] at hs
    have hf := final_legacy (setWalked t w) r c use va (setWalked t w).walker.walked _ (by rw [hc]; rfl) hu (walk_plain hp hg (sameEndAdv_still hs))
      (fun u y h => by
        unfold Rules.still at h
        obtain ⟨z, hz, h⟩ := (bind_ok _ _ _).mp h
        cases h
        exact (ends_48 ..).h _ hz)
      (fun _ _ _ _ => by rw [hsrc]; rfl) (fun _ _ _ _ => mayReach_of_src _ (by rw [hsrc]; simp) _)
    have hid : c.ctxid = id := by rw [hc]; rfl
    rw [hid, show Rules.ppgtt48Via (Rules.entry (setWalked t w)) (setWalked t w) pdp0 r.acc.isWrite va =
      Rules.ppgtt48 t pdp0 r.acc.isWrite va from rfl] at hf
    refine ⟨fun x h => ?_, fun z h => ?_⟩
    · rw [h] at hf
      obtain ⟨v, hv⟩ := hf.1 _ _ rfl
      exact ⟨v, by rw [hv]; rfl⟩
    · rw [h] at hf
      rw [hf.2 z rfl]

/-- Acting on a result of the stage in an advanced context of Render. -/
theorem after_adv {s0 : State} {elem pdp0 : Word64} {x : CtxEntry} {fm : FaultModel} (use : CacheUse) (r : Request) (t : State) (w)
    (y : TrResult) (hfm : fm = .stream ∨ fm = .halt) (hd : ((s0.bank .rcs).elem.value ||| 1) = elem) (hsrc : r.src = .engine .rcs)
    (hu : use.tlb = false) (hp : use.pwc = false) (hg : use.gtt = false) (hi : t.regs.gttCacheEnable = false) :
    let a := Rules.advOf s0.plat.haw elem (s0.bank .rcs).pc x
    Rules.endTrAdv a (BitVec.ofNat 20 (field pdp0 0 20)) (ctxIdOf s0 (.engine .rcs)) r (.ok (t, .ok y))
      (toOutcome (afterTr (setWalked t w) (advCtxOf s0 .rcs a pdp0 fm) use r y)) := by
  intro a
  refine ⟨fun z h => (by cases h), fun u h => ?_, fun u h => ?_, fun _ _ _ _ _ h => (by cases h), fun _ h => (by cases h),
    fun u l1 h => ?_⟩
  · cases h; exact ⟨w, rfl⟩
  · cases h; exact ⟨w, rfl⟩
  · cases h
    intro va
    have hva : tileVa l1 r.va = va := rfl
    unfold afterTr
    simp only [hva, show (setWalked t w).regs = t.regs from rfl]
    refine ⟨fun ht => by rw [ht]; rfl, fun ht => ?_⟩
    simp only [ht, Bool.not_false, require_true, ok_bind]
    have E := advCtxOf_env s0 .rcs elem pdp0 x fm use r.client.tlbGroup va r.acc.isWrite r.er hd hg
    have hs := sameEnd_adv E (setWalked t w) hi rfl
    rw [copiesUsed_noCache _ _ hp] at hs
    have hf := final_adv (setWalked t w) r _ use va (setWalked t w).walker.walked _ hfm hu (walk_plain hp hg hs) (unfiltered_adv ..).h
      (by rw [hsrc]; simp)
    have hx := adv_setWalked t w .rcs a r.acc.isWrite r.er va
    rw [show Rules.advVia (fun _ => none) (setWalked t w) .rcs a r.acc.isWrite r.er va = withRec w (Rules.adv t .rcs a r.acc.isWrite r.er va) from hx, er_eq] at hf
    refine ⟨fun v x h => ?_, fun z h => ?_⟩
    · rw [h] at hf
      obtain ⟨v', hv⟩ := hf.1 _ _ rfl
      exact ⟨v', by rw [hv]; rfl⟩
    · rw [h] at hf
      rw [hf.2 z rfl]

/-- A request whose stage has ended, in a legacy 48b context. -/
theorem finish_48 (pdp0 : Word64) (c : Ctx) (use : CacheUse) (r : Request) {x : Res (State × Except Rules.TrStop TrResult)}
    {y : Res (State × Option TrResult)} {id : Word32} {haw : Nat} (hxy : TrSame (fun v => v) c r x y)
    (hc : c = legacyCtx (.engine .rcs) .ppgtt48 id (addrField haw 12 pdp0)) (hsrc : r.src = .engine .rcs) (hu : use.tlb = false)
    (hp : use.pwc = false) (hg : use.gtt = false) (hi : ∀ t v, x = .ok (t, v) → 6 ≤ t.plat.haw ∧ t.plat.haw = haw) :
    Rules.endTr48 pdp0 id r x (toOutcome (y >>= finishTr c use r)) := by
  cases x with
  | error e =>
    simp only [show y = Except.error e from hxy]
    exact ⟨fun z h => by cases h; rfl, fun _ h => (by cases h), fun _ h => (by cases h), fun _ _ h => (by cases h)⟩
  | ok p =>
    obtain ⟨t, v⟩ := p
    obtain ⟨h6, hh⟩ := hi t v rfl
    cases v with
    | error st => exact ⟨fun z h => (by cases h), fun _ h => (by cases h), fun _ h => (by cases h), fun _ _ h => (by cases h)⟩
    | ok v =>
      obtain ⟨w, rfl⟩ := hxy
      exact after_48 pdp0 c use r t _ v (by rw [hh]; exact hc) hsrc hu hp hg h6

/-- A request whose stage has ended, or waits, in an advanced context of Render. -/
theorem finish_adv {s0 : State} {elem pdp0 : Word64} {ce : CtxEntry} {fm : FaultModel} (use : CacheUse) (r : Request)
    {x : Res (State × Except Rules.TrStop TrResult)} {y : Res (State × Option TrResult)}
    (hxy : TrSame (fun v => v) (advCtxOf s0 .rcs (Rules.advOf s0.plat.haw elem (s0.bank .rcs).pc ce) pdp0 fm) r x y)
    (hfm : fm = .stream ∨ fm = .halt) (hd : ((s0.bank .rcs).elem.value ||| 1) = elem) (hsrc : r.src = .engine .rcs)
    (hu : use.tlb = false) (hp : use.pwc = false) (hg : use.gtt = false)
    (hi : ∀ t v, x = .ok (t, v) → t.regs.gttCacheEnable = false) :
    let a := Rules.advOf s0.plat.haw elem (s0.bank .rcs).pc ce
    Rules.endTrAdv a (BitVec.ofNat 20 (field pdp0 0 20)) (ctxIdOf s0 (.engine .rcs)) r x
      (toOutcome (y >>= finishTr (advCtxOf s0 .rcs a pdp0 fm) use r)) := by
  intro a
  cases x with
  | error e =>
    simp only [show y = Except.error e from hxy]
    exact ⟨fun z h => by cases h; rfl, fun _ h => (by cases h), fun _ h => (by cases h), fun _ _ _ _ _ h => (by cases h),
      fun _ h => (by cases h), fun _ _ h => (by cases h)⟩
  | ok p =>
    obtain ⟨t, v⟩ := p
    have hit := hi t v rfl
    cases v with
    | error st =>
      obtain ⟨w, rfl⟩ := hxy
      refine ⟨fun z h => (by cases h), fun _ h => (by cases h), fun _ h => (by cases h), fun _ _ _ _ _ h => ?_, fun _ h => ?_,
        fun _ _ h => (by cases h)⟩
      · cases h; exact ⟨w, rfl⟩
      · cases h; exact ⟨w, congrArg Host.Outcome.next (erroredCycle_eq _ _)⟩
    | ok v =>
      obtain ⟨w, rfl⟩ := hxy
      exact after_adv use r t _ v hfm hd hsrc hu hp hg hit

/-- What the stage keeps. -/
theorem trFrom_keeps {s t : State} {v : Nat} {next : Word64 → Res (State × Except Rules.TrStop TrResult)} {y} {I : State → Prop}
    (hs : I s) (hn : ∀ b t y, next b = .ok (t, y) → I t) (h : Rules.trFrom s v next = .ok (t, y)) : I t := by
  unfold Rules.trFrom at h
  split at h
  · cases h; exact hs
  split at h
  · cases h; exact hs
  exact hn _ _ _ h

theorem trtt1_keeps {X c use g I} (H : TablesOk X c use g I) {s t : State} {waits base va v} (hi : I s)
    (h : Rules.trtt1 X waits s base va = .ok (t, v)) : I t := by
  unfold Rules.trtt1 at h
  obtain ⟨⟨u, y⟩, hy, h⟩ := (bind_ok _ _ _).mp h
  have hu := trRead_keeps H hi hy
  cases y <;> cases h <;> exact hu

theorem trtt2_keeps {X c use g I} (H : TablesOk X c use g I) {s t : State} {waits base va v} (hi : I s)
    (h : Rules.trtt2 X waits s base va = .ok (t, v)) : I t := by
  unfold Rules.trtt2 at h
  obtain ⟨⟨u, y⟩, hy, h⟩ := (bind_ok _ _ _).mp h
  have hu := trRead_keeps H hi hy
  cases y with
  | error e => cases h; exact hu
  | ok y => exact trFrom_keeps hu (fun b t y h => trtt1_keeps H hu h) h

theorem trtt3_keeps {X c use g I} (H : TablesOk X c use g I) {s t : State} {waits base va v} (hi : I s)
    (h : Rules.trtt3 X waits s base va = .ok (t, v)) : I t := by
  unfold Rules.trtt3 at h
  obtain ⟨⟨u, y⟩, hy, h⟩ := (bind_ok _ _ _).mp h
  have hu := trRead_keeps H hi hy
  cases y with
  | error e => cases h; exact hu
  | ok y => exact trFrom_keeps hu (fun b t y h => trtt2_keeps H hu h) h

theorem trttAgain_keeps {X c use g I} (H : TablesOk X c use g I) {s t : State} {pt va v} (hi : I s)
    (h : Rules.trttAgain X s pt va = .ok (t, v)) : I t := by
  unfold Rules.trttAgain at h
  split at h
  · exact trtt3_keeps H hi h
  split at h
  · exact trtt2_keeps H hi h
  · exact trtt1_keeps H hi h

theorem trttGiven_keeps {X c use g I} (H : TablesOk X c use g I) {s t : State} {pt n va v} (hi : I s)
    (h : Rules.trttGiven X s pt n va = .ok (t, v)) : I t := by
  unfold Rules.trttGiven at h
  obtain ⟨-, -, h⟩ := (bind_ok _ _ _).mp h
  split at h
  · exact trFrom_keeps hi (fun b t y h => trtt2_keeps H hi h) h
  split at h
  · exact trFrom_keeps hi (fun b t y h => trtt1_keeps H hi h) h
  · cases h; exact hi

end Sys2Proof.Machine
end

