-- ==== Sys2Proof/Tests/Slice0.lean ====
section
/-! SUPPORT. Tests: ill-formed terms, words written out from the spec's encodings, one-step vectors of
95_test_vectors.md, and for every statement with hypotheses a state that meets them. -/

namespace Sys2Proof.Tests

open Sys2Proof Sys2Proof.Machine

set_option Elab.async false

/-! ## Helpers -/

/-- A frame: word, row number, operand bytes. -/
def fr (w sel : Nat) (ops : List Nat) : List Byte := leBytes 8 w ++ (BitVec.ofNat 8 sel :: ops.map (BitVec.ofNat 8))

def isNext {σ φ ρ : Type} : Host.Outcome σ φ ρ → Bool
  | .next _ => true | .fault _ => false | .refused _ => false

/-- A question about the next state; false of a stop. -/
def after (o : Host.Outcome State Fault Refusal) (p : State → Bool) : Bool :=
  match o with
  | .next s => p s | .fault _ => false | .refused _ => false

def refusedWith (o : Host.Outcome State Fault Refusal) (r : Refusal) : Bool :=
  match o with
  | .next _ => false | .fault _ => false | .refused x => x == r

theorem exists_next {σ φ ρ : Type} {o : Host.Outcome σ φ ρ} (h : isNext o = true) : ∃ t, o = .next t := by
  cases o with
  | next t => exact ⟨t, rfl⟩
  | fault f => cases h
  | refused r => cases h

/-- Put quad words into memory. -/
def poke (l : List (Nat × Nat)) (s : State) : State :=
  l.foldl (fun s p => s.setMem (s.mem.setBytes p.1 (leBytes 8 p.2))) s

/-- A context that runs on an engine: `ELEM` and `PDP0`; `PDP1` to `PDP3` as in V3. -/
def ctx (e : Engine) (elem pdp0 : Nat) (s : State) : State :=
  s.setBank e { s.bank e with
    elem := ⟨BitVec.ofNat 64 elem, true, true⟩, pdp0 := ⟨BitVec.ofNat 64 pdp0, true, true⟩
    pdp1 := ⟨0x110000, true, true⟩, pdp2 := ⟨0x120000, true, true⟩, pdp3 := ⟨0x130000, true, true⟩, hs := .running }

def rd (va n : Nat) : Request := ⟨.engine .rcs, .hdc, BitVec.ofNat 64 va, .read n⟩
def wr (va : Nat) (d : List Nat) : Request := ⟨.engine .rcs, .hdc, BitVec.ofNat 64 va, .write (d.map (BitVec.ofNat 8))⟩

/-- The physical addresses handed to GTI. -/
def pas (s : State) : List Nat := s.reqs.inflight.map (·.pa)

/-- V1: entry 0x123 of the global GTT, RCS in a GGTT context. -/
def sG (pte : Nat) : State := ctx .rcs 0x70000000B 0 (poke [(0x7C000918, pte)] State.reset)
/-- V3: a 32b context. -/
def s32 (pde pte : Nat) : State := ctx .rcs 0x70000010B 0x100000 (poke [(0x100010, pde), (0x200018, pte)] State.reset)
/-- V4: a legacy 48b context. -/
def s48 (pde pte : Nat) : State :=
  ctx .rcs 0x420000011B 0x100000
    (poke [(0x100008, 0x101003), (0x101010, 0x102003), (0x102018, pde), (0x103028, pte)] State.reset)
/-- V6, V7: an advanced context with PASID 5, its PC and CC filled. -/
def ce : CtxEntry := ⟨0, false, false, false, false⟩
def pe (eafe : Bool) : PasidEntry := ⟨0, 5, true, 0x100000, eafe, false⟩
def sA (elem : Nat) (eafe : Bool) (pte : Nat) : State :=
  let s := ctx .rcs elem 5
    (poke [(0x100008, 0x101007), (0x101010, 0x102007), (0x102018, 0x103007), (0x103028, pte)] State.reset)
  { s with
    banks := { s.banks with rcs := { s.banks.rcs with pc := ⟨true, 0x100000, eafe, false⟩, resident := some 5 } }
    iommu := ⟨[ce], [pe eafe], [ce], [(5, 1)]⟩ }
/-- P4, V9: TR-TT tables in a legacy 48b context, mapped by a 1 GB page at 0x100000000. -/
def sT (l3e l2e l1e : Nat) : State :=
  let s := ctx .rcs 0x420000011B 0x100000
    (poke [(0x100000, 0x101003), (0x101020, 0x40000083), (0x101000, 0x102003), (0x1028D0, 0x103003), (0x103280, 0xABC5003),
      (0x40000000, l3e), (0x40001010, l2e), (0x40002000, l1e * 2 ^ 32)] State.reset)
  { s with regs := { s.regs with
      bypassDis := true, trttL3ptr := 0x100000000, trttNull := 0xFFFFFFFF, trttInvalid := 0xFFFFFFFE, trvadr := 0xFF
      trtte := 3 } }
/-- The same TR-TT registers over an advanced context: a 1 GB page at 0x100000000, and page-directory pointers of a page at
0x140000000. -/
def sTA (elem l3e l2e l1e : Nat) : State :=
  let s := sA elem true 0xABCD007
  { poke [(0x100000, 0x101007), (0x101020, 0x40000087), (0x101028, 0x104007), (0x40000000, l3e), (0x40001010, l2e),
      (0x40002000, l1e * 2 ^ 32)] s with
    regs := (sT 0 0 0).regs }
/-- An engine's hand-shake state. -/
def hand (e : Engine) (h : HandShake) (s : State) : State := s.setBank e { s.bank e with hs := h }
def withInput (i : Input) (s : State) : State := s.setInputs [i]

/-- The virtual address of V4, V6 and V7. -/
def va4 : Nat := 0x8080605123

/-! ## Well-formedness: one ill-formed term for each check -/

theorem test_wf_size_zero : wellFormed (.xlateTrtt (rd 0 0)) = false := by decide
theorem test_wf_crosses_page : wellFormed (.xlateTrtt (rd 0xFFF 2)) = false := by decide
theorem test_wf_page_end : wellFormed (.xlateTrtt (rd 0xFFE 2)) = true := by decide
theorem test_wf_trtt_source : wellFormed (.xlateTrtt { rd 0 4 with src := .engine .bcs }) = false := by decide
theorem test_wf_ggtt_mode : wellFormed (.xlateGgtt 0x10B (rd 0 4)) = false := by decide
theorem test_wf_ppgtt32_mode : wellFormed (.xlatePpgtt32 0x11B (rd 0 4)) = false := by decide
theorem test_wf_ppgtt48_mode : wellFormed (.xlatePpgtt48 0x10B (rd 0 4)) = false := by decide
theorem test_wf_adv_legacy : wellFormed (.xlateAdv 0x00B (rd 0 4)) = false := by decide
theorem test_wf_adv_bit1 : wellFormed (.xlateAdv 0x001 (rd 0 4)) = false := by decide
theorem test_wf_present : wellFormed (.iaPml4e 0x1006) = false := by decide
theorem test_wf_pointer_size : wellFormed (.iaPdpePd 0x1081) = false := by decide
theorem test_wf_large_size : wellFormed (.p48Pde2M 0x1003) = false := by decide
theorem test_wf_apu_alignment : wellFormed (.apu0000 .rcs 0x1004) = false := by decide
theorem test_wf_gtt_width : wellFormed (.gttWrite 0 .b4 0x100000000) = false := by decide
theorem test_wf_reset_display : wellFormed (.resetEngine .display) = false := by decide
theorem test_wf_lookup_request : wellFormed (.tlbLookup ⟨true, true, true, true⟩ (rd 0xFFF 2)) = false := by decide
theorem test_decode_refuses_illformed : decode (fr 0xC0 27 [0, 4, 0, 0, 0, 0, 0, 0, 0]) = .error .illFormed := by decide +kernel
theorem test_decode_refuses_word : decode (fr 0xD0 27 [0, 0, 0, 0, 0, 0, 0, 0, 0]) = .error (.wordMismatch "APU.0000") := by
  decide +kernel
theorem test_decode_refuses_row : decode (fr 0 77 []) = .error (.unknownRow 77) := by decide +kernel
theorem test_decode_refuses_short : decode (fr 0xC0 27 [0, 0]) = .error .truncated := by decide +kernel
theorem test_decode_refuses_rest : decode (fr 0x00010001 43 [1]) = .error .trailing := by decide +kernel

/-! ## Decoding of words written out from the encodings of 30_encoding.md, every constructor

A request tail is: source, client, kind, atomic operation, size less one (2 bytes), data. -/

/-- 30 R180: bit 0 Valid, bit 1 always 1, bit 3 legacy, bit 8 PPGTT, bit 4 48b; context ID in bits 63:32. -/
theorem test_decode_xlate :
    decode (fr (2 ^ 0 + 2 ^ 1 + 2 ^ 3 + 7 * 2 ^ 32) 1 [0x56, 0x34, 0x12, 0, 0, 0, 0, 0, 0, 0, 0, 0, 3, 0]) =
      .ok (.xlateGgtt 0x70000000B (rd 0x123456 4)) ∧
    decode (fr (2 ^ 0 + 2 ^ 1 + 2 ^ 3 + 2 ^ 8) 2 [0x23, 0x31, 0x40, 0, 0, 0, 0, 0, 4, 9, 1, 0, 1, 0, 0xAA, 0xBB]) =
      .ok (.xlatePpgtt32 0x10B ⟨.engine .bcs, .blt, 0x403123, .write [0xAA, 0xBB]⟩) ∧
    decode (fr (2 ^ 0 + 2 ^ 1 + 2 ^ 3 + 2 ^ 8 + 2 ^ 4) 3 [0x23, 0x51, 0x60, 0x80, 0x80, 0, 0, 0, 1, 8, 2, 7, 0, 0, 0x11]) =
      .ok (.xlatePpgtt48 0x11B ⟨.engine .vcs0, .mfx, 0x8080605123, .atomic 7 [0x11]⟩) ∧
    decode (fr (2 ^ 0 + 2 ^ 1 + 2 ^ 4 + 1 * 2 ^ 6 + 9 * 2 ^ 32) 4 [0, 0, 0, 0, 0, 0x80, 0xFF, 0xFF, 2, 1, 3, 0, 63, 0]) =
      .ok (.xlateAdv 0x900000053 ⟨.engine .vcs1, .icache, 0xFFFF800000000000, .fetch 64⟩) ∧
    decode (fr 0xFFFFF00008010040 5 [0, 4, 0, 0, 7, 0]) =
      .ok (.xlateTrtt ⟨.engine .rcs, .sampler, 0xFFFFF00008010040, .read 8⟩) ∧
    decode (fr 0x00B 1 [0x56, 0x34, 0x12, 0, 0, 0, 0, 0, 8, 0, 0, 0, 3, 0]) =
      .ok (.xlateGgtt 0x00B ⟨.vebox2, .hdc, 0x123456, .read 4⟩) := by decide +kernel

/-- 30 R140 to R146: bit 0 P, bit 1 R/W, bit 2 U/S, bit 5 A, bit 6 D, bit 7 PS, bit 11 64 KB, address above bit 11. -/
theorem test_decode_ia32e :
    decode (fr (0x101000 + 2 ^ 2 + 2 ^ 1 + 2 ^ 0) 6 []) = .ok (.iaPml4e 0x101007) ∧
    decode (fr (0x102000 + 2 ^ 5 + 2 ^ 1 + 2 ^ 0) 7 []) = .ok (.iaPdpePd 0x102023) ∧
    decode (fr (0xC0000000 + 2 ^ 7 + 2 ^ 2 + 2 ^ 1 + 2 ^ 0) 8 []) = .ok (.iaPdpe1G 0xC0000087) ∧
    decode (fr (0x103000 + 2 ^ 11 + 2 ^ 1 + 2 ^ 0) 9 [1]) = .ok (.iaPdePt 0x103803 true) ∧
    decode (fr (0x40200000 + 2 ^ 7 + 2 ^ 6 + 2 ^ 0) 10 []) = .ok (.iaPde2M 0x402000C1) ∧
    decode (fr (0xAB0000 + 2 ^ 63 + 2 ^ 0) 11 []) = .ok (.iaPte64K 0x8000000000AB0001) ∧
    decode (fr (0xABCD000 + 2 ^ 10 + 2 ^ 6 + 2 ^ 5 + 7) 12 []) = .ok (.iaPte4K 0xABCD467) := by decide +kernel

/-- 30 R150 to R161, R170: bit 9 Null of a leaf, bit 11 64 KB of a PDE. -/
theorem test_decode_legacy :
    decode (fr (0x200000 + 2 ^ 11 + 3) 13 []) = .ok (.p32Pde 0x200803) ∧
    decode (fr (0x4500000 + 3) 14 []) = .ok (.p32Pte64K 0x4500003) ∧
    decode (fr (2 ^ 9 + 2 ^ 0) 15 []) = .ok (.p32Pte4K 0x201) ∧
    decode (fr (0x101000 + 3) 16 []) = .ok (.p48Pml4e 0x101003) ∧
    decode (fr (0x102000 + 3) 17 []) = .ok (.p48PdpePd 0x102003) ∧
    decode (fr (0xC0000000 + 2 ^ 7 + 3) 18 []) = .ok (.p48Pdpe1G 0xC0000083) ∧
    decode (fr (0x103000 + 3) 19 []) = .ok (.p48PdePt 0x103003) ∧
    decode (fr (0x40200000 + 2 ^ 7 + 3) 20 []) = .ok (.p48Pde2M 0x40200083) ∧
    decode (fr (0xAB00000 + 3) 21 []) = .ok (.p48Pte64K 0xAB00003) ∧
    decode (fr (0xABCD000 + 3) 22 []) = .ok (.p48Pte4K 0xABCD003) ∧
    decode (fr (0xABCD000 + 2 ^ 0) 23 []) = .ok (.ggttPte 0xABCD001) := by decide +kernel

/-- 30 R175 to R177: bit 0 Invalid, bit 1 Null, address bits 47:12; an L1 entry is 32 bits. -/
theorem test_decode_trtt :
    decode (fr 0x100001000 24 []) = .ok (.trttL3e 0x100001000) ∧
    decode (fr (2 ^ 1) 25 []) = .ok (.trttL2e 2) ∧
    decode (fr 0xFFFFFFFE 26 []) = .ok (.trttL1e 0xFFFFFFFE) ∧
    decode (fr (2 ^ 32) 26 []) = .error (.wordMismatch "TRTT.L1E") := by decide +kernel

/-- 30 R186: the opcode is `1100 i w e r`; the operands are the engine and the entry's address. -/
theorem test_decode_apu :
    let ops := [3, 8, 0x30, 0x10, 0, 0, 0, 0, 0]
    decode (fr 0xC0 27 ops) = .ok (.apu0000 .vecs 0x103008) ∧ decode (fr 0xC1 28 ops) = .ok (.apu0001 .vecs 0x103008) ∧
    decode (fr 0xC2 29 ops) = .ok (.apu0010 .vecs 0x103008) ∧ decode (fr 0xC3 30 ops) = .ok (.apu0011 .vecs 0x103008) ∧
    decode (fr 0xC4 31 ops) = .ok (.apu0100 .vecs 0x103008) ∧ decode (fr 0xC5 32 ops) = .ok (.apu0101 .vecs 0x103008) ∧
    decode (fr 0xC6 33 ops) = .ok (.apu0110 .vecs 0x103008) ∧ decode (fr 0xC7 34 ops) = .ok (.apu0111 .vecs 0x103008) ∧
    decode (fr 0xC8 35 ops) = .ok (.apu1000 .vecs 0x103008) ∧ decode (fr 0xC9 36 ops) = .ok (.apu1001 .vecs 0x103008) ∧
    decode (fr 0xCA 37 ops) = .ok (.apu1010 .vecs 0x103008) ∧ decode (fr 0xCB 38 ops) = .ok (.apu1011 .vecs 0x103008) ∧
    decode (fr 0xCC 39 ops) = .ok (.apu1100 .vecs 0x103008) ∧ decode (fr 0xCD 40 ops) = .ok (.apu1101 .vecs 0x103008) ∧
    decode (fr 0xCE 41 ops) = .ok (.apu1110 .vecs 0x103008) ∧ decode (fr 0xCF 42 ops) = .ok (.apu1111 .vecs 0x103008) := by
  decide +kernel

/-- 30 R184: bit 0 with mask bit 16, or bit 1 with mask bit 17; the register is named by the row. -/
theorem test_decode_messages :
    decode (fr (2 ^ 16 + 2 ^ 0) 43 []) = .ok .availableRcs ∧ decode (fr (2 ^ 16 + 2 ^ 0) 44 []) = .ok .receiveReadyRcs ∧
    decode (fr (2 ^ 17 + 2 ^ 1) 45 []) = .ok .launchedRcs ∧ decode (fr (2 ^ 17 + 2 ^ 1) 46 []) = .ok .confirmedRcs ∧
    decode (fr (2 ^ 16 + 2 ^ 0) 47 []) = .ok .availableBcs ∧ decode (fr (2 ^ 16 + 2 ^ 0) 48 []) = .ok .receiveReadyBcs ∧
    decode (fr (2 ^ 17 + 2 ^ 1) 49 []) = .ok .launchedBcs ∧ decode (fr (2 ^ 17 + 2 ^ 1) 50 []) = .ok .confirmedBcs ∧
    decode (fr (2 ^ 16 + 2 ^ 0) 51 []) = .ok .availableVecs ∧ decode (fr (2 ^ 16 + 2 ^ 0) 52 []) = .ok .receiveReadyVecs ∧
    decode (fr (2 ^ 17 + 2 ^ 1) 53 []) = .ok .launchedVecs ∧ decode (fr (2 ^ 17 + 2 ^ 1) 54 []) = .ok .confirmedVecs ∧
    decode (fr (2 ^ 16 + 2 ^ 0) 55 []) = .ok .availableVcs0 ∧ decode (fr (2 ^ 16 + 2 ^ 0) 56 []) = .ok .receiveReadyVcs0 ∧
    decode (fr (2 ^ 17 + 2 ^ 1) 57 []) = .ok .launchedVcs0 ∧ decode (fr (2 ^ 17 + 2 ^ 1) 58 []) = .ok .confirmedVcs0 ∧
    decode (fr (2 ^ 16 + 2 ^ 0) 59 []) = .ok .availableVcs1 ∧ decode (fr (2 ^ 16 + 2 ^ 0) 60 []) = .ok .receiveReadyVcs1 ∧
    decode (fr (2 ^ 17 + 2 ^ 1) 61 []) = .ok .launchedVcs1 ∧ decode (fr (2 ^ 17 + 2 ^ 1) 62 []) = .ok .confirmedVcs1 := by
  decide +kernel

/-- The rows to which the spec gives no bits: selector and operands. -/
theorem test_decode_bare :
    decode (fr 0 63 [5, 0x23, 0x51, 0x60, 0x80, 0x80, 0, 0, 0, 0, 0, 0, 0, 3, 0]) =
      .ok (.tlbLookup ⟨true, false, true, false⟩ (rd 0x8080605123 4)) ∧
    decode (fr 0 64 [9]) = .ok (.tlbFill ⟨true, false, false, true⟩) ∧
    decode (fr 0 65 []) = .ok .tlbinvCs ∧
    decode (fr 0 66 [2, 5, 0, 0, 0, 0x50, 0x60, 0x80, 0x80, 0, 0, 0, 3]) =
      .ok (.tlbinvSvm (.page 5 0x8080605000) ⟨true, true, false, false⟩) ∧
    decode (fr 0 67 [4]) = .ok (.tlbinvCtxsw .bcs) ∧
    decode (fr 0 68 [0xFF, 0xFF, 0xF, 0, 0x10, 0, 0, 0, 0, 0, 0]) = .ok (.tlbinvPageResponse 0xFFFFF 0x1000) ∧
    decode (fr 0 69 []) = .ok .invWait ∧
    decode (fr 0xABCD001 70 [0x18, 9, 0, 3]) = .ok (.gttWrite 0x918 .b8 0xABCD001) ∧
    decode (fr 0 71 [0x1C, 9, 0, 2]) = .ok (.gttRead 0x91C .b4) ∧
    decode (fr 0xABCD001 72 [0, 0x30, 0x12, 0]) = .ok (.miUpdateGtt 0x123000 0xABCD001) ∧
    decode (fr 0 73 [5, 0, 0, 0, 0x50, 0x60, 0x80, 0x80, 0, 0, 0, 1, 0]) =
      .ok (.pageResponse 5 0x8080605000 true ⟨false, false, false, false⟩) ∧
    decode (fr 0 74 [5]) = .ok (.resetEngine .wdbox) ∧
    decode (fr 0 75 []) = .ok .resetDevice ∧ decode (fr 0 76 []) = .ok .resetBus := by decide +kernel

/-! ## One step, the vectors of 95_test_vectors.md -/

/-- V1 rows 1.1 and 1.5. -/
theorem test_ggtt_walk : after (exec (.xlateGgtt 0x70000000B (rd 0x123456 4)) (sG 0xABCD001)) (fun t => pas t == [0xABCD456]) := by
  decide +kernel
theorem test_ggtt_notPresent :
    after (exec (.xlateGgtt 0x70000000B (rd 0x123456 4)) (sG 0xABCD000)) (fun t => t.banks.rcs.hung && pas t == []) := by
  decide +kernel
/-- V3 rows 3.1 and 3.3. -/
theorem test_ppgtt32_walk :
    after (exec (.xlatePpgtt32 0x70000010B (rd 0x403123 4)) (s32 0x200003 0x3000003)) (fun t => pas t == [0x3000123]) := by
  decide +kernel
theorem test_ppgtt32_writeProtect :
    after (exec (.xlatePpgtt32 0x70000010B (wr 0x403123 [1])) (s32 0x200003 0x3000001)) (fun t => t.banks.rcs.hung) := by
  decide +kernel
/-- V4 row 4.1 and V5 row 5.2. -/
theorem test_ppgtt48_walk :
    after (exec (.xlatePpgtt48 0x420000011B (rd va4 4)) (s48 0x103003 0xABCD003)) (fun t => pas t == [0xABCD123]) := by
  decide +kernel
theorem test_ppgtt48_large :
    after (exec (.xlatePpgtt48 0x420000011B (rd va4 4)) (s48 0x40200083 0)) (fun t => pas t == [0x40205123]) := by
  decide +kernel
/-- V7 rows 7.1 and 7.6. -/
theorem test_adv_write :
    after (exec (.xlateAdv 0x900000053 (wr va4 [1])) (sA 0x900000053 true 0xABCD007)) (fun t => pas t == [0xABCD123] &&
      [0x100008, 0x101010, 0x102018, 0x103028].map (fun a => leNat (t.mem.bytes a 8)) ==
        [0x101467, 0x102467, 0x103467, 0xABCD467]) := by decide +kernel
theorem test_adv_readOnly :
    after (exec (.xlateAdv 0x900000053 (wr va4 [1])) (sA 0x900000053 true 0xABCD005)) (fun t => pas t == [] &&
      leNat (t.mem.bytes 0x103028 8) == 0xABCD005 && leNat (t.mem.bytes 0x102018 8) == 0x103467 &&
      t.reqs.pageRequests.map (·.reason) == [.writeProtect]) := by decide +kernel
/-- V9 rows 9.2 and 9.4. -/
theorem test_trtt_tile :
    after (exec (.xlateTrtt (rd 0xFFFFF00008010040 4)) (sT 0x100001000 0x100002000 0x2345)) (fun t => pas t == [0xABC5040]) := by
  decide +kernel
theorem test_trtt_null :
    after (exec (.xlateTrtt (rd 0xFFFFF00008010040 4)) (sT 0x100001000 0x100002000 0xFFFFFFFF))
      (fun t => t.regs.nullTileCount == 1 && t.outputs == [.response (rd 0xFFFFF00008010040 4) [0, 0, 0, 0] true]) := by
  decide +kernel

/-- 44 R322, R323 and 30 R143: rights are ANDed, XD is ORed, bit 11 counts under FL64KPE. -/
theorem test_row_iaPdePt :
    after (exec (.iaPdePt 0x8000000000103803 true) State.reset) (fun t => t.walker.stage ==
      ⟨true, false, true, true, false, false, false, false, .table 0x103000⟩) := by decide +kernel
/-- V6 row 6.11: bit HAW is Reserved. -/
theorem test_row_reserved : refusedWith (exec (.iaPml4e 0x8000101007) State.reset) .reservedBits := by decide +kernel
/-- V5 row 5.4: the Null bit of a 2 MB entry; V3 row 3.12: bit 11 with `IPS_ENABLE` off. -/
theorem test_row_p48Pde2M :
    after (exec (.p48Pde2M 0x281) State.reset) (fun t => t.walker.stage.out == .leaf 21 0 true) := by decide +kernel
theorem test_row_p32Pde : after (exec (.p32Pde 0x200803) State.reset) (fun t => !t.walker.stage.big) := by decide +kernel
/-- V9 row 9.10: Invalid wins. -/
theorem test_row_trttL2e : after (exec (.trttL2e 3) State.reset) (fun t => t.walker.stage.out == .trInvalid) := by
  decide +kernel

/-- V8: the sixteen opcodes on 0xABCD007 and 0xABCD005. -/
theorem test_apu_writable :
    (Rules.apuRows .rcs 0x1000).map (fun i => after (exec i (poke [(0x1000, 0xABCD007)] State.reset)) (fun _ => true)) =
      List.replicate 16 true ∧
    (Rules.apuRows .rcs 0x1000).map (fun i =>
        match exec i (poke [(0x1000, 0xABCD007)] State.reset) with
        | .next t => leNat (t.mem.bytes 0x1000 2) | .fault _ => 0 | .refused _ => 0) =
      [0xD027, 0xD067, 0xD427, 0xD467, 0xD027, 0xD067, 0xD427, 0xD467,
       0xD027, 0xD067, 0xD427, 0xD467, 0xD027, 0xD067, 0xD427, 0xD467] := by decide +kernel
theorem test_apu_readOnly :
    (Rules.apuRows .rcs 0x1000).map (fun i =>
        match exec i (poke [(0x1000, 0xABCD005)] State.reset) with
        | .next t => leNat (t.mem.bytes 0x1000 2) | .fault _ => 0 | .refused _ => 0) =
      [0xD025, 0xD065, 0xD425, 0xD465, 0xD025, 0xD005, 0xD425, 0xD005,
       0xD025, 0xD065, 0xD425, 0xD465, 0xD025, 0xD005, 0xD425, 0xD005] := by decide +kernel

/-- V11 rows 11.1 and 11.3. -/
theorem test_available :
    after (exec .availableRcs State.reset) (fun t => t.banks.rcs.hs == .readySent && t.outputs == [.gamWrite 0x3438 0x10001]) := by
  decide +kernel
theorem test_launched_outOfSequence : refusedWith (exec .launchedRcs State.reset) .messageOutOfSequence := by decide +kernel
/-- V11 row 11.2, and 30 R184 for the other engines. -/
theorem test_launched :
    after (exec .launchedVcs1 (hand .vcs1 .readySent (ctx .vcs1 0x420000011B 0x100000 State.reset)))
      (fun t => t.banks.vcs1.hs == .running && t.outputs == [.gamWrite 0x1D438 0x20002]) := by decide +kernel
/-- 70 R534, 93 U36: the context ID 0x42 of a running Render context is refused on VCS1. -/
theorem test_launched_contextIdReused :
    refusedWith (exec .launchedVcs1 (hand .vcs1 .readySent (ctx .vcs1 0x420000011B 0x100000
      (ctx .rcs 0x420000011B 0x100000 State.reset)))) .contextIdReused := by decide +kernel

/-- V1 rows 1.8 and 1.12. -/
theorem test_gttWrite : after (exec (.gttWrite 0x918 .b8 0xABCD001) State.reset)
    (fun t => leNat (t.mem.bytes 0x7C000918 8) == 0xABCD001) := by decide +kernel
theorem test_miUpdateGtt : after (exec (.miUpdateGtt 0x123FFF 0xABCD001) State.reset)
    (fun t => leNat (t.mem.bytes 0x7C000918 8) == 0xABCD001) := by decide +kernel
/-- V1 row 1.10. -/
theorem test_gttRead : after (exec (.gttRead 0x918 .b8) (sG 0xABCD001)) (fun t => t.outputs == [.cpuData 0xABCD001]) := by
  decide +kernel

/-- A TLB entry for the page of `va4` under the context of `s48` (nested), and under that of `sA` (not nested). -/
def tag48 : Tag := ⟨.engine .rcs, .ppgtt48, 0x100000⟩
def tagA : Tag := ⟨.engine .rcs, .adv, 5⟩
def entryOf (tag : Tag) (rw dirty : Bool) (reason : Option FaultReason) : TlbEntry :=
  ⟨tag, .l3, 12, 0x8080605, 0x5000, tag.mode != .adv, ⟨false, false, false, rw, false, dirty, false⟩, false, reason⟩
/-- An aperture read of 4 bytes, and an entry for it that leads to the end of GSM. -/
def apertureRead : Request := ⟨.aperture, .state, 0x123FFC, .read 4⟩
def entryGsm : TlbEntry :=
  { entryOf ⟨.aperture, .ggtt, 0⟩ true false none with group := Client.state.tlbGroup, page := 0x123, frame := 0x7C7FF000 }
def withTlb (l : List TlbEntry) (s : State) : State := { s with caches := { s.caches with tlb := l } }
def useTlb : CacheUse := ⟨true, false, false, false⟩
def useNone : CacheUse := ⟨false, false, false, false⟩

/-- V13 rows 13.2 and 13.3. -/
theorem test_lookup_hit : after (exec (.tlbLookup useTlb (rd va4 4)) (withTlb [entryOf tag48 false false none] (s48 0x103003 0xABCD003)))
    (fun t => pas t == [0x5123]) := by decide +kernel
theorem test_lookup_drop : after (exec (.tlbLookup useTlb (wr va4 [1]))
    (withTlb [entryOf tag48 false false none] (s48 0x103003 0xABCD003)))
    (fun t => pas t == [0xABCD123] && t.caches.tlb == []) := by decide +kernel
/-- 46 R385. -/
theorem test_fill : after (exec (.tlbFill ⟨true, true, true, true⟩)
    { State.reset with walker := ⟨.fresh, some ⟨[entryOf tag48 true false none], [], [], [], []⟩⟩ })
    (fun t => t.caches.tlb == [entryOf tag48 true false none]) := by decide +kernel
/-- V14 rows 14.1, 14.3, 14.5 and 14.6. -/
theorem test_inv_cs : after (exec .tlbinvCs (withTlb [entryOf tag48 true true none] State.reset))
    (fun t => t.caches == ⟨[], [], [], []⟩) := by decide +kernel
theorem test_inv_svm : after (exec (.tlbinvSvm (.pasid 5) ⟨true, false, false, false⟩)
    (withTlb [entryOf tagA true true none, entryOf tag48 true true none] State.reset))
    (fun t => t.caches.tlb == [entryOf tag48 true true none]) := by decide +kernel
theorem test_inv_ctxsw : after (exec (.tlbinvCtxsw .rcs)
    (withTlb [entryOf tagA true true none, entryOf ⟨.wdbox, .ggtt, 0⟩ true true none] State.reset))
    (fun t => t.caches.tlb == [entryOf ⟨.wdbox, .ggtt, 0⟩ true true none]) := by decide +kernel
theorem test_inv_response : after (exec (.tlbinvPageResponse 5 0x8080605FFF)
    (withTlb [entryOf tagA true true (some .notPresent), entryOf tagA true true none] State.reset))
    (fun t => t.caches.tlb == [entryOf tagA true true none]) := by decide +kernel
/-- 46 R409. -/
theorem test_invWait : after (exec .invWait State.reset) (fun t => t.outputs == [.invWaitDone]) := by decide +kernel

/-- A pending write of PASID 5 at `va4` with its page request. -/
def pend : PendingReq := ⟨wr va4 [1], 5, BitVec.ofNat 64 va4, none, true⟩
def sP (pte : Nat) : State :=
  let s := sA 0x900000053 true pte
  { s with reqs := { s.reqs with pending := [pend], pageRequests := [⟨5, 9, BitVec.ofNat 64 va4, .notPresent, .write⟩] } }
/-- V12 rows 12.4 and 12.5. -/
theorem test_response_fixed : after (exec (.pageResponse 5 0x8080605000 true useNone) (sP 0xABCD007))
    (fun t => pas t == [0xABCD123] && t.reqs.pending == [] && t.reqs.pageRequests == []) := by decide +kernel
theorem test_response_notFixed : after (exec (.pageResponse 5 0x8080605000 true useNone) (sP 0))
    (fun t => pas t == [] && t.reqs.pending == [pend] && t.reqs.pageRequests.length == 1) := by decide +kernel

/-- V15 rows 15.1, 15.2, 15.4 and 15.5. -/
theorem test_resetEngine : after (exec (.resetEngine (.engine .rcs)) (withTlb [entryOf tagA true true none] (sP 0)))
    (fun t => t.banks.rcs.hs == .idle && t.reqs.pending == [] && t.reqs.pageRequests.length == 1 &&
      t.iommu.pasidState == [] && t.caches.tlb.length == 1) := by decide +kernel
theorem test_resetDevice : after (exec .resetDevice (sT 0 0 0))
    (fun t => t.regs.trtte == 0 && t.regs.trvadr == 0 && !t.regs.bypassDis && t.banks.rcs.hs == .idle) := by decide +kernel
theorem test_resetBus : after (exec .resetBus (sP 0)) (fun t => t.reqs.pageRequests == [] && t.iommu.cc == []) := by
  decide +kernel
/-- A part on which hardware keeps what 10 R70 says it keeps. -/
def keeps (s : State) : State := { s with plat := { s.plat with keepRequests := true, keepPasidCache := true } }
/-- 10 R70: hardware does not clear PENDING; the PASID Cache outlives a device reset. -/
theorem test_resetDevice_keeps : after (exec .resetDevice (keeps (sP 0)))
    (fun t => t.reqs.pending == [{ pend with live := false }] && t.banks.rcs.pc.valid && t.banks.rcs.resident == none) := by
  decide +kernel
/-- 45 R362, 10 R70: at an engine reset the requests in PENDING stay and the PASID Cache becomes invalid. -/
theorem test_resetEngine_keeps : after (exec (.resetEngine (.engine .rcs)) (keeps (sP 0)))
    (fun t => t.reqs.pending == [{ pend with live := false }] && !t.banks.rcs.pc.valid && t.iommu.pasidState == []) := by
  decide +kernel
/-- 10 R70: hardware does not clear PAGE_REQUESTS; the PASID Cache is cleared at FLR. -/
theorem test_resetBus_keeps : after (exec .resetBus (keeps (sP 0)))
    (fun t => t.reqs.pending.length == 1 && t.reqs.pageRequests.length == 1 && !t.banks.rcs.pc.valid) := by decide +kernel
/-- 10 R46, 93 U1, 70 R511: a register written before an engine reset holds an unspecified value, one not written since a device
reset is not to be read. -/
theorem test_reset_written :
    after (exec (.resetEngine (.engine .rcs)) (sP 0)) (fun t => t.banks.rcs.pdp0.isWritten && !t.banks.bcs.pdp0.isWritten) ∧
    after (exec .resetDevice (sP 0)) (fun t => !t.banks.rcs.pdp0.isWritten) := by decide +kernel

/-- 46 R386, R393: a read-only pointer in the PWC does not make a write fault; the walk is redone from memory. -/
theorem test_stale_pointer : after (exec (.tlbLookup ⟨false, false, true, false⟩ (wr va4 [1]))
    ((sA 0x900000043 true 0xABCD007).setCaches ⟨[], [⟨tagA, 2, 0x102018, 0x103005⟩], [], []⟩))
    (fun t => pas t == [0xABCD123] && t.reqs.pageRequests == []) := by decide +kernel
/-- 46 R406, 40 R234: a page of the TR-VA range, of which bit 47 is set. -/
theorem test_inv_svm_tile : after (exec (.tlbinvSvm (.page 5 0xFFFFF00008010000) ⟨true, false, false, false⟩)
    (State.reset.setCaches ⟨[], [], [], [⟨tagA, 0xF0000801, .null⟩]⟩)) (fun t => t.caches.tr == []) := by decide +kernel
/-- 60 R482, 92 D43, 45 R362: only requests of the context that leaves are dropped, not those of an earlier one of the same
process and context ID (70 R534), and none when it leaves under Fault and Halt. -/
theorem test_leavePending :
    let l := [pend, { pend with live := false }, { pend with req := { pend.req with src := .engine .bcs } }]
    let go (elem : Nat) : List (Bool × Source) :=
      match exec .availableRcs { sA elem true 0 with reqs := { (sA elem true 0).reqs with pending := l } } with
      | .next t => t.reqs.pending.map (fun p => (p.live, p.req.src))
      | .fault _ => []
      | .refused _ => []
    go 0x900000053 = [(false, .engine .rcs), (true, .engine .bcs)] ∧
    go 0x900000093 = [(false, .engine .rcs), (false, .engine .rcs), (true, .engine .bcs)] := by decide +kernel
/-- 44 R325: nothing is cached from a read-only pointer that a user's write has left unchanged, however its walk ends. -/
theorem test_unchanged_pointer :
    let go (r : Request) : List Nat :=
      match exec (.xlateAdv 0x900000053 r) (poke [(0x101010, 0x102025)] (sA 0x900000053 true 0)) with
      | .next t => ((t.walker.walked.map (·.pwc)).getD []).map (·.level)
      | .fault _ => []
      | .refused _ => []
    go (wr va4 [1]) = [2, 4] ∧ go (rd va4 4) = [2, 3, 4] := by decide +kernel
/-- 20 R119: a page request calls an instruction fetch a read. -/
theorem test_fetch_kind : after (exec (.xlateAdv 0x900000053 { rd va4 4 with acc := .fetch 4 }) (sA 0x900000053 true 0))
    (fun t => t.reqs.pageRequests.map (·.kind) == [.read]) := by decide +kernel
/-- 60 R466: a catastrophic error in a TR-TT table read ends the request, and its write is dropped. -/
theorem test_trtt_catastrophic : after (exec (.xlateTrtt (wr 0xFFFFF00008015123 [1]))
    { sTA 0x900000053 0x100001000 0x100002000 0x808060 with plat := { Platform.initial with memTypes := [(0x101, .uc)] } })
    (fun t => t.outputs == [.response (wr 0xFFFFF00008015123 [1]) [] false, .catastrophic (.engine .rcs) 9 .nonWBPagingEntry] &&
      t.reqs.inflight == [] && !t.reqs.awaitingReset) := by decide +kernel
/-- 30 R206, 93 U3: tables in physical space by the time a waiting TR-TT walk goes on. -/
theorem test_resume_physical :
    let pendTr : PendingReq := ⟨rd 0xFFFFF00008015123 4, 5, 0x100001010, some ⟨2, 0x100001000⟩, true⟩
    let s := sTA 0x900000043 0x100001000 0x100002000 0x808060
    refusedWith (exec (.pageResponse 5 0x100001000 true useNone)
      { s with reqs := { s.reqs with pending := [pendTr] }, regs := { s.regs with trtte := 1 } }) .trttPhysical := by
  decide +kernel
/-- 10 R48: 0x4014 is the message register of BCS. -/
theorem test_message_register : after (step (withInput (.csMessage 0x4014 0x10001) State.reset))
    (fun t => t.banks.bcs.hs == .readySent && t.outputs == [.gamWrite 0x23438 0x10001]) := by decide +kernel
/-- 46 R412: the PASID Cache entry is given up, and the next translation reads the new PASID entry. -/
theorem test_evictPc : after (step (withInput (.evictPc .rcs) (sA 0x900000053 true 0))) (fun t => !t.banks.rcs.pc.valid) := by
  decide +kernel
/-- 42 R284: another entry of a PML4 table of which one is cached. -/
theorem test_prefetchPml4 : after (step (withInput (.prefetchPml4 0 1)
    ((s48 0 0).setCaches ⟨[], [⟨tag48, 4, 0x100000, 0x104003⟩], [], []⟩)))
    (fun t => t.caches.pwc.map (fun x => (x.addr, x.entry)) == [(0x100008, 0x101003), (0x100000, 0x104003)]) := by
  decide +kernel
/-- 42 R284: once any entry of the table is fetched, a not-present one too (the engine goes on with HANG_SKIP). -/
theorem test_prefetch_notPresent :
    after (exec (.xlatePpgtt48 0x420000011B (rd 0 4)) { s48 0 0 with plat := { Platform.initial with hangSkip := true } })
      (fun u => after (step (withInput (.prefetchPml4 0 1) u))
        (fun t => t.caches.pwc.map (fun x => (x.addr, x.entry)) == [(0x100008, 0x101003)])) := by decide +kernel
/-- 44 R332: under A&D management no entry is held before its atomic fetch. -/
theorem test_prefetch_adv :
    let go (elem : Nat) (p : List PwcEntry → Bool) : Bool :=
      after (step (withInput (.prefetchPml4 0 1) ((sA elem true 0).setCaches ⟨[], [⟨tagA, 4, 0x100000, 0x104027⟩], [], []⟩)))
        (fun t => p t.caches.pwc)
    go 0x900000053 (fun l => l.length == 1) = true ∧ go 0x900000043 (fun l => l.length == 2) = true := by decide +kernel
/-- 20 R90, R92 (log 43): a CPU reaches GSM through the alias only; an engine's access is performed. -/
theorem test_aperture_gsm :
    refusedWith (step (withInput (.cpuRead 0x4000123456 4) (sG 0x7C000001))) .stolenNotVisible = true ∧
    after (exec (.xlateGgtt 0x70000000B (rd 0x123456 4)) (sG 0x7C000001)) (fun t => pas t == [0x7C000456]) = true := by
  decide +kernel
/-- 46 R381, R384: a read-only copy made under an old TRVADR is dropped, and the write goes through the TR-TT stage. -/
theorem test_direct_dropped :
    after (exec (.tlbLookup useTlb (wr 0xFFFFF00008010040 [1]))
      (withTlb [{ entryOf tag48 false false none with page := 0xFFFFF00008010 }] (sT 0x100001000 0x100002000 0x2345)))
      (fun t => pas t == [0xABC5040] && t.caches.tlb == []) := by decide +kernel
/-- 46 R383: a hit goes through SecondLevel as the walk that made the entry did. -/
theorem test_hit_nested :
    let s := withTlb [entryOf tag48 false false none]
      { s48 0 0 with plat := { Platform.initial with secondLevel := [(5, some 9)] } }
    let u := withTlb [{ entryOf tag48 false false none with nested := false }] s
    after (exec (.tlbLookup useTlb (rd va4 4)) s) (fun t => pas t == [0x9123]) = true ∧
    after (exec (.tlbLookup useTlb (rd va4 4)) u) (fun t => pas t == [0x5123]) = true := by decide +kernel
/-- 46 R385: the walks of all the requests that one response resumes may leave entries. -/
theorem test_response_records :
    after (exec (.pageResponse 5 0x8080605000 true useNone)
      { sP 0xABCD007 with reqs := { (sP 0).reqs with pending := [pend, { pend with req := { pend.req with client := .mfx } }] } })
      (fun t => (t.walker.walked.map (fun w => w.tlb.map (·.group))) == some [.mfx, .l3]) := by decide +kernel
/-- 10 R25, 93 U2: TRVADR.MASK 0011b. -/
theorem test_trvaMask : refusedWith (exec (.xlateTrtt (rd 0xFFFFF00008010040 4))
    { sT 2 0 0 with regs := { (sT 2 0 0).regs with trvadr := 0x3F } }) .trvaMask := by decide +kernel
/-- 10 R46: no DWord written; log 38: one. -/
theorem test_descriptor_unwritten : DescReg.get ⟨5, false, false⟩ = .error (.refused .descriptorUnwritten) ∧
    DescReg.get ⟨5, true, false⟩ = .ok 5 := by decide

/-! ## For every statement with hypotheses, a state and operands that meet them, clause by clause -/

theorem witness_DecodeEncode :
    WellFormed (.xlateTrtt (rd 0xFFFFF00008010000 4096)) ∧ WellFormed (.iaPdpe1G 0x81) ∧
    WellFormed (.gttWrite 0x7FFFFF .b1 0xFF) := by decide
theorem witness_DecodeWellFormed : decode (fr 0xC7 34 [0, 0xF8, 0xFF, 0xFF, 0xFF, 0x7F, 0, 0, 0]) =
    .ok (.apu0111 .rcs 0x7FFFFFFFF8) := by decide +kernel
theorem witness_StepRunsOperation :
    (withInput (.op (fr 0 65 [])) State.reset).inputs = .op (fr 0 65 []) :: [] ∧ decode (fr 0 65 []) = .ok .tlbinvCs ∧
    decodeTableWord 8 0xC1 = some (.apu0001 .rcs 0) := by decide +kernel
theorem witness_StepKeepsInv :
    (withInput (.op (fr 0 65 [])) (sA 0x900000053 true 0xABCD007)).Inv ∧
    ∃ t, step (withInput (.op (fr 0 65 [])) (sA 0x900000053 true 0xABCD007)) = .next t := by
  refine ⟨⟨⟨by decide +kernel, by decide +kernel, by decide +kernel, by decide +kernel⟩, fun p => ?_⟩,
    exists_next (by decide +kernel)⟩
  show sparseGet 0 [(5, 1)] p = (if some 5 = some p then 1 else 0) + 0 + 0 + 0 + 0
  by_cases h : p = 5
  · subst h; rfl
  · simp [sparseGet, h, Ne.symm h]
theorem witness_TranslationsOnlySetADE :
    Rules.isTranslation (.xlateAdv 0x900000053 (wr va4 [1])) = true ∧
    Memory.wf (sA 0x900000053 true 0xABCD007).mem = true ∧
    ∃ t, exec (.xlateAdv 0x900000053 (wr va4 [1])) (sA 0x900000053 true 0xABCD007) = .next t :=
  ⟨by decide, by decide +kernel, exists_next (by decide +kernel)⟩
theorem witness_PlainWalksWriteNothing :
    (∃ t, exec (.xlateGgtt 0x70000000B (rd 0xFFFFFFFF 1)) (sG 0xABCD001) = .next t) ∧
    (∃ t, exec (.xlatePpgtt32 0x70000010B (wr 0x403123 [1])) (s32 0x200003 0x3000003) = .next t) ∧
    (∃ t, exec (.xlatePpgtt48 0x420000011B (wr va4 [1])) (s48 0x103003 0xABCD003) = .next t) ∧
    bit 0x900000043 4 = false ∧
    ∃ t, exec (.xlateAdv 0x900000043 (wr va4 [1])) (sA 0x900000043 true 0xABCD007) = .next t :=
  ⟨exists_next (by decide +kernel), exists_next (by decide +kernel), exists_next (by decide +kernel), by decide,
    exists_next (by decide +kernel)⟩
theorem witness_OtherRowsKeepMemory :
    Rules.isTranslation .tlbinvCs = false ∧ Rules.isApu .tlbinvCs = false ∧ Rules.isGttStore .tlbinvCs = false ∧
    ∃ t, exec .tlbinvCs (sA 0x900000053 true 0) = .next t := ⟨rfl, rfl, rfl, exists_next (by decide +kernel)⟩
theorem witness_OnlyDeliveryMovesHandShakes :
    Rules.isDelivery (.tlbinvSvm .global ⟨true, true, true, true⟩) = false ∧
    ∃ t, exec (.tlbinvSvm .global ⟨true, true, true, true⟩) (sA 0x900000053 true 0) = .next t :=
  ⟨rfl, exists_next (by decide +kernel)⟩
theorem witness_RowsKeepControlRegisters :
    Instr.xlateTrtt (rd 0xFFFFF00008010040 4) ≠ .resetDevice ∧ Instr.xlateTrtt (rd 0xFFFFF00008010040 4) ≠ .resetBus ∧
    ∃ t, exec (.xlateTrtt (rd 0xFFFFF00008010040 4)) (sT 2 0 0) = .next t :=
  ⟨by decide, by decide, exists_next (by decide +kernel)⟩

/-- Memory that is not write-back at one page. -/
def uncached (s : State) : State := { s with plat := { s.plat with memTypes := [(0x103, .uc)] } }

/-- A part on which a catastrophic error stops its context, as 47 R453 says. -/
def stops (s : State) : State := { s with plat := { s.plat with stopOnCatastrophic := true } }
/-- 47 R453, 60 R466: the context makes no further progress on the one part, later requests proceed on the other. -/
theorem test_catastrophic_stops :
    let s := uncached (sA 0x900000053 true 0xABCD005)
    let run := fun s => exec (.tlbLookup useNone (rd va4 4)) s
    after (run (stops s)) (fun t => t.banks.rcs.stopped && !gateOpen t none (.engine .rcs) && t.reqs.pending == []) ∧
    after (run s) (fun t => !t.banks.rcs.stopped && gateOpen t none (.engine .rcs) && t.reqs.pending == []) := by decide +kernel
/-- The engine's context stopped, with a request of it and one of another engine held back. -/
def sStopped : State :=
  let s := sA 0x900000053 true 0
  { s.setBank .rcs { s.bank .rcs with stopped := true } with
    reqs := { s.reqs with held := [⟨rd va4 4, none⟩, ⟨{ rd va4 4 with src := .engine .bcs }, none⟩] } }
/-- 47 R453: a stop ends with its context. -/
theorem test_available_ends_stop : after (exec .availableRcs sStopped)
    (fun t => !t.banks.rcs.stopped && t.reqs.held.map (·.req.src) == [.engine .bcs]) := by decide +kernel

theorem witness_ApuFinalRows : -- the last entry of the address space, and one in uncached memory with the check off
    Memory.wf State.reset.mem = true ∧ memType State.reset.plat 0x7FFFFFFFF8 = .wb ∧
    memRead64 State.reset 0x7FFFFFFFF8 = .ok 0 ∧
    (let s := uncached { sA 0x900000053 true 0xABCD005 with regs := { Regs.initial with adNonwbIgnore := true } }
     Memory.wf s.mem = true ∧ s.regs.adNonwbIgnore = true ∧ memRead64 s 0x103028 = .ok 0xABCD005) := by decide +kernel
theorem witness_ApuIntermediateRows :
    Memory.wf (sA 0x900000053 true 0).mem = true ∧ memType (sA 0x900000053 true 0).plat 0x100008 = .wb ∧
    memRead64 (sA 0x900000053 true 0) 0x100008 = .ok 0x101007 := by decide +kernel
theorem witness_ApuNonWriteBack : -- no context runs; one runs, on a part with and on one without the stop
    memType (uncached State.reset).plat 0x103028 ≠ .wb ∧ (uncached State.reset).regs.adNonwbIgnore = false ∧
    (uncached State.reset).plat.stopOnCatastrophic = false ∧
    (let s := stops (uncached (sA 0x900000053 true 0xABCD005))
     memType s.plat 0x103028 ≠ .wb ∧ s.regs.adNonwbIgnore = false ∧ s.plat.stopOnCatastrophic = true ∧
     (s.bank .rcs).hs = .running ∧ ¬ ((s.bank .bcs).hs = .launchedReceived ∨ (s.bank .bcs).hs = .running)) := by
  decide +kernel
theorem witness_Ia32ePointerRows : field 0x7FFFFFF807 39 (52 - 39) = 0 ∧ bit 0x7FFFFFF807 0 = true ∧ bit 0x7FFFFFF807 7 = false := by
  decide +kernel
theorem witness_Ia32eLeafRows :
    (field 0x7FC0000087 39 13 = 0 ∧ bit 0x7FC0000087 0 = true ∧ bit 0x7FC0000087 7 = true ∧ field 0x7FC0000087 13 17 = 0) ∧
    (field 0x7FFFE00087 39 13 = 0 ∧ bit 0x7FFFE00087 0 = true ∧ bit 0x7FFFE00087 7 = true ∧ field 0x7FFFE00087 13 8 = 0) ∧
    (field 0x7FFFFF0007 39 13 = 0 ∧ bit 0x7FFFFF0007 0 = true ∧ field 0x7FFFFF0007 12 4 = 0) := by decide +kernel
theorem witness_EntryRowsRefuse :
    bit 0x1006 0 = false ∧ bit 0x1087 7 = true ∧ bit 0x1007 7 = false ∧
    (bit 0x1087 0 = true ∧ bit 0x1087 7 = true) ∧ (bit 0x2087 0 = true ∧ bit 0x2087 7 = true ∧ field 0x2087 13 17 ≠ 0) ∧
    (bit 0x2087 0 = true ∧ bit 0x2087 7 = true ∧ field 0x2087 13 8 ≠ 0) ∧ (bit 0x1007 0 = true ∧ field 0x1007 12 4 ≠ 0) ∧
    (field 0x8000000007 39 (52 - 39) ≠ 0 ∧ field 0x8000000087 39 (52 - 39) ≠ 0 ∧
      (∀ i ∈ [Instr.iaPml4e 0x8000000007, .iaPdpePd 0x8000000007, .iaPdpe1G 0x8000000087, .iaPdePt 0x8000000007 true,
        .iaPde2M 0x8000000087, .iaPte64K 0x8000000007, .iaPte4K 0x8000000007], WellFormed i)) := by decide +kernel
theorem witness_LegacyPointerRows : bit 0x200803 0 = true ∧ bit 0x200803 7 = false := by decide
theorem witness_LegacyLeafRows : bit 0x281 0 = true ∧ bit 0x281 7 = true := by decide
theorem witness_GgttAndTrttRows : bit 0x7FFFFFF001 0 = true := by decide +kernel

theorem witness_RequestsWaitForRunning : -- not Running, hung; taken up by GAM, and by the machine on its own
    let s := s48 0 0
    let g := { withInput (.grant 0 useTlb) s with reqs := { s.reqs with held := [⟨rd va4 4, none⟩] } }
    let a := g.setInputs []
    (rd 0xFFC 4).wellFormed = true ∧ gateOpen State.reset none (rd 0xFFC 4).src = false ∧
    gateOpen { State.reset with wdboxHung := true } none .wdbox = false ∧
    gateOpen { State.reset with vebox2Hung := true } none .vebox2 = false ∧
    (g.inputs = [.grant 0 useTlb] ∧ g.reqs.held[0]? = some ⟨rd va4 4, none⟩ ∧ gateOpen g none (rd va4 4).src = true ∧
      gateOpen (hand .rcs .idle g) none (rd va4 4).src = false) ∧
    (a.inputs = [] ∧ a.reqs.inflight = [] ∧ a.reqs.invWaits = 0 ∧
      (∀ e ∈ [Engine.rcs, .bcs, .vecs, .vcs0, .vcs1], Rules.owes a e = false) ∧
      a.reqs.held = ⟨rd va4 4, none⟩ :: [] ∧ gateOpen a none (rd va4 4).src = true) ∧
    gateOpen (hand .rcs .idle a) none (rd va4 4).src = false := by decide +kernel
/-- Entry 0xFFFFF, the last of the table (V1 row 1.4). -/
def sGtop : State := ctx .rcs 0x70000000B 0 (poke [(0x7C7FFFF8, 0x7FFFFFF001)] State.reset)
def disp (va n : Nat) : Request := { rd va n with src := .display }
def withSecond (l : List (Nat × Option Nat)) (s : State) : State := { s with plat := { s.plat with secondLevel := l } }
theorem witness_XlateGgtt_phys :
    WellFormed (.xlateGgtt 0x70000000B (rd 0xFFFFFFFF 1)) ∧ gateOpen sGtop none (.engine .rcs) = true ∧
    Rules.holdsLegacy sGtop 0x70000000B (.engine .rcs) = true ∧ Rules.trttOff sGtop (.engine .rcs) = true ∧
    6 ≤ sGtop.plat.haw ∧
    Rules.ggtt sGtop (rd 0xFFFFFFFF 1).va =
      .ok (.phys 0x7FFFFFFFFF ⟨false, false, false, true, some true, false, false, false⟩) := by decide +kernel
theorem witness_XlateGgtt_fault :
    gateOpen (sG 0xABCD000) none (.engine .rcs) = true ∧ Rules.holdsLegacy (sG 0xABCD000) 0x70000000B (.engine .rcs) = true ∧
    Rules.trttOff (sG 0xABCD000) (.engine .rcs) = true ∧
    Rules.ggtt (sG 0xABCD000) (rd 0x123456 4).va = .ok (.fault .notPresent 1) ∧ Rules.noContext (.engine .rcs) = false := by
  decide +kernel
theorem witness_XlateGgtt_display :
    WellFormed (.xlateGgtt 0x00B (disp 0 4)) ∧ gateOpen State.reset none .display = true ∧
    Rules.holdsLegacy State.reset 0x00B .display = true ∧ Rules.trttOff State.reset .display = true ∧
    Rules.ggtt State.reset (disp 0 4).va = .ok (.fault .notPresent 1) ∧ Rules.noContext .display = true := by decide +kernel
theorem witness_XlateGgtt_gsm :
    let r := { apertureRead with va := 0x123456 }
    WellFormed (.xlateGgtt 0x00B r) ∧ gateOpen (sG 0x7C000001) none r.src = true ∧
    Rules.holdsLegacy (sG 0x7C000001) 0x00B r.src = true ∧ Rules.trttOff (sG 0x7C000001) r.src = true ∧
    Rules.ggtt (sG 0x7C000001) r.va =
      .ok (.phys 0x7C000456 ⟨false, false, false, true, some true, false, false, false⟩) ∧
    Rules.gsmByCpu (sG 0x7C000001).plat r 0x7C000456 = true ∧
    Rules.ggtt (sG 0xABCD001) r.va =
      .ok (.phys 0xABCD456 ⟨false, false, false, true, some true, false, false, false⟩) ∧
    Rules.gsmByCpu (sG 0xABCD001).plat r 0xABCD456 = false := by decide +kernel
theorem witness_XlateGgtt_refused :
    WellFormed (.xlateGgtt 0x00B (disp 0x100000000 4)) ∧
    Rules.ggtt State.reset (disp 0x100000000 4).va = .error (.refused .vaOutOfRange) ∧
    Rules.ggtt { State.reset with plat := { State.reset.plat with gsmSize := 0x100000 } } 0x20000000 =
      .error (.refused .beyondGsm) := by decide +kernel
theorem witness_XlatePpgtt32 :
    let s := s32 0x200003 0x3000003
    let u := withSecond [(0x200, none)] s
    WellFormed (.xlatePpgtt32 0x70000010B (rd 0x403123 4)) ∧ gateOpen s none (.engine .rcs) = true ∧
    Rules.holdsLegacy s 0x70000010B (.engine .rcs) = true ∧ Rules.trttOff s (.engine .rcs) = true ∧
    Rules.written (Rules.pdpOf (s.bank .rcs) (rd 0x403123 4).va) 0x100000 = true ∧
    Rules.ppgtt32 s 0x100000 false (rd 0x403123 4).va =
      .ok (.phys 0x3000123 ⟨false, false, false, true, some true, false, false, false⟩) ∧
    (rd 0xFFFFFFFF 1).va.toNat < 2 ^ 32 ∧ Rules.written (Rules.pdpOf (s.bank .rcs) (rd 0xFFFFFFFF 1).va) 0x130000 = true ∧
    WellFormed (.xlatePpgtt32 0x70000010B (rd 0x100000000 1)) ∧ 2 ^ 32 ≤ (rd 0x100000000 1).va.toNat ∧
    Rules.ppgtt32 s 0x130000 false (rd 0xFFFFFFFF 1).va = .ok (.fault .notPresent 2) ∧
    gateOpen u none (.engine .rcs) = true ∧ Rules.holdsLegacy u 0x70000010B (.engine .rcs) = true ∧
    Rules.ppgtt32 u 0x100000 false (rd 0x403123 4).va = .error (.refused .secondLevelUndefined) := by decide +kernel
theorem witness_XlatePpgtt48 :
    let s := s48 0x103003 0xABCD003
    let u := { s48 0x40200083 0 with regs := { Regs.initial with gttCacheEnable := true } }
    WellFormed (.xlatePpgtt48 0x420000011B (rd va4 4)) ∧ gateOpen s none (.engine .rcs) = true ∧
    Rules.holdsLegacy s 0x420000011B (.engine .rcs) = true ∧ Rules.noTrtt s (.engine .rcs) (rd va4 4).va = true ∧
    canonical (rd va4 4).va = true ∧ Rules.written (s.bank .rcs).pdp0 0x100000 = true ∧
    Rules.ppgtt48 s 0x100000 false (rd va4 4).va =
      .ok (.phys 0xABCD123 ⟨false, false, false, true, some true, false, false, false⟩) ∧
    WellFormed (.xlatePpgtt48 0x420000011B (rd 0x800000000000 1)) ∧ canonical (rd 0x800000000000 1).va = false ∧
    canonical 0xFFFF800000000000 = true ∧ Rules.ppgtt48 s 0x100000 true 0xFFFF800000000000 = .ok (.fault .notPresent 4) ∧
    gateOpen u none (.engine .rcs) = true ∧ Rules.holdsLegacy u 0x420000011B (.engine .rcs) = true ∧
    Rules.ppgtt48 u 0x100000 false (rd va4 4).va = .error (.refused .gttCacheObligation) := by decide +kernel
theorem witness_XlateAdv :
    let s := sA 0x900000053 true 0xABCD007
    WellFormed (.xlateAdv 0x900000053 (wr va4 [1])) ∧ gateOpen s none (.engine .rcs) = true ∧
    WellFormed (.xlateAdv 0x900000053 (rd 0xFFFF7FFFFFFFF000 1)) ∧ canonical (rd 0xFFFF7FFFFFFFF000 1).va = false ∧
    Rules.holdsAdvanced s 0x900000053 .rcs = true ∧ Rules.noTrtt s (.engine .rcs) (wr va4 [1]).va = true ∧
    s.regs.gttCacheEnable = false ∧ canonical (wr va4 [1]).va = true ∧ Rules.written (s.bank .rcs).pdp0 5 = true ∧
    (s.bank .rcs).pc.valid = true ∧
    s.iommu.cc.find? (fun y => y.fn == BitVec.ofNat 3 (field 0x900000053 9 3)) = some ce ∧
    (match Rules.adv s .rcs (Rules.advOf 39 0x900000053 (s.bank .rcs).pc ce) true false (wr va4 [1]).va with
      | .ok (_, x) => x == .phys 0xABCD123 ⟨false, false, false, true, some true, false, true, false⟩ | .error _ => false) = true ∧
    (match Rules.adv (sA 0x900000053 true 0x800000ABCD007) .rcs (Rules.advOf 39 0x900000053 (s.bank .rcs).pc ce) true false
        (wr va4 [1]).va with
      | .ok _ => false | .error e => e == .refused .reservedBits) = true := by decide +kernel
theorem witness_AdvancedCachesRefill :
    let s := sA 0x900000053 true 0xABCD007
    let u := { s with banks := { s.banks with rcs := { s.banks.rcs with pc := ⟨false, 0, false, false⟩ } } }
    let v := { s with iommu := { s.iommu with cc := [] } }
    gateOpen u none (.engine .rcs) = true ∧ Rules.holdsAdvanced u 0x900000053 .rcs = true ∧
    Rules.written (u.bank .rcs).pdp0 5 = true ∧ (u.bank .rcs).pc.valid = false ∧ (pe true).ok = true ∧
    u.iommu.pasids.find? (fun y => y.fn == BitVec.ofNat 3 (field 0x900000053 9 3) && y.pasid == BitVec.ofNat 20 (field 5 0 20)) =
      some (pe true) ∧
    gateOpen v none (.engine .rcs) = true ∧ Rules.holdsAdvanced v 0x900000053 .rcs = true ∧ (v.bank .rcs).pc.valid = true ∧
    v.iommu.cc.find? (fun y => y.fn == BitVec.ofNat 3 (field 0x900000053 9 3)) = none ∧
    v.iommu.ctxs.find? (fun y => y.fn == BitVec.ofNat 3 (field 0x900000053 9 3)) = some ce := by decide +kernel
/-- The hypotheses that XLATE.TRTT's statement makes in each clause. -/
def trttReady (s : State) (r : Request) : Bool :=
  wellFormed (.xlateTrtt r) && gateOpen s none r.src && fitsRow 0x11B 0x11B 0x420000011B &&
  Rules.holdsLegacy s 0x420000011B r.src && s.regs.bypassDis && trttEn s.regs && trttTtloc s.regs && isTrva s.regs r.va &&
  decide (6 ≤ s.plat.haw) && canonical r.va && Rules.written (s.bank .rcs).pdp0 0x100000
/-- The outcome of the TR-TT stage of `sT`, and whether a table read failed on the way. -/
def trttIs (s : State) (va : Word64) (y : TrResult) : Bool :=
  match Rules.trtt (Rules.tables48 0x100000) false s va with
  | .ok (_, .ok x) => x == y
  | .ok (_, .error _) => false
  | .error _ => false
def trttFails (s : State) (va : Word64) : Bool :=
  match Rules.trtt (Rules.tables48 0x100000) false s va with
  | .ok (t, .ok _) => t.reqs.awaitingReset
  | .ok (_, .error _) => false
  | .error _ => false
def trttStops (s : State) (va : Word64) (e : Stop) : Bool :=
  match Rules.trtt (Rules.tables48 0x100000) false s va with
  | .ok _ => false
  | .error x => x == e
theorem witness_XlateTrtt_legacy :
    let r := rd 0xFFFFF00008010040 4
    let s := sT 0x100001000 0x100002000 0x2345
    let f := sT 0x100001000 0x140000000 0
    trttReady (sT 2 0 0) r = true ∧ trttIs (sT 2 0 0) r.va .null = true ∧
    trttReady (sT 3 0 0) r = true ∧ trttIs (sT 3 0 0) r.va .invalid = true ∧
    trttReady s r = true ∧ trttIs s r.va (.tile 0x2345) = true ∧
    isTrva s.regs (Rules.tileAddress 0x2345 r.va) = false ∧
    Rules.ppgtt48 s 0x100000 false (Rules.tileAddress 0x2345 r.va) =
      .ok (.phys 0xABC5040 ⟨false, false, false, true, some true, false, false, false⟩) ∧
    trttReady (withSecond [(0xABC5, none)] s) r = true ∧
    Rules.ppgtt48 (withSecond [(0xABC5, none)] s) 0x100000 false (Rules.tileAddress 0x2345 r.va) =
      .error (.refused .secondLevelUndefined) ∧
    isTrva s.regs (Rules.tileAddress 0xF0002345 r.va) = true ∧
    trttReady f r = true ∧ trttFails f r.va = true ∧ -- the L1 table is not mapped: a free value
    trttReady (sT 0xF00000000000 0 0) r = true ∧
    trttStops (sT 0xF00000000000 0 0) r.va (.refused .trttTableInTrva) = true := by decide +kernel
/-- The outcome of the TR-TT stage of `sTA`. -/
def trttAdv (elem : Nat) (s : State) (va : Word64) (p : State → Except Rules.TrStop TrResult → Bool) : Bool :=
  match Rules.trtt (Rules.tablesAdv .rcs (Rules.advOf 39 (BitVec.ofNat 64 elem) (s.bank .rcs).pc ce)) true s va with
  | .ok (t, y) => p t y
  | .error _ => false
def isTr (x : TrResult) (y : Except Rules.TrStop TrResult) : Bool :=
  match y with
  | .ok z => z == x
  | .error _ => false
theorem witness_XlateTrtt_advanced :
    let r := rd 0xFFFFF00008015123 4
    let s := sTA 0x900000043 0x100001000 0x100002000 0x808060
    let a := Rules.advOf 39 0x900000043 (s.bank .rcs).pc ce
    let u := { sTA 0x900000053 0x100001000 0x140000000 0 with plat := { Platform.initial with memTypes := [(0x104, .uc)] } }
    (WellFormed (.xlateTrtt r) ∧ gateOpen s none r.src = true ∧ fitsRow 0x00B 0x003 0x900000043 = true ∧
      Rules.holdsAdvanced s 0x900000043 .rcs = true ∧ s.regs.gttCacheEnable = false ∧ s.regs.bypassDis = true ∧
      trttEn s.regs = true ∧ trttTtloc s.regs = true ∧ isTrva s.regs r.va = true ∧ canonical r.va = true ∧
      Rules.written (s.bank .rcs).pdp0 5 = true ∧ (s.bank .rcs).pc.valid = true ∧
      s.iommu.cc.find? (fun z => z.fn == BitVec.ofNat 3 (field 0x900000043 9 3)) = some ce) ∧
    trttAdv 0x900000043 (sTA 0x900000043 2 0 0) r.va (fun _ y => isTr .null y) = true ∧
    trttAdv 0x900000043 (sTA 0x900000043 3 0 0) r.va (fun _ y => isTr .invalid y) = true ∧
    trttAdv 0x900000043 s r.va (fun _ y => isTr (.tile 0x808060) y) = true ∧
    isTrva s.regs (Rules.tileAddress 0x808060 r.va) = false ∧
    (match Rules.adv s .rcs a false false (Rules.tileAddress 0x808060 r.va) with
      | .ok (_, x) => x == .phys 0xABCD123 ⟨false, false, false, true, some true, false, false, false⟩
      | .error _ => false) = true ∧
    trttAdv 0x900000043 (sTA 0x900000043 0x180000000 0 0) r.va (fun _ y =>
      match y with
      | .ok _ => false
      | .error x => x == .waits 2 0x180000000 0x180000010 .notPresent) = true ∧
    -- a catastrophic error in a read of the L1 table
    Rules.holdsAdvanced u 0x900000053 .rcs = true ∧
    trttAdv 0x900000053 u r.va (fun _ y =>
      match y with
      | .ok _ => false
      | .error x => x == .ended) = true := by decide +kernel
theorem witness_XlateRowsAgree :
    (gateOpen (sG 0) none (.engine .rcs) = true ∧ Rules.holdsLegacy (sG 0) 0x70000000B (.engine .rcs) = true ∧
      fitsRow 0x10B 0x00B 0x70000000B = true) ∧
    (gateOpen (s32 0 0) none (.engine .rcs) = true ∧ Rules.holdsLegacy (s32 0 0) 0x70000010B (.engine .rcs) = true ∧
      fitsRow 0x11B 0x10B 0x70000010B = true) ∧
    (gateOpen (s48 0 0) none (.engine .rcs) = true ∧ Rules.holdsLegacy (s48 0 0) 0x420000011B (.engine .rcs) = true ∧
      fitsRow 0x11B 0x11B 0x420000011B = true) ∧
    (gateOpen (sA 0x900000053 true 0) none (.engine .rcs) = true ∧
      Rules.holdsAdvanced (sA 0x900000053 true 0) 0x900000053 .rcs = true ∧ fitsRow 0x00B 0x003 0x900000053 = true) := by
  decide +kernel
theorem witness_TrttMisprogrammed :
    let on (v : Nat) (s : State) : State :=
      { s with regs := { s.regs with bypassDis := true, trtte := BitVec.ofNat 32 v } }
    let a := on 3 (sG 0); let b := on 1 (s32 0 0); let c := on 1 (s48 0 0)
    let d := { on 3 (s48 0 0) with regs := { (on 3 (s48 0 0)).regs with trvadr := 0x1F } }
    ((rd 0xFFFFFFFF 1).wellFormed = true ∧ gateOpen a none (.engine .rcs) = true ∧
      Rules.holdsLegacy a 0x70000000B (.engine .rcs) = true ∧ a.regs.bypassDis = true ∧ trttEn a.regs = true ∧
      fitsRow 0x10B 0x00B 0x70000000B = true ∧ (rd 0xFFFFFFFF 1).va.toNat < 2 ^ 32) ∧
    (gateOpen b none (.engine .rcs) = true ∧ Rules.holdsLegacy b 0x70000010B (.engine .rcs) = true ∧ trttEn b.regs = true ∧
      fitsRow 0x11B 0x10B 0x70000010B = true ∧
      Rules.written (Rules.pdpOf (b.bank .rcs) (rd 0xFFFFFFFF 1).va) 0x130000 = true) ∧
    (gateOpen c none (.engine .rcs) = true ∧ Rules.holdsLegacy c 0x420000011B (.engine .rcs) = true ∧ trttEn c.regs = true ∧
      fitsRow 0x11B 0x11B 0x420000011B = true ∧ canonical (rd 0 4).va = true ∧
      Rules.written (c.bank .rcs).pdp0 0x100000 = true ∧ trttTtloc c.regs = false) ∧
    (gateOpen d none (.engine .rcs) = true ∧ Rules.holdsLegacy d 0x420000011B (.engine .rcs) = true ∧ trttEn d.regs = true ∧
      d.regs.bypassDis = true ∧ trttTtloc d.regs = true ∧ d.regs.trvadr.toNat / 16 % 16 ≠ 0 ∧
      d.regs.trvadr.toNat / 16 % 16 ≠ 15) := by decide +kernel
theorem witness_TrttMisprogrammed_advanced : -- tables in physical space; MASK 0001b
    let on (v m : Nat) : State :=
      { sA 0x900000053 true 0 with
        regs := { Regs.initial with bypassDis := true, trtte := BitVec.ofNat 32 v, trvadr := BitVec.ofNat 32 m } }
    let a := on 1 0; let b := on 3 0x1F
    ((rd va4 4).wellFormed = true ∧ fitsRow 0x00B 0x003 0x900000053 = true ∧ canonical (rd va4 4).va = true) ∧
    (gateOpen a none (.engine .rcs) = true ∧ Rules.holdsAdvanced a 0x900000053 .rcs = true ∧ a.regs.gttCacheEnable = false ∧
      Rules.written (a.bank .rcs).pdp0 5 = true ∧ (a.bank .rcs).pc.valid = true ∧
      a.iommu.cc.find? (fun z => z.fn == BitVec.ofNat 3 (field 0x900000053 9 3)) = some ce ∧ a.regs.bypassDis = true ∧
      trttEn a.regs = true ∧ trttTtloc a.regs = false) ∧
    (gateOpen b none (.engine .rcs) = true ∧ Rules.holdsAdvanced b 0x900000053 .rcs = true ∧ b.regs.gttCacheEnable = false ∧
      Rules.written (b.bank .rcs).pdp0 5 = true ∧ (b.bank .rcs).pc.valid = true ∧
      b.iommu.cc.find? (fun z => z.fn == BitVec.ofNat 3 (field 0x900000053 9 3)) = some ce ∧ b.regs.bypassDis = true ∧
      trttEn b.regs = true ∧ trttTtloc b.regs = true ∧ b.regs.trvadr.toNat / 16 % 16 = 1) := by decide +kernel

/-- The context of `s48` and the one of `sA`. -/
def c48 : Ctx := legacyCtx (.engine .rcs) .ppgtt48 0x42 0x100000
def cA : Ctx := ⟨tagA, .stream, 5, 9, true, false, false, true, false, false, false, false, 0x100000⟩
/-- The hypotheses that the statements of TLB.LOOKUP share: the entry found and where. -/
abbrev found (s : State) (c : Ctx) (r : Request) (t : TlbEntry) (act : Bool := false) : Prop :=
  r.wellFormed = true ∧ gateOpen s none r.src = true ∧ contextOf s r.src r.va = .ok (s, c) ∧
  trttActive s.regs r.src c.tag.mode = .ok act ∧
  s.caches.tlb.find? (fun y => y.tag == c.tag && y.group == r.client.tlbGroup && y.page == r.va.toNat / 2 ^ y.bits) = some t
theorem witness_TlbLookupHit : -- a read, a write, a Null entry, a large page with the GTT cache on
    let s := withTlb [entryOf tag48 false false none] (s48 0 0)
    let w := withTlb [entryOf tagA true true none] (sA 0x900000053 true 0)
    let n := withTlb [{ entryOf tag48 true false none with null := true }] (s48 0 0)
    let big := { entryOf tag48 true false none with bits := 21, page := va4 / 2 ^ 21 }
    let g := { withTlb [big] (s48 0 0) with regs := { Regs.initial with gttCacheEnable := true } }
    found s c48 (rd va4 4) (entryOf tag48 false false none) ∧ s.plat.xdEnforce = false ∧
    secondLevel s.plat (entryOf tag48 false false none).nested (0x5000 + va4 % 2 ^ 12) = .ok 0x5123 ∧
    Rules.gsmByCpu s.plat (rd va4 4) 0x5123 = false ∧
    found w cA (wr va4 [1]) (entryOf tagA true true none) ∧
    secondLevel w.plat (entryOf tagA true true none).nested (0x5000 + va4 % 2 ^ 12) = .ok 0x5123 ∧
    found n c48 (rd va4 4) { entryOf tag48 true false none with null := true } ∧
    found g c48 (rd va4 4) big ∧ g.regs.gttCacheEnable = true := by decide +kernel
theorem witness_TlbLookupHit_more : -- a TR-VA under a new TRVADR; the last bytes of GSM, and the byte after them
    let x := { entryOf tag48 true false none with page := 0xFFFFF00008010 }
    found (withTlb [x] (sT 2 0 0)) c48 (rd 0xFFFFF00008010040 4) x true ∧
    found (withTlb [entryGsm] State.reset) (legacyCtx .aperture .ggtt 0 0) apertureRead entryGsm ∧
    secondLevel Platform.initial entryGsm.nested (0x7C7FF000 + 0x123FFC % 2 ^ 12) = .ok 0x7C7FFFFC ∧
    Rules.gsmByCpu Platform.initial apertureRead 0x7C7FFFFC = true ∧
    Rules.gsmByCpu Platform.initial apertureRead 0x7C800000 = false := by decide +kernel
theorem witness_TlbLookupFiltered :
    found (withTlb [entryOf tagA false false (some .writeProtect)] (sA 0x900000053 true 0)) cA (wr va4 [1])
      (entryOf tagA false false (some .writeProtect)) ∧
    found (withTlb [entryOf tagA false false (some .notPresent)] (sA 0x900000053 true 0)) cA (rd va4 4)
      (entryOf tagA false false (some .notPresent)) := by decide +kernel
theorem witness_TlbLookupMiss :
    let s := withTlb [entryOf tag48 true false none] (s48 0x103003 0xABCD003)
    (∀ t ∈ s.caches.tlb, t.tag.src = (rd 0 4).src → t.page ≠ (rd 0 4).va.toNat / 2 ^ t.bits) ∧
    Rules.noTrtt s (rd 0 4).src (rd 0 4).va = true := by decide +kernel
theorem witness_StaleEntryIsDropped : -- read-only; writable but not dirty under A&D support
    let s := withTlb [entryOf tag48 false false none] (s48 0x103003 0xABCD003)
    let u := withTlb [entryOf tagA true false none] (sA 0x900000053 true 0xABCD007)
    found s c48 (wr va4 [1]) (entryOf tag48 false false none) ∧ c48.wp = true ∧
    isNext (exec (.tlbLookup useTlb (wr va4 [1])) s) = true ∧
    found u cA (wr va4 [1]) (entryOf tagA true false none) ∧ cA.ad = true ∧
    isNext (exec (.tlbLookup useTlb (wr va4 [1])) u) = true ∧
    (let x := { entryOf tag48 false false none with page := 0xFFFFF00008010 }
     found (withTlb [x] (sT 2 0 0)) c48 (wr 0xFFFFF00008010040 [1]) x true ∧
     isNext (exec (.tlbLookup useTlb (wr 0xFFFFF00008010040 [1])) (withTlb [x] (sT 2 0 0))) = true) := by decide +kernel
theorem witness_TlbFill : -- no record; a record; and translations that leave one: an address, a line, Null, a page request
    let s := s48 0x103003 0xABCD003
    let g := { sG 0xABCD001 with regs := { Regs.initial with gttCacheEnable := true } }
    let n := s48 0x103003 0x203
    let f := sA 0x900000053 true 0
    let left (v : State) (p : WalkRecord → Bool) : Bool :=
      match v.walker.walked with
      | some w => p w
      | none => false
    State.reset.walker.walked = none ∧
    (let w : WalkRecord := ⟨[entryOf tag48 true false none], [⟨tag48, 4, 0x100008, 0x101003⟩], [], [], []⟩
     ({ State.reset with walker := ⟨.fresh, some w⟩ } : State).walker.walked = some w) ∧
    gateOpen s none (.engine .rcs) = true ∧ contextOf s (.engine .rcs) (rd va4 4).va = .ok (s, c48) ∧
    trttActive s.regs (.engine .rcs) .ppgtt48 = .ok false ∧
    after (exec (.tlbLookup useNone (rd va4 4)) s)
      (fun v => left v (fun w => w.tlb.length == 1 && w.pwc.length == 3 && w.gtt == [])) = true ∧
    after (exec (.tlbLookup useNone (rd 0x123456 4)) g) (fun v => left v (fun w => w.gtt.length == 1)) = true ∧
    after (exec (.tlbLookup useNone (rd va4 4)) n) (fun v => left v (fun w => w.tlb.any (·.null))) = true ∧
    gateOpen f none (.engine .rcs) = true ∧ contextOf f (.engine .rcs) (rd va4 4).va = .ok (f, cA) ∧
    after (exec (.tlbLookup useNone (rd va4 4)) f)
      (fun v => left v (fun w => w.tlb.any (fun x => x.reason == some .notPresent))) = true := by decide +kernel
theorem witness_CachedCopies_pwc : -- memory has no entry, the cached one is used; and one that leads to a refusal
    let x : PwcEntry := ⟨⟨.engine .rcs, .ppgtt32, 0x100000⟩, 2, 0x100010, 0x200003⟩
    let s := (s32 0 0x3000003).setCaches ⟨[], [x], [], []⟩
    let u := withSecond [(0x200, none)] s
    let r := rd 0x403123 4
    WellFormed (.xlatePpgtt32 0x70000010B r) ∧ gateOpen s none r.src = true ∧ Rules.holdsLegacy s 0x70000010B r.src = true ∧
    Rules.trttOff s r.src = true ∧ r.va.toNat < 2 ^ 32 ∧ Rules.written (Rules.pdpOf (s.bank .rcs) r.va) 0x100000 = true ∧
    Rules.nested s (Rules.frame s.plat.haw 12 0x100000) = .ok 0x100000 ∧
    s.caches.pwc.find? (fun y => y.tag == ⟨.engine .rcs, .ppgtt32, Rules.frame s.plat.haw 12 0x100000⟩ &&
      y.addr == 0x100000 + 8 * field r.va 21 9) = some x ∧ bit x.entry 0 = true ∧
    Rules.legacyPte s false r.va x.entry = .ok (.phys 0x3000123 ⟨false, false, false, true, some true, false, false, false⟩) ∧
    Rules.holdsLegacy u 0x70000010B r.src = true ∧
    Rules.legacyPte u false r.va x.entry = .error (.refused .secondLevelUndefined) := by decide +kernel
theorem witness_CachedCopies_pwc48 : -- a write by way of a cached entry, a write-protect fault, and a refusal
    let s := (s48 0 0xABCD003).setCaches ⟨[], [⟨tag48, 2, 0x102018, 0x103003⟩], [], []⟩
    let u := (s48 0 0xABCD001).setCaches ⟨[], [⟨tag48, 2, 0x102018, 0x103003⟩], [], []⟩
    let v := withSecond [(0xABCD, none)] s
    let r := wr va4 [1]
    WellFormed (.xlatePpgtt48 0x420000011B r) ∧ gateOpen s none r.src = true ∧
    Rules.holdsLegacy s 0x420000011B r.src = true ∧ Rules.noTrtt s r.src r.va = true ∧ canonical r.va = true ∧
    Rules.written (s.bank .rcs).pdp0 0x100000 = true ∧ Rules.frame s.plat.haw 12 0x100000 = tag48.root ∧
    Rules.ppgtt48Via (Rules.readCopy s tag48) s 0x100000 true r.va =
      .ok (.phys 0xABCD123 ⟨false, false, false, true, some true, false, false, false⟩) ∧
    Rules.ppgtt48 s 0x100000 true r.va = .ok (.fault .notPresent 2) ∧
    Rules.holdsLegacy u 0x420000011B r.src = true ∧
    Rules.ppgtt48Via (Rules.readCopy u tag48) u 0x100000 true r.va = .ok (.fault .writeProtect 1) ∧
    Rules.holdsLegacy v 0x420000011B r.src = true ∧
    Rules.ppgtt48Via (Rules.readCopy v tag48) v 0x100000 true r.va = .error (.refused .secondLevelUndefined) := by
  decide +kernel
theorem witness_CachedCopies_adv : -- a read-only copy of a pointer, for a read and for a write; a copy for the supervisor
    let s := (sA 0x900000053 true 0xABCD007).setCaches ⟨[], [⟨tagA, 2, 0x102018, 0x103005⟩], [], []⟩
    let u := (sA 0x900000053 true 0xABCD007).setCaches ⟨[], [⟨tagA, 2, 0x102018, 0x103003⟩], [], []⟩
    let a := Rules.advOf 39 0x900000053 (s.bank .rcs).pc ce
    let by_ (t : State) (write : Bool) (x : XlateEnd) : Bool :=
      match Rules.advVia (Rules.copiesOf t tagA) t .rcs a write false (BitVec.ofNat 64 va4) with
      | .ok (_, y) => y == x
      | .error _ => false
    WellFormed (.xlateAdv 0x900000053 (wr va4 [1])) ∧ WellFormed (.xlateAdv 0x900000053 (rd va4 4)) ∧
    gateOpen s none (.engine .rcs) = true ∧ Rules.holdsAdvanced s 0x900000053 .rcs = true ∧
    Rules.noTrtt s (.engine .rcs) (rd va4 4).va = true ∧ s.regs.gttCacheEnable = false ∧ canonical (rd va4 4).va = true ∧
    Rules.written (s.bank .rcs).pdp0 5 = true ∧ (s.bank .rcs).pc.valid = true ∧
    s.iommu.cc.find? (fun y => y.fn == BitVec.ofNat 3 (field 0x900000053 9 3)) = some ce ∧
    by_ s false (.phys 0xABCD123 ⟨false, false, false, false, some true, false, false, false⟩) = true ∧
    by_ s true (.fault .writeProtect 1) = true ∧
    Rules.holdsAdvanced u 0x900000053 .rcs = true ∧ by_ u false (.fault .privilege 1) = true := by decide +kernel
theorem witness_CachedCopies_gtt :
    let l (pte : Nat) : GttLine := ⟨⟨.engine .rcs, .ggtt, 0⟩, 0x7C000900, [0, 0, 0, BitVec.ofNat 64 pte, 0, 0, 0, 0]⟩
    let s (pte : Nat) : State :=
      { (sG 0).setCaches ⟨[], [], [l pte], []⟩ with regs := { Regs.initial with gttCacheEnable := true } }
    let r := rd 0x123456 4
    ∀ pte ∈ [0xABCD001, 0xABCD000],
      WellFormed (.xlateGgtt 0x70000000B r) ∧ gateOpen (s pte) none r.src = true ∧
      Rules.holdsLegacy (s pte) 0x70000000B r.src = true ∧ Rules.trttOff (s pte) r.src = true ∧ r.va.toNat < 2 ^ 32 ∧
      8 * field r.va 12 20 < (s pte).plat.gsmSize ∧
      (s pte).caches.gtt.find? (fun y => y.base == ((s pte).plat.gsmBase + 8 * field r.va 12 20) / 64 * 64) = some (l pte) ∧
      (l pte).entries[((s pte).plat.gsmBase + 8 * field r.va 12 20) % 64 / 8]? = some (BitVec.ofNat 64 pte) ∧
      Rules.gsmByCpu (s pte).plat r 0xABCD456 = false ∧
      Rules.gsmByCpu (s pte).plat { r with src := .aperture } 0x7C000456 = true := by decide +kernel
theorem witness_CachedCopies_trtt :
    let r := rd 0xFFFFF00008010040 4
    let x (y : TrResult) : TrEntry := ⟨⟨.engine .rcs, .ppgtt48, 0x100000⟩, 0xF0000801, y⟩
    let s (y : TrResult) : State := (sT 2 0 0).setCaches ⟨[], [], [], [x y]⟩
    (∀ y ∈ [TrResult.null, .invalid, .tile 0x2345], trttReady (s y) r = true ∧
      (s y).caches.tr.find? (fun z => z.tag == ⟨.engine .rcs, .ppgtt48, Rules.frame (s y).plat.haw 12 0x100000⟩ &&
        z.tile == field r.va 16 32) = some (x y)) ∧
    Rules.ppgtt48 (s (.tile 0x2345)) 0x100000 false (Rules.tileAddress 0x2345 r.va) =
      .ok (.phys 0xABC5040 ⟨false, false, false, true, some true, false, false, false⟩) := by decide +kernel
theorem witness_CachedCopies_trttAdvanced :
    let r := rd 0xFFFFF00008015123 4
    let x (y : TrResult) : TrEntry := ⟨tagA, 0xF0000801, y⟩
    let s (y : TrResult) : State := (sTA 0x900000043 2 0 0).setCaches ⟨[], [], [], [x y]⟩
    let u := (sTA 0x900000043 2 0 0)
    WellFormed (.xlateTrtt r) ∧ fitsRow 0x00B 0x003 0x900000043 = true ∧ canonical r.va = true ∧
    (u.bank .rcs).pc.valid = true ∧ u.regs.gttCacheEnable = false ∧ u.regs.bypassDis = true ∧ trttEn u.regs = true ∧
    trttTtloc u.regs = true ∧ trvaLegal u.regs = true ∧ Rules.written (u.bank .rcs).pdp0 5 = true ∧
    (BitVec.ofNat 20 (field 5 0 20) : BitVec 20).toNat = tagA.root ∧
    u.iommu.cc.find? (fun z => z.fn == BitVec.ofNat 3 (field 0x900000043 9 3)) = some ce ∧
    ∀ y ∈ [TrResult.null, .invalid, .tile 0x808060], gateOpen (s y) none r.src = true ∧
      Rules.holdsAdvanced (s y) 0x900000043 .rcs = true ∧
      (s y).caches.tr.find? (fun z => z.tag == ⟨.engine .rcs, .adv, 5⟩ && z.tile == field r.va 16 32) = some (x y) := by
  decide +kernel
theorem witness_TlbinvSvm : ((sA 0x900000053 true 0).bank .rcs).resident = some 5 := by decide +kernel
def flight : InFlight := ⟨wr va4 [1, 2], 0x42, 0x5123, ⟨false, false, false, true, some true, false, false, false⟩⟩
def withFlight (f : InFlight) (s : State) : State := s.setReqs { s.reqs with inflight := [f] }
theorem witness_InvWait :
    State.reset.reqs.inflight = [] ∧ (withFlight flight State.reset).reqs.inflight ≠ [] ∧
    (let s := State.reset.setReqs { State.reset.reqs with invWaits := 2 }
     s.inputs = [] ∧ s.reqs.inflight = [] ∧ s.reqs.invWaits ≠ 0) := by decide +kernel

theorem witness_ContextAvailable : -- drained from Idle; a request in flight from Running; a Stream and a Halt context; a stop
    (State.reset.bank .bcs).hs = .idle ∧ ((s48 0 0).bank .rcs).hs = .running ∧
    (State.reset.reqs.deferAcks = false ∧ ∀ f ∈ State.reset.reqs.inflight, f.req.src ≠ .engine .bcs) ∧
    ¬ (∀ f ∈ (withFlight flight (s48 0 0)).reqs.inflight, f.req.src ≠ .engine .rcs) ∧
    (∀ d ∈ [(0x900000053 : Nat), 0x900000093], let s := sA d true 0
      (s.bank .rcs).hs = .running ∧ (s.bank .rcs).resident = some 5 ∧
      Rules.written (s.bank .rcs).elem (BitVec.ofNat 64 d) = true ∧ sparseWf 0 s.iommu.pasidState = true) ∧
    faultModelOf Platform.initial (field 0x900000053 6 2) = .stream ∧
    faultModelOf Platform.initial (field 0x900000093 6 2) = .halt ∧ (State.reset.bank .bcs).resident = none ∧
    (sStopped.bank .rcs).hs = .running ∧ (sStopped.bank .rcs).stopped = true ∧
    Rules.heldAfter sStopped .rcs = sStopped.reqs.held.drop 1 := by
  decide +kernel
theorem witness_ContextReceiveReady :
    ((hand .rcs .availableReceived State.reset).bank .rcs).hs = .availableReceived ∧
    (∀ f ∈ (hand .rcs .availableReceived State.reset).reqs.inflight, f.req.src ≠ .engine .rcs) ∧
    ((hand .rcs .availableReceived (withFlight flight State.reset)).bank .rcs).hs = .availableReceived ∧
    (∃ f ∈ (hand .rcs .availableReceived (withFlight flight State.reset)).reqs.inflight, f.req.src = .engine .rcs) := by
  decide +kernel
theorem witness_ContextLaunchedLegacy :
    let s := hand .rcs .readySent (s48 0 0)
    (s.bank .rcs).hs = .readySent ∧ Rules.written (s.bank .rcs).elem 0x420000011B = true ∧ bit 0x420000011B 1 = true ∧
    bit 0x420000011B 3 = true ∧ field 0x420000011B 6 2 = 0 ∧ Rules.idTaken s .rcs 0x420000011B = false ∧
    Rules.idTaken (ctx .bcs 0x420000010B 0 s) .rcs 0x420000011B = true := by decide +kernel
theorem witness_ContextLaunchedAdvanced :
    let s := hand .rcs .readySent (sA 0x900000053 true 0)
    (s.bank .rcs).hs = .readySent ∧ Rules.written (s.bank .rcs).elem 0x900000053 = true ∧
    Rules.written (s.bank .rcs).pdp0 5 = true ∧ bit 0x900000053 1 = true ∧ bit 0x900000053 3 = false ∧
    field 0x900000053 6 2 ≠ 0 ∧ faultModelOf s.plat (field 0x900000053 6 2) = .stream ∧
    s.iommu.pasids.find? (fun y => y.fn == BitVec.ofNat 3 (field 0x900000053 9 3) && y.pasid == BitVec.ofNat 20 (field 5 0 20)) =
      some (pe true) ∧ (pe true).ok = true ∧
    s.iommu.cc.find? (fun y => y.fn == BitVec.ofNat 3 (field 0x900000053 9 3)) = some ce ∧
    sparseWf 0 s.iommu.pasidState = true ∧ s.reqs.deferAcks = false ∧ s.regs.gttCacheEnable = false ∧
    Rules.idTaken s .rcs 0x900000053 = false ∧ Rules.idTaken (ctx .vcs0 0x90000011B 0 s) .rcs 0x900000053 = true ∧
    ({ s with regs := { s.regs with gttCacheEnable := true } } : State).regs.gttCacheEnable = true ∧
    -- an empty Context Cache, and a delayed answer
    (let m := { s with iommu := { s.iommu with cc := [] }, reqs := { s.reqs with deferAcks := true } }
     (m.bank .rcs).hs = .readySent ∧ m.iommu.cc.find? (fun y => y.fn == BitVec.ofNat 3 (field 0x900000053 9 3)) = none ∧
     m.iommu.ctxs.find? (fun y => y.fn == BitVec.ofNat 3 (field 0x900000053 9 3)) = some ce ∧ m.reqs.deferAcks = true) := by
  decide +kernel
theorem witness_ContextConfirmed :
    ((hand .vecs .launchedReceived State.reset).bank .vecs).hs = .launchedReceived := by decide +kernel
/-- Two engines are owed an answer: of those before BCS and before VECS, one is and none is; an access of a hung engine waits. -/
theorem witness_owed :
    let s := hand .bcs .availableReceived (hand .vecs .launchedReceived
      (setHung (withFlight flight State.reset) true (.engine .rcs)))
    Rules.owes s .bcs = true ∧ Rules.owes s .vecs = true ∧ (∀ x ∈ Rules.ackedBefore .vecs, Rules.owes s x = false) ∧
    (s.inputs = [] ∧ (∀ f ∈ s.reqs.inflight, isHung s f.req.src = true) ∧ s.reqs.inflight ≠ []) ∧ s.reqs.deferAcks = false ∧
    (let u := hand .vecs .idle s
     (u.bank .bcs).hs = .availableReceived ∧ (∀ x ∈ Rules.ackedBefore .bcs, Rules.owes u x = false) ∧
     (∀ f ∈ u.reqs.inflight, f.req.src ≠ .engine .bcs) ∧ u.inputs = [] ∧
     (∀ f ∈ u.reqs.inflight, isHung u f.req.src = true) ∧ u.reqs.inflight ≠ []) := by decide +kernel
/-- 45 R353, R356: GAM answers on its own, the engine first in order first. -/
theorem test_acks_on_its_own :
    let s := hand .bcs .availableReceived (hand .vecs .launchedReceived State.reset)
    after (step s) (fun t => t.outputs == [.gamWrite 0x1B438 0x00020002] && t.banks.bcs.hs == .availableReceived) ∧
    after (step (hand .vecs .idle s)) (fun t => t.outputs == [.gamWrite 0x23438 0x00010001] && t.banks.bcs.hs == .readySent) := by
  decide +kernel
theorem witness_MessagesInSequence :
    ((hand .rcs .readySent State.reset).bank .rcs).hs ≠ .idle ∧ ((hand .rcs .readySent State.reset).bank .rcs).hs ≠ .running ∧
    (State.reset.bank .rcs).hs ≠ .availableReceived ∧ (State.reset.bank .rcs).hs ≠ .readySent ∧
    (State.reset.bank .rcs).hs ≠ .launchedReceived := by decide +kernel
theorem witness_DescriptorWrites :
    let s := withInput (.csWrite .vcs0 .pdp3 true 0xFFFFFFFF) State.reset
    let u := hand .vcs0 .readySent s
    s.inputs = [.csWrite .vcs0 .pdp3 true 0xFFFFFFFF] ∧ (s.bank .vcs0).hs ≠ .readySent ∧
    u.inputs = [.csWrite .vcs0 .pdp3 true 0xFFFFFFFF] ∧ (u.bank .vcs0).hs = .readySent := by decide +kernel
theorem witness_RegisterWrites : -- each event, the conditions on the GTT cache, and the bits of a message
    let b := State.reset.plat.gttmmadrBase
    (∀ i ∈ [Input.regWrite .trttL3Hi 0xFFFFFFFF, .regWrite .gttCache 1, .regWrite .nullTileCount 0, .regRead .trvadr,
        .cpuWrite (b + 0x4DFC) (leBytes 4 1), .cpuRead (b + 0x4DFC) 4, .cpuWrite (b + 0x4A30) (leBytes 4 0x80000000),
        .cpuRead (b + 0x4A30) 4, .cpuWrite (b + (Rules.descOffset .bcs .pdp3 + 4)) (leBytes 4 0xFFFFFFFF),
        .cpuRead (b + (Rules.descOffset .rcs .elem + 0)) 4, .cpuRead (b + Rules.gamAddress .bcs) 4,
        .cpuRead (b + Rules.csAddress .vecs) 4, .csMessage (Rules.gamAddress .vcs1) 0x10001, .csMessage 0x4018 0x10001,
        .cpuWrite (b + 0x170000) (leBytes 4 1), .cpuRead (b + 0x17FFFC) 4],
      (withInput i State.reset).inputs = [i]) ∧
    (∀ e ∈ [Engine.rcs, .bcs, .vecs, .vcs0, .vcs1], (State.reset.bank e).resident = none ∧ 0x4018 ≠ Rules.gamAddress e) ∧
    ((sA 0x900000053 true 0).bank .rcs).resident ≠ none ∧
    ((0x00000004 : Word32).toNat / 4 % 2 ^ 14 ≠ 0 ∧ (0x00040000 : Word32).toNat / 2 ^ 18 ≠ 0) ∧
    (∀ v ∈ [0, 1, 2, 3, 0x10000, 0x10001, 0x10002, 0x20001, 0x20002, 0x30001, 0x30002, 0x30003],
      (BitVec.ofNat 32 v).toNat / 4 % 2 ^ 14 = 0 ∧ (BitVec.ofNat 32 v).toNat / 2 ^ 18 = 0) := by decide +kernel

theorem witness_ApertureAccess_memory : -- at 0, up to the aperture, and across the end of the address space
    Memory.wf State.reset.mem = true ∧
    (∀ i ∈ [Input.cpuRead 0 4, .cpuWrite 0x3FFFFFFFFF [1], .cpuRead 0x7FFFFFFFFE 4, .cpuWrite 0x7FFFFFFFFF [1, 2]],
      (withInput i State.reset).inputs = [i]) ∧
    Rules.plainRange Platform.initial 0 4 ∧ Rules.plainRange Platform.initial 0x3FFFFFFFFF 1 ∧
    (Rules.plainRange Platform.initial 0x7FFFFFFFFE 4 ∧ 2 ^ Platform.initial.haw < 0x7FFFFFFFFE + 4) ∧
    Rules.plainRange Platform.initial 0x7FFFFFFFFF 2 := by
  unfold Rules.plainRange
  decide +kernel
theorem witness_ApertureAccess : -- the first and the last byte, from memory and from a cached copy
    (∀ u ∈ [noCache, useTlb],
      (withInput (.cpuRead 0x4000000000 4 u) State.reset).inputs = [.cpuRead 0x4000000000 4 u] ∧
      (withInput (.cpuWrite 0x400FFFFFFF [1] u) State.reset).inputs = [.cpuWrite 0x400FFFFFFF [1] u]) ∧
    State.reset.plat.gmadrBase ≤ 0x4000000000 ∧ 0x400FFFFFFF < State.reset.plat.gmadrBase + State.reset.plat.gmadrSize ∧
    0x400FFFFFFF < State.reset.plat.gttmmadrBase := by decide +kernel
theorem witness_GttProgramming : -- the last quad word and the last byte of the table; a misaligned offset
    Memory.wf State.reset.mem = true ∧
    (0x7FFFF8 : BitVec 23).toNat % Width.b8.bytes = 0 ∧ (0x7FFFF8 : BitVec 23).toNat + Width.b8.bytes ≤ State.reset.plat.gsmSize ∧
    State.reset.plat.gsmBase + (0x7FFFF8 : BitVec 23).toNat + Width.b8.bytes ≤ 2 ^ State.reset.plat.haw ∧
    (0x7FFFFF : BitVec 23).toNat % Width.b1.bytes = 0 ∧ (0x7FFFFF : BitVec 23).toNat + Width.b1.bytes ≤ State.reset.plat.gsmSize ∧
    (0x91A : BitVec 23).toNat % Width.b4.bytes ≠ 0 ∧
    (let a := State.reset.plat.gttmmadrBase + 0x800000 + (0x918 : BitVec 23).toNat
     (∀ i ∈ [Input.cpuWrite a (leBytes Width.b8.bytes 0xABCD001) useNone, .cpuRead a Width.b4.bytes useNone,
         .cpuWrite a [1, 2, 3] useNone, .cpuRead a 16 useNone], (withInput i State.reset).inputs = [i]) ∧
     ∀ x ∈ [Width.b1, .b2, .b4, .b8], ([1, 2, 3] : List Byte).length ≠ x.bytes ∧ 16 ≠ x.bytes) ∧
    (let p := State.reset.plat -- the first byte of the table
     (withInput (.cpuWrite 0x7C000000 [1] useNone) State.reset).inputs = [.cpuWrite 0x7C000000 [1] useNone] ∧
     p.gsmBase ≤ 0x7C000000 ∧ 0x7C000000 < p.gsmBase + p.gsmSize ∧ 0x7C000000 < p.gmadrBase ∧
     0x7C000000 + 1 ≤ p.gttmmadrBase ∧ p.gms.toNat ≤ 128) ∧
    -- the first entry beyond a table of 1 MB
    ({ State.reset.plat with gsmSize := 0x100000 } : Platform).gsmSize ≤ 8 * ((0x20000000 : Word32).toNat / 2 ^ 12 % 2 ^ 20) := by
  decide +kernel
theorem witness_MiUpdateGtt : -- the last entry
    Memory.wf State.reset.mem = true ∧ 8 * ((0xFFFFF000 : Word32).toNat / 2 ^ 12 % 2 ^ 20) < State.reset.plat.gsmSize ∧
    State.reset.plat.gsmBase + 8 * ((0xFFFFF000 : Word32).toNat / 2 ^ 12 % 2 ^ 20) + 8 ≤ 2 ^ State.reset.plat.haw ∧
    (0xFFFFF000 : Word32).toNat % 2 ^ 12 = 0 := by decide +kernel
theorem witness_DataAccess : -- the last bytes of the address space; each kind of access
    let f (a : Access) : InFlight := { flight with req := { flight.req with acc := a }, pa := 0x103028 }
    Memory.wf State.reset.mem = true ∧ 0x7FFFFFFFFE + (flight.req.acc).size ≤ 2 ^ State.reset.plat.haw ∧
    flight.req.acc = .write [1, 2] ∧ (f (.read 4)).req.acc = .read 4 ∧ (f (.fetch 4)).req.acc = .fetch 4 ∧
    (f (.atomic 7 [1])).req.acc = .atomic 7 [1] ∧ memType State.reset.plat 0x103028 = .wb ∧
    memType (uncached State.reset).plat 0x103028 ≠ .wb := by decide +kernel
/-- 47 R455, 46 R409: the machine performs the access of a source that is not hung, and then answers the waits. -/
theorem test_performs_on_its_own :
    let s := withFlight flight (s48 0 0)
    after (step (s.setReqs { s.reqs with invWaits := 1 })) (fun t => t.mem.bytes 0x5123 2 == [1, 2] && t.reqs.inflight == [] &&
      t.outputs == [.invWaitDone, .response flight.req [] false] && t.reqs.invWaits == 0) := by decide +kernel
theorem witness_HungSourcesWait_autonomous : -- the second access is the oldest of a source that is not hung
    let f := { flight with req := { flight.req with src := .engine .bcs } }
    let s := setHung ((s48 0 0).setReqs { (s48 0 0).reqs with inflight := [f, flight] }) true (.engine .bcs)
    s.inputs = [] ∧ s.reqs.inflight[1]? = some flight ∧ isHung s flight.req.src = false ∧
    (∀ j < 1, ∀ g ∈ s.reqs.inflight[j]?, isHung s g.req.src = true) ∧ s.reqs.inflight ≠ [] ∧ isNext (step s) = true := by
  decide +kernel
theorem witness_HungSourcesWait :
    let s := withInput (.perform 0) (withFlight flight (s48 0 0))
    let u := setHung s true (.engine .rcs)
    s.inputs = [.perform 0] ∧ s.reqs.inflight[0]? = some flight ∧ isHung s (.engine .rcs) = false ∧
    isNext (step s) = true ∧ u.inputs = [.perform 0] ∧ u.reqs.inflight[0]? = some flight ∧
    isHung u (.engine .rcs) = true := by decide +kernel
theorem witness_PageResponseUnmatched : -- another page of the PASID, and another PASID
    (∀ q ∈ (sP 0).reqs.pending, ¬ (q.pasid = 5 ∧ q.va.toNat / 4096 = (0x8080606000 : Word64).toNat / 4096)) ∧
    (∀ q ∈ (sP 0).reqs.pending, ¬ (q.pasid = 6 ∧ q.va.toNat / 4096 = (0x8080605000 : Word64).toNat / 4096)) := by
  decide +kernel
/-- The read of a TR-TT L2 table that waits, and an advanced context of Render in which it can go on. -/
def pendTr : PendingReq := ⟨rd 0xFFFFF00008015123 4, 5, 0x100001010, some ⟨2, 0x100001000⟩, true⟩
def sPT : State :=
  let s := sTA 0x900000043 0x100001000 0x100002000 0x808060
  { s with reqs := { s.reqs with pending := [pend, pendTr] } }
theorem witness_PageResponseUnsuccessful : -- of a source that is not hung, and of one that is; two requests at once
    let two := [pend, { pend with req := { pend.req with src := .engine .bcs } }]
    let u := setHung { sP 0 with reqs := { (sP 0).reqs with pending := two } } true (.engine .bcs)
    pend.tr = none ∧ (sP 0).reqs.pending.filter (Rules.answers 5 0x8080605FFF) = [pend] ∧
    isHung (sP 0) pend.req.src = false ∧
    (setHung (sP 0) true (.engine .rcs)).reqs.pending = [pend] ∧
    isHung (setHung (sP 0) true (.engine .rcs)) pend.req.src = true ∧
    u.reqs.pending.filter (Rules.answers 5 0x8080605FFF) = two ∧ (∀ q ∈ two, q.tr = none) ∧
    isHung u (.engine .bcs) = true ∧ isHung u (.engine .rcs) = false := by decide +kernel
theorem witness_PageResponse_trtt : -- a TR-TT walk that waits: its context runs, another one does, its source is hung
    let v := { sPT with banks := { sPT.banks with rcs := { sPT.banks.rcs with resident := some 6 } } }
    let a := Rules.advOf 39 0x900000043 (sPT.bank .rcs).pc ce
    sPT.reqs.pending.filter (Rules.answers 5 0x100001FFF) = [pendTr] ∧ pendTr.tr = some ⟨2, 0x100001000⟩ ∧
    pendTr.req.src = .engine .rcs ∧ gateOpen sPT (some pendTr.pasid) pendTr.req.src = true ∧
    fitsRow 0x00B 0x003 0x900000043 = true ∧ Rules.holdsAdvanced sPT 0x900000043 .rcs = true ∧
    sPT.regs.gttCacheEnable = false ∧ trvaLegal sPT.regs = true ∧ canonical pendTr.req.va = true ∧
    Rules.written (sPT.bank .rcs).pdp0 5 = true ∧ (sPT.bank .rcs).pc.valid = true ∧
    sPT.iommu.cc.find? (fun z => z.fn == BitVec.ofNat 3 (field 0x900000043 9 3)) = some ce ∧
    (match Rules.trttAgain (Rules.tablesAdv .rcs a) (Rules.answered 5 0x100001FFF sPT) ⟨2, 0x100001000⟩ pendTr.req.va with
      | .ok (_, y) => isTr (.tile 0x808060) y
      | .error _ => false) = true ∧
    v.reqs.pending.filter (Rules.answers 5 0x100001FFF) = [pendTr] ∧ isHung v pendTr.req.src = false ∧
    gateOpen v (some pendTr.pasid) pendTr.req.src = false ∧
    isHung (setHung sPT true (.engine .rcs)) pendTr.req.src = true ∧
    -- tables in physical space, and MASK 0001b
    (let x := { sPT with regs := { sPT.regs with trtte := 1 } }
     Rules.holdsAdvanced x 0x900000043 .rcs = true ∧ x.regs.bypassDis = true ∧ trttEn x.regs = true ∧
     trttTtloc x.regs = false) ∧
    (let x := { sPT with regs := { sPT.regs with trvadr := 0x1F } }
     Rules.holdsAdvanced x 0x900000043 .rcs = true ∧ trttTtloc x.regs = true ∧ trvaLegal x.regs = false) := by
  decide +kernel
theorem witness_PageResponseSuccessful : -- one request, and two; the context runs
    let two := [pend, { pend with live := false }]
    pend.tr = none ∧ (sP 0).reqs.pending.filter (Rules.answers 5 0x8080605000) = [pend] ∧
    gateOpen (sP 0) (some 5) pend.req.src = true ∧
    ({ sP 0 with reqs := { (sP 0).reqs with pending := two } } : State).reqs.pending.filter (Rules.answers 5 0x8080605000) = two ∧
    (∀ q ∈ two, q.tr = none ∧ q.req.wellFormed = true) := by decide +kernel
theorem witness_ResetDevice : -- one engine runs PASID 5, its counter is 1
    sparseWf 0 (sP 0).iommu.pasidState = true ∧ Rules.residents (sP 0) 5 = 1 ∧ sparseGet 0 (sP 0).iommu.pasidState 5 = 1 := by
  decide +kernel
theorem witness_Reset_parameter : -- with either value of each parameter there is something to keep
    (sP 0).plat.keepRequests = false ∧ (keeps (sP 0)).plat.keepRequests = true ∧
    (sP 0).plat.keepPasidCache = false ∧ (keeps (sP 0)).plat.keepPasidCache = true ∧ (sP 0).reqs.pending ≠ [] ∧
    (sP 0).reqs.pageRequests ≠ [] ∧ ((sP 0).bank .rcs).pc.valid = true := by decide +kernel
theorem witness_ResetEngine :
    (State.reset.bank .bcs).resident = none ∧ ((sP 0).bank .rcs).resident = some 5 ∧
    sparseWf 0 (sP 0).iommu.pasidState = true := by decide +kernel

end Sys2Proof.Tests
end

section
/-! A step with an event at the head of the queue, and the operation it runs when that event is a frame (00 R9, log 1). -/

namespace Sys2Proof.Machine

/-! ## The queue of inputs -/

@[simp] theorem setInputs_setInputs (s : State) (x y : List Input) : (s.setInputs x).setInputs y = s.setInputs y := rfl

@[simp] theorem setInputs_inputs_self (s : State) : s.setInputs s.inputs = s := rfl

@[simp] theorem withFetchWord_inputs (s : State) (nbits w : Nat) :
    (s.withFetchWord nbits w).inputs = .op (tableFrame nbits w) :: s.inputs := rfl

/-- Taking the queued word away again leaves the state it was given to. -/
@[simp] theorem withFetchWord_setInputs_inputs (s : State) (nbits w : Nat) :
    (s.withFetchWord nbits w).setInputs s.inputs = s := by
  rw [State.withFetchWord, setInputs_setInputs, setInputs_inputs_self]

/-! ## Decoding and running what is queued -/

theorem decodeTableWord_eq_some {nbits w : Nat} {i : Instr} :
    decodeTableWord nbits w = some i ↔ decode (tableFrame nbits w) = .ok i := by
  unfold decodeTableWord
  cases decode (tableFrame nbits w) <;> simp

theorem runFrame_of_decode {frame : List Byte} {i : Instr} (h : decode frame = .ok i) (s : State) :
    runFrame frame s = exec i s := by
  simp only [runFrame, h]

/-- With an event queued the machine takes it, and does nothing on its own (log 3). -/
theorem step_of_inputs_cons {s : State} {x : Input} {rest : List Input} (h : s.inputs = x :: rest) :
    step s = runInput x (s.setInputs rest) := by
  simp only [step, h]

theorem step_of_op {s : State} {frame : List Byte} {rest : List Input} {i : Instr}
    (hq : s.inputs = .op frame :: rest) (hd : decode frame = .ok i) : step s = exec i (s.setInputs rest) :=
  calc step s
    _ = runInput (.op frame) (s.setInputs rest) := step_of_inputs_cons hq
    _ = runFrame frame (s.setInputs rest) := rfl
    _ = exec i (s.setInputs rest) := runFrame_of_decode hd _

/-- Settles O4: the second half is the first one for the frame that `withFetchWord` queues, whose taking gives `s` back. -/
theorem stepRunsOperation : Obligations.StepRunsOperation := by
  unfold Obligations.StepRunsOperation
  refine ⟨fun s frame rest i hq hd => step_of_op hq hd, fun s nbits w i hw => ?_⟩
  have hstep : step (s.withFetchWord nbits w) = exec i ((s.withFetchWord nbits w).setInputs s.inputs) :=
    step_of_op (withFetchWord_inputs s nbits w) (decodeTableWord_eq_some.mp hw)
  rw [hstep, withFetchWord_setInputs_inputs]

end Sys2Proof.Machine
end

section
/-! What one row of the opcode table keeps. Every row but the messages and the resets is calm (`Calm`: parameters, queue,
registers but the null-tile counter, hand-shakes, resident contexts); for the messages and the resets there is a rule by cases
over the four messages of an engine and the three resets (30 R184, 70 R510). -/

namespace Sys2Proof.Machine

/-! ## Single operations that the frames of Laws leave out -/

/-- An entry row changes the walker's accumulators only (log 12). -/
theorem rowEntry_frame {k : EntryKind} {fl64k : Bool} {e : Word64} {s t : State} (h : rowEntry k fl64k e s = .ok t) :
    TransFrame s t := by
  simp only [rowEntry, bind_ok, Except.ok.injEq] at h
  obtain ⟨_, -, _, -, rfl⟩ := h
  exact .of_eq rfl rfl rfl rfl rfl rfl

theorem rowTrEntry_frame {top : Bool} {out : EntryOut} {s t : State} (h : rowTrEntry top out s = .ok t) :
    TransFrame s t := by
  simp only [rowTrEntry, Except.ok.injEq] at h
  subst h
  exact .of_eq rfl rfl rfl rfl rfl rfl

/-- A page-update atomic writes memory, or reports a catastrophic error, after which its context may be stopped (47 R452,
R453). -/
theorem rowApu_calm {op : ApuOp} {e : Engine} {pa : Word64} {s t : State} (h : rowApu op e pa s = .ok t) : Calm s t := by
  simp only [rowApu, bind_ok] at h
  obtain ⟨⟨u, v⟩, hu, h⟩ := h
  rcases apu_spec.mp hu with ⟨-, hi, old, -, hx⟩ | ⟨-, hx⟩ <;> cases hx <;> injection h with h <;> subst h
  · exact (memWrite_calm (memWrite64_spec.mpr ⟨hi, rfl⟩)).trans (emit_frame _ _).toCalm
  · exact ((emit_frame _ _).trans (stopContext_frame _ _)).toCalm

theorem tlbFill_frame (sel : FillSel) (s : State) : TransFrame s (tlbFill sel s) := by
  unfold tlbFill; split
  · exact .refl s
  · exact (setCaches_frame s _).trans (setWalked_frame _ _)

theorem invalidateAll_frame (s : State) : TransFrame s (invalidateAll s) :=
  (setCaches_frame s _).trans (setWalked_frame _ _)

theorem invalidateFaulted_frame (p : BitVec 20) (va : Word64) (s : State) : TransFrame s (invalidateFaulted p va s) :=
  (setCaches_frame s _).trans (setWalked_frame _ _)

theorem invWaitOp_frame (s : State) : TransFrame s (invWaitOp s) := by
  unfold invWaitOp; split
  · exact emit_frame s _
  · exact setReqs_frame s _

/-! ## Rows -/

theorem ok_of_next {x : Res State} {t : State} (h : toOutcome x = .next t) : x = .ok t := (toOutcome_next _ _).mp h

/-- Every row but a message and a reset is calm. -/
theorem exec_calm {i : Instr} {s t : State} (hd : Rules.isDelivery i = false) (h : exec i s = .next t) : Calm s t := by
  cases i with
  | xlateGgtt | xlatePpgtt32 | xlatePpgtt48 | xlateAdv => exact (rowXlate_frame (ok_of_next h)).toCalm
  | xlateTrtt | tlbLookup => exact (translate_frame (ok_of_next h)).toCalm
  | iaPml4e | iaPdpePd | iaPdpe1G | iaPdePt | iaPde2M | iaPte64K | iaPte4K => exact (rowEntry_frame (ok_of_next h)).toCalm
  | p32Pde | p32Pte64K | p32Pte4K | ggttPte => exact (rowEntry_frame (ok_of_next h)).toCalm
  | p48Pml4e | p48PdpePd | p48Pdpe1G | p48PdePt | p48Pde2M | p48Pte64K | p48Pte4K => exact (rowEntry_frame (ok_of_next h)).toCalm
  | trttL3e | trttL2e | trttL1e => exact (rowTrEntry_frame (ok_of_next h)).toCalm
  | apu0000 | apu0001 | apu0010 | apu0011 | apu0100 | apu0101 | apu0110 | apu0111 => exact rowApu_calm (ok_of_next h)
  | apu1000 | apu1001 | apu1010 | apu1011 | apu1100 | apu1101 | apu1110 | apu1111 => exact rowApu_calm (ok_of_next h)
  | tlbFill sel => cases h; exact (tlbFill_frame sel s).toCalm
  | tlbinvCs => cases h; exact (invalidateAll_frame s).toCalm
  | tlbinvSvm scope stages => cases h; exact (invalidateSvm_frame scope stages s).toCalm
  | tlbinvCtxsw e => cases h; exact (invalidateEngine_frame e s).toCalm
  | tlbinvPageResponse pasid va => cases h; exact (invalidateFaulted_frame pasid va s).toCalm
  | invWait => cases h; exact (invWaitOp_frame s).toCalm
  | gttWrite => exact aliasWrite_calm (ok_of_next h)
  | gttRead => exact (aliasRead_frame (ok_of_next h)).toCalm
  | miUpdateGtt => exact miUpdate_calm (ok_of_next h)
  | pageResponse => exact (pageResponseOp_frame (ok_of_next h)).toCalm
  | availableRcs | availableBcs | availableVecs | availableVcs0 | availableVcs1 => cases hd
  | receiveReadyRcs | receiveReadyBcs | receiveReadyVecs | receiveReadyVcs0 | receiveReadyVcs1 => cases hd
  | launchedRcs | launchedBcs | launchedVecs | launchedVcs0 | launchedVcs1 => cases hd
  | confirmedRcs | confirmedBcs | confirmedVecs | confirmedVcs0 | confirmedVcs1 => cases hd
  | resetEngine | resetDevice | resetBus => cases hd

/-- The rows that are not calm: the four messages of each engine, and the three resets. -/
theorem delivery_cases {P : Instr → Prop} (available : ∀ e, P (Rules.availableOf e))
    (receiveReady : ∀ e, P (Rules.receiveReadyOf e)) (launched : ∀ e, P (Rules.launchedOf e))
    (confirmed : ∀ e, P (Rules.confirmedOf e)) (engine : ∀ src, P (.resetEngine src)) (device : P .resetDevice)
    (bus : P .resetBus) {i : Instr} (hd : Rules.isDelivery i = true) : P i := by
  cases i with
  | availableRcs => exact available .rcs
  | availableBcs => exact available .bcs
  | availableVecs => exact available .vecs
  | availableVcs0 => exact available .vcs0
  | availableVcs1 => exact available .vcs1
  | receiveReadyRcs => exact receiveReady .rcs
  | receiveReadyBcs => exact receiveReady .bcs
  | receiveReadyVecs => exact receiveReady .vecs
  | receiveReadyVcs0 => exact receiveReady .vcs0
  | receiveReadyVcs1 => exact receiveReady .vcs1
  | launchedRcs => exact launched .rcs
  | launchedBcs => exact launched .bcs
  | launchedVecs => exact launched .vecs
  | launchedVcs0 => exact launched .vcs0
  | launchedVcs1 => exact launched .vcs1
  | confirmedRcs => exact confirmed .rcs
  | confirmedBcs => exact confirmed .bcs
  | confirmedVecs => exact confirmed .vecs
  | confirmedVcs0 => exact confirmed .vcs0
  | confirmedVcs1 => exact confirmed .vcs1
  | resetEngine src => exact engine src
  | resetDevice => exact device
  | resetBus => exact bus
  | _ => cases hd

end Sys2Proof.Machine
end

section
/-! The invariant: it holds after reset (10 R70), and every step keeps it, whatever event the step takes. -/

namespace Sys2Proof.Machine

theorem reset_tidy : State.reset.Tidy := by
  refine ⟨reset_mem_wf, (reservedClear_iff _).mpr (by decide), ?_, rfl⟩
  rw [banks_all_iff]
  intro e
  rw [Bank.consistent_iff]
  cases e <;> exact .inr (.inr ⟨.inr rfl, rfl, rfl⟩)

/-- After reset no engine has a resident context, and no counter is listed. -/
theorem reset_countsResidents : State.reset.countsResidents := fun _ => rfl

/-- Settles O5. -/
theorem resetInv : Obligations.ResetInv := ⟨reset_tidy, reset_countsResidents⟩

/-- Settles O7: register by register, and for every engine the same initial bank. -/
theorem resetValues : Obligations.ResetValues := by
  unfold Obligations.ResetValues
  have hb (e : Engine) : State.reset.bank e = .initial := by cases e <;> rfl
  refine ⟨rfl, rfl, rfl, rfl, rfl, rfl, rfl, fun e => ?_⟩
  rw [hb]
  exact ⟨rfl, rfl, rfl, fun d => by cases d <;> rfl⟩

/-! ## Rows -/

/-- Every row of the opcode table keeps the invariant. -/
theorem exec_inv {i : Instr} {s t : State} (hg : s.Inv) (h : exec i s = .next t) : t.Inv := by
  cases hd : Rules.isDelivery i with
  | false => exact (exec_calm hd h).inv hg
  | true =>
    revert h
    refine delivery_cases (P := fun i => exec i s = .next t → t.Inv) (fun e h => ?_) (fun e h => ?_) (fun e h => ?_)
      (fun e h => ?_) (fun src h => ?_) (fun h => ?_) (fun h => ?_) hd
    · rw [exec_availableOf] at h; exact msgAvailable_inv hg (ok_of_next h)
    · rw [exec_receiveReadyOf] at h; exact msgReceiveReady_inv hg (ok_of_next h)
    · rw [exec_launchedOf] at h; exact msgLaunched_inv hg (ok_of_next h)
    · rw [exec_confirmedOf] at h; exact msgConfirmed_inv hg (ok_of_next h)
    · cases h; exact resetSource_inv src hg
    · cases h; exact resetDeviceOp_inv hg
    · cases h; exact resetBusOp_inv hg

theorem runFrame_inv {frame : List Byte} {s t : State} (hg : s.Inv) (h : runFrame frame s = .next t) : t.Inv := by
  unfold runFrame at h
  split at h
  · exact exec_inv hg h
  · cases h

/-! ## Events that are no row -/

/-- A change of the IOMMU's tables keeps the counters. -/
theorem setIommu_frame {s : State} {x : Iommu} (h : x.pasidState = s.iommu.pasidState) : TransFrame s (s.setIommu x) :=
  ⟨⟨rfl, rfl, id, rfl, fun _ => rfl, fun _ => rfl, fun _ h => .inl h, h, fun _ h => .inl h⟩, fun _ => onlySetsADE_of_mem rfl⟩

/-- An event that is no row keeps the invariant: the register writes and the messages of a command streamer by their own
lemmas, the others because they are calm. -/
theorem envStep_inv {i : Input} {s t : State} (hg : s.Inv) (h : envStep i s = .ok t) : t.Inv := by
  cases i with
  | op => cases h
  | cpuRead => exact (cpuRead_frame h).toCalm.inv hg
  | cpuWrite => exact cpuWrite_inv hg h
  | regRead r => cases h; exact (regRead_frame r s).toCalm.inv hg
  | regWrite => exact regWrite_inv hg h
  | csWrite => exact csWrite_inv hg h
  | csMessage => exact csMessageAt_inv hg h
  | perform => exact (performAt_calm h).inv hg
  | grant => exact (grantAt_frame h).toCalm.inv hg
  | evict c k => cases h; exact (evict_frame c k s).toCalm.inv hg
  | evictPc e => cases h; exact (evictPc_frame e s).toCalm.inv hg
  | prefetchPml4 => exact (prefetchPml4_frame h).toCalm.inv hg
  | iommuCtx => cases h; exact (setIommu_frame rfl).toCalm.inv hg
  | iommuPasid => cases h; exact (setIommu_frame rfl).toCalm.inv hg
  | discardPageRequest => cases h; exact (setReqs_frame _ _).toCalm.inv hg
  | deferAcks => cases h; exact (setReqs_frame _ _).toCalm.inv hg

/-- An event that is no frame is one of `envStep`. -/
theorem runInput_of_ne_op {i : Input} (hi : ∀ frame, i ≠ .op frame) (s : State) :
    runInput i s = toOutcome (envStep i s) := by
  cases i with
  | op frame => exact absurd rfl (hi frame)
  | _ => rfl

theorem runInput_inv {i : Input} {s t : State} (hg : s.Inv) (h : runInput i s = .next t) : t.Inv := by
  by_cases hi : ∃ frame, i = .op frame
  · obtain ⟨frame, rfl⟩ := hi
    exact runFrame_inv hg h
  · rw [runInput_of_ne_op (not_exists.mp hi)] at h
    exact envStep_inv hg (ok_of_next h)

/-! ## With no event queued -/

/-- Everything an acknowledgement that is owed can be (45 R353, R356). -/
theorem owedAck_spec {s t : State} {e : Engine} (h : owedAck s e = some t) :
    ((s.bank e).hs = .availableReceived ∧ t = sendReady s e) ∨
    ((s.bank e).hs = .launchedReceived ∧ t = sendConfirmed s e) := by
  unfold owedAck at h
  split at h
  · cases h
  · split at h
    · next hc =>
      rw [Bool.and_eq_true, beq_iff_eq] at hc
      cases h; exact .inl ⟨hc.1, rfl⟩
    · split at h
      · next hc => cases h; exact .inr ⟨beq_iff_eq.mp hc, rfl⟩
      · cases h

theorem owedAck_inv {s t : State} {e : Engine} (hg : s.Inv) (h : owedAck s e = some t) : t.Inv := by
  rcases owedAck_spec h with ⟨hh, rfl⟩ | ⟨-, rfl⟩
  · exact sendReady_inv hg hh
  · exact sendConfirmed_inv hg

theorem autonomous_inv {s t : State} (hg : s.Inv) (h : autonomous s = .ok t) : t.Inv := by
  unfold autonomous at h
  split at h
  · exact (performAt_calm h).inv hg
  · split at h
    · cases h; exact (flushWaits_frame s).toCalm.inv hg
    · split at h
      · next ha =>
        obtain ⟨e, -, he⟩ := List.exists_of_findSome?_eq_some ha
        cases h; exact owedAck_inv hg he
      · split at h
        · exact (grantAt_frame h).toCalm.inv hg
        · cases h; exact hg

/-! ## The step -/

theorem setInputs_inv {s : State} (rest : List Input) (hg : s.Inv) : State.Inv (s.setInputs rest) := hg

/-- Settles O6: the machine's own work keeps the invariant, and so does every event, in the state whose queue it has left. -/
theorem stepKeepsInv : Obligations.StepKeepsInv := by
  intro s t hg h
  cases hq : s.inputs with
  | nil =>
    simp only [step, hq] at h
    exact autonomous_inv hg (ok_of_next h)
  | cons i rest =>
    rw [step_of_inputs_cons hq] at h
    exact runInput_inv (setInputs_inv rest hg) h

end Sys2Proof.Machine
end

section
/-! Which rows write the control registers: none but a device and a bus reset (10 R22 to R33, 70 R514). -/

namespace Sys2Proof.Machine

/-- The MMIO registers but the null-tile counter, the parameters and the queue are as before. -/
def KeepsControl (s t : State) : Prop :=
  t.regs = { s.regs with nullTileCount := t.regs.nullTileCount } ∧ t.plat = s.plat ∧ t.inputs = s.inputs

theorem Calm.keepsControl {s t : State} (h : Calm s t) : KeepsControl s t := ⟨h.regs, h.plat, h.inputs⟩

theorem TransFrame.keepsControl {s t : State} (h : TransFrame s t) : KeepsControl s t := h.toCalm.keepsControl

/-- A change of banks, IOMMU contents, requests, free values and reports. -/
theorem KeepsControl.of_eq {s t : State} (hr : t.regs = s.regs) (hp : t.plat = s.plat) (hi : t.inputs = s.inputs) :
    KeepsControl s t := ⟨by rw [hr], hp, hi⟩

theorem KeepsControl.refl (s : State) : KeepsControl s s := .of_eq rfl rfl rfl

theorem KeepsControl.trans {s t u : State} (h1 : KeepsControl s t) (h2 : KeepsControl t u) : KeepsControl s u := by
  obtain ⟨hr, hp, hi⟩ := h1
  obtain ⟨hr', hp', hi'⟩ := h2
  exact ⟨by rw [hr', hr], hp'.trans hp, hi'.trans hi⟩

theorem setBank_keepsControl (s : State) (e : Engine) (b : Bank) : KeepsControl s (s.setBank e b) := .of_eq rfl rfl rfl

/-! ## Messages -/

theorem retire_keepsControl (s : State) (e : Engine) : KeepsControl s (retire s e) := by
  rcases retire_spec s e with ⟨-, hr⟩ | ⟨p, -, hr⟩ <;> rw [hr]
  · exact .refl s
  · exact .of_eq rfl rfl rfl

theorem install_keepsControl (s : State) (e : Engine) (p : BitVec 20) : KeepsControl s (install s e p) :=
  .of_eq rfl rfl rfl

theorem sendReady_keepsControl (s : State) (e : Engine) : KeepsControl s (sendReady s e) := .of_eq rfl rfl rfl

theorem sendConfirmed_keepsControl (s : State) (e : Engine) : KeepsControl s (sendConfirmed s e) := .of_eq rfl rfl rfl

theorem readyIfDrained_keepsControl (s : State) (e : Engine) : KeepsControl s (readyIfDrained s e) := by
  unfold readyIfDrained; split
  · exact .refl s
  · exact sendReady_keepsControl s e

theorem msgAvailable_keepsControl {e : Engine} {s t : State} (h : msgAvailable e s = .ok t) : KeepsControl s t := by
  simp only [msgAvailable, bind_ok, Except.ok.injEq] at h
  obtain ⟨_, -, h⟩ := h
  have hleft : KeepsControl s (retire (leavePending (dropStopped s e) e) e) :=
    ((dropStopped_frame s e).trans (leavePending_frame _ e)).keepsControl.trans (retire_keepsControl _ e)
  have hbank (b : Bank) := hleft.trans (setBank_keepsControl _ e b)
  rw [← h]
  split
  · exact hbank _
  · exact (hbank _).trans (readyIfDrained_keepsControl _ e)

theorem msgReceiveReady_keepsControl {e : Engine} {s t : State} (h : msgReceiveReady e s = .ok t) : KeepsControl s t := by
  simp only [msgReceiveReady, bind_ok, Except.ok.injEq] at h
  obtain ⟨_, -, rfl⟩ := h
  exact readyIfDrained_keepsControl s e

theorem launchAdvanced_keepsControl {s t : State} {e : Engine} {d : Word64} (h : launchAdvanced s e d = .ok t) :
    KeepsControl s t := by
  simp only [launchAdvanced, bind_ok, Except.ok.injEq] at h
  obtain ⟨_, -, _, -, _, hfill, ⟨_, _⟩, hctx, rfl⟩ := h
  obtain ⟨_, -, rfl⟩ := fillPc_spec.mp hfill
  exact ((setBank_keepsControl s e _).trans (lookupCtx_frame hctx).keepsControl).trans (install_keepsControl _ e _)

theorem msgLaunched_keepsControl {e : Engine} {s t : State} (h : msgLaunched e s = .ok t) : KeepsControl s t := by
  simp only [msgLaunched, bind_ok, Except.ok.injEq] at h
  obtain ⟨_, -, d, -, _, -, _, -, _, -, u, hu, h⟩ := h
  have hinv := (setBank_keepsControl s e _).trans
    ((checkValid_frame (setHs s e .launchedReceived) e d).trans (invalidateEngine_frame e _)).keepsControl
  have hlaunch : KeepsControl s u := by
    split at hu
    · exact hinv.trans (launchAdvanced_keepsControl hu)
    · injection hu with hu; subst hu; exact hinv
  rw [← h]
  split
  · exact hlaunch
  · exact hlaunch.trans (sendConfirmed_keepsControl u e)

theorem msgConfirmed_keepsControl {e : Engine} {s t : State} (h : msgConfirmed e s = .ok t) : KeepsControl s t := by
  simp only [msgConfirmed, bind_ok, Except.ok.injEq] at h
  obtain ⟨_, -, rfl⟩ := h
  exact sendConfirmed_keepsControl s e

/-! ## The reset of one source -/

theorem resetEngineOp_keepsControl (k : Bool) (e : Engine) (s : State) : KeepsControl s (resetEngineOp k e s) :=
  (retire_keepsControl s e).trans (.of_eq rfl rfl rfl)

theorem resetSource_keepsControl (src : Source) (s : State) : KeepsControl s (resetSource src s) := by
  cases src with
  | engine e => exact resetEngineOp_keepsControl false e s
  | wdbox => exact .of_eq rfl rfl rfl
  | vebox2 => exact .of_eq rfl rfl rfl
  | display => exact .refl s
  | aperture => exact .refl s

/-! ## Rows -/

/-- Settles O12: a calm row keeps the control registers; of the others the messages and the reset of one source do. -/
theorem rowsKeepControlRegisters : Obligations.RowsKeepControlRegisters := by
  intro i s t hdev hbus h
  cases hd : Rules.isDelivery i with
  | false => exact (exec_calm hd h).keepsControl
  | true =>
    revert hdev hbus h
    refine delivery_cases
      (P := fun i => i ≠ .resetDevice → i ≠ .resetBus → exec i s = .next t → KeepsControl s t)
      (fun e _ _ h => ?_) (fun e _ _ h => ?_) (fun e _ _ h => ?_) (fun e _ _ h => ?_) (fun src _ _ h => ?_)
      (fun hdev => absurd rfl hdev) (fun _ hbus => absurd rfl hbus) hd
    · rw [exec_availableOf] at h; exact msgAvailable_keepsControl (ok_of_next h)
    · rw [exec_receiveReadyOf] at h; exact msgReceiveReady_keepsControl (ok_of_next h)
    · rw [exec_launchedOf] at h; exact msgLaunched_keepsControl (ok_of_next h)
    · rw [exec_confirmedOf] at h; exact msgConfirmed_keepsControl (ok_of_next h)
    · cases h; exact resetSource_keepsControl src s

end Sys2Proof.Machine
end

section
/-! Accesses to registers: by name (92 D24), as aligned DWords of the register half of GTTMMADR (20 R88, R97), and the masked
writes of a command streamer to its message register (30 R184, R185). -/

namespace Sys2Proof.Machine

/-- A step that takes an event other than a frame. -/
theorem step_of_event {s : State} {i : Input} {rest : List Input} (hq : s.inputs = i :: rest)
    (hi : ∀ frame, i ≠ .op frame) : step s = toOutcome (envStep i (s.setInputs rest)) := by
  rw [step_of_inputs_cons hq, runInput_of_ne_op hi]

/-! ## Registers by name -/

/-- A mask of the low bits keeps the remainder. -/
theorem and_mask_eq_mod (v m : Word32) (k : Nat) (hm : m.toNat = 2 ^ k - 1) :
    v &&& m = BitVec.ofNat 32 (v.toNat % 2 ^ k) := by
  apply BitVec.eq_of_toNat_eq
  rw [BitVec.toNat_and, hm, Nat.and_two_pow_sub_one_eq_mod, BitVec.toNat_ofNat,
    Nat.mod_eq_of_lt (Nat.lt_of_le_of_lt (Nat.mod_le _ _) v.isLt)]

theorem runsAdvanced_eq_false (s : State) : runsAdvanced s = false ↔ ∀ e, (s.bank e).resident = none := by
  simp only [runsAdvanced, List.any_eq_false, Bool.not_eq_true, Option.isSome_eq_false_iff, Option.isNone_iff_eq_none]
  exact ⟨fun h e => h e (by cases e <;> decide), fun h e _ => h e⟩

/-- A write to a named register, where the GTT cache is not turned on under an advanced context (70 R541). -/
theorem regWrite_eq_regAfter {s : State} {v : Word32} {n : RegName} (hn : n ≠ .nullTileCount)
    (hc : n = .gttCache → v.getLsbD 0 = true → ∀ e, (s.bank e).resident = none) :
    regWrite n v s = .ok (s.setRegs (Rules.regAfter s.regs v n)) := by
  cases n with
  | trttL3Lo | trttL3Hi | trttNull | trttInvalid | adNonwb | ips => rfl
  | trvadr => rw [regWrite, and_mask_eq_mod v 0xFF 8 rfl]; rfl
  | trtte => rw [regWrite, and_mask_eq_mod v 0x3 2 rfl]; rfl
  | gttCache =>
    have hoff : (v.getLsbD 0 && runsAdvanced s) = false := by
      cases hv : v.getLsbD 0 with
      | false => rfl
      | true => exact (runsAdvanced_eq_false s).mpr (hc rfl hv)
    rw [regWrite, hoff]; rfl
  | nullTileCount => exact absurd rfl hn

/-- The GTT cache is not turned on while an engine has an advanced context (70 R541). -/
theorem regWrite_gttCache_refused {s : State} {v : Word32} {e : Engine} (hv : v.getLsbD 0 = true)
    (hr : (s.bank e).resident ≠ none) : regWrite .gttCache v s = refuse .gttCacheObligation := by
  have hruns : runsAdvanced s = true := by
    by_contra h
    exact hr ((runsAdvanced_eq_false s).mp (Bool.eq_false_of_not_eq_true h) e)
  rw [regWrite, hv, hruns]; rfl

theorem step_regWrite {s : State} {v : Word32} {rest : List Input} {n : RegName} (hq : s.inputs = .regWrite n v :: rest)
    (hn : n ≠ .nullTileCount) (hc : n = .gttCache → v.getLsbD 0 = true → ∀ e, (s.bank e).resident = none) :
    step s = .next ((s.setInputs rest).setRegs (Rules.regAfter s.regs v n)) := by
  rw [step_of_event hq nofun, envStep, regWrite_eq_regAfter (s := s.setInputs rest) hn hc]; rfl

theorem step_regWrite_gttCache_refused {s : State} {v : Word32} {rest : List Input} {e : Engine}
    (hq : s.inputs = .regWrite .gttCache v :: rest) (hv : v.getLsbD 0 = true) (hr : (s.bank e).resident ≠ none) :
    step s = .refused .gttCacheObligation := by
  rw [step_of_event hq nofun, envStep, regWrite_gttCache_refused (s := s.setInputs rest) hv hr]; rfl

theorem step_regWrite_counter_refused {s : State} {v : Word32} {rest : List Input}
    (hq : s.inputs = .regWrite .nullTileCount v :: rest) : step s = .refused .counterWrite := step_of_event hq nofun

/-- A read that draws no free value. -/
theorem readDone_of_emit (s : State) {n : Nat} {P : Nat → Prop} (h : P n) :
    Rules.readDone s (.next (s.emit (.cpuData n))) P := ⟨n, s.free, rfl, h⟩

/-- A read that draws a free word. -/
theorem readDone_of_drawWord (s : State) {n : Nat} {P : Nat → Prop} (h : P n) :
    Rules.readDone s (.next ((drawWord s).2.emit (.cpuData n))) P := ⟨n, s.free + 1, rfl, h⟩

theorem regRead_readDone (n : RegName) (s : State) :
    Rules.readDone s (.next (regRead n s)) fun x => Rules.regShows s.regs x n := by
  cases n with
  | adNonwb =>
    refine readDone_of_drawWord s ?_
    have hlow := field_lt (drawWord s).1 0 1
    have hbit := s.regs.adNonwbIgnore.toNat_lt
    simp only [Rules.regShows]
    omega
  | _ => exact readDone_of_emit s rfl

theorem step_regRead_readDone {s : State} {rest : List Input} {n : RegName} (hq : s.inputs = .regRead n :: rest) :
    Rules.readDone (s.setInputs rest) (step s) fun x => Rules.regShows s.regs x n := by
  rw [step_of_event hq nofun]
  exact regRead_readDone n (s.setInputs rest)

/-! ## Aligned DWords of the register half -/

/-- An address in the register half of GTTMMADR (20 R88). -/
theorem regionOf_registers (p : Platform) (o n : Nat) (ho : o < 0x200000) :
    regionOf p (p.gttmmadrBase + o) n = .ok (.registers o) := by
  have ht : touches p.gttmmadrBase 0x1000000 (p.gttmmadrBase + o) 1 = true := by
    simp only [touches, Bool.and_eq_true, decide_eq_true_eq]; omega
  rw [regionOf, ht, if_pos rfl, Nat.add_sub_cancel_left, if_pos ho]

theorem step_cpuWrite_register {s : State} {o : Nat} {d : List Byte} {use : CacheUse} {rest : List Input}
    (hq : s.inputs = .cpuWrite (s.plat.gttmmadrBase + o) d use :: rest) (ho : o < 0x200000) :
    step s = toOutcome (mmioWrite o d (s.setInputs rest)) := by
  rw [step_of_event hq nofun, envStep, cpuWrite, setInputs_plat, regionOf_registers s.plat o _ ho]; rfl

theorem step_cpuRead_register {s : State} {o n : Nat} {use : CacheUse} {rest : List Input}
    (hq : s.inputs = .cpuRead (s.plat.gttmmadrBase + o) n use :: rest) (ho : o < 0x200000) :
    step s = toOutcome (mmioRead o n (s.setInputs rest)) := by
  rw [step_of_event hq nofun, envStep, cpuRead, setInputs_plat, regionOf_registers s.plat o _ ho]; rfl

/-- The bytes of a number, one by one. -/
theorem getElem?_leBytes (n v i : Nat) (h : i < n) : (leBytes n v)[i]? = some (BitVec.ofNat 8 (v / 256 ^ i)) := by
  induction n generalizing v i with
  | zero => omega
  | succ n ih =>
    cases i with
    | zero => simp [leBytes]
    | succ i => rw [leBytes, List.getElem?_cons_succ, ih _ _ (by omega), Nat.div_div_eq_div_mul, Nat.pow_succ']

/-- A bit of a byte of a DWord is a bit of the DWord. -/
theorem getLsbD_byte (v : Word32) (i k : Nat) (hk : k < 8) :
    (BitVec.ofNat 8 (v.toNat / 256 ^ i)).getLsbD k = v.getLsbD (8 * i + k) := by
  have h256 : (256 : Nat) ^ i = 2 ^ (8 * i) := by rw [Nat.pow_mul]
  rw [BitVec.getLsbD_ofNat, h256, Nat.testBit_div_two_pow, BitVec.getLsbD, decide_eq_true hk, Bool.true_and, Nat.add_comm]

/-- The byte that an aligned DWord write puts at an offset of its DWord. -/
theorem laneOf_dword (o i : Nat) (v : Word32) (hi : i < 4) :
    laneOf o (leBytes 4 v.toNat) (o + i) = some (BitVec.ofNat 8 (v.toNat / 256 ^ i)) := by
  rw [laneOf, if_pos (Nat.le_add_right _ _), Nat.add_sub_cancel_left, getElem?_leBytes 4 _ i hi]

theorem dword_aligned {o : Nat} (ha : o % 4 = 0) : o / 4 * 4 = o := Nat.div_mul_cancel (Nat.dvd_of_mod_eq_zero ha)

/-- The bypass control is bit 0 of its DWord (10 R27). -/
theorem mmioWrite_bypass (v : Word32) (s : State) :
    mmioWrite 0x4DFC (leBytes 4 v.toNat) s = .ok (s.setRegs { s.regs with bypassDis := v.getLsbD 0 }) := by
  rw [← getLsbD_byte v 0 0 (by decide)]
  have hlane := laneOf_dword 0x4DFC 0 v (by decide)
  have hreg : mmioAt (0x4DFC / 4 * 4) = .bypass := rfl
  simp [mmioWrite, hreg, hlane]

/-- The depth control is bit 31 of its DWord (10 R29). -/
theorem mmioWrite_colorZ (v : Word32) (s : State) :
    mmioWrite 0x4A30 (leBytes 4 v.toNat) s = .ok (s.setRegs { s.regs with colorZ := v.getLsbD 31 }) := by
  rw [← getLsbD_byte v 3 7 (by decide)]
  have hlane := laneOf_dword 0x4A30 3 v (by decide)
  have hreg : mmioAt (0x4A30 / 4 * 4) = .colorZ := rfl
  simp [mmioWrite, hreg, hlane]

/-- A CPU write that changes nothing: to a descriptor register (92 D17), or in the Null range (92 D29). -/
theorem mmioWrite_ignored {o : Nat} (ha : o % 4 = 0) (v : Word32) (s : State)
    (hr : (∃ e d high, mmioAt o = .descriptor e d high) ∨ mmioAt o = .nullRange) :
    mmioWrite o (leBytes 4 v.toNat) s = .ok s := by
  rcases hr with ⟨e, d, high, hr⟩ | hr <;> simp [mmioWrite, dword_aligned ha, ha, hr]

/-- A CPU read of an aligned DWord shows the register there. -/
theorem mmioRead_dword {o x : Nat} {s t : State} (ha : o % 4 = 0) (hd : mmioDword s o = .ok (t, x)) (hx : x < 2 ^ 32) :
    mmioRead o 4 s = .ok (t.emit (.cpuData x)) := by
  have hmod : x % 4294967296 = x := Nat.mod_eq_of_lt hx
  simp [mmioRead, dword_aligned ha, ha, hd, hmod]

theorem mmioDword_bypass (s : State) :
    mmioDword s 0x4DFC = .ok ((drawWord s).2, field (drawWord s).1 1 31 * 2 + s.regs.bypassDis.toNat) := rfl

theorem mmioDword_colorZ (s : State) :
    mmioDword s 0x4A30 = .ok ((drawWord s).2, field (drawWord s).1 0 31 + s.regs.colorZ.toNat * 2 ^ 31) := rfl

theorem mmioDword_descriptor {o : Nat} {e : Engine} {d : DescName} {high : Bool}
    (h : mmioAt o = .descriptor e d high) (s : State) :
    mmioDword s o = .ok (s, field ((s.bank e).desc d).value (if high then 32 else 0) 32) := by
  simp only [mmioDword, h]

theorem mmioDword_nullRange {o : Nat} (h : mmioAt o = .nullRange) (s : State) :
    mmioDword s o = .ok ((drawWord s).2, field (drawWord s).1 0 32) := by
  simp only [mmioDword, h]

theorem mmioDword_message {o : Nat} (h : mmioAt o = .message) (s : State) : mmioDword s o = .ok (s, 0) := by
  simp only [mmioDword, h]

/-! ## What an offset belongs to -/

theorem mmioAt_descOffset (e : Engine) (d : DescName) (high : Bool) :
    mmioAt (Rules.descOffset e d + if high then 4 else 0) = .descriptor e d high := by
  cases e <;> cases d <;> cases high <;> rfl

theorem descOffset_dword (e : Engine) (d : DescName) (high : Bool) :
    (Rules.descOffset e d + if high then 4 else 0) < 0x200000 ∧
      (Rules.descOffset e d + if high then 4 else 0) % 4 = 0 := by
  cases e <;> cases d <;> cases high <;> decide

/-- Every message register lies below the Null range (10 R48, 20 R89). -/
theorem messageOffsets_lt : ∀ o ∈ messageOffsets, o < 0x170000 := by decide

theorem mmioAt_nullRange {o : Nat} (h1 : 0x170000 ≤ o) (h2 : o ≤ 0x17FFFC) : mmioAt o = .nullRange := by
  have hmsg : messageOffsets.contains o = false := by
    rw [List.contains_eq_mem, decide_eq_false_iff_not]
    exact fun hm => absurd (messageOffsets_lt o hm) (by omega)
  rw [mmioAt, if_neg (by omega), if_neg (by omega), hmsg, if_neg Bool.false_ne_true, if_pos (by omega)]

theorem mmioAt_message (e : Engine) :
    mmioAt (Rules.gamAddress e) = .message ∧ mmioAt (Rules.csAddress e) = .message := by
  cases e <;> exact ⟨rfl, rfl⟩

theorem messageAddress_dword (e : Engine) :
    (Rules.gamAddress e < 0x200000 ∧ Rules.gamAddress e % 4 = 0) ∧
      (Rules.csAddress e < 0x200000 ∧ Rules.csAddress e % 4 = 0) := by
  cases e <;> decide

/-! ## Steps -/

theorem step_write_bypass {s : State} {v : Word32} {rest : List Input} {use : CacheUse}
    (hq : s.inputs = .cpuWrite (s.plat.gttmmadrBase + 0x4DFC) (leBytes 4 v.toNat) use :: rest) :
    step s = .next ((s.setInputs rest).setRegs { s.regs with bypassDis := v.getLsbD 0 }) := by
  rw [step_cpuWrite_register hq (by decide), mmioWrite_bypass]; rfl

theorem step_write_colorZ {s : State} {v : Word32} {rest : List Input} {use : CacheUse}
    (hq : s.inputs = .cpuWrite (s.plat.gttmmadrBase + 0x4A30) (leBytes 4 v.toNat) use :: rest) :
    step s = .next ((s.setInputs rest).setRegs { s.regs with colorZ := v.getLsbD 31 }) := by
  rw [step_cpuWrite_register hq (by decide), mmioWrite_colorZ]; rfl

theorem step_write_nullRange {s : State} {v : Word32} {rest : List Input} {use : CacheUse} {o : Nat}
    (hq : s.inputs = .cpuWrite (s.plat.gttmmadrBase + o) (leBytes 4 v.toNat) use :: rest) (h1 : 0x170000 ≤ o)
    (h2 : o ≤ 0x17FFFC) (ha : o % 4 = 0) : step s = .next (s.setInputs rest) := by
  rw [step_cpuWrite_register hq (by omega), mmioWrite_ignored ha v _ (.inr (mmioAt_nullRange h1 h2))]; rfl

theorem step_write_descriptor {s : State} {v : Word32} {rest : List Input} {use : CacheUse} {e : Engine} {d : DescName}
    {high : Bool} (hq : s.inputs = .cpuWrite (s.plat.gttmmadrBase + (Rules.descOffset e d + if high then 4 else 0))
      (leBytes 4 v.toNat) use :: rest) : step s = .next (s.setInputs rest) := by
  obtain ⟨hlt, ha⟩ := descOffset_dword e d high
  rw [step_cpuWrite_register hq hlt, mmioWrite_ignored ha v _ (.inl ⟨e, d, high, mmioAt_descOffset e d high⟩)]; rfl

theorem step_read_descriptor {s : State} {rest : List Input} {use : CacheUse} {e : Engine} {d : DescName} {high : Bool}
    (hq : s.inputs = .cpuRead (s.plat.gttmmadrBase + (Rules.descOffset e d + if high then 4 else 0)) 4 use :: rest) :
    step s = .next ((s.setInputs rest).emit
      (.cpuData (field ((s.bank e).desc d).value (if high then 32 else 0) 32))) := by
  obtain ⟨hlt, ha⟩ := descOffset_dword e d high
  rw [step_cpuRead_register hq hlt, mmioRead_dword ha (mmioDword_descriptor (mmioAt_descOffset e d high) _) (field_lt _ _ _)]
  rfl

/-- A message register of either direction reads 0 (10 R48). -/
theorem step_read_message {s : State} {rest : List Input} {use : CacheUse} {e : Engine}
    (hq : s.inputs = .cpuRead (s.plat.gttmmadrBase + Rules.gamAddress e) 4 use :: rest ∨
      s.inputs = .cpuRead (s.plat.gttmmadrBase + Rules.csAddress e) 4 use :: rest) :
    step s = .next ((s.setInputs rest).emit (.cpuData 0)) := by
  have hread {o : Nat} (hq : s.inputs = .cpuRead (s.plat.gttmmadrBase + o) 4 use :: rest)
      (ho : o < 0x200000 ∧ o % 4 = 0) (hm : mmioAt o = .message) :
      step s = .next ((s.setInputs rest).emit (.cpuData 0)) := by
    rw [step_cpuRead_register hq ho.1, mmioRead_dword ho.2 (mmioDword_message hm _) (by decide)]; rfl
  obtain ⟨hgam, hcs⟩ := messageAddress_dword e
  obtain ⟨hgamAt, hcsAt⟩ := mmioAt_message e
  rcases hq with hq | hq
  · exact hread hq hgam hgamAt
  · exact hread hq hcs hcsAt

theorem read_bypass_readDone {s : State} {rest : List Input} {use : CacheUse}
    (hq : s.inputs = .cpuRead (s.plat.gttmmadrBase + 0x4DFC) 4 use :: rest) :
    Rules.readDone (s.setInputs rest) (step s) fun x => x % 2 = s.regs.bypassDis.toNat := by
  have hfree := field_lt (drawWord (s.setInputs rest)).1 1 31
  have hbit := s.regs.bypassDis.toNat_lt
  rw [step_cpuRead_register hq (by decide), mmioRead_dword (by decide) (mmioDword_bypass _) (by rw [setInputs_regs]; omega)]
  exact readDone_of_drawWord _ (by rw [setInputs_regs]; omega)

theorem read_colorZ_readDone {s : State} {rest : List Input} {use : CacheUse}
    (hq : s.inputs = .cpuRead (s.plat.gttmmadrBase + 0x4A30) 4 use :: rest) :
    Rules.readDone (s.setInputs rest) (step s) fun x => x / 2 ^ 31 = s.regs.colorZ.toNat := by
  have hfree := field_lt (drawWord (s.setInputs rest)).1 0 31
  have hbit := s.regs.colorZ.toNat_lt
  rw [step_cpuRead_register hq (by decide), mmioRead_dword (by decide) (mmioDword_colorZ _) (by rw [setInputs_regs]; omega)]
  exact readDone_of_drawWord _ (by rw [setInputs_regs]; omega)

theorem read_nullRange_readDone {s : State} {rest : List Input} {use : CacheUse} {o : Nat}
    (hq : s.inputs = .cpuRead (s.plat.gttmmadrBase + o) 4 use :: rest) (h1 : 0x170000 ≤ o) (h2 : o ≤ 0x17FFFC)
    (ha : o % 4 = 0) : Rules.readDone (s.setInputs rest) (step s) fun x => x < 2 ^ 32 := by
  have hx := field_lt (drawWord (s.setInputs rest)).1 0 32
  rw [step_cpuRead_register hq (by omega), mmioRead_dword ha (mmioDword_nullRange (mmioAt_nullRange h1 h2) _) hx]
  exact readDone_of_drawWord _ hx

/-! ## Masked writes of a command streamer -/

theorem csMessageAt_gamAddress (e : Engine) (v : Word32) (s : State) :
    csMessageAt (Rules.gamAddress e) v s = csMessage e v s := by cases e <;> rfl

theorem csMessageAt_foreign {o : Nat} (h : ∀ e, o ≠ Rules.gamAddress e) (v : Word32) (s : State) :
    csMessageAt o v s = refuse .mmioOutsideSpec := by
  have hnone : messageEngine o = none := by
    rw [messageEngine, List.find?_eq_none]
    intro e _ he
    have hoff : csOffset e = Rules.gamAddress e := by cases e <;> rfl
    exact h e ((beq_iff_eq.mp he).symm.trans hoff)
  simp only [csMessageAt, hnone]

theorem csMessage_reserved {e : Engine} {v : Word32} (s : State) (h : v.toNat / 4 % 2 ^ 14 ≠ 0 ∨ v.toNat / 2 ^ 18 ≠ 0) :
    csMessage e v s = refuse .messageReservedBits := by
  have hb : (v.toNat % 2 ^ 16 / 4 == 0 && v.toNat / 2 ^ 18 == 0) = false := by
    rw [Bool.and_eq_false_iff, beq_eq_false_iff_ne, beq_eq_false_iff_ne]; omega
  rw [csMessage, hb]; rfl

/-- A masked write with no reserved bit: what it does is a matter of the two messages it may carry. -/
theorem csMessage_unreserved {e : Engine} {v : Word32} (s : State) (h1 : v.toNat / 4 % 2 ^ 14 = 0)
    (h2 : v.toNat / 2 ^ 18 = 0) :
    csMessage e v s =
      if v.getLsbD 0 && v.getLsbD 16 then
        if v.getLsbD 1 && v.getLsbD 17 then refuse .messageBoth else msgAvailable e s
      else if v.getLsbD 1 && v.getLsbD 17 then msgLaunched e s else .ok s := by
  have hb : (v.toNat % 2 ^ 16 / 4 == 0 && v.toNat / 2 ^ 18 == 0) = true := by
    rw [Bool.and_eq_true, beq_iff_eq, beq_iff_eq]; omega
  rw [csMessage, hb]
  cases v.getLsbD 0 && v.getLsbD 16 <;> cases v.getLsbD 1 && v.getLsbD 17 <;> rfl

theorem step_csMessage {s : State} {e : Engine} {v : Word32} {rest : List Input}
    (hq : s.inputs = .csMessage (Rules.gamAddress e) v :: rest) :
    step s = toOutcome (csMessage e v (s.setInputs rest)) := by
  rw [step_of_event hq nofun, envStep, csMessageAt_gamAddress]

theorem step_csMessage_foreign {s : State} {o : Nat} {v : Word32} {rest : List Input}
    (hq : s.inputs = .csMessage o v :: rest) (ho : ∀ e, o ≠ Rules.gamAddress e) : step s = .refused .mmioOutsideSpec := by
  rw [step_of_event hq nofun, envStep, csMessageAt_foreign ho]; rfl

/-- Settles O49: the registers by name, the DWords of the register half in the order of the statement, and the masked write,
which is cut by its reserved bits and then by the two messages it may carry. -/
theorem registerWrites : Obligations.RegisterWrites := by
  intro s v rest use
  refine ⟨fun n => step_regWrite, fun e => step_regWrite_gttCache_refused, step_regWrite_counter_refused,
    fun n => step_regRead_readDone, step_write_bypass, read_bypass_readDone, step_write_colorZ, read_colorZ_readDone,
    fun e d high => ⟨step_write_descriptor, step_read_descriptor⟩,
    fun o h1 h2 ha => ⟨fun hq => step_write_nullRange hq h1 h2 ha, fun hq => read_nullRange_readDone hq h1 h2 ha⟩,
    fun e => step_read_message, fun e hq => ⟨fun hres => ?reserved, fun h1 h2 => ?unreserved⟩,
    fun o => step_csMessage_foreign⟩
  case reserved => rw [step_csMessage hq, csMessage_reserved _ hres]; rfl
  case unreserved =>
    rw [step_csMessage hq, csMessage_unreserved _ h1 h2, exec_availableOf, exec_launchedOf]
    cases v.getLsbD 0 && v.getLsbD 16 <;> cases v.getLsbD 1 && v.getLsbD 17 <;> rfl

end Sys2Proof.Machine
end

section
/-! Which rows write memory: none but the translations, the page-update atomics, and the two that program the global GTT
(20 R80, 47 R458, 70 R511). Every other row has a rule here that its memory is the one it began with. -/

namespace Sys2Proof.Machine

/-! ## Entry rows, invalidations, and the reading of the global table -/

theorem rowEntry_mem {k : EntryKind} {fl64k : Bool} {e : Word64} {s t : State} (h : rowEntry k fl64k e s = .ok t) :
    t.mem = s.mem := by
  simp only [rowEntry, bind_ok, Except.ok.injEq] at h
  obtain ⟨_, -, _, -, rfl⟩ := h
  rfl

theorem rowTrEntry_mem {top : Bool} {out : EntryOut} {s t : State} (h : rowTrEntry top out s = .ok t) :
    t.mem = s.mem := by
  cases h; rfl

@[simp] theorem tlbFill_mem (sel : FillSel) (s : State) : (tlbFill sel s).mem = s.mem := by
  unfold tlbFill; split <;> rfl

/-- A stage of an operation that may be left out, and that keeps memory where it is taken. -/
theorem ite_mem {c : Prop} [Decidable c] {s t u : State} (ht : t.mem = s.mem) (hu : u.mem = s.mem) :
    (if c then t else u).mem = s.mem := by
  split
  · exact ht
  · exact hu

@[simp] theorem setWalked_mem (s : State) (w : Option WalkRecord) : (setWalked s w).mem = s.mem := rfl

@[simp] theorem invalidatePc_mem (sc : SvmScope) (s : State) : (invalidatePc sc s).mem = s.mem := rfl

@[simp] theorem invalidateCc_mem (s : State) : (invalidateCc s).mem = s.mem := rfl

/-- Each of the four stages of an SVM invalidation keeps memory, whichever are selected (46 R406). -/
@[simp] theorem invalidateSvm_mem (sc : SvmScope) (st : SvmStages) (s : State) : (invalidateSvm sc st s).mem = s.mem := by
  have htlb : (if st.tlb then s.setCaches (s.caches.dropFinal sc) else s).mem = s.mem := ite_mem rfl rfl
  simp only [invalidateSvm, setWalked_mem]
  refine ite_mem (.trans (invalidateCc_mem _) ?pc) ?pc
  refine ite_mem (.trans (invalidatePc_mem _ _) ?pwc) ?pwc
  exact ite_mem htlb htlb

@[simp] theorem invWaitOp_mem (s : State) : (invWaitOp s).mem = s.mem := by
  unfold invWaitOp; split <;> rfl

theorem aliasRead_mem {off n : Nat} {s t : State} (h : aliasRead off n s = .ok t) : t.mem = s.mem := by
  simp only [aliasRead, bind_ok, Except.ok.injEq] at h
  obtain ⟨_, -, _, -, rfl⟩ := h
  rfl

/-! ## Messages -/

@[simp] theorem dropStopped_mem (s : State) (e : Engine) : (dropStopped s e).mem = s.mem := by
  unfold dropStopped; split <;> rfl

@[simp] theorem leavePending_mem (s : State) (e : Engine) : (leavePending s e).mem = s.mem := rfl

@[simp] theorem retire_mem (s : State) (e : Engine) : (retire s e).mem = s.mem := by
  rcases retire_spec s e with ⟨-, hr⟩ | ⟨p, -, hr⟩ <;> rw [hr]
  rfl

@[simp] theorem readyIfDrained_mem (s : State) (e : Engine) : (readyIfDrained s e).mem = s.mem := by
  unfold readyIfDrained; split <;> rfl

@[simp] theorem sendConfirmed_mem (s : State) (e : Engine) : (sendConfirmed s e).mem = s.mem := rfl

@[simp] theorem invalidateEngine_mem (e : Engine) (s : State) : (invalidateEngine e s).mem = s.mem := rfl

@[simp] theorem setHs_mem (s : State) (e : Engine) (h : HandShake) : (setHs s e h).mem = s.mem := rfl

@[simp] theorem checkValid_mem (s : State) (e : Engine) (d : Word64) : (checkValid s e d).mem = s.mem := by
  unfold checkValid; split <;> rfl

@[simp] theorem install_mem (s : State) (e : Engine) (p : BitVec 20) : (install s e p).mem = s.mem := rfl

theorem msgAvailable_mem {e : Engine} {s t : State} (h : msgAvailable e s = .ok t) : t.mem = s.mem := by
  simp only [msgAvailable, bind_ok, Except.ok.injEq] at h
  obtain ⟨_, -, rfl⟩ := h
  split <;> simp

theorem msgReceiveReady_mem {e : Engine} {s t : State} (h : msgReceiveReady e s = .ok t) : t.mem = s.mem := by
  simp only [msgReceiveReady, bind_ok, Except.ok.injEq] at h
  obtain ⟨_, -, rfl⟩ := h
  exact readyIfDrained_mem s e

/-- A Context Cache that is filled leaves memory alone (46 R391). -/
theorem lookupCtx_mem {s t : State} {fn : BitVec 3} {x : CtxEntry} (h : lookupCtx s fn = .ok (t, x)) : t.mem = s.mem := by
  unfold lookupCtx at h
  split at h
  · cases h; rfl
  · split at h <;> cases h
    rfl

theorem fillPc_mem {s t : State} {e : Engine} {fn : BitVec 3} {p : BitVec 20} (h : fillPc s e fn p = .ok t) :
    t.mem = s.mem := by
  obtain ⟨_, -, rfl⟩ := fillPc_spec.mp h
  rfl

theorem launchAdvanced_mem {s t : State} {e : Engine} {d : Word64} (h : launchAdvanced s e d = .ok t) :
    t.mem = s.mem := by
  simp only [launchAdvanced, bind_ok, Except.ok.injEq] at h
  obtain ⟨_, -, _, -, _, hfill, ⟨_, _⟩, hctx, rfl⟩ := h
  rw [install_mem, lookupCtx_mem hctx, fillPc_mem hfill]

theorem msgLaunched_mem {e : Engine} {s t : State} (h : msgLaunched e s = .ok t) : t.mem = s.mem := by
  simp only [msgLaunched, bind_ok, Except.ok.injEq] at h
  obtain ⟨_, -, d, -, m, -, _, -, _, -, u, hu, rfl⟩ := h
  have hlaunch : u.mem = s.mem := by
    split at hu
    · simpa using launchAdvanced_mem hu
    · cases hu; simp
  exact ite_mem hlaunch hlaunch

theorem msgConfirmed_mem {e : Engine} {s t : State} (h : msgConfirmed e s = .ok t) : t.mem = s.mem := by
  simp only [msgConfirmed, bind_ok, Except.ok.injEq] at h
  obtain ⟨_, -, rfl⟩ := h
  rfl

/-! ## Resets -/

@[simp] theorem resetEngineOp_mem (k : Bool) (e : Engine) (s : State) : (resetEngineOp k e s).mem = s.mem :=
  retire_mem s e

@[simp] theorem resetSource_mem (src : Source) (s : State) : (resetSource src s).mem = s.mem := by
  cases src with
  | engine e => exact resetEngineOp_mem false e s
  | wdbox | vebox2 | display | aperture => rfl

@[simp] theorem resetAllSources_mem (s : State) : (resetAllSources s).mem = s.mem := by
  have hengines : (resetAllSources s).mem = (resetEngineOp s.plat.keepPasidCache .bcs
      (resetEngineOp s.plat.keepPasidCache .vecs (resetEngineOp s.plat.keepPasidCache .vcs1
        (resetEngineOp s.plat.keepPasidCache .vcs0 (resetEngineOp s.plat.keepPasidCache .rcs s))))).mem := rfl
  simp only [hengines, resetEngineOp_mem]

@[simp] theorem resetDeviceOp_mem (s : State) : (resetDeviceOp s).mem = s.mem := resetAllSources_mem s

@[simp] theorem resetBusOp_mem (s : State) : (resetBusOp s).mem = s.mem := resetDeviceOp_mem s

/-! ## Rows -/

/-- The messages and the resets: their state is the hand-shakes, the caches and the requests. -/
theorem delivery_mem {i : Instr} {s t : State} (hd : Rules.isDelivery i = true) (h : exec i s = .next t) :
    t.mem = s.mem := by
  revert h
  refine delivery_cases (P := fun i => exec i s = .next t → t.mem = s.mem) (fun e h => ?_) (fun e h => ?_)
    (fun e h => ?_) (fun e h => ?_) (fun src h => ?_) (fun h => ?_) (fun h => ?_) hd
  · rw [exec_availableOf] at h; exact msgAvailable_mem (ok_of_next h)
  · rw [exec_receiveReadyOf] at h; exact msgReceiveReady_mem (ok_of_next h)
  · rw [exec_launchedOf] at h; exact msgLaunched_mem (ok_of_next h)
  · rw [exec_confirmedOf] at h; exact msgConfirmed_mem (ok_of_next h)
  · cases h; exact resetSource_mem src s
  · cases h; exact resetDeviceOp_mem s
  · cases h; exact resetBusOp_mem s

/-- Settles O10: the messages and the resets together, the remaining rows one by one. -/
theorem otherRowsKeepMemory : Obligations.OtherRowsKeepMemory := by
  intro i s t htrans hapu hstore h
  cases hd : Rules.isDelivery i with
  | true => exact delivery_mem hd h
  | false =>
    cases i with
    | xlateGgtt | xlatePpgtt32 | xlatePpgtt48 | xlateAdv | xlateTrtt | tlbLookup | pageResponse => cases htrans
    | apu0000 | apu0001 | apu0010 | apu0011 | apu0100 | apu0101 | apu0110 | apu0111 => cases hapu
    | apu1000 | apu1001 | apu1010 | apu1011 | apu1100 | apu1101 | apu1110 | apu1111 => cases hapu
    | gttWrite | miUpdateGtt => cases hstore
    | iaPml4e | iaPdpePd | iaPdpe1G | iaPdePt | iaPde2M | iaPte64K | iaPte4K => exact rowEntry_mem (ok_of_next h)
    | p32Pde | p32Pte64K | p32Pte4K | ggttPte => exact rowEntry_mem (ok_of_next h)
    | p48Pml4e | p48PdpePd | p48Pdpe1G | p48PdePt | p48Pde2M | p48Pte64K | p48Pte4K => exact rowEntry_mem (ok_of_next h)
    | trttL3e | trttL2e | trttL1e => exact rowTrEntry_mem (ok_of_next h)
    | tlbFill sel => cases h; exact tlbFill_mem sel s
    | tlbinvSvm scope stages => cases h; exact invalidateSvm_mem scope stages s
    | tlbinvCs | tlbinvCtxsw | tlbinvPageResponse => cases h; rfl
    | invWait => cases h; exact invWaitOp_mem s
    | gttRead => exact aliasRead_mem (ok_of_next h)
    | _ => cases hd

end Sys2Proof.Machine
end

section
/-! CPU accesses that belong to the graphics aperture or to plain memory (20 R80 to R85, R92): the region of an address, and
the step that takes the access. -/

namespace Sys2Proof.Machine

/-! ## Regions -/

/-- A range that ends before another or begins after it does not touch it. -/
theorem touches_eq_false {base len a n : Nat} (h : a + n ≤ base ∨ base + len ≤ a) : touches base len a n = false := by
  rw [touches, Bool.and_eq_false_iff, decide_eq_false_iff_not, decide_eq_false_iff_not]
  omega

/-- An address in GMADR and outside GTTMMADR is one of the aperture, however long the access (20 R80, R81). -/
theorem regionOf_gmadr {p : Platform} {a : Nat} (n : Nat) (hlo : p.gmadrBase ≤ a) (hhi : a < p.gmadrBase + p.gmadrSize)
    (hregs : a < p.gttmmadrBase ∨ p.gttmmadrBase + 0x1000000 ≤ a) : regionOf p a n = .ok (.gmadr (a - p.gmadrBase)) := by
  have hr : touches p.gttmmadrBase 0x1000000 a 1 = false := touches_eq_false (by omega)
  have hg : touches p.gmadrBase p.gmadrSize a 1 = true := by
    simp only [touches, Bool.and_eq_true, decide_eq_true_eq]; omega
  simp only [regionOf, hr, hg, Bool.false_eq_true, if_false, if_true]

/-- A plain range is memory to a CPU: it touches none of the other regions. -/
theorem regionOf_memory {p : Platform} {a n : Nat} (h : Rules.plainRange p a n) : regionOf p a n = .ok .memory := by
  obtain ⟨hn, hgmadr, hregs, hgms, hgsm, hdsm⟩ := h
  have h1 : touches p.gttmmadrBase 0x1000000 a 1 = false := touches_eq_false (by omega)
  have h2 : touches p.gmadrBase p.gmadrSize a 1 = false := touches_eq_false (by omega)
  have h3 : touches p.gttmmadrBase 0x1000000 a n = false := touches_eq_false hregs
  have h4 : touches p.gsmBase p.gsmSize a n = false := touches_eq_false hgsm
  have h5 : touches p.dsmBase (dsmSize p) a n = false := touches_eq_false hdsm
  simp only [regionOf, h1, h2, h3, h4, h5, Bool.false_eq_true, if_false, Bool.or_self, Nat.not_lt.mpr hgms]

/-! ## The aperture -/

/-- A source with the default context, here the aperture (log 45), is translated by XLATE.GGTT under that context's descriptor as
by a look-up that uses no cached copy (43 R301). -/
theorem exec_xlateGgtt_aperture {r : Request} (hr : r.src = .aperture) (s : State) :
    exec (.xlateGgtt 0x00B r) s = exec (.tlbLookup noCache r) s := by
  have hrow : rowXlate .ggtt 0x00B r s = translate noCache none r s := by
    have hopen : gateOpen s none r.src = true := by rw [hr]; rfl
    have happlies : rowApplies s .ggtt 0x00B r.src = .ok () := by rw [hr]; rfl
    rw [rowXlate, if_pos hopen, happlies]; rfl
  exact congrArg toOutcome hrow

section
variable {s : State} {a n : Nat} {d : List Byte} {use : CacheUse} {rest : List Input}

theorem step_cpuRead_gmadr (hlo : s.plat.gmadrBase ≤ a) (hhi : a < s.plat.gmadrBase + s.plat.gmadrSize)
    (hregs : a < s.plat.gttmmadrBase ∨ s.plat.gttmmadrBase + 0x1000000 ≤ a) (hq : s.inputs = .cpuRead a n use :: rest) :
    step s = exec (.tlbLookup use (apertureRequest (a - s.plat.gmadrBase) (.read n))) (s.setInputs rest) := by
  rw [step_of_event hq nofun, envStep, cpuRead, setInputs_plat, regionOf_gmadr n hlo hhi hregs]; rfl

theorem step_cpuWrite_gmadr (hlo : s.plat.gmadrBase ≤ a) (hhi : a < s.plat.gmadrBase + s.plat.gmadrSize)
    (hregs : a < s.plat.gttmmadrBase ∨ s.plat.gttmmadrBase + 0x1000000 ≤ a) (hq : s.inputs = .cpuWrite a d use :: rest) :
    step s = exec (.tlbLookup use (apertureRequest (a - s.plat.gmadrBase) (.write d))) (s.setInputs rest) := by
  rw [step_of_event hq nofun, envStep, cpuWrite, setInputs_plat, regionOf_gmadr _ hlo hhi hregs]; rfl

/-! ## Plain memory -/

theorem step_cpuRead_memory (hp : Rules.plainRange s.plat a n) (hq : s.inputs = .cpuRead a n use :: rest) :
    step s = toOutcome (do
      let bytes ← memRead (s.setInputs rest) a n
      .ok ((s.setInputs rest).emit (.cpuData (leNat bytes)))) := by
  rw [step_of_event hq nofun, envStep, cpuRead, setInputs_plat, regionOf_memory hp]; rfl

theorem step_cpuWrite_memory (hp : Rules.plainRange s.plat a d.length) (hq : s.inputs = .cpuWrite a d use :: rest) :
    step s = toOutcome (memWrite (s.setInputs rest) a d) := by
  rw [step_of_event hq nofun, envStep, cpuWrite, setInputs_plat, regionOf_memory hp]; rfl

end

/-- An access that reaches beyond the address space faults (20 R93; log 26). -/
theorem memRead_beyond {s : State} {a n : Nat} (h : 2 ^ s.plat.haw < a + n) :
    memRead s a n = .error (.fault (.physOutside a)) := by
  rw [memRead, inSpace, decide_eq_false (Nat.not_le.mpr h)]; rfl

theorem memWrite_beyond {s : State} {a : Nat} {d : List Byte} (h : 2 ^ s.plat.haw < a + d.length) :
    memWrite s a d = .error (.fault (.physOutside a)) := by
  rw [memWrite, inSpace, decide_eq_false (Nat.not_le.mpr h)]; rfl

/-- Settles O50: in the aperture the look-up, of which the XLATE row is the case without copies; in plain memory a read and a
write, each inside the address space and beyond it. -/
theorem apertureAccess : Obligations.ApertureAccess := by
  refine ⟨fun s a n d use rest hlo hhi hregs => ⟨fun hq => ?_, fun hq => ?_, fun hq => ?_, fun hq => ?_⟩,
    fun s a n d use rest hw => ⟨fun hq hp => ⟨fun hin => ?_, fun hout => ?_⟩, fun hq hp => ⟨fun hin => ?_, fun hout => ?_⟩⟩⟩
  · exact step_cpuRead_gmadr hlo hhi hregs hq
  · exact step_cpuWrite_gmadr hlo hhi hregs hq
  · rw [exec_xlateGgtt_aperture rfl]; exact step_cpuRead_gmadr hlo hhi hregs hq
  · rw [exec_xlateGgtt_aperture rfl]; exact step_cpuWrite_gmadr hlo hhi hregs hq
  · have hread : memRead (s.setInputs rest) a n = .ok (s.mem.bytes a n) := memRead_spec.mpr ⟨decide_eq_true hin, rfl⟩
    rw [step_cpuRead_memory hp hq, hread]; rfl
  · rw [step_cpuRead_memory hp hq, memRead_beyond (s := s.setInputs rest) hout]; rfl
  · have hwrite : memWrite (s.setInputs rest) a d = .ok ((s.setInputs rest).setMem (s.mem.setBytes a d)) :=
      memWrite_spec.mpr ⟨decide_eq_true hin, rfl⟩
    refine ⟨(s.setInputs rest).setMem (s.mem.setBytes a d), ?_, Memory.bytes_setBytes_same s.mem a d hw,
      fun x hx => Memory.byte_setBytes_outside s.mem a x d hw hx, rfl⟩
    rw [step_cpuWrite_memory hp hq, hwrite]; rfl
  · rw [step_cpuWrite_memory hp hq, memWrite_beyond (s := s.setInputs rest) hout]; rfl

end Sys2Proof.Machine
end

section
/-! The decoder and the encoder of operation frames (log 2): each row of the table answers its own frames, and whatever the decoder
answers is well-formed. -/

namespace Sys2Proof

/-! ## A frame and its row -/

/-- A row whose fixed bits the word has, and which parses the operands to their end, answers its operation. -/
theorem decode_frame_of_parse {n w : Nat} {ops : List Byte} {row : Row} {i : Instr} (hrow : rows[n]? = some row)
    (hw : w < 2 ^ 64) (hword : w &&& row.mask = row.value)
    (hparse : row.parse (BitVec.ofNat 64 w) ops = .ok (i, [])) (hwf : WellFormed i) :
    decode (frame (n + 1) w ops) = .ok i := by
  obtain ⟨hn, -⟩ := List.getElem?_eq_some_iff.mp hrow
  have hbyte : n + 1 < 256 := Nat.lt_of_lt_of_le (Nat.succ_lt_succ hn) (by decide)
  rw [decode_frame (n + 1) w ops n.succ_ne_zero hbyte hw]
  simp [decodeRow, hrow, hword, hparse, show wellFormed i = true from hwf, bind, Except.bind]

/-- The word of a frame is a quad word. -/
theorem decode_frame_of_parse_word {n : Nat} {v : Word64} {ops : List Byte} {row : Row} {i : Instr}
    (hrow : rows[n]? = some row) (hfit : fitsRow row.mask row.value v = true)
    (hparse : row.parse v ops = .ok (i, [])) (hwf : WellFormed i) : decode (frame (n + 1) v.toNat ops) = .ok i :=
  decode_frame_of_parse hrow v.isLt (beq_iff_eq.mp hfit) (by rwa [BitVec.ofNat_toNat, BitVec.setWidth_eq]) hwf

/-- A word all of whose bits are fixed has them. -/
theorem and_allBits {w : Nat} (hw : w < 2 ^ 64) : w &&& allBits = w := Nat.and_two_pow_sub_one_of_lt_two_pow hw

/-- A DWord has no high bits. -/
theorem and_highBits {w : Nat} (hw : w < 2 ^ 32) : w &&& (allBits - 0xFFFFFFFF) = 0 := by
  have hmask : allBits - 0xFFFFFFFF = (2 ^ 32 - 1) <<< 32 := by decide
  apply Nat.eq_of_testBit_eq
  intro k
  rw [hmask, Nat.testBit_and, Nat.testBit_shiftLeft, Nat.zero_testBit]
  by_cases hk : 32 ≤ k
  · rw [Nat.testBit_lt_two_pow (Nat.lt_of_lt_of_le hw (Nat.pow_le_pow_right (by decide) hk)), Bool.false_and]
  · rw [decide_eq_false hk, Bool.false_and, Bool.and_false]

/-- A word without fixed bits fits every row. -/
theorem fitsRow_zero (v : Word64) : fitsRow 0 0 v = true := by rw [fitsRow, Nat.and_zero]; rfl

/-- An operand with nothing behind it. -/
theorem parse_all {α : Type} {parse : List Byte → Except DecodeError (α × List Byte)} {bytes : List Byte} {x : α}
    (h : ∀ rest, parse (bytes ++ rest) = .ok (x, rest)) : parse bytes = .ok (x, []) := by
  simpa using h []

theorem takeRequest_bytes {q : Request} (h : q.wellFormed = true) : takeRequest q.bytes = .ok (q, []) :=
  parse_all fun rest => takeRequest_append q rest (size_of_wellFormed h).1 (size_of_wellFormed h).2

theorem takeRequestAt_tailBytes {q : Request} (h : q.wellFormed = true) :
    takeRequestAt q.va q.tailBytes = .ok (q, []) :=
  parse_all fun rest => takeRequestAt_append q rest (size_of_wellFormed h).1 (size_of_wellFormed h).2

/-! ## The kinds of rows -/

section
variable {n mask value : Nat} {m : String} {i : Instr}

theorem decode_entryRow {mk : Word64 → Instr} {e : Word64} (hrow : rows[n]? = some (entryRow m mask value mk))
    (hfit : fitsRow mask value e = true) (hwf : WellFormed (mk e)) : decode (frame (n + 1) e.toNat []) = .ok (mk e) :=
  decode_frame_of_parse_word hrow hfit rfl hwf

theorem decode_xlateRow {mk : Word64 → Request → Instr} {e : Word64} {r : Request}
    (hrow : rows[n]? = some (xlateRow m mask value mk)) (h : (fitsRow mask value e && r.wellFormed) = true)
    (hwf : WellFormed (mk e r)) : decode (frame (n + 1) e.toNat r.bytes) = .ok (mk e r) := by
  obtain ⟨hfit, hr⟩ := Bool.and_eq_true_iff.mp h
  exact decode_frame_of_parse_word hrow hfit (by simp [xlateRow, takeRequest_bytes hr, bind, Except.bind]) hwf

theorem decode_apuRow {mk : Engine → Word64 → Instr} {e : Engine} {pa : Word64}
    (hrow : rows[n]? = some (apuRow m value mk)) (hvalue : value < 2 ^ 64) (hwf : WellFormed (mk e pa)) :
    decode (frame (n + 1) value (apuBytes e pa)) = .ok (mk e pa) := by
  refine decode_frame_of_parse hrow hvalue (and_allBits hvalue) ?_ hwf
  have hpa := parse_all (takeVa_append pa)
  simp [apuRow, apuBytes, takeEngine_append, hpa, bind, Except.bind]

theorem decode_msgRow (hrow : rows[n]? = some (msgRow m value i)) (hvalue : value < 2 ^ 64) (hwf : WellFormed i) :
    decode (frame (n + 1) value []) = .ok i :=
  decode_frame_of_parse hrow hvalue (and_allBits hvalue) rfl hwf

theorem decode_bareRow {parse : List Byte → Except DecodeError (Instr × List Byte)} {ops : List Byte}
    (hrow : rows[n]? = some (bareRow m parse)) (hparse : parse ops = .ok (i, [])) (hwf : WellFormed i) :
    decode (frame (n + 1) 0 ops) = .ok i :=
  decode_frame_of_parse hrow (by decide) (and_allBits (by decide)) hparse hwf

end

/-! ## Rows with an operand form of their own -/

theorem decode_xlateTrtt {r : Request} (h : WellFormed (.xlateTrtt r)) :
    decode (encode (.xlateTrtt r)) = .ok (.xlateTrtt r) := by
  obtain ⟨-, hr⟩ := Bool.and_eq_true_iff.mp h
  exact decode_frame_of_parse_word (n := 4) rfl (fitsRow_zero _)
    (by simp [takeRequestAt_tailBytes hr, bind, Except.bind]) h

theorem decode_iaPdePt {e : Word64} {b : Bool} (h : WellFormed (.iaPdePt e b)) :
    decode (encode (.iaPdePt e b)) = .ok (.iaPdePt e b) := by
  refine decode_frame_of_parse_word (n := 8) rfl h ?_ h
  simp [parse_all (takeBool_append b), bind, Except.bind]

/-- An L1 entry of a TR-TT table is the low half of its word (30 R177). -/
theorem decode_trttL1e (e : Word32) : decode (encode (.trttL1e e)) = .ok (.trttL1e e) := by
  have hlow : (BitVec.ofNat 64 e.toNat).truncate 32 = e := by
    apply BitVec.eq_of_toNat_eq
    simp
  exact decode_frame_of_parse (n := 25) rfl (Nat.lt_trans e.isLt (by decide)) (and_highBits e.isLt)
    (congrArg (fun x => Except.ok (Instr.trttL1e x, [])) hlow) rfl

theorem decode_tlbLookup {u : CacheUse} {r : Request} (h : WellFormed (.tlbLookup u r)) :
    decode (encode (.tlbLookup u r)) = .ok (.tlbLookup u r) :=
  decode_bareRow (n := 62) rfl (by simp [takeUse_append, takeRequest_bytes h, bind, Except.bind]) h

theorem decode_tlbFill (sel : FillSel) : decode (encode (.tlbFill sel)) = .ok (.tlbFill sel) := by
  obtain ⟨a, b, c, d⟩ := sel
  obtain ⟨h0, h1, h2, h3⟩ := flagAt_flagsCode a b c d
  refine decode_bareRow (n := 63) rfl ?_ rfl
  simp [parse_all (takeFlags_append a b c d), h0, h1, h2, h3, bind, Except.bind]

theorem decode_tlbinvSvm (scope : SvmScope) (st : SvmStages) :
    decode (encode (.tlbinvSvm scope st)) = .ok (.tlbinvSvm scope st) := by
  obtain ⟨a, b, c, d⟩ := st
  obtain ⟨h0, h1, h2, h3⟩ := flagAt_flagsCode a b c d
  refine decode_bareRow (n := 65) rfl ?_ rfl
  simp [takeScope_append, parse_all (takeFlags_append a b c d), h0, h1, h2, h3, bind, Except.bind]

theorem decode_tlbinvCtxsw (e : Engine) : decode (encode (.tlbinvCtxsw e)) = .ok (.tlbinvCtxsw e) :=
  decode_bareRow (n := 66) rfl (by simp [parse_all (takeEngine_append e), bind, Except.bind]) rfl

theorem decode_tlbinvPageResponse (p : BitVec 20) (va : Word64) :
    decode (encode (.tlbinvPageResponse p va)) = .ok (.tlbinvPageResponse p va) :=
  decode_bareRow (n := 67) rfl (by simp [takePasid_append, parse_all (takeVa_append va), bind, Except.bind]) rfl

theorem decode_gttWrite {off : BitVec 23} {w : Width} {v : Word64} (h : WellFormed (.gttWrite off w v)) :
    decode (encode (.gttWrite off w v)) = .ok (.gttWrite off w v) :=
  decode_frame_of_parse_word (n := 69) rfl (fitsRow_zero _)
    (by simp [takeOffset_append, parse_all (takeWidth_append w), bind, Except.bind]) h

theorem decode_gttRead (off : BitVec 23) (w : Width) : decode (encode (.gttRead off w)) = .ok (.gttRead off w) :=
  decode_bareRow (n := 70) rfl (by simp [takeOffset_append, parse_all (takeWidth_append w), bind, Except.bind]) rfl

theorem decode_miUpdateGtt (g : Word32) (v : Word64) : decode (encode (.miUpdateGtt g v)) = .ok (.miUpdateGtt g v) :=
  decode_frame_of_parse_word (n := 71) rfl (fitsRow_zero _)
    (by simp [takeLE_all 4 g.toNat g.isLt, bind, Except.bind]) rfl

theorem decode_pageResponse (p : BitVec 20) (va : Word64) (success : Bool) (u : CacheUse) :
    decode (encode (.pageResponse p va success u)) = .ok (.pageResponse p va success u) :=
  decode_bareRow (n := 72) rfl
    (by simp [takePasid_append, takeVa_append, takeBool_append, parse_all (takeUse_append u), bind, Except.bind]) rfl

theorem decode_resetEngine {src : Source} (h : WellFormed (.resetEngine src)) :
    decode (encode (.resetEngine src)) = .ok (.resetEngine src) :=
  decode_bareRow (n := 73) rfl (by simp [parse_all (takeSource_append src), bind, Except.bind]) h

/-! ## All rows -/

/-- Settles O1: each operation by the row of its number, of whose kind there are five; thirteen rows parse operands in a form of
their own. -/
theorem decodeEncode : Obligations.DecodeEncode := by
  intro i h
  cases i with
  | xlateGgtt e r | xlatePpgtt32 e r | xlatePpgtt48 e r | xlateAdv e r => exact decode_xlateRow rfl h h
  | iaPml4e e | iaPdpePd e | iaPdpe1G e | iaPde2M e | iaPte64K e | iaPte4K e => exact decode_entryRow rfl h h
  | p32Pde e | p32Pte64K e | p32Pte4K e | ggttPte e => exact decode_entryRow rfl h h
  | p48Pml4e e | p48PdpePd e | p48Pdpe1G e | p48PdePt e | p48Pde2M e | p48Pte64K e | p48Pte4K e =>
    exact decode_entryRow rfl h h
  | trttL3e e | trttL2e e => exact decode_entryRow rfl (fitsRow_zero e) h
  | apu0000 e pa | apu0001 e pa | apu0010 e pa | apu0011 e pa | apu0100 e pa | apu0101 e pa | apu0110 e pa | apu0111 e pa =>
    exact decode_apuRow rfl (by decide) h
  | apu1000 e pa | apu1001 e pa | apu1010 e pa | apu1011 e pa | apu1100 e pa | apu1101 e pa | apu1110 e pa | apu1111 e pa =>
    exact decode_apuRow rfl (by decide) h
  | availableRcs | availableBcs | availableVecs | availableVcs0 | availableVcs1 => exact decode_msgRow rfl (by decide) h
  | receiveReadyRcs | receiveReadyBcs | receiveReadyVecs | receiveReadyVcs0 | receiveReadyVcs1 =>
    exact decode_msgRow rfl (by decide) h
  | launchedRcs | launchedBcs | launchedVecs | launchedVcs0 | launchedVcs1 => exact decode_msgRow rfl (by decide) h
  | confirmedRcs | confirmedBcs | confirmedVecs | confirmedVcs0 | confirmedVcs1 => exact decode_msgRow rfl (by decide) h
  | tlbinvCs | invWait | resetDevice | resetBus => exact decode_bareRow rfl rfl h
  | xlateTrtt r => exact decode_xlateTrtt h
  | iaPdePt e b => exact decode_iaPdePt h
  | trttL1e e => exact decode_trttL1e e
  | tlbLookup u r => exact decode_tlbLookup h
  | tlbFill sel => exact decode_tlbFill sel
  | tlbinvSvm scope st => exact decode_tlbinvSvm scope st
  | tlbinvCtxsw e => exact decode_tlbinvCtxsw e
  | tlbinvPageResponse p va => exact decode_tlbinvPageResponse p va
  | gttWrite off w v => exact decode_gttWrite h
  | gttRead off w => exact decode_gttRead off w
  | miUpdateGtt g v => exact decode_miUpdateGtt g v
  | pageResponse p va ok u => exact decode_pageResponse p va ok u
  | resetEngine src => exact decode_resetEngine h

/-! ## What is answered -/

/-- The last test of a row is the well-formedness of what it parsed. -/
theorem decodeRow_wellFormed {sel w : Nat} {bs : List Byte} {i : Instr} (h : decodeRow sel w bs = .ok i) : WellFormed i := by
  unfold decodeRow at h
  split at h
  · cases h
  split at h
  · cases h
  next row _ =>
  split at h
  · cases hp : row.parse (BitVec.ofNat 64 w) bs with
    | error x => rw [hp] at h; cases h
    | ok p =>
      simp only [hp, bind, Except.bind] at h
      split at h
      · split at h
        · next hwf => cases h; exact hwf
        · cases h
      · cases h
  · cases h

/-- An operation is the answer of a row to the rest of its frame. -/
theorem decode_ok_row {bs : List Byte} {i : Instr} (h : decode bs = .ok i) :
    ∃ sel w rest, decodeRow sel w rest = .ok i := by
  unfold decode at h
  cases hw : takeLE 8 bs with
  | error x => rw [hw] at h; cases h
  | ok p =>
    cases hsel : takeLE 1 p.2 with
    | error x => simp only [hw, bind, Except.bind, hsel] at h; cases h
    | ok q => simp only [hw, bind, Except.bind, hsel] at h; exact ⟨_, _, _, h⟩

/-- Settles O2: every answer is a row's. -/
theorem decodeWellFormed : Obligations.DecodeWellFormed := by
  intro bs i h
  obtain ⟨sel, w, rest, hrow⟩ := decode_ok_row h
  exact decodeRow_wellFormed hrow

/-- Settles O3: each word runs through the decoder by itself. -/
theorem tableWordsDecode : Obligations.TableWordsDecode := ⟨rfl, rfl, rfl, rfl, rfl, rfl, rfl⟩

end Sys2Proof
end

section
/-! The entry rows of the opcode table as accumulators of a walk (30 R140 to R177; log 12): one rule says when a row takes an
entry and what it leaves, and each format computes. -/

namespace Sys2Proof.Machine

/-! ## Fixed bits -/

/-- A word that has a row's fixed bits fits the row. -/
theorem fitsRow_of_bits {mask value : Nat} {w : Word64} (hvalue : value &&& mask = value)
    (h : ∀ k, mask.testBit k = true → bit w k = value.testBit k) : fitsRow mask value w = true := by
  refine beq_iff_eq.mpr (Nat.eq_of_testBit_eq fun k => ?_)
  rw [← hvalue, Nat.testBit_and, Nat.testBit_and]
  cases hk : mask.testBit k with
  | false => rw [Bool.and_false, Bool.and_false]
  | true => rw [← h k hk]; rfl

/-- The fixed bits of a format with a size bit: Present and bit 7. -/
theorem testBit_sizeMask {k : Nat} (h : Nat.testBit 0x81 k = true) : k = 0 ∨ k = 7 := by
  have hk : k < 8 := by
    by_contra hk
    have hlt : 0x81 < 2 ^ k := Nat.lt_of_lt_of_le (by decide) (Nat.pow_le_pow_right (by decide) (Nat.le_of_not_lt hk))
    rw [Nat.testBit_lt_two_pow hlt] at h
    cases h
  revert h
  revert k
  decide

theorem pointerEntry_of_bits {e : Word64} (h0 : bit e 0 = true) (h7 : bit e 7 = false) : pointerEntry e = true :=
  fitsRow_of_bits (by decide) fun k hk => by
    rcases testBit_sizeMask hk with rfl | rfl
    · exact h0
    · exact h7

theorem largeEntry_of_bits {e : Word64} (h0 : bit e 0 = true) (h7 : bit e 7 = true) : largeEntry e = true :=
  fitsRow_of_bits (by decide) fun k hk => by
    rcases testBit_sizeMask hk with rfl | rfl
    · exact h0
    · exact h7

theorem presentEntry_of_bit {e : Word64} (h0 : bit e 0 = true) : presentEntry e = true := (presentEntry_eq e).trans h0

/-! ## Taking an entry -/

/-- What a pointer format and a leaf format point to, as the spec writes it (30 R195). -/
theorem outOf_pointer {k : EntryKind} (h : k.leafBits = none) (haw : Nat) (e : Word64) :
    k.outOf haw e = .table (Rules.frame haw 12 e) := by
  simp only [EntryKind.outOf, h, addrField_frame]

theorem outOf_leaf {k : EntryKind} {bits : Nat} (h : k.leafBits = some bits) (haw : Nat) (e : Word64) :
    k.outOf haw e = .leaf bits (Rules.frame haw bits e) (k.nullBit e) := by
  simp only [EntryKind.outOf, h, addrField_frame]

/-- The global GTT entry and the legacy formats have no Reserved bit (30 R207). -/
theorem reservedSet_legacy {k : EntryKind} (h : k.isIa32e = false) (haw : Nat) (e : Word64) :
    k.reservedSet haw e = false := by
  unfold EntryKind.reservedSet
  rw [h, Bool.false_and]

section
variable {i : Instr} {k : EntryKind} {fl64k : Bool} {e : Word64} {s : State} {st : Stage}

/-- A row whose format the word has, with no Reserved bit, takes it into the walker's accumulators. -/
theorem entryDone_of_rowEntry (hexec : exec i s = toOutcome (rowEntry k fl64k e s)) (hfit : k.fits e = true)
    (hres : k.reservedSet s.plat.haw e = false) :
    Rules.entryDone s (exec i s) (k.stageAfter s.plat.haw s.regs.ipsEnable fl64k s.walker.stage e) := by
  have htake := (takeEntry_spec (ips := s.regs.ipsEnable) (fl := fl64k) (st := s.walker.stage)).mpr ⟨hres, rfl⟩
  rw [hexec, rowEntry, hfit, htake]
  rfl

/-- A pointer format takes its accumulators and points to the next table. For a row of the table the first two hypotheses and the
last are computed: which format the row takes, that it is a pointer, and the accumulators that it leaves. -/
theorem entryDone_pointer (hexec : exec i s = toOutcome (rowEntry k fl64k e s)) (hk : k.leafBits = none)
    (hfit : k.fits e = true) (hres : k.reservedSet s.plat.haw e = false)
    (hst : { k.stageAfter s.plat.haw s.regs.ipsEnable fl64k s.walker.stage e with
      out := .table (Rules.frame s.plat.haw 12 e) } = st) : Rules.entryDone s (exec i s) st := by
  rw [← hst, ← outOf_pointer hk]
  exact entryDone_of_rowEntry hexec hfit hres

/-- A leaf format takes its accumulators and points to a page; the same is computed. -/
theorem entryDone_leaf {bits : Nat} (hexec : exec i s = toOutcome (rowEntry k fl64k e s)) (hk : k.leafBits = some bits)
    (hfit : k.fits e = true) (hres : k.reservedSet s.plat.haw e = false)
    (hst : { k.stageAfter s.plat.haw s.regs.ipsEnable fl64k s.walker.stage e with
      out := .leaf bits (Rules.frame s.plat.haw bits e) (k.nullBit e) } = st) : Rules.entryDone s (exec i s) st := by
  rw [← hst, ← outOf_leaf hk]
  exact entryDone_of_rowEntry hexec hfit hres

end

/-! ## IA32e formats -/

/-- Settles O16: a pointer format each. -/
theorem ia32ePointerRows : Obligations.Ia32ePointerRows := by
  intro s e fl64k haddr h0 h7
  have hptr := pointerEntry_of_bits h0 h7
  refine ⟨entryDone_pointer rfl rfl (presentEntry_of_bit h0) ?_ rfl, entryDone_pointer rfl rfl hptr ?_ rfl,
    entryDone_pointer rfl rfl hptr ?_ rfl⟩
  all_goals simp [EntryKind.reservedSet, haddr, h7]

/-- Settles O17: a leaf format each. -/
theorem ia32eLeafRows : Obligations.Ia32eLeafRows := by
  intro s e haddr h0
  exact ⟨fun h7 hlow => entryDone_leaf rfl rfl (largeEntry_of_bits h0 h7)
      (by simp [EntryKind.reservedSet, haddr, hlow]) rfl,
    fun h7 hlow => entryDone_leaf rfl rfl (largeEntry_of_bits h0 h7) (by simp [EntryKind.reservedSet, haddr, hlow]) rfl,
    fun hlow => entryDone_leaf rfl rfl (presentEntry_of_bit h0) (by simp [EntryKind.reservedSet, haddr, hlow]) rfl,
    entryDone_leaf rfl rfl (presentEntry_of_bit h0) (by simp [EntryKind.reservedSet, haddr]) rfl⟩

/-! ## Legacy formats -/

/-- Settles O19: a pointer format each. -/
theorem legacyPointerRows : Obligations.LegacyPointerRows := by
  intro s e h0
  have hpres := presentEntry_of_bit h0
  have hres {k : EntryKind} (hk : k.isIa32e = false) := reservedSet_legacy hk s.plat.haw e
  refine ⟨entryDone_pointer rfl rfl hpres (hres rfl) rfl, entryDone_pointer rfl rfl hpres (hres rfl) rfl, fun h7 => ?_⟩
  have hptr := pointerEntry_of_bits h0 h7
  exact ⟨entryDone_pointer rfl rfl hptr (hres rfl) rfl, entryDone_pointer rfl rfl hptr (hres rfl) rfl⟩

/-- Settles O20: a leaf format each. -/
theorem legacyLeafRows : Obligations.LegacyLeafRows := by
  intro s e h0
  have hpres := presentEntry_of_bit h0
  have hres {k : EntryKind} (hk : k.isIa32e = false) := reservedSet_legacy hk s.plat.haw e
  refine ⟨entryDone_leaf rfl rfl hpres (hres rfl) rfl, entryDone_leaf rfl rfl hpres (hres rfl) rfl,
    entryDone_leaf rfl rfl hpres (hres rfl) rfl, entryDone_leaf rfl rfl hpres (hres rfl) rfl, fun h7 => ?_⟩
  have hlarge := largeEntry_of_bits h0 h7
  exact ⟨entryDone_leaf rfl rfl hlarge (hres rfl) rfl, entryDone_leaf rfl rfl hlarge (hres rfl) rfl⟩

/-! ## Global GTT and TR-TT -/

/-- What an L3 or L2 entry of a TR-TT table points to, as the spec writes it (40 R224, R225). -/
theorem trPointerOut_eq (e : Word64) : trPointerOut e =
    if bit e 0 = true then .trInvalid else if bit e 1 = true then .trNull
    else .trTable (BitVec.ofNat 64 (field e 12 36 * 2 ^ 12)) := by
  rw [trPointerOut, addrField_frame]; rfl

/-- Settles O21: the global GTT entry is a leaf format, and a TR-TT row changes nothing but where the walk points. -/
theorem ggttAndTrttRows : Obligations.GgttAndTrttRows := by
  intro s e l1
  refine ⟨fun h0 => entryDone_leaf rfl rfl (presentEntry_of_bit h0) (reservedSet_legacy rfl _ e) rfl, ?_, ?_, rfl⟩
  · rw [← trPointerOut_eq]; rfl
  · rw [← trPointerOut_eq]; rfl

end Sys2Proof.Machine
end

section
/-! The XLATE rows of the two PPGTTs and of advanced contexts as the walks of `Rules` (41 R251, 42 R272, 44 R317), outside the range
of TR-TT: a row translates in the context its descriptor names, and that context's tables alone decide the end. -/

namespace Sys2Proof.Machine

/-! ## From a row to the translation in its context -/

section
variable {s : State} {r : Request}

/-- A well-formed request of a source that may run is translated in its context. -/
theorem translate_of_gateOpen {use : CacheUse} (hwf : r.wellFormed = true) (hopen : gateOpen s none r.src = true) :
    translate use none r s = (contextOf s r.src r.va >>= fun x => translateIn x.1 x.2 use r) := by
  simp only [translate, hwf, hopen, require_true, ok_bind, if_true]

/-- Where the TR-TT stage leaves a request alone, its translation from memory is the walk of its context's tables. -/
theorem translateIn_noCache {c : Ctx} {active : Bool} (hact : trttActive s.regs r.src c.tag.mode = .ok active)
    (htrva : (active && isTrva s.regs r.va) = false) :
    translateIn s c noCache r = finalXlate s c noCache r r.va none := by
  cases active with
  | false => simp only [translateIn, hact, ok_bind, Bool.false_eq_true, if_false]
  | true =>
    have hva : isTrva s.regs r.va = false := htrva
    simp [translateIn, hact, tlbLookup, noCache, throughTr, trCopy, hva]

/-- A translation from memory that TR-TT leaves alone and that finds its context filled. -/
theorem translate_noCache {c : Ctx} {active : Bool} (hwf : r.wellFormed = true) (hopen : gateOpen s none r.src = true)
    (hctx : contextOf s r.src r.va = .ok (s, c)) (hact : trttActive s.regs r.src c.tag.mode = .ok active)
    (htrva : (active && isTrva s.regs r.va) = false) :
    translate noCache none r s = finalXlate s c noCache r r.va none := by
  rw [translate_of_gateOpen hwf hopen, hctx]
  exact translateIn_noCache hact htrva

end

/-! ## The descriptor that an engine holds -/

/-- An engine holds a descriptor, Valid aside, which stands for a walk mode and a fault model (30 R180, R181; log 34). -/
structure HoldsDesc (s : State) (e : Engine) (elem d : Word64) (m : Mode) (fm : FaultModel) : Prop where
  get : (s.bank e).elem.get = .ok d
  valid : d ||| 1 = elem
  mode : elemMode d = .ok m
  fault : elemFaultModel s.plat d = .ok fm

section
variable {s : State} {e : Engine} {elem : Word64}

/-- Setting Valid leaves the other bits and the fields above it. -/
theorem bit_of_valid {d : Word64} (h : d ||| 1 = elem) {k : Nat} (hk : k ≠ 0) : bit d k = bit elem k := by
  rw [← h, bit_or_one d k hk]

theorem field_of_valid {d : Word64} (h : d ||| 1 = elem) {lo n : Nat} (hlo : lo ≠ 0) : field d lo n = field elem lo n := by
  rw [← h, field_or_one d lo n hlo]

/-- A legacy descriptor with its one fault model (60 R477). -/
theorem holdsDesc_legacy (hh : Rules.holdsLegacy s elem (.engine e) = true) (hone : bit elem 1 = true)
    (hlegacy : bit elem 3 = true) :
    ∃ d, HoldsDesc s e elem d (if bit elem 8 then (if bit elem 4 then .ppgtt48 else .ppgtt32) else .ggtt) .hang := by
  obtain ⟨d, hget, hvalid, hfault, -⟩ := holds_engine hh
  refine ⟨d, hget, hvalid, ?_, ?_⟩
  · simp only [elemMode, elemOne, elemLegacy, elemPriv, elemAd48b, bit_of_valid hvalid, ne_eq, Nat.succ_ne_zero,
      not_false_eq_true, hone, hlegacy, if_true]
  · simp [elemFaultModel, elemLegacy, elemFaultField, bit_of_valid hvalid, field_of_valid hvalid, hlegacy, hfault]

theorem holdsDesc_32 (hfit : fitsRow 0x11B 0x10B elem = true) (hh : Rules.holdsLegacy s elem (.engine e) = true) :
    ∃ d, HoldsDesc s e elem d .ppgtt32 .hang := by
  have hbit := fits_bit _ _ _ hfit
  have hmode := holdsDesc_legacy hh (hbit 1 (by decide)) (hbit 3 (by decide))
  rwa [hbit 8 (by decide), hbit 4 (by decide)] at hmode

theorem holdsDesc_48 (hfit : fitsRow 0x11B 0x11B elem = true) (hh : Rules.holdsLegacy s elem (.engine e) = true) :
    ∃ d, HoldsDesc s e elem d .ppgtt48 .hang := by
  have hbit := fits_bit _ _ _ hfit
  have hmode := holdsDesc_legacy hh (hbit 1 (by decide)) (hbit 3 (by decide))
  rwa [hbit 8 (by decide), hbit 4 (by decide)] at hmode

/-- An advanced descriptor with a fault model that sends page requests (60 R477). -/
theorem holdsDesc_adv (hfit : fitsRow 0x00B 0x003 elem = true) (hh : Rules.holdsAdvanced s elem e = true) :
    ∃ d fm, HoldsDesc s e elem d .adv fm := by
  have hbit := fits_bit _ _ _ hfit
  have hone : bit elem 1 = true := hbit 1 (by decide)
  have hlegacy : bit elem 3 = false := hbit 3 (by decide)
  simp only [Rules.holdsAdvanced, Bool.and_eq_true, beq_iff_eq, bne_iff_ne, Bool.or_eq_true] at hh
  obtain ⟨⟨⟨⟨hlo, -⟩, hvalid⟩, hfield⟩, hmodel⟩ := hh
  have hmode : elemMode (s.bank e).elem.value = .ok .adv := by
    simp [elemMode, elemOne, elemLegacy, bit_of_valid hvalid, hone, hlegacy]
  have hfault : ∃ fm, elemFaultModel s.plat (s.bank e).elem.value = .ok fm := by
    rcases hmodel with hmodel | hmodel <;>
      simp [elemFaultModel, elemLegacy, elemFaultField, bit_of_valid hvalid, field_of_valid hvalid, hlegacy, hfield, hmodel]
  obtain ⟨fm, hfault⟩ := hfault
  exact ⟨_, fm, descReg_get_spec.mpr ⟨.inl hlo, rfl⟩, hvalid, hmode, hfault⟩

variable {d : Word64} {m : Mode} {fm : FaultModel} {r : Request}

/-- A row applies to an engine that holds its descriptor in its mode (log 13). -/
theorem HoldsDesc.rowApplies (H : HoldsDesc s e elem d m fm) : rowApplies s m elem (.engine e) = .ok () := by
  have hword : d ||| 1 = elem ||| 1 := by rw [← H.valid, or_one_or_one]
  simp only [Machine.rowApplies, sourceElem, H.get, H.mode, ok_bind, hword, beq_self_eq_true, Bool.and_self, require_true]

/-- The row of a mode is the translation from memory. -/
theorem HoldsDesc.rowXlate (H : HoldsDesc s e elem d m fm) (hsrc : r.src = .engine e)
    (hopen : gateOpen s none r.src = true) : rowXlate m elem r s = translate noCache none r s := by
  rw [Machine.rowXlate, if_pos hopen, hsrc, H.rowApplies]; rfl

/-- An address outside the range of the mode is refused before any table is read (30 R191, R206; 93 U14). -/
theorem HoldsDesc.translate_outOfRange (H : HoldsDesc s e elem d m fm) (hsrc : r.src = .engine e)
    (hopen : gateOpen s none r.src = true) (hwf : r.wellFormed = true) (hva : vaInRange m r.va = false) (use : CacheUse) :
    translate use none r s = refuse .vaOutOfRange := by
  have hctx : contextOf s r.src r.va = refuse .vaOutOfRange := by
    rw [hsrc]
    simp only [contextOf, engineCtx, H.get, H.mode, H.fault, ok_bind, hva, require_false, refuse_bind]
  rw [translate_of_gateOpen hwf hopen, hctx]; rfl

end

/-! ## The end of a row -/

/-- The walk from memory that a row makes in a context. -/
def rowEnv (c : Ctx) (r : Request) : WalkEnv := ⟨c, noCache, r.client.tlbGroup, r.va, r.acc.isWrite, r.er⟩

section
variable {s : State} {e : Engine} {r : Request}

/-- A legacy context ends an engine's request as its walk of the tables says. -/
theorem finalXlate_legacy {c : Ctx} {x : Res XlateEnd} (hsrc : r.src = .engine e) (hfm : c.fm = .hang)
    (hsame : SameEnd s x (walkOnce s (rowEnv c r))) (hends : Ends x) :
    EndsRes (finalXlate s c noCache r r.va none) (Rules.still s x) fun t y => Rules.endLegacy t r c.ctxid y := by
  refine final_legacy s r c noCache r.va none _ hfm rfl (walk_plain rfl rfl (sameEndAdv_still hsame))
    (fun t y h => hends.h y (still_ok.mp h).2) (fun _ _ _ _ => ?_) (fun t pa _ _ => ?_)
  · rw [hsrc]; rfl
  · exact mayReach_of_src t.plat (by rw [hsrc]; nofun) pa

/-- The walk of 41 R251 from the page-directory pointer. -/
theorem finalXlate_32 (ctxid : Word32) (pdp : Word64) (hsrc : r.src = .engine e) (hhaw : 6 ≤ s.plat.haw) :
    EndsRes (finalXlate s (legacyCtx (.engine e) .ppgtt32 ctxid (addrField s.plat.haw 12 pdp)) noCache r r.va none)
      (Rules.still s (Rules.ppgtt32 s pdp r.acc.isWrite r.va)) fun t y => Rules.endLegacy t r ctxid y := by
  have hsame := sameEnd_32 s (rowEnv (legacyCtx (.engine e) .ppgtt32 ctxid (addrField s.plat.haw 12 pdp)) r) pdp rfl
    (legacyCtx_env _ rfl rfl) hhaw rfl
  rw [readVia_noCache _ _ rfl] at hsame
  exact finalXlate_legacy hsrc rfl hsame (ends_32 ..)

/-- The walk of 42 R272 from its root register. -/
theorem finalXlate_48 (ctxid : Word32) (pdp0 : Word64) (hsrc : r.src = .engine e) (hhaw : 6 ≤ s.plat.haw) :
    EndsRes (finalXlate s (legacyCtx (.engine e) .ppgtt48 ctxid (addrField s.plat.haw 12 pdp0)) noCache r r.va none)
      (Rules.still s (Rules.ppgtt48 s pdp0 r.acc.isWrite r.va)) fun t y => Rules.endLegacy t r ctxid y := by
  have hsame := sameEnd_48 s (rowEnv (legacyCtx (.engine e) .ppgtt48 ctxid (addrField s.plat.haw 12 pdp0)) r) pdp0 rfl
    (legacyCtx_env _ rfl rfl) hhaw rfl
  rw [readVia_noCache _ _ rfl] at hsame
  exact finalXlate_legacy hsrc rfl hsame (ends_48 ..)

/-- An advanced context whose caches are filled ends its engine's request as the walk of 44 R317 says. -/
theorem finalXlate_adv {elem : Word64} {fm : FaultModel} (pdp0 : Word64) (x : CtxEntry) (hsrc : r.src = .engine e)
    (hfm : fm = .stream ∨ fm = .halt) (hvalid : (s.bank e).elem.value ||| 1 = elem)
    (hcache : s.regs.gttCacheEnable = false) :
    let a := Rules.advOf s.plat.haw elem (s.bank e).pc x
    let c := advCtxOf s e a pdp0 fm
    EndsRes (finalXlate s c noCache r r.va none) (Rules.adv s e a r.acc.isWrite (Rules.er r) r.va)
      fun t y => Rules.endAdv t r c.pasid c.ctxid r.va y := by
  intro a c
  have hsame := sameEnd_adv (advCtxOf_env s e elem pdp0 x fm noCache r.client.tlbGroup r.va r.acc.isWrite r.er hvalid rfl)
    s hcache rfl
  rw [copiesUsed_noCache _ _ rfl] at hsame
  rw [← er_eq]
  exact final_adv s r c noCache r.va none _ hfm rfl (walk_plain rfl rfl hsame) (unfiltered_adv ..).h (by rw [hsrc]; nofun)

/-- How a row ends whose translation changes no state but the record of walks. -/
theorem ends_of_still {o : Res State} {x : Res XlateEnd} {f : State → XlateEnd → State}
    (h : EndsRes o (Rules.still s x) f) :
    (∀ y, x = .ok y → ∃ w, toOutcome o = .next (f (setWalked s w) y)) ∧
      ∀ z, x = .error z → toOutcome o = toOutcome (.error z) := by
  obtain ⟨hok, herror⟩ := h.endsAs
  exact ⟨fun y hy => hok s y (still_ok.mpr ⟨rfl, hy⟩), fun z hz => herror z (by rw [hz]; rfl)⟩

end

/-! ## The rows -/

/-- Settles O24: beyond 4 GB no context is made; below it the row ends as `finalXlate_32` says. -/
theorem xlatePpgtt32 : Obligations.XlatePpgtt32 := by
  intro s e elem pdp r hwf hsrc hopen hholds
  obtain ⟨hfit, hrwf⟩ := Bool.and_eq_true_iff.mp hwf
  rw [hsrc] at hholds
  obtain ⟨d, H⟩ := holdsDesc_32 hfit hholds
  have hrow : exec (.xlatePpgtt32 elem r) s = toOutcome (translate noCache none r s) :=
    congrArg toOutcome (H.rowXlate hsrc hopen)
  rw [hrow]
  refine ⟨fun hva => ?outOfRange, fun hoff hhaw hva hpdp => ?inRange⟩
  case outOfRange =>
    have hrefused := H.translate_outOfRange hsrc hopen hrwf (decide_eq_false (Nat.not_lt.mpr hva))
    exact ⟨congrArg toOutcome (hrefused noCache), fun use => congrArg toOutcome (hrefused use)⟩
  case inRange =>
    have hctx := (congrArg (contextOf s · r.va) hsrc).trans (contextOf_32 hfit hholds hva hpdp)
    rw [translate_noCache hrwf hopen hctx (trtt_off hoff _) rfl, hsrc]
    exact ends_of_still (finalXlate_32 _ pdp hsrc hhaw)

/-- Settles O25: for an address that is not canonical no context is made; for another the row ends as `finalXlate_48` says. -/
theorem xlatePpgtt48 : Obligations.XlatePpgtt48 := by
  intro s e elem pdp0 r hwf hsrc hopen hholds
  obtain ⟨hfit, hrwf⟩ := Bool.and_eq_true_iff.mp hwf
  rw [hsrc] at hholds
  obtain ⟨d, H⟩ := holdsDesc_48 hfit hholds
  have hrow : exec (.xlatePpgtt48 elem r) s = toOutcome (translate noCache none r s) :=
    congrArg toOutcome (H.rowXlate hsrc hopen)
  rw [hrow]
  refine ⟨fun hva => ?outOfRange, fun hoff hhaw hva hpdp0 => ?inRange⟩
  case outOfRange =>
    have hrefused := H.translate_outOfRange hsrc hopen hrwf hva
    exact ⟨congrArg toOutcome (hrefused noCache), congrArg toOutcome (hrefused noCache),
      fun use => congrArg toOutcome (hrefused use)⟩
  case inRange =>
    have hctx := (congrArg (contextOf s · r.va) hsrc).trans (contextOf_48 hfit hholds hva hpdp0)
    obtain ⟨active, hact, htrva⟩ := no_trtt hoff (.inl rfl)
    rw [translate_noCache hrwf hopen hctx hact htrva, hsrc]
    exact ends_of_still (finalXlate_48 _ pdp0 hsrc hhaw)

/-- Settles O26: for an address that is not canonical no context is made; for another the row ends as `finalXlate_adv` says. -/
theorem xlateAdv : Obligations.XlateAdv := by
  intro s e elem pdp0 r x hwf hsrc hopen hholds
  obtain ⟨hfit, hrwf⟩ := Bool.and_eq_true_iff.mp hwf
  obtain ⟨d, fm, H⟩ := holdsDesc_adv hfit hholds
  have hrow : exec (.xlateAdv elem r) s = toOutcome (translate noCache none r s) :=
    congrArg toOutcome (H.rowXlate hsrc hopen)
  rw [hrow]
  refine ⟨fun hva => ?outOfRange, fun hoff hcache hva hpdp0 hpc hcc => ?inRange⟩
  case outOfRange =>
    have hrefused := H.translate_outOfRange hsrc hopen hrwf hva
    exact ⟨congrArg toOutcome (hrefused noCache), congrArg toOutcome (hrefused noCache),
      fun use => congrArg toOutcome (hrefused use)⟩
  case inRange =>
    obtain ⟨fm, hfm, hctx⟩ := contextOf_adv hfit hholds hcache hva hpdp0 hpc hcc
    obtain ⟨active, hact, htrva⟩ := no_trtt hoff (.inr rfl)
    have hvalid : (s.bank e).elem.value ||| 1 = elem := (descReg_get_spec.mp H.get).2 ▸ H.valid
    rw [translate_noCache hrwf hopen ((congrArg (contextOf s · r.va) hsrc).trans hctx) hact htrva, hsrc]
    exact (finalXlate_adv pdp0 x hsrc hfm hvalid hcache).endsAs

end Sys2Proof.Machine
end

section
/-! MI_UPDATE_GTT: the entry of a page address, and the store of it in the global table (30 R196, 43 R305). -/

namespace Sys2Proof.Machine

/-- The byte offset of an entry as the spec writes it, `8 * g[31:12]`. -/
theorem miOffset_eq (g : Word32) : miOffset g = 8 * (g.toNat / 2 ^ 12 % 2 ^ 20) := by
  have hg : g.toNat < 2 ^ 32 := g.isLt
  unfold miOffset
  omega

/-- The last entry of an 8 MB table. -/
theorem miOffset_le (g : Word32) : miOffset g ≤ 0x7FFFF8 := by
  rw [miOffset_eq]
  omega

/-- The offset of a page address is a shift by 9. -/
theorem miOffset_of_aligned {g : Word32} (h : g.toNat % 2 ^ 12 = 0) : miOffset g = g.toNat / 2 ^ 9 := by
  unfold miOffset
  omega

/-- A 64-bit write inside the address space: its effect on memory, and nothing else. -/
theorem memWrite64_inside {s : State} {pa : Nat} (v : Word64) (hw : Memory.wf s.mem = true) (hin : pa + 8 ≤ 2 ^ s.plat.haw) :
    ∃ t, memWrite64 s pa v = .ok t ∧ memRead64 t pa = .ok v ∧ sameOutside s t pa 8 ∧ t = { s with mem := t.mem } := by
  have hwrite := (memWrite64_spec (v := v)).mpr ⟨decide_eq_true hin, rfl⟩
  refine ⟨_, hwrite, memRead64_memWrite64 hw hwrite, fun x hx => ?_, rfl⟩
  exact memWrite_outside hw hwrite x (by rwa [length_leBytes])

/-- An entry inside the table is stored. -/
theorem miUpdate_of_lt {g : Word32} {s : State} (v : Word64) (h : miOffset g < s.plat.gsmSize) :
    miUpdate g v s = memWrite64 s (s.plat.gsmBase + miOffset g) v := by
  rw [miUpdate, decide_eq_true h]; rfl

/-- Settles O52: the offset by its arithmetic, the store as one 64-bit write. -/
theorem miUpdateGtt : Obligations.MiUpdateGtt := by
  intro s g v hw off
  have hoff : off = miOffset g := (miOffset_eq g).symm
  rw [hoff]
  refine ⟨miOffset_le g, miOffset_of_aligned, fun hlt hin => ?_⟩
  obtain ⟨t, hwrite, hread, houtside, hframe⟩ := memWrite64_inside v hw hin
  have hexec : exec (.miUpdateGtt g v) s = toOutcome (memWrite64 s (s.plat.gsmBase + miOffset g) v) :=
    congrArg toOutcome (miUpdate_of_lt v hlt)
  exact ⟨t, by rw [hexec, hwrite]; rfl, hread, houtside, hframe⟩

end Sys2Proof.Machine
end

section
/-! The TR-TT stage in front of a translation (40 R220 to R232): the XLATE rows and XLATE.TRTT are one translation, what TRTTE and
TRVADR must not hold is refused, and at a TR-VA the stage decides how the request ends. -/

namespace Sys2Proof.Machine

/-! ## Rows and the descriptors their sources hold -/

section
variable {s : State} {e : Engine} {src : Source} {elem d : Word64} {m : Mode} {fm : FaultModel} {r : Request}

/-- The row of a descriptor that the source holds is the translation from memory (log 13). -/
theorem rowXlate_of_applies (h : rowApplies s m elem r.src = .ok ()) : rowXlate m elem r s = translate noCache none r s := by
  rw [rowXlate, h]
  exact ite_self _

theorem holdsDesc_ggtt (hfit : fitsRow 0x10B 0x00B elem = true) (hh : Rules.holdsLegacy s elem (.engine e) = true) :
    ∃ d, HoldsDesc s e elem d .ggtt .hang := by
  have hbit := fits_bit _ _ _ hfit
  have hmode := holdsDesc_legacy hh (hbit 1 (by decide)) (hbit 3 (by decide))
  rwa [hbit 8 (by decide)] at hmode

/-- The default context definition is not of a PPGTT, so that an engine holds any descriptor of one (10 R47). -/
theorem engine_of_holdsLegacy (hh : Rules.holdsLegacy s elem src = true) (hpriv : bit elem 8 = true) :
    ∃ e, src = .engine e := by
  cases src with
  | engine e => exact ⟨e, rfl⟩
  | wdbox | vebox2 | display | aperture =>
    rw [show elem = 0x00B from beq_iff_eq.mp hh] at hpriv
    exact absurd hpriv (by decide)

theorem rowApplies_ggtt (hfit : fitsRow 0x10B 0x00B elem = true) (hh : Rules.holdsLegacy s elem src = true) :
    rowApplies s .ggtt elem src = .ok () := by
  cases src with
  | engine e =>
    obtain ⟨d, H⟩ := holdsDesc_ggtt hfit hh
    exact H.rowApplies
  | wdbox | vebox2 | display | aperture =>
    rw [show elem = 0x00B from beq_iff_eq.mp hh]
    rfl

theorem rowApplies_32 (hfit : fitsRow 0x11B 0x10B elem = true) (hh : Rules.holdsLegacy s elem src = true) :
    rowApplies s .ppgtt32 elem src = .ok () := by
  obtain ⟨e, rfl⟩ := engine_of_holdsLegacy hh (fits_bit _ _ _ hfit 8 (by decide))
  obtain ⟨d, H⟩ := holdsDesc_32 hfit hh
  exact H.rowApplies

theorem rowApplies_48 (hfit : fitsRow 0x11B 0x11B elem = true) (hh : Rules.holdsLegacy s elem src = true) :
    rowApplies s .ppgtt48 elem src = .ok () := by
  obtain ⟨e, rfl⟩ := engine_of_holdsLegacy hh (fits_bit _ _ _ hfit 8 (by decide))
  obtain ⟨d, H⟩ := holdsDesc_48 hfit hh
  exact H.rowApplies

/-- The context of a request under a global-GTT descriptor of an engine (30 R180). -/
theorem HoldsDesc.contextOf_ggtt (H : HoldsDesc s e elem d .ggtt fm) {va : Word64} (hva : va.toNat < 2 ^ 32) :
    contextOf s (.engine e) va = .ok (s, legacyCtx (.engine e) .ggtt (elemCtxId d) 0) := by
  have hrange : vaInRange .ggtt va = true := decide_eq_true hva
  simp only [contextOf, engineCtx, H.get, H.mode, H.fault, ok_bind, hrange, require_true]

end

/-- Settles O29: each row applies to a source that holds its descriptor, and is then the translation that XLATE.TRTT is. -/
theorem xlateRowsAgree : Obligations.XlateRowsAgree := by
  intro s elem r _
  refine ⟨fun hholds => ⟨fun hfit => ?ggtt, fun hfit => ?ppgtt32, fun hfit => ?ppgtt48⟩, fun e hsrc hholds hfit => ?adv⟩
  case ggtt => exact congrArg toOutcome (rowXlate_of_applies (rowApplies_ggtt hfit hholds))
  case ppgtt32 => exact congrArg toOutcome (rowXlate_of_applies (rowApplies_32 hfit hholds))
  case ppgtt48 => exact congrArg toOutcome (rowXlate_of_applies (rowApplies_48 hfit hholds))
  case adv =>
    obtain ⟨d, fm, H⟩ := holdsDesc_adv hfit hholds
    exact congrArg toOutcome (rowXlate_of_applies (hsrc ▸ H.rowApplies))

/-! ## Where the stage is active -/

section
variable {s : State} {g : Regs} {m : Mode} {c : Ctx} {r : Request}

/-- A mode whose walk takes 48-bit addresses: the modes TR-TT supports (40 R221). -/
theorem trttActive_of_48b (hdis : g.bypassDis = true) (hen : trttEn g = true) (hm : m = .ppgtt48 ∨ m = .adv) :
    trttActive g (.engine .rcs) m = (trttLegal g >>= fun _ => .ok true) := by
  rcases hm with rfl | rfl <;> simp only [trttActive, hdis, hen, beq_self_eq_true, Bool.and_self, if_true]

theorem trttActive_of_32b (hdis : g.bypassDis = true) (hen : trttEn g = true) (hm : m = .ggtt ∨ m = .ppgtt32) :
    trttActive g (.engine .rcs) m = refuse .trttWrongMode := by
  rcases hm with rfl | rfl <;> simp only [trttActive, hdis, hen, beq_self_eq_true, Bool.and_self, if_true]

theorem trttLegal_physical (hdis : g.bypassDis = true) (hen : trttEn g = true) (hloc : trttTtloc g = false) :
    trttLegal g = refuse .trttPhysical := by
  rw [trttLegal_eq, if_pos ⟨hdis, hen, hloc⟩]

theorem trttLegal_virtual (hloc : trttTtloc g = true) :
    trttLegal g = if trvaLegal g = true then .ok () else refuse .trvaMask := by
  rw [trttLegal_eq, if_neg (by simp [hloc])]

theorem trvaLegal_eq_false (h0 : g.trvadr.toNat / 16 % 16 ≠ 0) (h15 : g.trvadr.toNat / 16 % 16 ≠ 15) :
    trvaLegal g = false := by
  simp [trvaLegal, trvaMask, h0, h15]

/-- MASK = 0000b detects no TR-VA (40 R222). -/
theorem trvaLegal_of_isTrva {va : Word64} (h : isTrva g va = true) : trvaLegal g = true := by
  obtain ⟨hmask, -⟩ := Bool.and_eq_true_iff.mp h
  exact Bool.or_eq_true_iff.mpr (.inr hmask)

/-- XLATE.TRTT is the translation from memory in the context of its request (40 R220). -/
theorem exec_xlateTrtt (hwf : r.wellFormed = true) (hopen : gateOpen s none r.src = true)
    (hctx : contextOf s r.src r.va = .ok (s, c)) : exec (.xlateTrtt r) s = toOutcome (translateIn s c noCache r) := by
  have htranslate := translate_of_gateOpen (use := noCache) hwf hopen
  rw [hctx, ok_bind] at htranslate
  exact congrArg toOutcome htranslate

/-- What the check of the TR-TT registers refuses, the translation refuses. -/
theorem translateIn_refused {use : CacheUse} {z : Refusal} (h : trttActive s.regs r.src c.tag.mode = refuse z) :
    translateIn s c use r = refuse z := by
  rw [translateIn, h]; rfl

/-- At a TR-VA with the stage active, the translation from memory is the stage and what its end asks for (40 R220). -/
theorem translateIn_trva (hact : trttActive s.regs r.src c.tag.mode = .ok true) (hva : isTrva s.regs r.va = true) :
    translateIn s c noCache r = (trWalk s c noCache r >>= finishTr c noCache r) := by
  simp [translateIn, hact, tlbLookup, noCache, throughTr, trCopy, hva]

end

/-! ## Programming errors -/

section
variable {s : State} {c : Ctx} {r : Request}

theorem exec_xlateTrtt_refused {z : Refusal} (hwf : r.wellFormed = true) (hsrc : r.src = .engine .rcs)
    (hopen : gateOpen s none r.src = true) (hctx : contextOf s (.engine .rcs) r.va = .ok (s, c))
    (hact : trttActive s.regs (.engine .rcs) c.tag.mode = refuse z) : exec (.xlateTrtt r) s = .refused z := by
  rw [← hsrc] at hctx hact
  rw [exec_xlateTrtt hwf hopen hctx, translateIn_refused hact]; rfl

/-- In a context whose mode TR-TT supports, tables in physical space and any other MASK are refused (40 R222, R232). -/
theorem exec_xlateTrtt_misprogrammed (hwf : r.wellFormed = true) (hsrc : r.src = .engine .rcs)
    (hopen : gateOpen s none r.src = true) (hctx : contextOf s (.engine .rcs) r.va = .ok (s, c))
    (hdis : s.regs.bypassDis = true) (hen : trttEn s.regs = true) (hm : c.tag.mode = .ppgtt48 ∨ c.tag.mode = .adv) :
    (trttTtloc s.regs = false → exec (.xlateTrtt r) s = .refused .trttPhysical) ∧
    (trttTtloc s.regs = true → s.regs.trvadr.toNat / 16 % 16 ≠ 0 → s.regs.trvadr.toNat / 16 % 16 ≠ 15 →
      exec (.xlateTrtt r) s = .refused .trvaMask) := by
  have hact := trttActive_of_48b hdis hen hm
  refine ⟨fun hloc => exec_xlateTrtt_refused hwf hsrc hopen hctx ?physical,
    fun hloc h0 h15 => exec_xlateTrtt_refused hwf hsrc hopen hctx ?mask⟩
  case physical => rw [hact, trttLegal_physical hdis hen hloc]; rfl
  case mask => rw [hact, trttLegal_virtual hloc, trvaLegal_eq_false h0 h15]; rfl

end

/-- Settles O30: under each descriptor the context of the request, whose mode decides what is looked at. -/
theorem trttMisprogrammed : Obligations.TrttMisprogrammed := by
  refine ⟨fun s elem pdp r hwf hsrc hopen hholds hdis hen => ?legacy,
    fun s elem pdp0 r x hwf hsrc hopen hfit hholds hcache hva hpdp0 hpc hcc hdis hen => ?advanced⟩
  case legacy =>
    rw [hsrc] at hholds
    refine ⟨fun hfit hva => ?ggtt, fun hfit hva hpdp => ?ppgtt32, fun hfit hva hpdp => ?physical, fun hfit hva hpdp => ?mask⟩
    case ggtt =>
      obtain ⟨d, H⟩ := holdsDesc_ggtt hfit hholds
      exact exec_xlateTrtt_refused hwf hsrc hopen (H.contextOf_ggtt hva) (trttActive_of_32b hdis hen (.inl rfl))
    case ppgtt32 =>
      exact exec_xlateTrtt_refused hwf hsrc hopen (contextOf_32 hfit hholds hva hpdp)
        (trttActive_of_32b hdis hen (.inr rfl))
    case physical =>
      exact (exec_xlateTrtt_misprogrammed hwf hsrc hopen (contextOf_48 hfit hholds hva hpdp) hdis hen (.inl rfl)).1
    case mask =>
      exact (exec_xlateTrtt_misprogrammed hwf hsrc hopen (contextOf_48 hfit hholds hva hpdp) hdis hen (.inl rfl)).2
  case advanced =>
    obtain ⟨fm, -, hctx⟩ := contextOf_adv hfit hholds hcache hva hpdp0 hpc hcc
    exact exec_xlateTrtt_misprogrammed hwf hsrc hopen hctx hdis hen (.inr rfl)

/-! ## The stage at a TR-VA -/

section
variable {s : State} {c : Ctx} {r : Request}

theorem exec_xlateTrtt_trva (hwf : WellFormed (.xlateTrtt r)) (hopen : gateOpen s none r.src = true)
    (hctx : contextOf s (.engine .rcs) r.va = .ok (s, c)) (hdis : s.regs.bypassDis = true) (hen : trttEn s.regs = true)
    (hloc : trttTtloc s.regs = true) (hm : c.tag.mode = .ppgtt48 ∨ c.tag.mode = .adv) (hva : isTrva s.regs r.va = true) :
    exec (.xlateTrtt r) s = toOutcome (trWalk s c noCache r >>= finishTr c noCache r) := by
  obtain ⟨hsrc, hrwf⟩ := Bool.and_eq_true_iff.mp hwf
  have hact : trttActive s.regs (.engine .rcs) c.tag.mode = .ok true := by
    rw [trttActive_of_48b hdis hen hm, trttLegal_virtual hloc, trvaLegal_of_isTrva hva]; rfl
  rw [← of_decide_eq_true hsrc] at hctx hact
  rw [exec_xlateTrtt hrwf hopen hctx, translateIn_trva hact hva]

theorem trtt_keeps {X : Rules.Tables} {use : CacheUse} {group : TlbGroup} {I : State → Prop} (H : TablesOk X c use group I)
    {t : State} {waits : Bool} {va : Word64} {v : Except Rules.TrStop TrResult} (hi : I s)
    (h : Rules.trtt X waits s va = .ok (t, v)) : I t :=
  trtt3_keeps H hi h

/-- The stage in a legacy 48b context of Render ends the request as 40 R223 says; a table read that faults is not recoverable
there (40 R230). -/
theorem endTr48_trWalk (ctxid : Word32) (pdp0 : Word64) (hsrc : r.src = .engine .rcs) (hhaw : 6 ≤ s.plat.haw) :
    let c := legacyCtx (.engine .rcs) .ppgtt48 ctxid (addrField s.plat.haw 12 pdp0)
    Rules.endTr48 pdp0 ctxid r (Rules.trtt (Rules.tables48 pdp0) false s r.va)
      (toOutcome (trWalk s c noCache r >>= finishTr c noCache r)) := by
  intro c
  have H := tables48_ok pdp0 c noCache r.client.tlbGroup rfl rfl rfl
  have hsame := trtt_same H rfl nofun s ⟨hhaw, rfl⟩
  exact finish_48 pdp0 c noCache r hsame rfl hsrc rfl rfl rfl fun t v h => trtt_keeps H ⟨hhaw, rfl⟩ h

/-- The stage in an advanced context of Render whose caches are filled ends the request as 40 R223 says; a table read that
faults waits for a page response there (40 R230). -/
theorem endTrAdv_trWalk {elem : Word64} {fm : FaultModel} (pdp0 : Word64) (x : CtxEntry) (hsrc : r.src = .engine .rcs)
    (hfm : fm = .stream ∨ fm = .halt) (hvalid : (s.bank .rcs).elem.value ||| 1 = elem)
    (hcache : s.regs.gttCacheEnable = false) :
    let a := Rules.advOf s.plat.haw elem (s.bank .rcs).pc x
    let c := advCtxOf s .rcs a pdp0 fm
    Rules.endTrAdv a (BitVec.ofNat 20 (field pdp0 0 20)) (ctxIdOf s (.engine .rcs)) r
      (Rules.trtt (Rules.tablesAdv .rcs a) true s r.va) (toOutcome (trWalk s c noCache r >>= finishTr c noCache r)) := by
  intro a c
  have H := tablesAdv_ok (pdp0 := pdp0) (x := x) (fm := fm) noCache r.client.tlbGroup hvalid rfl rfl
  have hsends : c.sendsRequest = true := by rcases hfm with rfl | rfl <;> rfl
  have hsame := trtt_same H rfl (fun _ => hfm) s hcache
  rw [hsends] at hsame
  exact finish_adv noCache r hsame hfm hvalid hsrc rfl rfl rfl fun t v h => trtt_keeps H hcache h

end

/-- Settles O28: at a TR-VA the row is the stage and its end, which the tables of the two contexts decide. -/
theorem xlateTrtt : Obligations.XlateTrtt := by
  refine ⟨fun s elem pdp0 r hwf hopen hfit hholds hdis hen hloc htrva hhaw hva hpdp0 => ?legacy,
    fun s elem pdp0 r x hwf hopen hfit hholds hcache hdis hen hloc htrva hva hpdp0 hpc hcc => ?advanced⟩
  case legacy =>
    have hsrc : r.src = .engine .rcs := of_decide_eq_true (Bool.and_eq_true_iff.mp hwf).1
    rw [hsrc] at hholds
    have hctx := contextOf_48 hfit hholds hva hpdp0
    rw [exec_xlateTrtt_trva hwf hopen hctx hdis hen hloc (.inl rfl) htrva, hsrc]
    exact endTr48_trWalk _ pdp0 hsrc hhaw
  case advanced =>
    have hsrc : r.src = .engine .rcs := of_decide_eq_true (Bool.and_eq_true_iff.mp hwf).1
    obtain ⟨fm, hfm, hctx⟩ := contextOf_adv hfit hholds hcache hva hpdp0 hpc hcc
    obtain ⟨d, _, H⟩ := holdsDesc_adv hfit hholds
    have hvalid : (s.bank .rcs).elem.value ||| 1 = elem := (descReg_get_spec.mp H.get).2 ▸ H.valid
    rw [exec_xlateTrtt_trva hwf hopen hctx hdis hen hloc (.inr rfl) htrva, hsrc]
    exact endTrAdv_trWalk pdp0 x hsrc hfm hvalid hcache

end Sys2Proof.Machine
end

section
/-! XLATE.GGTT as the one-level walk of `Rules` (43 R300), for every source: an engine's request in the context its descriptor
names, and a request of the other sources in the default one (43 R301). -/

namespace Sys2Proof.Machine

/-! ## The context of a global-GTT request -/

/-- The context of a source under a global-GTT descriptor, its own or the default one (10 R47, 43 R301). -/
def ggttCtx (s : State) (src : Source) : Ctx := legacyCtx src .ggtt (ctxIdOf s src) 0

section
variable {s : State} {elem : Word64} {r : Request}

/-- The context is `ggttCtx` for an address below 4 GB, and for another there is none (30 R191, 93 U14). -/
theorem contextOf_ggtt {src : Source} (hfit : fitsRow 0x10B 0x00B elem = true)
    (hholds : Rules.holdsLegacy s elem src = true) (va : Word64) :
    contextOf s src va =
      (require (decide (va.toNat < 2 ^ 32)) .vaOutOfRange >>= fun _ => .ok (s, ggttCtx s src)) := by
  cases src with
  | engine e =>
    obtain ⟨d, H⟩ := holdsDesc_ggtt hfit hholds
    have hid : ctxIdOf s (.engine e) = elemCtxId d := ctxIdOf_elem s e d (descReg_get_spec.mp H.get).2.symm
    simp only [contextOf, engineCtx, H.get, H.mode, H.fault, ok_bind, vaInRange, ggttCtx, hid]
  | wdbox | vebox2 | display | aperture => rfl

/-- The row is the translation from memory in that context. -/
theorem exec_xlateGgtt_held (hwf : WellFormed (.xlateGgtt elem r)) (hopen : gateOpen s none r.src = true)
    (hholds : Rules.holdsLegacy s elem r.src = true) :
    exec (.xlateGgtt elem r) s = toOutcome (require (decide (r.va.toNat < 2 ^ 32)) .vaOutOfRange >>= fun _ =>
      translateIn s (ggttCtx s r.src) noCache r) := by
  obtain ⟨hfit, hrwf⟩ := Bool.and_eq_true_iff.mp hwf
  have hrow : exec (.xlateGgtt elem r) s = toOutcome (translate noCache none r s) :=
    congrArg toOutcome (rowXlate_of_applies (rowApplies_ggtt hfit hholds))
  rw [hrow, translate_of_gateOpen hrwf hopen, contextOf_ggtt hfit hholds, bind_assoc']
  rfl

theorem exec_xlateGgtt_outOfRange (hwf : WellFormed (.xlateGgtt elem r)) (hopen : gateOpen s none r.src = true)
    (hholds : Rules.holdsLegacy s elem r.src = true) (hva : ¬ r.va.toNat < 2 ^ 32) :
    exec (.xlateGgtt elem r) s = .refused .vaOutOfRange := by
  rw [exec_xlateGgtt_held hwf hopen hholds, decide_eq_false hva]; rfl

/-- Below 4 GB and without TR-TT, the walk of that context alone decides the end. -/
theorem exec_xlateGgtt_inRange (hwf : WellFormed (.xlateGgtt elem r)) (hopen : gateOpen s none r.src = true)
    (hholds : Rules.holdsLegacy s elem r.src = true) (hoff : Rules.trttOff s r.src = true) (hva : r.va.toNat < 2 ^ 32) :
    exec (.xlateGgtt elem r) s = toOutcome (finalXlate s (ggttCtx s r.src) noCache r r.va none) := by
  rw [exec_xlateGgtt_held hwf hopen hholds, decide_eq_true hva, require_true, ok_bind,
    translateIn_noCache (trtt_off hoff _) rfl]

/-! ## The walk and its ends -/

/-- The pseudo-code refuses an address of 4 GB or more (30 R191). -/
theorem ggtt_outOfRange {va : Word64} (hva : ¬ va.toNat < 2 ^ 32) : Rules.ggtt s va = refuse .vaOutOfRange := by
  rw [Rules.ggtt, decide_eq_false hva]; rfl

theorem lt_of_ggtt_ok {va : Word64} {x : XlateEnd} (h : Rules.ggtt s va = .ok x) : va.toNat < 2 ^ 32 := by
  by_contra hva
  rw [ggtt_outOfRange hva] at h
  cases h

/-- Below 4 GB the walk from memory is the pseudo-code of 43 R300. -/
theorem sameEnd_rowEnv_ggtt (hhaw : 6 ≤ s.plat.haw) (hva : r.va.toNat < 2 ^ 32) :
    SameEnd s (Rules.ggtt s r.va) (walkOnce s (rowEnv (ggttCtx s r.src) r)) :=
  sameEnd_ggtt s (rowEnv (ggttCtx s r.src) r) rfl (legacyCtx_env _ rfl rfl) hhaw hva

/-- A translation may reach every address but those that the rules keep from the CPU (20 R90, R92; log 43). -/
theorem mayReach_eq (p : Platform) (r : Request) (pa : Nat) : mayReach p r pa = !Rules.gsmByCpu p r pa := by
  rw [mayReach, Rules.gsmByCpu, touches, Bool.and_assoc]

/-- The end of a walk that neither takes a fault without a context nor leads the CPU into the global table. -/
theorem finalXlate_ggtt (hhaw : 6 ≤ s.plat.haw) (hva : r.va.toNat < 2 ^ 32)
    (hfault : ∀ reason level, Rules.ggtt s r.va = .ok (.fault reason level) → Rules.noContext r.src = false)
    (hphys : ∀ pa attrs, Rules.ggtt s r.va = .ok (.phys pa attrs) → Rules.gsmByCpu s.plat r pa = false) :
    EndsRes (finalXlate s (ggttCtx s r.src) noCache r r.va none) (Rules.still s (Rules.ggtt s r.va))
      fun t x => Rules.endLegacy t r (ctxIdOf s r.src) x := by
  refine final_legacy s r (ggttCtx s r.src) noCache r.va none _ rfl rfl
    (walk_plain rfl rfl (sameEndAdv_still (sameEnd_rowEnv_ggtt hhaw hva)))
    (fun t x h => (ends_ggtt s r.va).h x (still_ok.mp h).2) (fun t reason level h => ?fault) (fun t pa attrs h => ?phys)
  case fault => exact hfault reason level (still_ok.mp h).2
  case phys =>
    obtain ⟨rfl, hx⟩ := still_ok.mp h
    rw [mayReach_eq, hphys pa attrs hx]; rfl

/-- Where the pseudo-code answers an end, the translation of the address in that context ends there. -/
theorem xlate_ggtt_ok (hhaw : 6 ≤ s.plat.haw) {x : XlateEnd} (hx : Rules.ggtt s r.va = .ok x) :
    ∃ w, xlate s ⟨ggttCtx s r.src, noCache, r.client.tlbGroup, r.va, r.acc.isWrite, r.er⟩ = .ok (s, x, w) := by
  have hsame := sameEnd_rowEnv_ggtt hhaw (lt_of_ggtt_ok hx)
  rw [hx] at hsame
  obtain ⟨w, hw⟩ := hsame
  exact ⟨w, (xlate_noTlb _ _ _ _ _ _ _ rfl).trans ((walk_noCache _ _ rfl rfl).trans hw)⟩

/-- A CPU access that the table leads into its own memory is refused (20 R90, R92; log 43). -/
theorem finalXlate_ggtt_gsmByCpu (hhaw : 6 ≤ s.plat.haw) {pa : Nat} {attrs : Attrs}
    (hx : Rules.ggtt s r.va = .ok (.phys pa attrs)) (hgsm : Rules.gsmByCpu s.plat r pa = true) :
    finalXlate s (ggttCtx s r.src) noCache r r.va none = refuse .stolenNotVisible := by
  obtain ⟨w, hw⟩ := xlate_ggtt_ok hhaw hx
  have hreach : mayReach (setWalked s (joinRec w none)).plat r pa = false := by
    rw [mayReach_eq]; exact congrArg not hgsm
  simp only [finalXlate, hw, ok_bind, hreach, require_false, refuse_bind]

/-- Fault and Hang for a source that has no context to hang (60 R478, R485). -/
theorem takePageFault_noContext {c : Ctx} (hfm : c.fm = .hang) (hsrc : Rules.noContext r.src = true) (va : Word64)
    (reason : FaultReason) (tr : Option TrPoint) : takePageFault s c r va reason tr = refuse .notPresentNoContext := by
  rw [takePageFault, hfm]
  cases hr : r.src with
  | display | aperture => rfl
  | engine | wdbox | vebox2 => rw [hr] at hsrc; cases hsrc

theorem finalXlate_ggtt_noContext (hhaw : 6 ≤ s.plat.haw) {reason : FaultReason} {level : Nat}
    (hx : Rules.ggtt s r.va = .ok (.fault reason level)) (hsrc : Rules.noContext r.src = true) :
    finalXlate s (ggttCtx s r.src) noCache r r.va none = refuse .notPresentNoContext := by
  obtain ⟨w, hw⟩ := xlate_ggtt_ok hhaw hx
  have hfm : (ggttCtx s r.src).fm = .hang := rfl
  simp only [finalXlate, hw, ok_bind, takePageFault_noContext hfm hsrc]

end

/-- Settles O23: an address of 4 GB or more is refused by the row as by the pseudo-code; below, the row is the end of its
walk, which `finalXlate_ggtt` and the two refusals give. -/
theorem xlateGgtt : Obligations.XlateGgtt := by
  intro s elem r hwf hopen hholds hoff hhaw
  have hrow {x : XlateEnd} (hx : Rules.ggtt s r.va = .ok x) :=
    exec_xlateGgtt_inRange hwf hopen hholds hoff (lt_of_ggtt_ok hx)
  refine ⟨fun x hx hcontext hgsm => ?next, fun pa attrs hx hgsm => ?stolen, fun hx hsrc => ?noContext, fun z hz => ?error⟩
  case next =>
    have hfault (reason : FaultReason) (level : Nat) (hf : Rules.ggtt s r.va = .ok (.fault reason level)) :
        Rules.noContext r.src = false := by
      rcases hcontext with hc | ⟨pa, attrs, rfl⟩
      · exact hc
      · rw [hx] at hf; cases hf
    have hphys (pa : Nat) (attrs : Attrs) (hp : Rules.ggtt s r.va = .ok (.phys pa attrs)) :
        Rules.gsmByCpu s.plat r pa = false :=
      hgsm pa attrs (Except.ok.inj (hx.symm.trans hp))
    rw [hrow hx]
    exact (ends_of_still (finalXlate_ggtt hhaw (lt_of_ggtt_ok hx) hfault hphys)).1 x hx
  case stolen => rw [hrow hx, finalXlate_ggtt_gsmByCpu hhaw hx hgsm]; rfl
  case noContext => rw [hrow hx, finalXlate_ggtt_noContext hhaw hx hsrc]; rfl
  case error =>
    by_cases hva : r.va.toNat < 2 ^ 32
    · rw [exec_xlateGgtt_inRange hwf hopen hholds hoff hva]
      exact (ends_of_still (finalXlate_ggtt hhaw hva (fun _ _ h => by rw [hz] at h; cases h)
        (fun _ _ h => by rw [hz] at h; cases h))).2 z hz
    · rw [ggtt_outOfRange hva] at hz
      cases hz
      exact exec_xlateGgtt_outOfRange hwf hopen hholds hva

end Sys2Proof.Machine
end

section
/-! Programming the global GTT from the CPU: its window in GTTMMADR, the two rows of it, and the accesses that do not reach the
table (43 R303, 20 R90, R92, R97). -/

namespace Sys2Proof.Machine

/-! ## The two rows of the window -/

theorem aliasLegal_inside {p : Platform} {off n : Nat} (ha : off % n = 0) (hin : off + n ≤ p.gsmSize) :
    aliasLegal p off n = .ok () := by
  simp only [aliasLegal, ha, hin, beq_self_eq_true, decide_true, require_true, ok_bind]

theorem aliasLegal_misaligned (p : Platform) {off n : Nat} (ha : off % n ≠ 0) :
    aliasLegal p off n = refuse .accessIllegal := by
  rw [aliasLegal, beq_eq_false_iff_ne.mpr ha]; rfl

section
variable {s : State} {off : BitVec 23} {w : Width}

/-- A write of bytes inside the address space: its effect on memory, and nothing else. -/
theorem memWrite_inside {pa : Nat} {d : List Byte} (hw : Memory.wf s.mem = true) (hin : pa + d.length ≤ 2 ^ s.plat.haw) :
    ∃ t, memWrite s pa d = .ok t ∧ t.mem.bytes pa d.length = d ∧ sameOutside s t pa d.length ∧
      t = { s with mem := t.mem } := by
  have hwrite : memWrite s pa d = .ok (s.setMem (s.mem.setBytes pa d)) := memWrite_spec.mpr ⟨decide_eq_true hin, rfl⟩
  exact ⟨_, hwrite, Memory.bytes_setBytes_same s.mem pa d hw, memWrite_outside hw hwrite, rfl⟩

theorem exec_gttWrite_inside (v : Word64) (hw : Memory.wf s.mem = true) (ha : off.toNat % w.bytes = 0)
    (hin : off.toNat + w.bytes ≤ s.plat.gsmSize) (hspace : s.plat.gsmBase + off.toNat + w.bytes ≤ 2 ^ s.plat.haw) :
    ∃ t, exec (.gttWrite off w v) s = .next t ∧
      t.mem.bytes (s.plat.gsmBase + off.toNat) w.bytes = leBytes w.bytes v.toNat ∧
      sameOutside s t (s.plat.gsmBase + off.toNat) w.bytes ∧ t = { s with mem := t.mem } := by
  have hlen : (leBytes w.bytes v.toNat).length = w.bytes := length_leBytes _ _
  obtain ⟨t, hwrite, hbytes, houtside, hframe⟩ := memWrite_inside (d := leBytes w.bytes v.toNat) hw (hlen.symm ▸ hspace)
  rw [hlen] at hbytes houtside
  have hstore : aliasWrite off.toNat (leBytes w.bytes v.toNat) s = .ok t := by
    rw [aliasWrite, hlen, aliasLegal_inside ha hin, ok_bind, hwrite]
  exact ⟨t, congrArg toOutcome hstore, hbytes, houtside, hframe⟩

theorem exec_gttRead_inside (ha : off.toNat % w.bytes = 0) (hin : off.toNat + w.bytes ≤ s.plat.gsmSize)
    (hspace : s.plat.gsmBase + off.toNat + w.bytes ≤ 2 ^ s.plat.haw) :
    exec (.gttRead off w) s =
      .next (s.emit (.cpuData (leNat (s.mem.bytes (s.plat.gsmBase + off.toNat) w.bytes)))) := by
  have hread : memRead s (s.plat.gsmBase + off.toNat) w.bytes = .ok (s.mem.bytes (s.plat.gsmBase + off.toNat) w.bytes) :=
    memRead_spec.mpr ⟨decide_eq_true hspace, rfl⟩
  have hload : aliasRead off.toNat w.bytes s =
      .ok (s.emit (.cpuData (leNat (s.mem.bytes (s.plat.gsmBase + off.toNat) w.bytes)))) := by
    rw [aliasRead, aliasLegal_inside ha hin, ok_bind, hread, ok_bind]
  exact congrArg toOutcome hload

theorem exec_gttWrite_misaligned (v : Word64) (ha : off.toNat % w.bytes ≠ 0) :
    exec (.gttWrite off w v) s = .refused .accessIllegal := by
  have hstore : aliasWrite off.toNat (leBytes w.bytes v.toNat) s = refuse .accessIllegal := by
    rw [aliasWrite, length_leBytes, aliasLegal_misaligned _ ha, refuse_bind]
  exact congrArg toOutcome hstore

theorem exec_gttRead_misaligned (ha : off.toNat % w.bytes ≠ 0) : exec (.gttRead off w) s = .refused .accessIllegal := by
  have hload : aliasRead off.toNat w.bytes s = refuse .accessIllegal := by
    rw [aliasRead, aliasLegal_misaligned _ ha, refuse_bind]
  exact congrArg toOutcome hload

/-! ## CPU accesses in the window -/

theorem aliasSize_bytes (w : Width) : aliasSize w.bytes = true := by cases w <;> rfl

theorem aliasSize_eq_false {n : Nat} (h : ∀ x : Width, n ≠ x.bytes) : aliasSize n = false := by
  have h1 : n ≠ 1 := h .b1
  have h2 : n ≠ 2 := h .b2
  have h4 : n ≠ 4 := h .b4
  have h8 : n ≠ 8 := h .b8
  simp only [aliasSize, beq_eq_false_iff_ne.mpr h1, beq_eq_false_iff_ne.mpr h2, beq_eq_false_iff_ne.mpr h4,
    beq_eq_false_iff_ne.mpr h8, Bool.or_self]

/-- An address in the upper 8 MB of GTTMMADR belongs to the window, however long the access (20 R88, R90). -/
theorem regionOf_gttAlias (p : Platform) (off : BitVec 23) (n : Nat) :
    regionOf p (p.gttmmadrBase + 0x800000 + off.toNat) n = .ok (.gttAlias off.toNat) := by
  have hoff : off.toNat < 2 ^ 23 := off.isLt
  have ht : touches p.gttmmadrBase 0x1000000 (p.gttmmadrBase + 0x800000 + off.toNat) 1 = true := by
    simp only [touches, Bool.and_eq_true, decide_eq_true_eq]; omega
  have hplace : p.gttmmadrBase + 0x800000 + off.toNat - p.gttmmadrBase = 0x800000 + off.toNat := by omega
  rw [regionOf, ht, if_pos rfl, hplace, if_neg (by omega), if_neg (by omega), Nat.add_sub_cancel_left]

variable {use : CacheUse} {d : List Byte} {n : Nat} {rest : List Input}

theorem step_cpuWrite_gttAlias
    (hq : s.inputs = .cpuWrite (s.plat.gttmmadrBase + 0x800000 + off.toNat) d use :: rest) :
    step s = toOutcome (require (aliasSize d.length) .accessIllegal >>= fun _ =>
      aliasWrite off.toNat d (s.setInputs rest)) := by
  rw [step_of_event hq nofun, envStep, cpuWrite, setInputs_plat, regionOf_gttAlias]; rfl

theorem step_cpuRead_gttAlias
    (hq : s.inputs = .cpuRead (s.plat.gttmmadrBase + 0x800000 + off.toNat) n use :: rest) :
    step s = toOutcome (require (aliasSize n) .accessIllegal >>= fun _ => aliasRead off.toNat n (s.setInputs rest)) := by
  rw [step_of_event hq nofun, envStep, cpuRead, setInputs_plat, regionOf_gttAlias]; rfl

theorem step_cpuWrite_gttWrite {v : Word64}
    (hq : s.inputs = .cpuWrite (s.plat.gttmmadrBase + 0x800000 + off.toNat) (leBytes w.bytes v.toNat) use :: rest) :
    step s = exec (.gttWrite off w v) (s.setInputs rest) := by
  rw [step_cpuWrite_gttAlias hq, length_leBytes, aliasSize_bytes]; rfl

theorem step_cpuRead_gttRead
    (hq : s.inputs = .cpuRead (s.plat.gttmmadrBase + 0x800000 + off.toNat) w.bytes use :: rest) :
    step s = exec (.gttRead off w) (s.setInputs rest) := by
  rw [step_cpuRead_gttAlias hq, aliasSize_bytes]; rfl

theorem step_cpuWrite_gttAlias_width
    (hq : s.inputs = .cpuWrite (s.plat.gttmmadrBase + 0x800000 + off.toNat) d use :: rest)
    (hd : ∀ x : Width, d.length ≠ x.bytes) : step s = .refused .accessIllegal := by
  rw [step_cpuWrite_gttAlias hq, aliasSize_eq_false hd]; rfl

theorem step_cpuRead_gttAlias_width
    (hq : s.inputs = .cpuRead (s.plat.gttmmadrBase + 0x800000 + off.toNat) n use :: rest)
    (hn : ∀ x : Width, n ≠ x.bytes) : step s = .refused .accessIllegal := by
  rw [step_cpuRead_gttAlias hq, aliasSize_eq_false hn]; rfl

/-! ## Accesses that do not reach the table -/

/-- An access that begins in the memory of the global table, outside both apertures, is one to stolen memory (20 R90, R92; log
24). -/
theorem regionOf_gsm {p : Platform} {a n : Nat} (hn : 0 < n) (hlo : p.gsmBase ≤ a) (hhi : a < p.gsmBase + p.gsmSize)
    (hgmadr : a < p.gmadrBase ∨ p.gmadrBase + p.gmadrSize ≤ a)
    (hregs : a + n ≤ p.gttmmadrBase ∨ p.gttmmadrBase + 0x1000000 ≤ a) (hgms : p.gms.toNat ≤ 128) :
    regionOf p a n = .ok .stolen := by
  have hfirst : touches p.gttmmadrBase 0x1000000 a 1 = false := touches_eq_false (by omega)
  have haperture : touches p.gmadrBase p.gmadrSize a 1 = false := touches_eq_false (by omega)
  have hany : touches p.gttmmadrBase 0x1000000 a n = false := touches_eq_false hregs
  have hgsm : touches p.gsmBase p.gsmSize a n = true := by
    simp only [touches, Bool.and_eq_true, decide_eq_true_eq]; omega
  simp only [regionOf, hfirst, haperture, hany, hgsm, Bool.false_eq_true, if_false, Bool.true_or, if_true, Nat.not_lt.mpr hgms]

theorem step_cpuWrite_gsm {a : Nat} (hq : s.inputs = .cpuWrite a d use :: rest) (hd : d ≠ []) (hlo : s.plat.gsmBase ≤ a)
    (hhi : a < s.plat.gsmBase + s.plat.gsmSize) (hgmadr : a < s.plat.gmadrBase ∨ s.plat.gmadrBase + s.plat.gmadrSize ≤ a)
    (hregs : a + d.length ≤ s.plat.gttmmadrBase ∨ s.plat.gttmmadrBase + 0x1000000 ≤ a) (hgms : s.plat.gms.toNat ≤ 128) :
    step s = .refused .stolenNotVisible := by
  have hregion := regionOf_gsm (List.length_pos_of_ne_nil hd) hlo hhi hgmadr hregs hgms
  rw [step_of_event hq nofun, envStep, cpuWrite, setInputs_plat, hregion]; rfl

/-- MI_UPDATE_GTT of an entry that GSM_SIZE does not provide (log 37). -/
theorem exec_miUpdateGtt_beyond {g : Word32} (v : Word64) (h : s.plat.gsmSize ≤ miOffset g) :
    exec (.miUpdateGtt g v) s = .refused .beyondGsm := by
  have hstore : miUpdate g v s = refuse .beyondGsm := by
    rw [miUpdate, decide_eq_false (Nat.not_lt.mpr h)]; rfl
  exact congrArg toOutcome hstore

end

/-- Settles O51: the two rows inside the table and misaligned, the CPU accesses that are these rows or of another width, and the
two stores that do not reach the table. -/
theorem gttProgramming : Obligations.GttProgramming := by
  refine ⟨fun s off w v hw => ⟨fun ha hin hspace => ?inside, fun ha => ?misaligned, fun use d n rest => ?cpu, ?stolen⟩,
    fun s g v hbeyond => ?beyond⟩
  case inside => exact ⟨exec_gttWrite_inside v hw ha hin hspace, exec_gttRead_inside ha hin hspace⟩
  case misaligned => exact ⟨exec_gttWrite_misaligned v ha, exec_gttRead_misaligned ha⟩
  case cpu =>
    exact ⟨step_cpuWrite_gttWrite, step_cpuRead_gttRead, step_cpuWrite_gttAlias_width, step_cpuRead_gttAlias_width⟩
  case stolen => exact fun a use d rest => step_cpuWrite_gsm
  case beyond => exact exec_miUpdateGtt_beyond v ((miOffset_eq g).symm ▸ hbeyond)

end Sys2Proof.Machine
end

section
/-! Where the entry rows stop (30 R187, R207; 44 R326; logs 9 and 12): a row of the opcode table belongs to a format of `EntryKind`,
and what the row refuses is said once for all formats. -/

namespace Sys2Proof.Machine

/-! ## The row of a format -/

/-- The row of the opcode table that takes an entry of a format (30 R140 to R170). -/
def EntryKind.row (k : EntryKind) (e : Word64) (fl64k : Bool) : Instr :=
  match k with
  | .iaPml4e => .iaPml4e e | .iaPdpePd => .iaPdpePd e | .iaPdpe1G => .iaPdpe1G e | .iaPdePt => .iaPdePt e fl64k
  | .iaPde2M => .iaPde2M e | .iaPte64K => .iaPte64K e | .iaPte4K => .iaPte4K e
  | .p32Pde => .p32Pde e | .p32Pte64K => .p32Pte64K e | .p32Pte4K => .p32Pte4K e
  | .p48Pml4e => .p48Pml4e e | .p48PdpePd => .p48PdpePd e | .p48Pdpe1G => .p48Pdpe1G e | .p48PdePt => .p48PdePt e
  | .p48Pde2M => .p48Pde2M e | .p48Pte64K => .p48Pte64K e | .p48Pte4K => .p48Pte4K e
  | .ggttPte => .ggttPte e

/-- The rows of a list of formats. -/
def rowsOf (e : Word64) (fl64k : Bool) (l : List EntryKind) : List Instr := l.map (·.row e fl64k)

/-- The seven formats of advanced contexts (30 R140 to R146). -/
def ia32eKinds : List EntryKind := [.iaPml4e, .iaPdpePd, .iaPdpe1G, .iaPdePt, .iaPde2M, .iaPte64K, .iaPte4K]

/-- The formats of legacy contexts and of the global GTT (30 R150 to R170). -/
def legacyKinds : List EntryKind :=
  [.p32Pde, .p32Pte64K, .p32Pte4K, .p48Pml4e, .p48PdpePd, .p48Pdpe1G, .p48PdePt, .p48Pde2M, .p48Pte64K, .p48Pte4K, .ggttPte]

theorem ia32eRows_eq (e : Word64) (fl64k : Bool) : Rules.ia32eRows e fl64k = rowsOf e fl64k ia32eKinds := rfl

theorem entryRows_eq (e : Word64) (fl64k : Bool) : Rules.entryRows e fl64k = rowsOf e fl64k (ia32eKinds ++ legacyKinds) := rfl

/-- The size bit, bit 7, of the formats that it tells apart: a pointer or a large page (30 R187). -/
def EntryKind.sizeBit : EntryKind → Option Bool
  | .iaPdpePd | .iaPdePt | .p48PdpePd | .p48PdePt => some false
  | .iaPdpe1G | .iaPde2M | .p48Pdpe1G | .p48Pde2M => some true
  | .iaPml4e | .iaPte64K | .iaPte4K | .p32Pde | .p32Pte64K | .p32Pte4K | .p48Pml4e | .p48Pte64K | .p48Pte4K
  | .ggttPte => none

section
variable {k : EntryKind} {e : Word64} {fl64k : Bool} {s : State}

theorem pointerEntry_iff : pointerEntry e = true ↔ bit e 0 = true ∧ bit e 7 = false :=
  ⟨fun h => ⟨fits_bit _ _ _ h 0 (by decide), fits_bit _ _ _ h 7 (by decide)⟩, fun ⟨h0, h7⟩ => pointerEntry_of_bits h0 h7⟩

theorem largeEntry_iff : largeEntry e = true ↔ bit e 0 = true ∧ bit e 7 = true :=
  ⟨fun h => ⟨fits_bit _ _ _ h 0 (by decide), fits_bit _ _ _ h 7 (by decide)⟩, fun ⟨h0, h7⟩ => largeEntry_of_bits h0 h7⟩

/-- A word is of a format if it is present and has the format's size bit, where there is one (30 R187). -/
theorem fits_iff : k.fits e = true ↔ bit e 0 = true ∧ ∀ b, k.sizeBit = some b → bit e 7 = b := by
  cases k with
  | iaPdpePd | iaPdePt | p48PdpePd | p48PdePt => simpa [EntryKind.fits, EntryKind.sizeBit] using pointerEntry_iff
  | iaPdpe1G | iaPde2M | p48Pdpe1G | p48Pde2M => simpa [EntryKind.fits, EntryKind.sizeBit] using largeEntry_iff
  | iaPml4e | iaPte64K | iaPte4K | p32Pde | p32Pte64K | p32Pte4K | p48Pml4e | p48Pte64K | p48Pte4K | ggttPte =>
    simp [EntryKind.fits, EntryKind.sizeBit, presentEntry_eq]

/-- The operand check of a row is that its word is of the row's format. -/
theorem wellFormed_row : wellFormed (k.row e fl64k) = k.fits e := by cases k <;> rfl

/-- A row is the entry rule of its format; FL64KPE matters to a page directory entry only (44 R321). -/
theorem exec_row : ∃ fl, exec (k.row e fl64k) s = toOutcome (rowEntry k fl e s) := by
  cases k with
  | iaPdePt => exact ⟨fl64k, rfl⟩
  | _ => exact ⟨false, rfl⟩

/-! ## What a row refuses -/

theorem exec_row_of_not_fits (h : k.fits e = false) : exec (k.row e fl64k) s = .refused .entryPattern := by
  obtain ⟨fl, hexec⟩ := exec_row (k := k)
  rw [hexec, rowEntry, h]; rfl

/-- A word that is not present is of no format. -/
theorem exec_row_of_notPresent (h : bit e 0 = false) : exec (k.row e fl64k) s = .refused .entryPattern := by
  refine exec_row_of_not_fits (Bool.eq_false_iff.mpr fun hfit => ?_)
  obtain ⟨h0, -⟩ := fits_iff.mp hfit
  rw [h0] at h; cases h

/-- A word with the other size bit is of another format. -/
theorem exec_rows_of_otherSize {b : Bool} {l : List EntryKind} (hl : ∀ k ∈ l, k.sizeBit = some b) (h : bit e 7 = !b) :
    ∀ i ∈ rowsOf e fl64k l, exec i s = .refused .entryPattern := by
  refine List.forall_mem_map.mpr fun k hk => exec_row_of_not_fits (Bool.eq_false_iff.mpr fun hfit => ?_)
  obtain ⟨-, h7⟩ := fits_iff.mp hfit
  rw [h7 b (hl k hk)] at h
  exact Bool.not_ne_self b h.symm

theorem exec_row_of_reserved (hfit : k.fits e = true) (hres : k.reservedSet s.plat.haw e = true) :
    exec (k.row e fl64k) s = .refused .reservedBits := by
  obtain ⟨fl, hexec⟩ := exec_row (k := k)
  rw [hexec, rowEntry, hfit, takeEntry, hres]; rfl

/-- Bits 51:HAW are Reserved in every IA32e format (44 R326). -/
theorem reservedSet_of_high (hk : k.isIa32e = true) {haw : Nat} (h : field e haw (52 - haw) ≠ 0) :
    k.reservedSet haw e = true := by
  simp [EntryKind.reservedSet, hk, h]

end

/-- Settles O18: each row is that of a format, and the bits decide which of the two refusals it is. -/
theorem entryRowsRefuse : Obligations.EntryRowsRefuse := by
  intro s e fl64k
  refine ⟨fun h0 => ?notPresent, fun h7 => ?pointer, fun h7 => ?large, fun haddr => ?high, fun h0 => ?low⟩
  case notPresent =>
    rw [entryRows_eq]
    exact List.forall_mem_map.mpr fun k _ => exec_row_of_notPresent h0
  case pointer =>
    exact exec_rows_of_otherSize (b := false) (l := [.iaPdpePd, .iaPdePt, .p48PdpePd, .p48PdePt]) (fl64k := fl64k)
      (by decide) h7
  case large =>
    exact exec_rows_of_otherSize (b := true) (l := [.iaPdpe1G, .iaPde2M, .p48Pdpe1G, .p48Pde2M]) (fl64k := fl64k)
      (by decide) h7
  case high =>
    have hia32e : ∀ k ∈ ia32eKinds, k.isIa32e = true := by decide
    rw [ia32eRows_eq]
    exact List.forall_mem_map.mpr fun k hk hwf =>
      exec_row_of_reserved (wellFormed_row.symm.trans hwf) (reservedSet_of_high (hia32e k hk) haddr)
  case low =>
    have hpres := presentEntry_of_bit h0
    refine ⟨fun h7 => exec_row_of_reserved (k := .iaPml4e) (fl64k := fl64k) hpres ?_,
      fun h7 hlow => exec_row_of_reserved (k := .iaPdpe1G) (fl64k := fl64k) (largeEntry_of_bits h0 h7) ?_,
      fun h7 hlow => exec_row_of_reserved (k := .iaPde2M) (fl64k := fl64k) (largeEntry_of_bits h0 h7) ?_,
      fun hlow => exec_row_of_reserved (k := .iaPte64K) (fl64k := fl64k) hpres ?_⟩
    all_goals simp [EntryKind.reservedSet, EntryKind.isIa32e, *]

end Sys2Proof.Machine
end

section
/-! TLB.FILL and the record of walks that it uses up (46 R385, R388, R390, R394, R397; logs 14 and 42): what a fill puts into the
caches, what a walk records while it reads entries and when it ends, and what a translation without TR-TT stage leaves behind. -/

namespace Sys2Proof.Machine

/-! ## Filling the caches -/

section
variable {α : Type} {same : α → α → Bool} {new old : List α} {x : α}

theorem mem_refresh : x ∈ refresh same new old ↔ x ∈ new ∨ (x ∈ old ∧ ¬ ∃ y ∈ new, same y x = true) := by
  simp [refresh]

/-- A cache whose part of the record is not chosen is as before. -/
theorem mem_ite_refresh {chosen : Bool} : x ∈ (if chosen then refresh same new old else old) ↔
    (chosen = true ∧ x ∈ new) ∨ (x ∈ old ∧ ¬ (chosen = true ∧ ∃ y ∈ new, same y x = true)) := by
  cases chosen with
  | false => simp
  | true => simp only [if_true, mem_refresh, true_and]

theorem refresh_nil (same : α → α → Bool) (new : List α) : refresh same new [] = new := List.append_nil new

/-- What holds of the new items and of the old ones holds of the refreshed ones. -/
theorem forall_mem_refresh {P : α → Prop} (hnew : ∀ x ∈ new, P x) (hold : ∀ x ∈ old, P x) :
    ∀ x ∈ refresh same new old, P x := by
  intro x hx
  rcases mem_refresh.mp hx with hx | ⟨hx, -⟩
  · exact hnew x hx
  · exact hold x hx

end

theorem TlbEntry.sameSlot_iff {x y : TlbEntry} :
    x.sameSlot y = true ↔ x.tag = y.tag ∧ x.group = y.group ∧ x.bits = y.bits ∧ x.page = y.page := by
  simp [TlbEntry.sameSlot, and_assoc]

theorem PwcEntry.sameSlot_iff {x y : PwcEntry} : x.sameSlot y = true ↔ x.tag = y.tag ∧ x.addr = y.addr := by
  simp [PwcEntry.sameSlot]

theorem GttLine.sameSlot_iff {x y : GttLine} : x.sameSlot y = true ↔ x.base = y.base := by
  simp [GttLine.sameSlot]

theorem TrEntry.sameSlot_iff {x y : TrEntry} : x.sameSlot y = true ↔ x.tag = y.tag ∧ x.tile = y.tile := by
  simp [TrEntry.sameSlot]

/-- A fill changes the caches and uses the record up. -/
theorem tlbFill_eq (sel : FillSel) (s : State) :
    tlbFill sel s = { s with caches := (tlbFill sel s).caches, walker := ⟨s.walker.stage, none⟩ } := by
  unfold tlbFill
  split
  · next h => rw [← h]
  · rfl

theorem tlbFill_caches_of_none {sel : FillSel} {s : State} (h : s.walker.walked = none) :
    (tlbFill sel s).caches = s.caches := by
  rw [tlbFill, h]

theorem tlbFill_caches_of_some {sel : FillSel} {s : State} {w : WalkRecord} (h : s.walker.walked = some w) :
    (tlbFill sel s).caches = s.caches.fill sel w := by
  rw [tlbFill, h]; rfl

/-! ## Items that a walk may record -/

/-- A pointer that a walk in a context may leave in the page-walk caches: present, accessed under A&D support, and not one that
a write has left unchanged (46 R390, 44 R325). -/
structure PwcEntry.Allowed (c : Ctx) (wr : Bool) (x : PwcEntry) : Prop where
  tag : x.tag = c.tag
  present : bit x.entry 0 = true
  accessed : c.ad = true → bit x.entry 5 = true
  writable : c.ad = true → wr = true → c.wp = true → bit x.entry 1 = true

/-- A line that a walk in a context may leave in the GTT cache (46 R394). -/
structure GttLine.Allowed (c : Ctx) (g : Regs) (x : GttLine) : Prop where
  tag : x.tag = c.tag
  enabled : g.gttCacheEnable = true

/-- A log of a walk holds such pointers, and such a line. -/
structure WalkLog.Allowed (g : Regs) (env : WalkEnv) (log : WalkLog) : Prop where
  pwc : ∀ x ∈ log.pwc, PwcEntry.Allowed env.ctx env.wr x
  gtt : ∀ x ∈ log.gtt, GttLine.Allowed env.ctx g x

/-- What the reading of entries has logged, however it ended. -/
def WalkEnd.log : WalkEnd → WalkLog
  | .leaf _ _ log => log
  | .notPresent _ log => log
  | .abandoned log => log

section
variable {s t : State} {g : Regs} {env : WalkEnv} {log : WalkLog} {level addr tbl : Nat} {line : Option GttLine}

theorem WalkLog.allowed_start : WalkLog.Allowed g env ⟨[], none, []⟩ := ⟨nofun, nofun⟩

theorem WalkLog.Allowed.addTable (h : log.Allowed g env) : (log.addTable env level tbl).Allowed g env := by
  unfold WalkLog.addTable
  split
  · exact ⟨h.pwc, h.gtt⟩
  · exact h

/-- A present pointer is logged only if it is accessed and, met by a write, writable. -/
theorem WalkLog.Allowed.addPointer {e : Word64} (h : log.Allowed g env) (he : bit e 0 = true) (cached : Bool) :
    (log.addPointer env cached level addr e).Allowed g env := by
  unfold WalkLog.addPointer
  split
  · exact h
  · next hkeep =>
    obtain ⟨haccessed, hwritable⟩ : (env.ctx.ad = true → bit e 5 = true) ∧
        (env.ctx.ad = true → env.wr = true → env.ctx.wp = true → bit e 1 = true) := by
      simp_all [WalkEnv.unchanged]
    exact ⟨List.forall_mem_cons.mpr ⟨⟨rfl, he, haccessed, hwritable⟩, h.pwc⟩, h.gtt⟩

theorem WalkLog.Allowed.setLine (h : log.Allowed g env) (hline : ∀ x ∈ line, GttLine.Allowed env.ctx g x) :
    WalkLog.Allowed g env { log with gtt := line } := ⟨h.pwc, hline⟩

/-! ## Reading the entries of a walk -/

theorem fetchMemory_regs {e : Option Word64} (h : fetchMemory s env level addr = .ok (t, e)) : t.regs = s.regs := by
  unfold fetchMemory at h
  split at h
  · rcases apu_spec.mp h with ⟨-, -, old, -, hx⟩ | ⟨-, hx⟩ <;> cases hx <;> rfl
  · simp only [bind_ok, Except.ok.injEq, Prod.mk.injEq] at h
    obtain ⟨_, -, rfl, -⟩ := h; rfl

theorem readLine_allowed (h : readLine s env.ctx.tag addr = .ok line) :
    ∀ x ∈ line, GttLine.Allowed env.ctx s.regs x := by
  unfold readLine at h
  split at h
  · next hon =>
    simp only [bind_ok, Except.ok.injEq] at h
    obtain ⟨_, -, rfl⟩ := h
    rintro x ⟨⟩
    exact ⟨rfl, hon⟩
  · cases h; nofun

/-- A fetch keeps the registers, and brings a line along only while the GTT cache is on. -/
theorem fetchEntry_allowed {e : Option Word64} (h : fetchEntry s env level addr = .ok (t, e, line)) :
    t.regs = s.regs ∧ ∀ x ∈ line, GttLine.Allowed env.ctx s.regs x := by
  unfold fetchEntry at h
  split at h
  · cases h; exact ⟨rfl, nofun⟩
  · simp only [bind_ok] at h
    obtain ⟨⟨u, e'⟩, hu, h⟩ := h
    have hregs := fetchMemory_regs hu
    split at h
    · simp only [bind_ok, Except.ok.injEq, Prod.mk.injEq] at h
      obtain ⟨l, hl, rfl, -, rfl⟩ := h
      exact ⟨hregs, hregs ▸ readLine_allowed hl⟩
    · cases h; exact ⟨hregs, nofun⟩

/-- Whatever levels a walk reads, its log holds only what it may record. -/
theorem walkLevels_allowed (levels : List Nat) {st : Stage} {w : WalkEnd} (hregs : s.regs = g) (hlog : log.Allowed g env)
    (h : walkLevels env levels s tbl st log = .ok (t, w)) : w.log.Allowed g env := by
  induction levels generalizing s tbl st log with
  | nil => simp [walkLevels] at h
  | cons level rest ih =>
    simp only [walkLevels, bind_ok] at h
    obtain ⟨⟨u, e, line⟩, hu, h⟩ := h
    obtain ⟨hu, hline⟩ := fetchEntry_allowed hu
    rw [hregs] at hu hline
    have htable := hlog.addTable (level := level) (tbl := tbl)
    split at h
    · cases h; exact htable
    · split at h
      · next hpresent =>
        split at h
        · simp at h
        · simp only [bind_ok] at h
          obtain ⟨st', -, h⟩ := h
          split at h
          · simp only [bind_ok] at h
            obtain ⟨tbl', -, h⟩ := h
            exact ih hu (htable.addPointer hpresent _) h
          · simp only [bind_ok, Except.ok.injEq, Prod.mk.injEq] at h
            obtain ⟨_, -, -, rfl⟩ := h
            exact htable.setLine hline
          all_goals simp at h
      · cases h; exact htable.setLine hline

end

/-! ## What a walk records -/

/-- A TLB entry says how the walk of its address ended (46 R385, R388; logs 36 and 47). -/
def TlbEntry.Tells (p : Platform) (env : WalkEnv) (x : TlbEntry) : XlateEnd → Prop
  | .phys pa attrs => x.reason = none ∧ x.null = false ∧ x.attrs = attrs.cached ∧ x.nested = env.ctx.nested ∧
      secondLevel p env.ctx.nested (x.frame + env.va.toNat % 2 ^ x.bits) = .ok pa
  | .null => x.reason = none ∧ x.null = true
  | .fault reason _ => x.reason = some reason ∧ env.ctx.sendsRequest = true
  | .filtered _ => False
  | .abandoned => False

/-- A record is one of a walk of the tables of a context that ended so: at most one TLB entry, for the address walked, which
tells the end; pointers and lines as they may be cached; and no TR-TT result. -/
structure WalkRecord.OfWalk (p : Platform) (g : Regs) (env : WalkEnv) (x : XlateEnd) (w : WalkRecord) : Prop where
  tr : w.tr = []
  single : w.tlb.length ≤ 1
  slot : ∀ y ∈ w.tlb, y.tag = env.ctx.tag ∧ y.group = env.group ∧ y.page = env.va.toNat / 2 ^ y.bits
  tells : ∀ y ∈ w.tlb, y.Tells p env x
  pwc : ∀ y ∈ w.pwc, PwcEntry.Allowed env.ctx env.wr y
  gtt : ∀ y ∈ w.gtt, GttLine.Allowed env.ctx g y

section
variable {s t : State} {p : Platform} {g : Regs} {env : WalkEnv} {x y : XlateEnd} {w : Option WalkRecord} {log : WalkLog}

/-- Which copies a walk used takes no part in what its record says. -/
theorem WalkRecord.OfWalk.of_use {v : WalkRecord} {use : CacheUse} (h : v.OfWalk p g { env with use := use } x) :
    v.OfWalk p g env x :=
  ⟨h.tr, h.single, h.slot, by cases x <;> exact h.tells, h.pwc, h.gtt⟩

theorem WalkLog.Allowed.record_nil (h : log.Allowed g env) (x : XlateEnd) : (log.record []).OfWalk p g env x where
  tr := rfl
  single := Nat.zero_le _
  slot := List.forall_mem_nil _
  tells := List.forall_mem_nil _
  pwc := h.pwc
  gtt y hy := h.gtt y (Option.mem_toList.mp hy)

/-- The record of a walk that ended without a fault. -/
theorem WalkLog.Allowed.record_entry (h : log.Allowed g env) {st : Stage} {bits frame : Nat} {null : Bool}
    (htells : (tlbEntryOf env st bits frame null).Tells p env x) :
    (log.record [tlbEntryOf env st bits frame null]).OfWalk p g env x where
  tr := rfl
  single := Nat.le_refl _
  slot := List.forall_mem_singleton.mpr ⟨rfl, rfl, rfl⟩
  tells := List.forall_mem_singleton.mpr htells
  pwc := h.pwc
  gtt y hy := h.gtt y (Option.mem_toList.mp hy)

/-- The record of a walk that faulted: with a faulted entry where a page request is sent (46 R388). -/
theorem WalkLog.Allowed.faultRecord (h : log.Allowed g env) (reason : FaultReason) (level : Nat) :
    (faultRecord env reason log).OfWalk p g env (.fault reason level) := by
  have hnil := h.record_nil (p := p) (.fault reason level)
  unfold Machine.faultRecord
  split
  · next hsends =>
    exact ⟨rfl, Nat.le_refl _, List.forall_mem_singleton.mpr ⟨rfl, rfl, rfl⟩,
      List.forall_mem_singleton.mpr ⟨rfl, hsends⟩, h.pwc, hnil.gtt⟩
  · exact hnil

theorem finishLeaf_record {level : Nat} {st : Stage} {bits frame : Nat} {null : Bool} (hlog : log.Allowed g env)
    (h : finishLeaf s env level st log bits frame null = .ok (t, x, w)) : ∀ v ∈ w, v.OfWalk s.plat g env x := by
  unfold finishLeaf at h
  split at h
  · next hnull =>
    cases h
    rintro v ⟨⟩
    exact hlog.record_entry ⟨rfl, hnull⟩
  · next hnull =>
    split at h
    · cases h
      rintro v ⟨⟩
      exact hlog.faultRecord _ _
    · simp only [bind_ok, Except.ok.injEq, Prod.mk.injEq] at h
      obtain ⟨pa, hpa, -, rfl, rfl⟩ := h
      rintro v ⟨⟩
      exact hlog.record_entry ⟨rfl, Bool.eq_false_iff.mpr hnull, rfl, rfl, hpa⟩

/-- One pass over the tables. -/
theorem walkOnce_record (ha : env.ctx.aligned) (h : walkOnce s env = .ok (t, x, w)) :
    ∀ v ∈ w, v.OfWalk s.plat s.regs env x := by
  have hplat := (walkOnce_frame ha h).plat
  rw [walkOnce_eq] at h
  simp only [bind_ok] at h
  obtain ⟨tbl, -, ⟨u, z⟩, hz, h⟩ := h
  have hlog := walkLevels_allowed _ rfl WalkLog.allowed_start hz
  cases z with
  | abandoned log =>
    cases h
    rintro v ⟨⟩
    exact hlog.record_nil _
  | notPresent level log =>
    cases h
    rintro v ⟨⟩
    exact hlog.faultRecord _ _
  | leaf level st log =>
    simp only [conclude] at h
    split at h
    · rw [← hplat, finishLeaf_state h]
      exact finishLeaf_record hlog h
    all_goals simp at h

/-- A record without a TLB entry suits any end. -/
theorem WalkRecord.OfWalk.unfaulted {v : WalkRecord} (h : v.OfWalk p g env y) : v.unfaulted.OfWalk p g env x where
  tr := h.tr
  single := Nat.zero_le _
  slot := List.forall_mem_nil _
  tells := List.forall_mem_nil _
  pwc := h.pwc
  gtt := h.gtt

/-- A walk redone after a fault that is not raised: the TLB entry is that of the second pass, the other items are of both. -/
theorem WalkRecord.OfWalk.join {v : Option WalkRecord} (hw : ∀ a ∈ w, a.OfWalk p g env x)
    (hv : ∀ b ∈ v, b.OfWalk p g env y) :
    ∀ a ∈ joinRec w (v.map WalkRecord.unfaulted), a.OfWalk p g env x := by
  rcases w with _ | a <;> rcases v with _ | b
  · nofun
  · rintro _ ⟨⟩
    exact (hv b rfl).unfaulted
  · exact hw
  · rintro _ ⟨⟩
    have ha := hw a rfl
    have hb := hv b rfl
    have htlb : refresh TlbEntry.sameSlot a.tlb b.unfaulted.tlb = a.tlb := refresh_nil _ _
    exact {
      tr := by simp [ha.tr, hb.tr, WalkRecord.unfaulted, refresh_nil]
      single := (congrArg List.length htlb).trans_le ha.single
      slot := forall_mem_refresh ha.slot (List.forall_mem_nil _)
      tells := forall_mem_refresh ha.tells (List.forall_mem_nil _)
      pwc := forall_mem_refresh ha.pwc hb.pwc
      gtt := forall_mem_refresh ha.gtt hb.gtt }

/-- The walk of a context, redone where a write-protect fault may come from copies (46 R386). -/
theorem walk_record (ha : env.ctx.aligned) (h : walk s env = .ok (t, x, w)) : ∀ v ∈ w, v.OfWalk s.plat s.regs env x := by
  obtain ⟨u, ⟨hu, -⟩ | ⟨y, v, w', hu, ht, rfl⟩⟩ := walk_spec h
  · exact walkOnce_record ha hu
  · have hframe := walkOnce_frame ha hu
    have hagain := walkOnce_record (env := { env with use := noCache }) ha ht
    rw [hframe.plat, hframe.regs] at hagain
    exact .join (fun a h => (hagain a h).of_use) (walkOnce_record ha hu)

/-- An answer from the TLB records nothing, any other is a walk (46 R384). -/
theorem xlate_record (ha : env.ctx.aligned) (h : xlate s env = .ok (t, x, w)) : ∀ v ∈ w, v.OfWalk s.plat s.regs env x := by
  unfold xlate at h
  split at h
  · simp only [bind_ok, Except.ok.injEq, Prod.mk.injEq] at h
    obtain ⟨_, -, -, -, rfl⟩ := h
    nofun
  · cases h; nofun
  · next use _ => exact fun v hv => (walk_record (env := { env with use := use }) ha h v hv).of_use
  · exact walk_record ha h

/-! ## Requests under way -/

theorem walk_reqs (ha : env.ctx.aligned) (h : walk s env = .ok (t, x, w)) : t.reqs = s.reqs := by
  obtain ⟨u, ⟨hu, rfl | rfl⟩ | ⟨y, v, w', hu, ht, -⟩⟩ := walk_spec h
  · exact (walkOnce_frame ha hu).reqs
  · exact (walkOnce_frame ha hu).reqs
  · exact (walkOnce_frame (env := { env with use := noCache }) ha ht).reqs.trans (walkOnce_frame ha hu).reqs

theorem xlate_reqs (ha : env.ctx.aligned) (h : xlate s env = .ok (t, x, w)) : t.reqs = s.reqs := by
  unfold xlate at h
  split at h
  · simp only [bind_ok, Except.ok.injEq, Prod.mk.injEq] at h
    obtain ⟨_, -, rfl, -⟩ := h; rfl
  · cases h; rfl
  · next dropped use _ => exact walk_reqs (s := dropTlb s dropped) (env := { env with use := use }) ha h
  · exact walk_reqs ha h

end

/-- A state with the registers and the requests of another one. -/
def SameRegsReqs (s t : State) : Prop := t.regs = s.regs ∧ t.reqs = s.reqs

section
variable {s t : State} {e : Engine} {fn : BitVec 3}

theorem SameRegsReqs.refl (s : State) : SameRegsReqs s s := ⟨rfl, rfl⟩

theorem refillPc_same {pasid : BitVec 20} (h : refillPc s e fn pasid = .ok t) : SameRegsReqs s t := by
  unfold refillPc at h
  split at h
  · cases h; exact .refl s
  · obtain ⟨x, -, rfl⟩ := fillPc_spec.mp h; exact .refl s

theorem lookupCtx_same {x : CtxEntry} (h : lookupCtx s fn = .ok (t, x)) : SameRegsReqs s t := by
  unfold lookupCtx at h
  split at h
  · cases h; exact .refl s
  · split at h
    · simp at h
    · cases h; exact .refl s

theorem engineCtx_same {va : Word64} {c : Ctx} (h : engineCtx s e va = .ok (t, c)) : SameRegsReqs s t := by
  simp only [engineCtx, bind_ok] at h
  obtain ⟨_, -, m, -, fm, -, _, -, h⟩ := h
  cases m with
  | ggtt => cases h; exact .refl s
  | ppgtt32 | ppgtt48 =>
    simp only [bind_ok, Except.ok.injEq, Prod.mk.injEq] at h
    obtain ⟨_, -, rfl, -⟩ := h; exact .refl s
  | adv =>
    simp only [advCtx, bind_ok, Except.ok.injEq, Prod.mk.injEq] at h
    obtain ⟨_, -, _, -, u, hu, ⟨v, x⟩, hv, rfl, -⟩ := h
    obtain ⟨hregs, hreqs⟩ := refillPc_same hu
    obtain ⟨hregs', hreqs'⟩ := lookupCtx_same hv
    exact ⟨hregs'.trans hregs, hreqs'.trans hreqs⟩

/-- The making of a context touches no register and no request. -/
theorem contextOf_same {src : Source} {va : Word64} {c : Ctx} (h : contextOf s src va = .ok (t, c)) :
    SameRegsReqs s t := by
  cases src with
  | engine e => exact engineCtx_same h
  | wdbox | vebox2 | display | aperture =>
    simp only [contextOf, bind_ok, Except.ok.injEq, Prod.mk.injEq] at h
    obtain ⟨_, -, rfl, -⟩ := h; exact .refl s

end

/-! ## How the request ends -/

/-- What becomes of a request by the end of its walk, as far as its record can tell: the access goes to GTI, the request is
completed as null, or a page request is sent (00 R13, 60 R481). `q` holds the requests before. -/
def EndsRequest (q : Reqs) (v : State) (c : Ctx) (r : Request) : XlateEnd → Prop
  | .phys pa attrs => v.reqs.inflight = q.inflight ++ [⟨r, c.ctxid, pa, attrs⟩]
  | .null => v.outputs.head? = some (.response r (List.replicate r.acc.replySize 0) true)
  | .fault reason _ => c.sendsRequest = true →
      v.reqs.pageRequests = q.pageRequests ++ [⟨c.pasid, c.ctxid, r.va, reason, Rules.kind r⟩]
  | .filtered _ => True
  | .abandoned => True

theorem sendsRequest_iff {c : Ctx} : c.sendsRequest = true ↔ c.fm = .stream ∨ c.fm = .halt := by
  simp [Ctx.sendsRequest]

section
variable {s t v : State} {c : Ctx} {r : Request} {use : CacheUse}

@[simp] theorem setHung_walker (s : State) (b : Bool) (src : Source) : (setHung s b src).walker = s.walker := by
  cases src <;> rfl

@[simp] theorem erroredCycle_walker (s : State) (r : Request) : (erroredCycle s r).walker = s.walker := by
  simp [erroredCycle]

theorem takePageFault_walker {va : Word64} {reason : FaultReason} {tr : Option TrPoint}
    (h : takePageFault t c r va reason tr = .ok v) : v.walker = t.walker := by
  rcases takePageFault_spec h with ⟨-, -, rfl⟩ | ⟨-, -, rfl⟩ | ⟨-, rfl⟩ <;> simp

/-- A fault in a context that sends page requests sends one (60 R481). -/
theorem takePageFault_pageRequests {va : Word64} {reason : FaultReason} (hsends : c.sendsRequest = true)
    (h : takePageFault t c r va reason none = .ok v) :
    v.reqs.pageRequests = t.reqs.pageRequests ++ [⟨c.pasid, c.ctxid, va, reason, Rules.kind r⟩] := by
  have hfm := sendsRequest_iff.mp hsends
  rcases takePageFault_spec h with ⟨hhang, -⟩ | ⟨hhang, -⟩ | ⟨-, rfl⟩
  · simp [hhang] at hfm
  · simp [hhang] at hfm
  · simp [faultKind, kind_eq]

/-- A translation without TR-TT stage records its one walk, and ends its request as the walk ended. -/
theorem finalXlate_spec (h : finalXlate s c use r r.va none = .ok v) :
    ∃ t x, xlate s ⟨c, use, r.client.tlbGroup, r.va, r.acc.isWrite, r.er⟩ = .ok (t, x, v.walker.walked) ∧
      EndsRequest t.reqs v c r x := by
  simp only [finalXlate, bind_ok] at h
  obtain ⟨⟨t, x, w⟩, hx, h⟩ := h
  rw [joinRec_none] at h
  suffices hend : v.walker.walked = w ∧ EndsRequest t.reqs v c r x from ⟨t, x, hend.1 ▸ hx, hend.2⟩
  cases x with
  | phys pa attrs =>
    simp only [bind_ok, Except.ok.injEq] at h
    obtain ⟨_, -, rfl⟩ := h
    exact ⟨rfl, rfl⟩
  | null => cases h; exact ⟨rfl, rfl⟩
  | fault reason level =>
    have hfault : takePageFault (setWalked t w) c r r.va reason none = .ok v := h
    exact ⟨congrArg Walker.walked (takePageFault_walker hfault),
      fun hsends => takePageFault_pageRequests (t := setWalked t w) hsends hfault⟩
  | filtered reason => cases h; exact ⟨rfl, trivial⟩
  | abandoned => cases h; exact ⟨by simp; rfl, trivial⟩

/-! ## The translation -/

/-- No look-up makes a translation choose TR-TT results that it did not choose. -/
theorem tlbLookup_dropMiss_tr {env : WalkEnv} {x : TlbEntry} (h : tlbLookup s env = .dropMiss x use)
    (htr : env.use.tr = false) : use.tr = false := by
  unfold tlbLookup at h
  split at h
  · split at h
    · cases h
    · unfold judge at h
      split at h
      · split at h <;> cases h
        exact htr
      · split at h
        · cases h; rfl
        split at h
        · cases h; exact htr
        split at h
        · cases h; rfl
        · cases h
  · cases h

/-- Without a result to use and away from the TR-VA range there is no TR-TT stage (40 R220, 46 R381). -/
theorem throughTr_direct {d : Res State} (htr : use.tr = false) (hva : isTrva s.regs r.va = false) :
    throughTr s c use r d = d := by
  simp [throughTr, trCopy, htr, hva]

theorem translateIn_direct {active : Bool} (hact : trttActive s.regs r.src c.tag.mode = .ok active)
    (htrva : (active && isTrva s.regs r.va) = false) (htr : use.tr = false) :
    translateIn s c use r = finalXlate s c use r r.va none := by
  simp only [translateIn, hact, ok_bind]
  cases active with
  | false => rfl
  | true =>
    have hva : isTrva s.regs r.va = false := htrva
    simp only [if_true]
    split
    · rfl
    · rfl
    · next hdrop => exact throughTr_direct (tlbLookup_dropMiss_tr hdrop htr) hva
    · exact throughTr_direct htr hva

theorem translateIn_of_ok {u : State} (hopen : gateOpen s none r.src = true) (hctx : contextOf s r.src r.va = .ok (u, c))
    (h : translate use none r s = .ok v) : translateIn u c use r = .ok v := by
  simp only [translate, bind_ok, hopen, if_true, hctx] at h
  obtain ⟨_, -, _, ⟨⟩, h⟩ := h
  exact h

/-- A translation without TR-TT stage that goes on leaves the record of a walk that ended as its request did. -/
theorem tlbLookup_leaves {u : State} {active : Bool} (hopen : gateOpen s none r.src = true)
    (hctx : contextOf s r.src r.va = .ok (u, c)) (hact : trttActive s.regs r.src c.tag.mode = .ok active)
    (htrva : (active && isTrva s.regs r.va) = false) (htr : use.tr = false)
    (h : exec (.tlbLookup use r) s = .next v) :
    ∃ x, EndsRequest s.reqs v c r x ∧ ∀ w ∈ v.walker.walked,
      w.OfWalk s.plat s.regs ⟨c, use, r.client.tlbGroup, r.va, r.acc.isWrite, r.er⟩ x := by
  obtain ⟨hframe, haligned⟩ := contextOf_frame hopen hctx
  obtain ⟨hregs, hreqs⟩ := contextOf_same hctx
  have hin := translateIn_of_ok hopen hctx ((toOutcome_next _ _).mp h)
  rw [← hregs] at hact htrva
  rw [translateIn_direct hact htrva htr] at hin
  obtain ⟨t, x, hx, hend⟩ := finalXlate_spec hin
  have hrecord := xlate_record haligned hx
  rw [xlate_reqs haligned hx, hreqs] at hend
  rw [hframe.plat, hregs] at hrecord
  exact ⟨x, hend, hrecord⟩

end

/-! ## The statement -/

section
variable {p : Platform} {env : WalkEnv} {x : XlateEnd} {y : TlbEntry}

theorem TlbEntry.Tells.eq_null (h : y.Tells p env x) (hreason : y.reason = none) (hnull : y.null = true) : x = .null := by
  cases x <;> simp_all [TlbEntry.Tells]

theorem TlbEntry.Tells.eq_phys (h : y.Tells p env x) (hreason : y.reason = none) (hnull : y.null = false) :
    ∃ pa attrs, x = .phys pa attrs ∧ y.attrs = attrs.cached ∧ y.nested = env.ctx.nested ∧
      secondLevel p env.ctx.nested (y.frame + env.va.toNat % 2 ^ y.bits) = .ok pa := by
  cases x <;> simp_all [TlbEntry.Tells]

theorem TlbEntry.Tells.eq_fault (h : y.Tells p env x) {reason : FaultReason} (hreason : y.reason = some reason) :
    env.ctx.sendsRequest = true ∧ ∃ level, x = .fault reason level := by
  cases x <;> simp_all [TlbEntry.Tells]

end

end Sys2Proof.Machine

namespace Sys2Proof

open Machine

/-- Settles O35: the first part is what a fill does to each cache, the second what the record of a translation holds. -/
theorem tlbFill : Obligations.TlbFill := by
  refine ⟨fun s sel => ⟨Machine.tlbFill sel s, rfl, tlbFill_eq sel s, tlbFill_caches_of_none, fun w hw => ?fill⟩, ?record⟩
  case fill =>
    rw [tlbFill_caches_of_some hw]
    simp only [Caches.fill, mem_ite_refresh, TlbEntry.sameSlot_iff, PwcEntry.sameSlot_iff, GttLine.sameSlot_iff,
      TrEntry.sameSlot_iff, implies_true, and_self]
  case record =>
    intro s u v c r use active w hopen hctx hact htrva htr h hw
    obtain ⟨x, hend, hrecord⟩ := tlbLookup_leaves hopen hctx hact htrva htr h
    have H := hrecord w hw
    refine ⟨H.tr, H.single, fun y hy => ?entry, fun y hy => ?pointer, fun y hy => ?line⟩
    case entry =>
      obtain ⟨htag, hgroup, hpage⟩ := H.slot y hy
      have htells := H.tells y hy
      refine ⟨htag, hgroup, hpage, fun hreason hnull => ?null, fun hreason hnull => ?phys, fun q hreason => ?fault⟩
      case null =>
        obtain rfl := htells.eq_null hreason hnull
        exact hend
      case phys =>
        obtain ⟨pa, attrs, rfl, hattrs, hnested, hpa⟩ := htells.eq_phys hreason hnull
        exact ⟨pa, attrs, hend, hattrs, hnested, hpa⟩
      case fault =>
        obtain ⟨hsends, level, rfl⟩ := htells.eq_fault hreason
        exact ⟨sendsRequest_iff.mp hsends, hend hsends⟩
    case pointer =>
      obtain ⟨htag, hpresent, haccessed, hwritable⟩ := H.pwc y hy
      exact ⟨htag, hpresent, haccessed, hwritable⟩
    case line =>
      obtain ⟨htag, henabled⟩ := H.gtt y hy
      exact ⟨htag, henabled⟩

end Sys2Proof
end

section
/-! Requests that wait for their source (45 R356, 60 R478, 47 R453; log 11): the translation of one whose gate is closed holds it, and
GAM takes a held request up once the gate is open, on an event or on its own (log 3). -/

namespace Sys2Proof.Machine

/-! ## Holding a request -/

section
variable {s : State} {r : Request}

/-- A well-formed request of a source that does not run is held. -/
theorem translate_of_gateClosed {use : CacheUse} (hwf : r.wellFormed = true) (hclosed : gateOpen s none r.src = false) :
    translate use none r s = .ok (s.addHeld ⟨r, none⟩) := by
  simp only [translate, hwf, hclosed, require_true, ok_bind, Bool.false_eq_true, if_false]

/-- An XLATE row does not look at the descriptor of a source that does not run. -/
theorem rowXlate_of_gateClosed {m : Mode} {elem : Word64} (hwf : r.wellFormed = true)
    (hclosed : gateOpen s none r.src = false) : rowXlate m elem r s = .ok (s.addHeld ⟨r, none⟩) := by
  rw [rowXlate, if_neg (by rw [hclosed]; exact Bool.false_ne_true)]
  exact translate_of_gateClosed hwf hclosed

end

/-! ## Taking a held request up -/

section
variable {s : State} {k : Nat} {h : HeldReq} {use : CacheUse}

/-- The gate of a request that waits for its context is a gate of its source. -/
theorem gateOpen_none {p : Option (BitVec 20)} {src : Source} (hopen : gateOpen s p src = true) :
    gateOpen s none src = true := by
  cases src with
  | engine e =>
    simp only [gateOpen, Bool.and_eq_true] at hopen ⊢
    exact ⟨hopen.1, rfl⟩
  | wdbox | vebox2 | display | aperture => exact hopen

/-- Once its gate is open, a request that waited for its context is translated as any other (log 11). -/
theorem translate_pasid_irrel {p : Option (BitVec 20)} {r : Request} (hopen : gateOpen s p r.src = true) :
    translate use p r s = translate use none r s := by
  simp only [translate, hopen, gateOpen_none hopen, if_true]

theorem grantAt_of_gateClosed (hk : s.reqs.held[k]? = some h) (hclosed : gateOpen s h.pasid h.req.src = false) :
    grantAt k use s = .ok s := by
  simp only [grantAt, hk, hclosed, Bool.false_eq_true, if_false]

/-- GAM takes up a held request whose gate is open: TLB.LOOKUP of it, in the state that holds it no longer. -/
theorem grantAt_of_gateOpen (hk : s.reqs.held[k]? = some h) (hopen : gateOpen s h.pasid h.req.src = true) :
    toOutcome (grantAt k use s) =
      exec (.tlbLookup use h.req) (s.setReqs { s.reqs with held := s.reqs.held.eraseIdx k }) := by
  have hopen' : gateOpen (s.setReqs { s.reqs with held := s.reqs.held.eraseIdx k }) h.pasid h.req.src = true := hopen
  simp only [grantAt, hk, hopen, if_true, translate_pasid_irrel hopen']
  rfl

theorem step_of_grant {rest : List Input} (hq : s.inputs = .grant k use :: rest) :
    step s = toOutcome (grantAt k use (s.setInputs rest)) := step_of_inputs_cons hq

end

/-- Where no acknowledgement is owed, GAM gives none. -/
theorem findSome_owedAck_none {s : State} (h : ∀ e, Rules.owes s e = false) : engines.findSome? (owedAck s) = none :=
  List.findSome?_eq_none_iff.mpr fun e _ => owedAck_none (h e)

/-- Settles O22: a closed gate holds the request whatever the row; a grant is the same translation of a request held no longer,
and so is what the machine does on its own with the oldest of them. -/
theorem requestsWaitForRunning : Obligations.RequestsWaitForRunning := by
  refine ⟨fun s r elem use hwf hclosed => ?hold, fun s k h use rest hq hk => ⟨fun hclosed => ?stay, fun hopen => ?take⟩,
    fun s hquiet howes => ?alone⟩
  case hold =>
    have hrow (m : Mode) : toOutcome (rowXlate m elem r s) = .next (s.addHeld ⟨r, none⟩) := by
      rw [rowXlate_of_gateClosed hwf hclosed, toOutcome_ok]
    have hlook (use : CacheUse) : toOutcome (translate use none r s) = .next (s.addHeld ⟨r, none⟩) := by
      rw [translate_of_gateClosed hwf hclosed, toOutcome_ok]
    exact ⟨hrow .ggtt, hrow .ppgtt32, hrow .ppgtt48, hrow .adv, hlook noCache, hlook use⟩
  case stay => rw [step_of_grant hq, grantAt_of_gateClosed (s := s.setInputs rest) hk hclosed, toOutcome_ok]
  case take => rw [step_of_grant hq, grantAt_of_gateOpen (s := s.setInputs rest) hk hopen]; rfl
  case alone =>
    obtain ⟨hgrant, hidle⟩ := (step_quiet hquiet).2 (findSome_owedAck_none howes)
    refine ⟨fun h l hheld hopen => ?_, fun hclosed => hidle (List.findIdx?_eq_none_iff.mpr hclosed)⟩
    have hfirst : s.reqs.held.findIdx? (fun h => gateOpen s h.pasid h.req.src) = some 0 := by
      simp [hheld, List.findIdx?_cons, hopen]
    rw [hgrant 0 hfirst, grantAt_of_gateOpen (by rw [hheld]; rfl) hopen, hheld]
    rfl

end Sys2Proof.Machine
end

section
/-! The hand-shake (45 R352 to R356, 30 R184): what a message out of sequence answers, and the two messages by which GAM acknowledges,
which it also sends on its own (log 3). -/

namespace Sys2Proof.Machine

/-- Settles O11: every other row is calm. -/
theorem onlyDeliveryMovesHandShakes : Obligations.OnlyDeliveryMovesHandShakes := by
  intro i s t e hd h
  have hcalm := exec_calm hd h
  exact ⟨hcalm.hs e, hcalm.resident e, hcalm.pasid⟩

/-! ## Out of sequence -/

section
variable {s : State} {e : Engine}

theorem msgAvailable_outOfSequence (hidle : (s.bank e).hs ≠ .idle) (hrun : (s.bank e).hs ≠ .running) :
    msgAvailable e s = refuse .messageOutOfSequence := by
  rw [msgAvailable, beq_false_of_ne hidle, beq_false_of_ne hrun]; rfl

theorem msgReceiveReady_outOfSequence (h : (s.bank e).hs ≠ .availableReceived) :
    msgReceiveReady e s = refuse .messageOutOfSequence := by
  rw [msgReceiveReady, beq_false_of_ne h]; rfl

theorem msgLaunched_outOfSequence (h : (s.bank e).hs ≠ .readySent) :
    msgLaunched e s = refuse .messageOutOfSequence := by
  rw [msgLaunched, beq_false_of_ne h]; rfl

theorem msgConfirmed_outOfSequence (h : (s.bank e).hs ≠ .launchedReceived) :
    msgConfirmed e s = refuse .messageOutOfSequence := by
  rw [msgConfirmed, beq_false_of_ne h]; rfl

end

/-- Settles O47: each message looks at the hand-shake before anything else. -/
theorem messagesInSequence : Obligations.MessagesInSequence := by
  refine fun s e => ⟨fun hidle hrun => ?_, fun h => ?_, fun h => ?_, fun h => ?_⟩
  · rw [exec_availableOf, msgAvailable_outOfSequence hidle hrun, toOutcome_refuse]
  · rw [exec_receiveReadyOf, msgReceiveReady_outOfSequence h, toOutcome_refuse]
  · rw [exec_launchedOf, msgLaunched_outOfSequence h, toOutcome_refuse]
  · rw [exec_confirmedOf, msgConfirmed_outOfSequence h, toOutcome_refuse]

/-! ## Acknowledgements -/

section
variable {s : State} {e : Engine}

theorem busy_eq_false_iff {src : Source} : busy s src = false ↔ ∀ f ∈ s.reqs.inflight, f.req.src ≠ src := by
  simp [busy]

theorem busy_eq_true_iff {src : Source} : busy s src = true ↔ ∃ f ∈ s.reqs.inflight, f.req.src = src := by
  simp [busy]

theorem sendReady_eq : sendReady s e =
    (s.setBank e { s.bank e with hs := .readySent }).emit (.gamWrite (Rules.csAddress e) 0x00010001) := by
  rw [← gamOffset_eq]; rfl

theorem sendConfirmed_eq : sendConfirmed s e =
    (s.setBank e { s.bank e with hs := .running }).emit (.gamWrite (Rules.csAddress e) 0x00020002) := by
  rw [← gamOffset_eq]; rfl

theorem readyIfDrained_of_drained (h : ∀ f ∈ s.reqs.inflight, f.req.src ≠ .engine e) :
    readyIfDrained s e = sendReady s e := by
  simp only [readyIfDrained, busy_eq_false_iff.mpr h, Bool.false_eq_true, if_false]

theorem readyIfDrained_of_busy (h : ∃ f ∈ s.reqs.inflight, f.req.src = .engine e) : readyIfDrained s e = s := by
  simp only [readyIfDrained, busy_eq_true_iff.mpr h, if_true]

theorem msgReceiveReady_eq (h : (s.bank e).hs = .availableReceived) :
    msgReceiveReady e s = .ok (readyIfDrained s e) := by
  simp [msgReceiveReady, h]

theorem msgConfirmed_eq (h : (s.bank e).hs = .launchedReceived) : msgConfirmed e s = .ok (sendConfirmed s e) := by
  simp [msgConfirmed, h]

/-- Receive Ready is owed once the fence allows (45 R353). -/
theorem owedAck_sendReady (hhs : (s.bank e).hs = .availableReceived) (hack : s.reqs.deferAcks = false)
    (hdone : ∀ f ∈ s.reqs.inflight, f.req.src ≠ .engine e) : owedAck s e = some (sendReady s e) := by
  simp [owedAck, hack, hhs, busy_eq_false_iff.mpr hdone]

/-- Confirmed is owed as soon as a context is launched (45 R356). -/
theorem owedAck_sendConfirmed (hhs : (s.bank e).hs = .launchedReceived) (hack : s.reqs.deferAcks = false) :
    owedAck s e = some (sendConfirmed s e) := by
  simp [owedAck, hack, hhs]

end

/-- Settles O43. -/
theorem contextReceiveReady : Obligations.ContextReceiveReady := by
  intro s e hhs
  refine ⟨fun hdone => ⟨?message, fun hquiet hack hfirst => ?alone⟩, fun hbusy => ?waits⟩
  case message =>
    rw [exec_receiveReadyOf, msgReceiveReady_eq hhs, readyIfDrained_of_drained hdone, sendReady_eq, toOutcome_ok]
  case alone =>
    rw [← sendReady_eq]
    exact (step_quiet hquiet).1 _ (owedAck_first hfirst (owedAck_sendReady hhs hack hdone))
  case waits => rw [exec_receiveReadyOf, msgReceiveReady_eq hhs, readyIfDrained_of_busy hbusy, toOutcome_ok]

/-- Settles O46. -/
theorem contextConfirmed : Obligations.ContextConfirmed := by
  intro s e hhs
  refine ⟨?message, fun hquiet hack hfirst => ?alone⟩
  case message => rw [exec_confirmedOf, msgConfirmed_eq hhs, sendConfirmed_eq, toOutcome_ok]
  case alone =>
    rw [← sendConfirmed_eq]
    exact (step_quiet hquiet).1 _ (owedAck_first hfirst (owedAck_sendConfirmed hhs hack))

end Sys2Proof.Machine
end

section
/-! Descriptor writes of a command streamer (45 R354, 10 R46; logs 38 and 46): one DWord of one register of one engine. -/

namespace Sys2Proof.Machine

/-! ## A register of a bank -/

@[simp] theorem desc_setDesc_same (b : Bank) (d : DescName) (x : DescReg) : (b.setDesc d x).desc d = x := by
  cases d <;> rfl

theorem desc_setDesc_other (b : Bank) {d d' : DescName} (x : DescReg) (h : d' ≠ d) :
    (b.setDesc d x).desc d' = b.desc d' := by
  revert h
  cases d <;> cases d' <;> simp [Bank.desc, Bank.setDesc]

/-- Everything in a bank but its registers. -/
theorem setDesc_keeps (b : Bank) (d : DescName) (x : DescReg) :
    (b.setDesc d x).hs = b.hs ∧ (b.setDesc d x).hung = b.hung ∧ (b.setDesc d x).pc = b.pc ∧
    (b.setDesc d x).resident = b.resident ∧ (b.setDesc d x).stopped = b.stopped := by
  cases d <;> exact ⟨rfl, rfl, rfl, rfl, rfl⟩

/-! ## A DWord of a register -/

/-- The DWord written holds the value. -/
theorem field_setHalf_written (r : DescReg) (high : Bool) (v : Word32) :
    field (r.setHalf high v).value (if high then 32 else 0) 32 = v.toNat := by
  have hv : v.toNat < 2 ^ 32 := v.isLt
  have hlo := field_lt r.value 0 32
  have hhi := field_lt r.value 32 32
  cases high <;> simp only [DescReg.setHalf, Bool.false_eq_true, if_false, if_true] <;> rw [field_ofNat _ _ _ (by omega)] <;>
    omega

/-- The other DWord keeps its value. -/
theorem field_setHalf_other (r : DescReg) (high : Bool) (v : Word32) :
    field (r.setHalf high v).value (if high then 0 else 32) 32 = field r.value (if high then 0 else 32) 32 := by
  have hv : v.toNat < 2 ^ 32 := v.isLt
  have hlo := field_lt r.value 0 32
  have hhi := field_lt r.value 32 32
  cases high <;> simp only [DescReg.setHalf, Bool.false_eq_true, if_false, if_true] <;> rw [field_ofNat _ _ _ (by omega)] <;>
    omega

/-- One DWord is enough for the register to count as written (log 38). -/
theorem get_setHalf (r : DescReg) (high : Bool) (v : Word32) : (r.setHalf high v).get = .ok (r.setHalf high v).value := by
  cases high <;> simp [DescReg.get, DescReg.isWritten, DescReg.setHalf]

/-! ## The write -/

section
variable {s : State} {e : Engine} {d : DescName} {high : Bool} {v : Word32} {rest : List Input}

theorem csWrite_outOfPhase (h : (s.bank e).hs ≠ .readySent) :
    csWrite e d high v s = refuse .descriptorWriteOutOfPhase := by
  rw [csWrite, beq_false_of_ne h]; rfl

theorem csWrite_eq (h : (s.bank e).hs = .readySent) :
    csWrite e d high v s = .ok (s.setBank e ((s.bank e).setDesc d (((s.bank e).desc d).setHalf high v))) := by
  simp [csWrite, h]

theorem step_of_csWrite (hq : s.inputs = .csWrite e d high v :: rest) :
    step s = toOutcome (csWrite e d high v (s.setInputs rest)) := step_of_inputs_cons hq

end

/-- Settles O48: the bank has one register with one DWord set, and only the bank and the queue change. -/
theorem descriptorWrites : Obligations.DescriptorWrites := by
  intro s e d high v rest hq
  rw [step_of_csWrite hq]
  refine ⟨fun hhs => ?_, fun hhs => ?_⟩
  · rw [csWrite_outOfPhase (s := s.setInputs rest) hhs, toOutcome_refuse]
  · rw [csWrite_eq (s := s.setInputs rest) hhs, toOutcome_ok]
    obtain ⟨hs, hung, pc, resident, stopped⟩ := setDesc_keeps (s.bank e) d (((s.bank e).desc d).setHalf high v)
    refine ⟨_, rfl, fun e' he => setBank_bank_other _ _ _ _ he, ?_⟩
    simp only [setInputs_bank, setBank_bank_same, desc_setDesc_same, field_setHalf_written, field_setHalf_other,
      get_setHalf, hs, hung, pc, resident, stopped, hhs, true_and]
    exact ⟨fun d' hd => desc_setDesc_other _ _ hd, rfl⟩

end Sys2Proof.Machine
end

section
/-! Context Available (45 R353, R362): the state that is left when the context of an engine has gone, whatever GAM answers. -/

namespace Sys2Proof.Machine

/-! ## The pieces -/

theorem banks_set_set (b : Banks) (e : Engine) (x y : Bank) : (b.set e x).set e y = b.set e y := by cases e <;> rfl

theorem banks_set_get (b : Banks) (e : Engine) : b.set e (b.get e) = b := by cases e <;> rfl

theorem setBank_setBank (s : State) (e : Engine) (x y : Bank) : (s.setBank e x).setBank e y = s.setBank e y :=
  congrArg s.setBanks (banks_set_set s.banks e x y)

theorem setBank_bank_self (s : State) (e : Engine) : s.setBank e (s.bank e) = s :=
  congrArg s.setBanks (banks_set_get s.banks e)

section
variable (s : State) (e : Engine)

/-- The requests that a stopped context held back go with it (47 R453; log 22). -/
theorem dropStopped_eq : dropStopped s e = s.setReqs { s.reqs with held := Rules.heldAfter s e } := by
  unfold dropStopped Rules.heldAfter
  cases hstop : (s.bank e).stopped with
  | false => rfl
  | true => simp [Option.beq_none]

/-- The resident context and its counter are all that retiring changes (70 R515). -/
theorem retire_eq : retire s e =
    (s.setIommu { s.iommu with pasidState := (retire s e).iommu.pasidState }).setBank e
      { s.bank e with resident := none } := by
  rcases retire_spec s e with ⟨h, hr⟩ | ⟨p, -, hr⟩
  · have hsame : ({ s.bank e with resident := none } : Bank) = s.bank e := by rw [← h]
    rw [hr, hsame]
    exact (setBank_bank_self s e).symm
  · rw [hr]; rfl

/-- Retiring does not look at the requests. -/
theorem retire_setReqs (x : Reqs) : retire (s.setReqs x) e = (retire s e).setReqs x := by
  unfold retire
  rw [setReqs_bank]
  cases (s.bank e).resident <;> rfl

theorem left_eq_hasLeft (p : PendingReq) : p.left (.engine e) = Rules.hasLeft e p := by
  simp [PendingReq.left, Rules.hasLeft]

end

/-! ## The state that is left -/

/-- A state whose engine `e` has lost its context, with a hand-shake `h` and the reports `out`. -/
def contextGone (s : State) (e : Engine) (h : HandShake) (out : List Output) : State :=
  { s with
    banks := s.banks.set e { s.bank e with
      resident := none, pc := { (s.bank e).pc with valid := false }, hs := h, stopped := false }
    iommu := { s.iommu with pasidState := (retire s e).iommu.pasidState }
    reqs := { s.reqs with pending := (leavePending s e).reqs.pending, held := Rules.heldAfter s e }
    outputs := out }

section
variable {s : State} {e : Engine}

/-- Context Available takes the context away before GAM answers (45 R353). -/
theorem contextGone_before_answer :
    (retire (leavePending (dropStopped s e) e) e).setBank e
      { (retire (leavePending (dropStopped s e) e) e).bank e with
        pc := { ((retire (leavePending (dropStopped s e) e) e).bank e).pc with valid := false }
        hs := .availableReceived, stopped := false } = contextGone s e .availableReceived s.outputs := by
  have hleft : leavePending (dropStopped s e) e =
      s.setReqs { s.reqs with pending := (leavePending s e).reqs.pending, held := Rules.heldAfter s e } := by
    rw [dropStopped_eq]; rfl
  rw [hleft, retire_setReqs, retire_eq]
  simp only [setReqs_bank, setBank_bank_same]
  simp only [contextGone, State.setReqs, State.setBank, State.setBanks, State.setIommu, banks_set_set]

/-- GAM's answer moves the hand-shake and is reported. -/
theorem sendReady_contextGone {h : HandShake} {out : List Output} : sendReady (contextGone s e h out) e =
    contextGone s e .readySent (.gamWrite (Rules.csAddress e) 0x00010001 :: out) := by
  rw [sendReady_eq]
  simp [contextGone, State.bank, State.setBank, State.setBanks, State.emit, banks_set_set]

/-- Context Available in sequence: GAM answers, or waits for the engine's accesses, or delays its answer (log 10). -/
theorem msgAvailable_spec (hhs : (s.bank e).hs = .idle ∨ (s.bank e).hs = .running) :
    ∃ h out, msgAvailable e s = .ok (contextGone s e h out) ∧
      if s.reqs.deferAcks = false ∧ ∀ f ∈ s.reqs.inflight, f.req.src ≠ .engine e then
        h = .readySent ∧ out = .gamWrite (Rules.csAddress e) 0x00010001 :: s.outputs
      else h = .availableReceived ∧ out = s.outputs := by
  have hseq : ((s.bank e).hs == .idle || (s.bank e).hs == .running) = true := by simpa using hhs
  have hmsg : msgAvailable e s = .ok (if s.reqs.deferAcks then contextGone s e .availableReceived s.outputs
      else readyIfDrained (contextGone s e .availableReceived s.outputs) e) := by
    simp only [msgAvailable, hseq, require_true, ok_bind, contextGone_before_answer]; rfl
  rw [hmsg]
  cases s.reqs.deferAcks with
  | true => exact ⟨_, _, rfl, by simp⟩
  | false =>
    by_cases hdone : ∀ f ∈ s.reqs.inflight, f.req.src ≠ .engine e
    · rw [if_neg Bool.false_ne_true,
        readyIfDrained_of_drained (s := contextGone s e .availableReceived s.outputs) hdone, sendReady_contextGone]
      exact ⟨_, _, rfl, by rw [if_pos ⟨rfl, hdone⟩]; exact ⟨rfl, rfl⟩⟩
    · have hbusy : ∃ f ∈ s.reqs.inflight, f.req.src = .engine e := by simpa using hdone
      rw [if_neg Bool.false_ne_true,
        readyIfDrained_of_busy (s := contextGone s e .availableReceived s.outputs) hbusy]
      exact ⟨_, _, rfl, by rw [if_neg fun hc => hdone hc.2]; exact ⟨rfl, rfl⟩⟩

/-! ## What has gone -/

section
variable {h : HandShake} {out : List Output}

@[simp] theorem contextGone_bank_same : (contextGone s e h out).bank e =
    { s.bank e with resident := none, pc := { (s.bank e).pc with valid := false }, hs := h, stopped := false } :=
  banks_get_set_same _ _ _

theorem contextGone_bank_other {e' : Engine} (he : e' ≠ e) : (contextGone s e h out).bank e' = s.bank e' :=
  banks_get_set_other _ _ _ _ he

/-- Without a resident context no counter falls. -/
theorem contextGone_iommu (hnone : (s.bank e).resident = none) : (contextGone s e h out).iommu = s.iommu := by
  simp [contextGone, retire, hnone]

/-- The counter of the PASID that was resident falls by one (45 R362, 70 R515). -/
theorem contextGone_countsDown {q : BitVec 20} (hq : (s.bank e).resident = some q)
    (hwf : sparseWf 0 s.iommu.pasidState = true) : Rules.countsDown s (contextGone s e h out) q := by
  intro p
  have hstate : (retire s e).iommu.pasidState =
      sparseSet 0 s.iommu.pasidState q.toNat (sparseGet 0 s.iommu.pasidState q.toNat - 1) := by
    simp only [retire, hq]; rfl
  have hget : sparseGet 0 (contextGone s e h out).iommu.pasidState p =
      if p = q.toNat then sparseGet 0 s.iommu.pasidState q.toNat - 1 else sparseGet 0 s.iommu.pasidState p := by
    rw [← sparseGet_set 0 s.iommu.pasidState 0 q.toNat p _ hwf, ← hstate]; rfl
  rw [hget]
  split
  · next hp => rw [hp]
  · rfl

end

/-! ## The pending requests (60 R482, 70 R534) -/

/-- Without a resident context none is dropped. -/
theorem leavePending_of_none (hnone : (s.bank e).resident = none) :
    (leavePending s e).reqs.pending = s.reqs.pending.map (Rules.hasLeft e) := by
  simp [leavePending, hnone, left_eq_hasLeft]

/-- Whether a written descriptor is one of a Fault-and-Stream context. -/
theorem runsStream_of_written {d : Word64} (hd : Rules.written (s.bank e).elem d = true) :
    runsStream s e = decide (bit d 3 = false ∧ faultModelOf s.plat (field d 6 2) = .stream) := by
  simp only [Rules.written, Bool.and_eq_true, beq_iff_eq] at hd
  obtain ⟨⟨hlo, hhi⟩, rfl⟩ := hd
  simp [runsStream, DescReg.isWritten, hlo, hhi, elemLegacy, elemFaultField, Bool.decide_and, Bool.beq_eq_decide_eq]

/-- Those of a Fault-and-Stream context that leaves are dropped, a waiting TR-TT walk aside (92 D43). -/
theorem leavePending_of_resident {q : BitVec 20} {d : Word64} (hq : (s.bank e).resident = some q)
    (hd : Rules.written (s.bank e).elem d = true) :
    (leavePending s e).reqs.pending = (if bit d 3 = false ∧ faultModelOf s.plat (field d 6 2) = .stream then
      s.reqs.pending.filter (fun p => !(p.req.src == .engine e && p.live && p.tr == none))
    else s.reqs.pending).map (Rules.hasLeft e) := by
  simp only [leavePending, setReqs_reqs, hq, Option.isSome_some, Bool.true_and, runsStream_of_written hd, left_eq_hasLeft,
    PendingReq.streamsOn]
  split <;> simp [*, Option.beq_none]

end

/-- Settles O42: what has gone does not depend on the answer, which is Receive Ready where the fence and log 10 allow it. -/
theorem contextAvailable : Obligations.ContextAvailable := by
  intro s e hhs
  obtain ⟨h, out, hmsg, hanswer⟩ := msgAvailable_spec hhs
  have hb := contextGone_bank_same (s := s) (e := e) (h := h) (out := out)
  refine ⟨contextGone s e h out, by rw [exec_availableOf, hmsg, toOutcome_ok], rfl, by rw [hb], by rw [hb],
    fun d => by rw [hb]; cases d <;> rfl, by rw [hb], fun e' he => contextGone_bank_other he, rfl, contextGone_iommu,
    fun q hq hwf => contextGone_countsDown hq hwf, ?_, by rw [hb], rfl, fun q d hq hd => leavePending_of_resident hq hd,
    leavePending_of_none⟩
  rw [hb]
  exact hanswer

end Sys2Proof.Machine
end

section
/-! Context Launched (45 R355): the delivery that every descriptor begins, what an advanced one adds to it, and Confirmed, which GAM
gives at once or delays (log 10). -/

namespace Sys2Proof.Machine

/-! ## Context IDs in use (70 R534) -/

section
variable {s : State} {e : Engine} {d : Word64}

/-- Context IDs are 32-bit fields. -/
theorem ctxId_beq (v w : Word64) :
    ((BitVec.ofNat 32 (field v 32 32) : Word32) == BitVec.ofNat 32 (field w 32 32)) = (field v 32 32 == field w 32 32) := by
  have hv := field_lt v 32 32
  have hw := field_lt w 32 32
  rw [Bool.eq_iff_iff, beq_iff_eq, beq_iff_eq, ← BitVec.toNat_inj, BitVec.toNat_ofNat, BitVec.toNat_ofNat,
    Nat.mod_eq_of_lt hv, Nat.mod_eq_of_lt hw]

/-- Which engine is asked first does not matter. -/
theorem ctxIdActive_eq : ctxIdActive s e d = Rules.idTaken s e d := by
  simp only [ctxIdActive, Rules.idTaken, engines, Bank.active, ctxIdOf, elemCtxId, ctxId_beq, List.any_cons, List.any_nil,
    Bool.or_false]
  ac_rfl

/-- The engine that asks is not asked. -/
theorem idTaken_congr {t : State} (h : ∀ x, x ≠ e → t.bank x = s.bank x) : Rules.idTaken t e d = Rules.idTaken s e d := by
  unfold Rules.idTaken
  congr 1
  funext x
  by_cases hx : x = e
  · simp [hx]
  · rw [h x hx]

end

/-! ## The delivery -/

/-- A context of descriptor `d` is delivered to an engine: nothing of the engine is cached, and an invalid descriptor is reported
(46 R407, 60 R467). -/
def delivered (s : State) (e : Engine) (d : Word64) : State :=
  { s with
    banks := s.banks.set e { s.bank e with hs := .launchedReceived }
    caches := s.caches.keepTags (fun t => t.src != .engine e)
    walker := ⟨s.walker.stage, none⟩
    outputs := (if bit d 0 then [] else [.descriptorError e]) ++ s.outputs }

/-- GAM confirms, or delays its answer (log 10). -/
def confirmed (s : State) (e : Engine) : State := if s.reqs.deferAcks then s else sendConfirmed s e

section
variable {s : State} {e : Engine} {d : Word64}

theorem invalidateEngine_checkValid : invalidateEngine e (checkValid (setHs s e .launchedReceived) e d) = delivered s e d := by
  have hvalid : bit d 0 = elemValid d := rfl
  simp only [checkValid, delivered, hvalid]
  cases elemValid d <;> rfl

@[simp] theorem checkValid_bank (x : Engine) : (checkValid s e d).bank x = s.bank x := by
  unfold checkValid; split <;> rfl

@[simp] theorem checkValid_plat : (checkValid s e d).plat = s.plat := by
  unfold checkValid; split <;> rfl

/-- Context Launched in sequence, by what its descriptor decodes to. -/
theorem msgLaunched_eq {m : Mode} {fm : FaultModel} (hhs : (s.bank e).hs = .readySent)
    (hd : Rules.written (s.bank e).elem d = true) (hmode : elemMode d = .ok m) (hfault : elemFaultModel s.plat d = .ok fm) :
    msgLaunched e s = if Rules.idTaken s e d then refuse .contextIdReused
      else (if m == .adv then launchAdvanced (delivered s e d) e d else .ok (delivered s e d)) >>= fun u =>
        .ok (confirmed u e) := by
  have hget : ((setHs s e .launchedReceived).bank e).elem.get = .ok d := by
    simp only [setHs, setBank_bank_same, written_get hd]
  have hplat : (checkValid (setHs s e .launchedReceived) e d).plat = s.plat := by rw [checkValid_plat]; rfl
  have htaken : ctxIdActive (checkValid (setHs s e .launchedReceived) e d) e d = Rules.idTaken s e d := by
    rw [ctxIdActive_eq]
    exact idTaken_congr fun x hx => by rw [checkValid_bank, setHs, setBank_bank_other _ _ _ _ hx]
  simp only [msgLaunched, hhs, beq_self_eq_true, require_true, ok_bind, hget, hmode, hplat, hfault, htaken,
    invalidateEngine_checkValid, confirmed]
  cases Rules.idTaken s e d <;> rfl

/-- A context ID in use is refused, whatever the mode (70 R534, 93 U36). -/
theorem exec_launchedOf_idTaken {m : Mode} {fm : FaultModel} (hhs : (s.bank e).hs = .readySent)
    (hd : Rules.written (s.bank e).elem d = true) (hmode : elemMode d = .ok m) (hfault : elemFaultModel s.plat d = .ok fm)
    (htaken : Rules.idTaken s e d = true) : exec (Rules.launchedOf e) s = .refused .contextIdReused := by
  rw [exec_launchedOf, msgLaunched_eq hhs hd hmode hfault, if_pos htaken, toOutcome_refuse]

/-! ## What is delivered -/

@[simp] theorem delivered_bank_same : (delivered s e d).bank e = { s.bank e with hs := .launchedReceived } :=
  banks_get_set_same _ _ _

theorem delivered_bank_other {x : Engine} (hx : x ≠ e) : (delivered s e d).bank x = s.bank x :=
  banks_get_set_other _ _ _ _ hx

/-- The items of other sources stay, those of the engine go (46 R407). -/
theorem onlyOthersStay_of_keepTags {t : State} (h : t.caches = s.caches.keepTags (fun t => t.src != .engine e)) :
    Rules.onlyOthersStay s t e := by
  simp [Rules.onlyOthersStay, h, Caches.keepTags, List.mem_filter]

/-- The answer moves the hand-shake and is reported; a delayed one does neither. -/
theorem confirmed_eq {u : State} (hhs : (u.bank e).hs = .launchedReceived) : confirmed u e =
    { u with
      banks := u.banks.set e { u.bank e with hs := if u.reqs.deferAcks then .launchedReceived else .running }
      outputs := (if u.reqs.deferAcks then [] else [.gamWrite (Rules.csAddress e) 0x00020002]) ++ u.outputs } := by
  unfold confirmed
  cases u.reqs.deferAcks with
  | true =>
    have hsame : ({ u.bank e with hs := .launchedReceived } : Bank) = u.bank e := by rw [← hhs]
    simp only [if_true, hsame]
    exact (setBank_bank_self u e).symm
  | false => rw [if_neg Bool.false_ne_true, sendConfirmed_eq]; rfl

end

/-! ## Legacy descriptors -/

section
variable {d : Word64}

/-- A legacy descriptor decodes to a mode that is not the advanced one (30 R180). -/
theorem elemMode_legacy (hone : bit d 1 = true) (hlegacy : bit d 3 = true) : ∃ m, elemMode d = .ok m ∧ m ≠ .adv := by
  simp only [elemMode, elemOne, elemLegacy, hone, hlegacy, if_true]
  refine ⟨_, rfl, ?_⟩
  split
  · split <;> decide
  · decide

theorem elemFaultModel_legacy (p : Platform) (hlegacy : bit d 3 = true) (hfault : field d 6 2 = 0) :
    elemFaultModel p d = .ok .hang := by
  simp only [elemFaultModel, elemLegacy, elemFaultField, hlegacy, hfault, if_true]

end

/-- Settles O44. -/
theorem contextLaunchedLegacy : Obligations.ContextLaunchedLegacy := by
  intro s e d hhs hd hone hlegacy hzero
  obtain ⟨m, hmode, hadv⟩ := elemMode_legacy hone hlegacy
  have hfault := elemFaultModel_legacy s.plat hlegacy hzero
  refine ⟨exec_launchedOf_idTaken hhs hd hmode hfault, fun hfree => ?_⟩
  have hexec : exec (Rules.launchedOf e) s = .next (confirmed (delivered s e d) e) := by
    rw [exec_launchedOf, msgLaunched_eq hhs hd hmode hfault, hfree, beq_false_of_ne hadv]; rfl
  rw [hexec, confirmed_eq (by rw [delivered_bank_same])]
  refine ⟨_, rfl, rfl, ?bank, fun e' he => ?others, onlyOthersStay_of_keepTags rfl, (List.append_assoc ..).symm⟩
  case bank => exact (banks_get_set_same _ _ _).trans (by rw [delivered_bank_same]; rfl)
  case others => exact (banks_get_set_other _ _ _ _ he).trans (delivered_bank_other he)

/-! ## Advanced descriptors -/

section
variable {d : Word64}

theorem elemMode_advanced (hone : bit d 1 = true) (hadv : bit d 3 = false) : elemMode d = .ok .adv := by
  simp [elemMode, elemOne, elemLegacy, hone, hadv]

/-- An advanced descriptor has one of the two fault models that send page requests (60 R477). -/
theorem elemFaultModel_advanced {p : Platform} (hadv : bit d 3 = false) (hfield : field d 6 2 ≠ 0)
    (hmodel : faultModelOf p (field d 6 2) = .stream ∨ faultModelOf p (field d 6 2) = .halt) :
    ∃ fm, elemFaultModel p d = .ok fm := by
  rcases hmodel with h | h <;> simp [elemFaultModel, elemLegacy, elemFaultField, hadv, hfield, h]

/-- The PASID of a descriptor bank as a number (30 R182). -/
theorem pasidOf_toNat (pdp0 : Word64) : (pasidOf pdp0).toNat = field pdp0 0 20 := by
  rw [pasidOf, BitVec.toNat_ofNat, Nat.mod_eq_of_lt (field_lt pdp0 0 20)]

end

section
variable {s : State} {e : Engine} {d pdp0 : Word64} {x : PasidEntry} {c : CtxEntry}

theorem lookupPasid_eq {fn : BitVec 3} {p : BitVec 20}
    (hx : s.iommu.pasids.find? (fun y => y.fn == fn && y.pasid == p) = some x) (hok : x.ok = true) :
    lookupPasid s fn p = .ok x := by
  simp only [lookupPasid, hx, hok, if_true]

/-- A context entry is found in the Context Cache, or in the IOMMU's tables, whence it is cached (46 R391). -/
theorem lookupCtx_eq {fn : BitVec 3} (hc : s.iommu.cc.find? (fun y => y.fn == fn) = some c ∨
      (s.iommu.cc.find? (fun y => y.fn == fn) = none ∧ s.iommu.ctxs.find? (fun y => y.fn == fn) = some c)) :
    lookupCtx s fn = .ok (s.setIommu { s.iommu with
      cc := if (s.iommu.cc.find? (fun y => y.fn == fn)).isSome then s.iommu.cc else c :: s.iommu.cc }, c) := by
  rcases hc with hc | ⟨hmiss, hc⟩
  · simp only [lookupCtx, hc]; rfl
  · simp only [lookupCtx, hmiss, hc]; rfl

/-- An advanced context has the GTT cache off (46 R394, 70 R541). -/
theorem launchAdvanced_gttCache (hg : s.regs.gttCacheEnable = true) :
    launchAdvanced s e d = refuse .gttCacheObligation := by
  simp only [launchAdvanced, hg, Bool.not_true, require_false, refuse_bind]

/-- An advanced context is installed on an engine: its PASID entry is cached, it is resident, and its counter is one higher; `cc`
is what the Context Cache then holds (46 R391, R392; 70 R515). -/
def contextInstalled (s : State) (e : Engine) (x : PasidEntry) (cc : List CtxEntry) (p : BitVec 20) : State :=
  (s.setIommu { s.iommu with
    cc := cc, pasidState := sparseSet 0 s.iommu.pasidState p.toNat (pasidCount s p + 1) }).setBank e { s.bank e with
      pc := ⟨true, x.pml4, x.eafe, x.fl64kpe⟩, resident := some p }

/-- The context requirements of an advanced context (45 R355). -/
theorem launchAdvanced_eq (hg : s.regs.gttCacheEnable = false) (hp : Rules.written (s.bank e).pdp0 pdp0 = true)
    (hx : s.iommu.pasids.find? (fun y => y.fn == elemFn d && y.pasid == pasidOf pdp0) = some x) (hok : x.ok = true)
    (hc : s.iommu.cc.find? (fun y => y.fn == elemFn d) = some c ∨
      (s.iommu.cc.find? (fun y => y.fn == elemFn d) = none ∧ s.iommu.ctxs.find? (fun y => y.fn == elemFn d) = some c)) :
    launchAdvanced s e d = .ok (contextInstalled s e x
      (if (s.iommu.cc.find? (fun y => y.fn == elemFn d)).isSome then s.iommu.cc else c :: s.iommu.cc) (pasidOf pdp0)) := by
  have hfill : fillPc s e (elemFn d) (pasidOf pdp0) =
      .ok (s.setBank e { s.bank e with pc := ⟨true, x.pml4, x.eafe, x.fl64kpe⟩ }) :=
    fillPc_spec.mpr ⟨x, lookupPasid_eq hx hok, rfl⟩
  have hctx := lookupCtx_eq (s := s.setBank e { s.bank e with pc := ⟨true, x.pml4, x.eafe, x.fl64kpe⟩ }) hc
  simp only [launchAdvanced, hg, Bool.not_false, require_true, ok_bind, written_get hp, hfill, hctx, install,
    setIommu_bank, setBank_bank_same]
  exact congrArg Except.ok (setBank_setBank (s.setIommu { s.iommu with
    cc := if (s.iommu.cc.find? (fun y => y.fn == elemFn d)).isSome then s.iommu.cc else c :: s.iommu.cc
    pasidState := sparseSet 0 s.iommu.pasidState (pasidOf pdp0).toNat (pasidCount s (pasidOf pdp0) + 1) }) e
    { s.bank e with pc := ⟨true, x.pml4, x.eafe, x.fl64kpe⟩ } _)

variable {cc : List CtxEntry} {p : BitVec 20}

@[simp] theorem contextInstalled_bank_same : (contextInstalled s e x cc p).bank e =
    { s.bank e with pc := ⟨true, x.pml4, x.eafe, x.fl64kpe⟩, resident := some p } :=
  setBank_bank_same _ _ _

theorem contextInstalled_bank_other {e' : Engine} (he : e' ≠ e) : (contextInstalled s e x cc p).bank e' = s.bank e' :=
  setBank_bank_other _ _ _ _ he

/-- The counter of the PASID rises by one (70 R515; log 20). -/
theorem contextInstalled_count (hwf : sparseWf 0 s.iommu.pasidState = true) (q : Nat) :
    sparseGet 0 (contextInstalled s e x cc p).iommu.pasidState q =
      sparseGet 0 s.iommu.pasidState q + if q = p.toNat then 1 else 0 := by
  refine (sparseGet_set 0 s.iommu.pasidState 0 p.toNat q _ hwf).trans ?_
  split
  · next hq => rw [hq]; rfl
  · rfl

end

/-- Settles O45: with the GTT cache off the requirements of the context are met, in the state of its delivery, and GAM confirms. -/
theorem contextLaunchedAdvanced : Obligations.ContextLaunchedAdvanced := by
  intro s e d pdp0 x c cached hhs hd hp hone hadv hfield hmodel hx hok hc hwf
  have hmode := elemMode_advanced hone hadv
  obtain ⟨fm, hfault⟩ := elemFaultModel_advanced hadv hfield hmodel
  have hexec (hfree : Rules.idTaken s e d = false) : exec (Rules.launchedOf e) s =
      toOutcome (launchAdvanced (delivered s e d) e d >>= fun u => .ok (confirmed u e)) := by
    rw [exec_launchedOf, msgLaunched_eq hhs hd hmode hfault, hfree]; rfl
  refine ⟨exec_launchedOf_idTaken hhs hd hmode hfault, fun hfree hg => ?cacheOn, fun hfree hg => ?cacheOff⟩
  case cacheOn => rw [hexec hfree, launchAdvanced_gttCache (s := delivered s e d) hg, refuse_bind, toOutcome_refuse]
  case cacheOff =>
    have hpdp0 : Rules.written ((delivered s e d).bank e).pdp0 pdp0 = true := by rw [delivered_bank_same]; exact hp
    rw [hexec hfree, launchAdvanced_eq (s := delivered s e d) hg hpdp0 hx hok hc, ok_bind, toOutcome_ok,
      confirmed_eq (by rw [contextInstalled_bank_same, delivered_bank_same])]
    refine ⟨_, rfl, rfl, ?bank, fun e' he => ?others, onlyOthersStay_of_keepTags rfl, fun q => ?counts,
      (List.append_assoc ..).symm⟩
    case bank =>
      refine (banks_get_set_same _ _ _).trans ?_
      rw [contextInstalled_bank_same, delivered_bank_same]; rfl
    case others =>
      refine (banks_get_set_other _ _ _ _ he).trans ?_
      exact (contextInstalled_bank_other he).trans (delivered_bank_other he)
    case counts =>
      rw [← pasidOf_toNat]
      exact contextInstalled_count (s := delivered s e d) (e := e) (x := x) hwf q

end Sys2Proof.Machine
end

section
/-! The invalidations of the translation caches (46 R404 to R408): what is left of each cache, of the PASID Caches and of the
Context Cache; and the invalidation wait (46 R409). The stages of an SVM invalidation come in two kinds, those that go by the
tags of items (46 R406) and those that go by the contexts the engines run (46 R391, R392). -/

namespace Sys2Proof.Machine

/-- Settles O37: both rows answer the state that their invalidation is defined as. -/
theorem tlbinvCs : Obligations.TlbinvCs := by
  intro s
  refine ⟨rfl, fun p va t h => ?_⟩
  obtain rfl : invalidateFaulted p va s = t := by injection h
  rfl

/-- Settles O38: an engine's row keeps the tags of the other sources. -/
theorem tlbinvCtxsw : Obligations.TlbinvCtxsw := by
  intro s e
  exact ⟨invalidateEngine e s, rfl, rfl, onlyOthersStay_of_keepTags rfl⟩

/-- A faulted entry of an advanced context of the PASID, at the page of the address (46 R408). -/
theorem TlbEntry.isFaultOf_iff {x : TlbEntry} {p : BitVec 20} {va : Word64} : x.isFaultOf p va = true ↔
    x.reason.isSome = true ∧ x.tag.mode = .adv ∧ x.tag.root = p.toNat ∧ x.page = va.toNat / 2 ^ x.bits := by
  simp [TlbEntry.isFaultOf, and_assoc]

/-- Settles O39: the final TLBs are filtered by `TlbEntry.isFaultOf`, and nothing else is touched. -/
theorem tlbinvPageResponse : Obligations.TlbinvPageResponse := by
  intro s p va
  refine ⟨invalidateFaulted p va s, rfl, rfl, fun x => ?_⟩
  calc x ∈ (invalidateFaulted p va s).caches.tlb
    _ ↔ x ∈ s.caches.tlb ∧ ¬ x.isFaultOf p va = true := by simp [invalidateFaulted, setWalked]
    _ ↔ _ := by rw [TlbEntry.isFaultOf_iff]

/-! ## The scope of an SVM invalidation -/

section
variable {sc : SvmScope} {s : State} {t : Tag} {e : Engine}

theorem SvmScope.matchesTag_iff : SvmScope.matchesTag sc t = true ↔ Rules.svmTag sc t := by
  cases sc <;> simp [SvmScope.matchesTag, Rules.svmTag]

theorem SvmScope.matchesPage_iff {bits page : Nat} :
    SvmScope.matchesPage sc bits page = true ↔ Rules.svmAt sc fun va => page = va.toNat / 2 ^ bits := by
  cases sc <;> simp [SvmScope.matchesPage, Rules.svmAt]

theorem SvmScope.matchesTile_iff {tile : Nat} :
    SvmScope.matchesTile sc tile = true ↔ Rules.svmAt sc fun va => tile = field va 16 32 := by
  cases sc <;> simp [SvmScope.matchesTile, Rules.svmAt, tileOf]

theorem SvmScope.matchesBank_iff : SvmScope.matchesBank sc (s.bank e) = true ↔ Rules.svmEngine s sc e := by
  cases sc <;> simp [SvmScope.matchesBank, Rules.svmEngine, Option.isSome_iff_ne_none]

/-- The items of an engine in scope are covered, and none of a source that is no engine. -/
theorem pcCovers_iff : pcCovers s sc t = true ↔ ∃ e, t.src = .engine e ∧ Rules.svmEngine s sc e := by
  unfold pcCovers
  cases t.src with
  | engine e => simp [SvmScope.matchesBank_iff]
  | wdbox | vebox2 | display | aperture => simp

end

/-! ## The stages -/

/-- The PASID Cache stage, where it is selected. -/
def pcStage (chosen : Bool) (sc : SvmScope) (s : State) : State := if chosen then invalidatePc sc s else s

/-- The Context Cache stage, where it is selected. -/
def ccStage (chosen : Bool) (s : State) : State := if chosen then invalidateCc s else s

/-- The caches after the two stages that go by tags. -/
def Caches.tagStages (c : Caches) (sc : SvmScope) (st : SvmStages) : Caches :=
  let c := if st.tlb then c.dropFinal sc else c
  if st.pwc then c.dropPwc sc else c

/-- The items that go with a PASID Cache or with the Context Cache (46 R391, R392). -/
def dropsLow (s : State) (sc : SvmScope) (st : SvmStages) (t : Tag) : Bool :=
  st.pc && pcCovers s sc t || st.cc && (t.mode == .adv || pcCovers s .global t)

/-- A bank whose PASID Cache an invalidation may have reached (46 R392). -/
def Bank.pcWhile (b : Bank) (valid : Bool) : Bank := { b with pc := { b.pc with valid := valid } }

section
variable {sc : SvmScope} {st : SvmStages} {s : State} {e : Engine}

theorem invalidateSvm_eq (sc : SvmScope) (st : SvmStages) (s : State) : invalidateSvm sc st s =
    setWalked (ccStage st.cc (pcStage st.pc sc (s.setCaches (s.caches.tagStages sc st)))) none := by
  obtain ⟨tlb, pwc, pc, cc⟩ := st
  cases tlb <;> cases pwc <;> rfl

theorem dropsLow_iff {t : Tag} : dropsLow s sc st t = true ↔ Rules.svmLow s sc st t := by
  simp [dropsLow, Rules.svmLow, pcCovers_iff]

theorem Caches.keepTags_true (c : Caches) : c.keepTags (fun _ => true) = c := by
  simp [Caches.keepTags]

theorem Caches.keepTags_keepTags (c : Caches) (keep keep' : Tag → Bool) :
    (c.keepTags keep).keepTags keep' = c.keepTags fun t => keep t && keep' t := by
  simp only [Caches.keepTags, List.filter_filter, Bool.and_comm]

theorem Banks.get_dropPc (b : Banks) (sc : SvmScope) (e : Engine) : (b.dropPc sc).get e = (b.get e).dropPc sc := by
  cases e <;> rfl

theorem Bank.dropPc_eq (b : Bank) (sc : SvmScope) : b.dropPc sc = b.pcWhile (b.pc.valid && !SvmScope.matchesBank sc b) := by
  unfold Bank.dropPc Bank.pcWhile
  cases SvmScope.matchesBank sc b <;> simp

theorem pcStage_caches (chosen : Bool) (sc : SvmScope) (s : State) :
    (pcStage chosen sc s).caches = s.caches.keepTags fun t => !(chosen && pcCovers s sc t) := by
  cases chosen with
  | false => exact s.caches.keepTags_true.symm
  | true => rfl

theorem pcStage_bank (chosen : Bool) (sc : SvmScope) (s : State) (e : Engine) : (pcStage chosen sc s).bank e =
    (s.bank e).pcWhile ((s.bank e).pc.valid && !(chosen && SvmScope.matchesBank sc (s.bank e))) := by
  cases chosen with
  | false => simp [pcStage, Bank.pcWhile]
  | true => exact (Banks.get_dropPc _ _ _).trans (Bank.dropPc_eq _ _)

theorem ccStage_caches (chosen : Bool) (s : State) :
    (ccStage chosen s).caches = s.caches.keepTags fun t => !(chosen && (t.mode == .adv || pcCovers s .global t)) := by
  cases chosen with
  | false => exact s.caches.keepTags_true.symm
  | true =>
    have hstage : (ccStage true s).caches =
      (s.caches.keepTags fun t => !pcCovers s .global t).keepTags fun t => t.mode != .adv := rfl
    simp only [hstage, Caches.keepTags_keepTags, Bool.true_and, Bool.not_or, Bool.and_comm, bne]

/-- The global scope takes in an engine that runs an advanced context or whose PASID Cache is valid (46 R406). -/
theorem matchesBank_global (b : Bank) : SvmScope.matchesBank .global b = (b.resident.isSome || b.pc.valid) := rfl

/-- Every valid PASID Cache is in the global scope (46 R391). -/
theorem ccStage_bank (chosen : Bool) (s : State) (e : Engine) :
    (ccStage chosen s).bank e = (s.bank e).pcWhile ((s.bank e).pc.valid && !chosen) := by
  cases chosen with
  | false => simp [ccStage, Bank.pcWhile]
  | true =>
    have hbank : (ccStage true s).bank e = (s.bank e).dropPc .global := Banks.get_dropPc _ _ _
    rw [hbank, Bank.dropPc_eq, matchesBank_global]
    cases (s.bank e).pc.valid <;> simp

/-- An engine that the PASID Cache stage has taken out of the global scope was in the scope of that stage. -/
theorem pcCovers_global_pcStage (chosen : Bool) (sc : SvmScope) (s : State) (t : Tag) :
    (chosen && pcCovers s sc t || pcCovers (pcStage chosen sc s) .global t) =
      (chosen && pcCovers s sc t || pcCovers s .global t) := by
  unfold pcCovers
  cases t.src with
  | engine e =>
    simp only [pcStage_bank, matchesBank_global, Bank.pcWhile]
    cases chosen && SvmScope.matchesBank sc (s.bank e) <;> simp
  | wdbox | vebox2 | display | aperture => rfl

/-- The two stages that go by contexts drop what the rules name (46 R391, R392). -/
theorem lowStages_caches (sc : SvmScope) (st : SvmStages) (s : State) :
    (ccStage st.cc (pcStage st.pc sc s)).caches = s.caches.keepTags fun t => !dropsLow s sc st t := by
  rw [ccStage_caches, pcStage_caches, Caches.keepTags_keepTags]
  refine congrArg s.caches.keepTags (funext fun t => ?_)
  have hglobal := pcCovers_global_pcStage st.pc sc s t
  unfold dropsLow
  generalize pcCovers (pcStage st.pc sc s) .global t = after at hglobal ⊢
  generalize pcCovers s .global t = before at hglobal ⊢
  generalize (st.pc && pcCovers s sc t) = low at hglobal ⊢
  cases low <;> simp_all

theorem invalidateSvm_caches (sc : SvmScope) (st : SvmStages) (s : State) : (invalidateSvm sc st s).caches =
    (s.caches.tagStages sc st).keepTags fun t => !dropsLow s sc st t := by
  rw [invalidateSvm_eq]
  exact lowStages_caches sc st _

/-- A PASID Cache is left valid outside the scope of its stage, and without the Context Cache stage. -/
theorem invalidateSvm_bank (sc : SvmScope) (st : SvmStages) (s : State) (e : Engine) : (invalidateSvm sc st s).bank e =
    (s.bank e).pcWhile ((s.bank e).pc.valid && !(st.pc && SvmScope.matchesBank sc (s.bank e)) && !st.cc) := by
  rw [invalidateSvm_eq]
  refine (ccStage_bank st.cc _ e).trans ?_
  rw [pcStage_bank]
  rfl

theorem invalidateSvm_eq_frame (sc : SvmScope) (st : SvmStages) (s : State) : invalidateSvm sc st s =
    { s with
      caches := (invalidateSvm sc st s).caches, banks := (invalidateSvm sc st s).banks
      iommu := { s.iommu with cc := if st.cc then [] else s.iommu.cc }, walker := ⟨s.walker.stage, none⟩ } := by
  rw [invalidateSvm_eq]
  cases st.cc <;> cases st.pc <;> rfl

/-! ## What each cache holds after the stages that go by tags -/

variable {c : Caches}

theorem Caches.mem_tagStages_tlb {x : TlbEntry} : x ∈ (c.tagStages sc st).tlb ↔ x ∈ c.tlb ∧
    ¬ (st.tlb = true ∧ SvmScope.matchesTag sc x.tag = true ∧ SvmScope.matchesPage sc x.bits x.page = true) := by
  unfold Caches.tagStages
  cases st.tlb <;> cases st.pwc <;> simp [Caches.dropFinal, Caches.dropPwc, imp_iff_not_or]

theorem Caches.mem_tagStages_tr {x : TrEntry} : x ∈ (c.tagStages sc st).tr ↔
    x ∈ c.tr ∧ ¬ (st.tlb = true ∧ SvmScope.matchesTag sc x.tag = true ∧ SvmScope.matchesTile sc x.tile = true) := by
  unfold Caches.tagStages
  cases st.tlb <;> cases st.pwc <;> simp [Caches.dropFinal, Caches.dropPwc, imp_iff_not_or]

theorem Caches.mem_tagStages_gtt {x : GttLine} : x ∈ (c.tagStages sc st).gtt ↔
    x ∈ c.gtt ∧ ¬ (st.tlb = true ∧ SvmScope.matchesTag sc x.tag = true) := by
  unfold Caches.tagStages
  cases st.tlb <;> cases st.pwc <;> simp [Caches.dropFinal, Caches.dropPwc]

theorem Caches.mem_tagStages_pwc {x : PwcEntry} : x ∈ (c.tagStages sc st).pwc ↔
    x ∈ c.pwc ∧ ¬ (st.pwc = true ∧ SvmScope.matchesTag sc x.tag = true) := by
  unfold Caches.tagStages
  cases st.tlb <;> cases st.pwc <;> simp [Caches.dropFinal, Caches.dropPwc]

/-- An item is left in a list that has lost the items of some tags if it was there and its tag is not one of them. -/
theorem mem_filter_not_dropsLow {α : Type} {l : List α} {tag : α → Tag} {x : α} :
    x ∈ l.filter (fun x => !dropsLow s sc st (tag x)) ↔ x ∈ l ∧ ¬ Rules.svmLow s sc st (tag x) := by
  rw [List.mem_filter, ← dropsLow_iff, Bool.not_eq_true', Bool.not_eq_true]

end

/-- Settles O40: the stages that go by contexts leave of the caches what `dropsLow` does not name, of what the stages that go by
tags have left; the PASID Caches are `invalidateSvm_bank`. -/
theorem tlbinvSvm : Obligations.TlbinvSvm := by
  intro s sc st
  refine ⟨invalidateSvm sc st s, rfl, invalidateSvm_eq_frame sc st s, fun x => ?tlb, fun x => ?tr, fun x => ?gtt,
    fun x => ?pwc, fun e => ?bank⟩
  case tlb =>
    rw [invalidateSvm_caches, Caches.keepTags, mem_filter_not_dropsLow, Caches.mem_tagStages_tlb,
      SvmScope.matchesTag_iff, SvmScope.matchesPage_iff, and_right_comm, and_assoc]
  case tr =>
    rw [invalidateSvm_caches, Caches.keepTags, mem_filter_not_dropsLow, Caches.mem_tagStages_tr,
      SvmScope.matchesTag_iff, SvmScope.matchesTile_iff, and_right_comm, and_assoc]
  case gtt =>
    rw [invalidateSvm_caches, Caches.keepTags, mem_filter_not_dropsLow, Caches.mem_tagStages_gtt,
      SvmScope.matchesTag_iff, and_right_comm, and_assoc]
  case pwc =>
    rw [invalidateSvm_caches, Caches.keepTags, mem_filter_not_dropsLow, Caches.mem_tagStages_pwc,
      SvmScope.matchesTag_iff, and_right_comm, and_assoc]
  case bank =>
    rw [invalidateSvm_bank]
    refine ⟨rfl, ?_⟩
    simp only [Bank.pcWhile, Bool.and_eq_true, Bool.not_eq_true', Bool.and_assoc, ← SvmScope.matchesBank_iff,
      ← Bool.not_eq_true, Bool.and_eq_true]

/-! ## The invalidation wait -/

/-- With no event queued and nothing in flight, the machine answers the waiting descriptors before anything else (log 3). -/
theorem step_answersWaits {s : State} (hinputs : s.inputs = []) (hempty : s.reqs.inflight = [])
    (hwaits : s.reqs.invWaits ≠ 0) : step s = .next (flushWaits s) := by
  have hauto : autonomous s = .ok (flushWaits s) := by
    simp [autonomous, hempty, Nat.pos_of_ne_zero hwaits]
  simp only [step, hinputs, hauto, toOutcome_ok]

/-- Settles O41: the row by whether accesses are in flight; the waiting descriptors by `flushWaits_eq`. -/
theorem invWait : Obligations.InvWait := by
  intro s
  refine ⟨fun hempty => ?empty, fun hbusy => ?busy, fun hinputs hempty hwaits => ?waiting⟩
  case empty =>
    have hop : invWaitOp s = answerWait s := by simp [invWaitOp, hempty]
    exact congrArg Host.Outcome.next hop
  case busy =>
    have hop : invWaitOp s = s.setReqs { s.reqs with invWaits := s.reqs.invWaits + 1 } := by simp [invWaitOp, hbusy]
    exact congrArg Host.Outcome.next hop
  case waiting =>
    rw [step_answersWaits hinputs hempty hwaits, flushWaits_eq, Rules.waitsAnswered, if_pos hempty]

end Sys2Proof.Machine
end

section
/-! The PASID Cache and the Context Cache in front of an advanced translation (46 R391, R392; log 19): a translation that finds
one of them without its entry fills it from the IOMMU's tables, and from there on is that of the state in which it is filled. -/

namespace Sys2Proof.Machine

section
variable {s s' : State} {e : Engine} {elem d : Word64} {r : Request}

/-- What a row that applies to an engine says of its descriptor. -/
theorem elemMode_of_rowApplies {m : Mode} {u : Unit} (h : rowApplies s m elem (.engine e) = .ok u) :
    ∃ d, (s.bank e).elem.get = .ok d ∧ elemMode d = .ok m := by
  simp only [rowApplies, sourceElem, bind_ok, require_ok, Bool.and_eq_true, beq_iff_eq] at h
  obtain ⟨d, hget, m', hmode, -, rfl⟩ := h
  exact ⟨d, hget, hmode⟩

/-- The context of a request under an advanced descriptor (30 R180, 44 R316). -/
theorem contextOf_of_adv (hget : (s.bank e).elem.get = .ok d) (hmode : elemMode d = .ok .adv) (va : Word64) :
    contextOf s (.engine e) va = (elemFaultModel s.plat d >>= fun fm =>
      require (vaInRange .adv va) .vaOutOfRange >>= fun _ => advCtx s e d fm) := by
  simp only [contextOf, engineCtx, hget, hmode, ok_bind]

/-- Two states in which an engine holds the same descriptor and makes the same context of it have one XLATE.ADV. -/
theorem exec_xlateAdv_congr (hsrc : r.src = .engine e) (hopen : gateOpen s none r.src = true)
    (hopen' : gateOpen s' none r.src = true) (hplat : s'.plat = s.plat) (helem : (s'.bank e).elem = (s.bank e).elem)
    (hctx : ∀ d fm, (s.bank e).elem.get = .ok d → advCtx s e d fm = advCtx s' e d fm) :
    exec (.xlateAdv elem r) s = exec (.xlateAdv elem r) s' := by
  have happlies : rowApplies s' .adv elem (.engine e) = rowApplies s .adv elem (.engine e) := by
    simp only [rowApplies, sourceElem, helem]
  suffices hrow : rowXlate .adv elem r s = rowXlate .adv elem r s' from congrArg toOutcome hrow
  rw [rowXlate, rowXlate, if_pos hopen, if_pos hopen', hsrc, happlies]
  cases h : rowApplies s .adv elem (.engine e) with
  | error z => rfl
  | ok u =>
    obtain ⟨d, hget, hmode⟩ := elemMode_of_rowApplies h
    have hsame : contextOf s r.src r.va = contextOf s' r.src r.va := by
      rw [hsrc, contextOf_of_adv hget hmode, contextOf_of_adv (helem.symm ▸ hget) hmode, hplat]
      simp only [hctx d _ hget]
    simp only [ok_bind, translate, hopen, hopen', if_true, hsame]

theorem refillPc_of_valid (h : (s.bank e).pc.valid = true) (fn : BitVec 3) (p : BitVec 20) :
    refillPc s e fn p = .ok s := by
  rw [refillPc, if_pos h]

/-- An invalid PASID Cache takes the entry of the IOMMU's tables (46 R392). -/
theorem refillPc_of_invalid {fn : BitVec 3} {p : BitVec 20} {x : PasidEntry} (h : (s.bank e).pc.valid = false)
    (hx : s.iommu.pasids.find? (fun y => y.fn == fn && y.pasid == p) = some x) (hok : x.ok = true) :
    refillPc s e fn p = .ok (s.setBank e { s.bank e with pc := ⟨true, x.pml4, x.eafe, x.fl64kpe⟩ }) := by
  rw [refillPc, h, if_neg Bool.false_ne_true]
  exact fillPc_spec.mpr ⟨x, lookupPasid_eq hx hok, rfl⟩

/-- A Context Cache without the function takes the entry of the IOMMU's tables (46 R391). -/
theorem lookupCtx_of_miss {fn : BitVec 3} {c : CtxEntry} (hmiss : s.iommu.cc.find? (fun y => y.fn == fn) = none)
    (hc : s.iommu.ctxs.find? (fun y => y.fn == fn) = some c) :
    lookupCtx s fn = .ok (s.setIommu { s.iommu with cc := c :: s.iommu.cc }, c) := by
  rw [lookupCtx_eq (.inr ⟨hmiss, hc⟩), hmiss]; rfl

/-- The entry that has just been taken is found. -/
theorem lookupCtx_of_head {fn : BitVec 3} {c : CtxEntry} {l : List CtxEntry} (hl : s.iommu.cc = c :: l)
    (hfn : (c.fn == fn) = true) : lookupCtx s fn = .ok (s, c) := by
  simp only [lookupCtx, hl, List.find?_cons, hfn]

/-- The context of an advanced request is the one of the state whose PASID Cache is filled. -/
theorem advCtx_refillPc {pdp0 : Word64} {x : PasidEntry} (fm : FaultModel) (hpdp0 : (s.bank e).pdp0.get = .ok pdp0)
    (h : (s.bank e).pc.valid = false) (hok : x.ok = true)
    (hx : s.iommu.pasids.find? (fun y => y.fn == elemFn d && y.pasid == pasidOf pdp0) = some x) :
    advCtx s e d fm = advCtx (s.setBank e { s.bank e with pc := ⟨true, x.pml4, x.eafe, x.fl64kpe⟩ }) e d fm := by
  generalize hfilled : s.setBank e { s.bank e with pc := ⟨true, x.pml4, x.eafe, x.fl64kpe⟩ } = filled
  have hbank : filled.bank e = { s.bank e with pc := ⟨true, x.pml4, x.eafe, x.fl64kpe⟩ } := by
    rw [← hfilled, setBank_bank_same]
  have hregs : filled.regs = s.regs := by rw [← hfilled]; rfl
  have hpdp0' : (filled.bank e).pdp0.get = .ok pdp0 := by rw [hbank]; exact hpdp0
  have hrefill : refillPc s e (elemFn d) (pasidOf pdp0) = .ok filled := hfilled ▸ refillPc_of_invalid h hx hok
  have hvalid : refillPc filled e (elemFn d) (pasidOf pdp0) = .ok filled :=
    refillPc_of_valid (by rw [hbank]) _ _
  simp only [advCtx, hregs, hpdp0, hpdp0', ok_bind, hrefill, hvalid]

/-- The context of an advanced request is the one of the state whose Context Cache is filled. -/
theorem advCtx_lookupCtx {c : CtxEntry} (fm : FaultModel) (h : (s.bank e).pc.valid = true)
    (hmiss : s.iommu.cc.find? (fun y => y.fn == elemFn d) = none)
    (hc : s.iommu.ctxs.find? (fun y => y.fn == elemFn d) = some c) :
    advCtx s e d fm = advCtx (s.setIommu { s.iommu with cc := c :: s.iommu.cc }) e d fm := by
  generalize hfilled : s.setIommu { s.iommu with cc := c :: s.iommu.cc } = filled
  have hbank : filled.bank e = s.bank e := by rw [← hfilled, setIommu_bank]
  have hregs : filled.regs = s.regs := by rw [← hfilled, setIommu_regs]
  have hfill : lookupCtx s (elemFn d) = .ok (filled, c) := hfilled ▸ lookupCtx_of_miss hmiss hc
  have hfound : lookupCtx filled (elemFn d) = .ok (filled, c) :=
    lookupCtx_of_head (l := s.iommu.cc) (by rw [← hfilled, setIommu_iommu])
      (List.find?_some (p := fun y : CtxEntry => y.fn == elemFn d) hc)
  simp only [advCtx, hregs, hbank, refillPc_of_valid h, refillPc_of_valid (hbank ▸ h), ok_bind, hfill, hfound]

/-- The function of the descriptor that an engine of an advanced context holds, Valid aside. -/
theorem elemFn_of_holdsAdvanced (hh : Rules.holdsAdvanced s elem e = true) (hget : (s.bank e).elem.get = .ok d) :
    elemFn d = BitVec.ofNat 3 (field elem 9 3) := by
  simp only [Rules.holdsAdvanced, Bool.and_eq_true, beq_iff_eq] at hh
  obtain ⟨⟨⟨-, hvalid⟩, -⟩, -⟩ := hh
  obtain ⟨-, rfl⟩ := descReg_get_spec.mp hget
  rw [elemFn, field_of_valid hvalid (by decide)]

end

/-- Settles O27: each cache by the context that its filling makes, under the one descriptor of both states. -/
theorem advancedCachesRefill : Obligations.AdvancedCachesRefill := by
  intro s e elem pdp0 r hsrc hopen hholds hpdp0
  refine ⟨fun x hinvalid hok hx => ?pasidCache, fun c hvalid hmiss hc => ?contextCache⟩
  case pasidCache =>
    have hopen' : gateOpen (s.setBank e { s.bank e with pc := ⟨true, x.pml4, x.eafe, x.fl64kpe⟩ }) none r.src = true := by
      rw [hsrc] at hopen ⊢
      simpa only [gateOpen, setBank_bank_same] using hopen
    refine exec_xlateAdv_congr hsrc hopen hopen' rfl (by rw [setBank_bank_same]) fun d fm hget => ?_
    refine advCtx_refillPc fm (written_get hpdp0) hinvalid hok ?_
    rw [elemFn_of_holdsAdvanced hholds hget]
    exact hx
  case contextCache =>
    have hopen' : gateOpen (s.setIommu { s.iommu with cc := c :: s.iommu.cc }) none r.src = true := by
      rw [hsrc] at hopen ⊢
      exact hopen
    refine exec_xlateAdv_congr hsrc hopen hopen' rfl rfl fun d fm hget => ?_
    have hfn := elemFn_of_holdsAdvanced hholds hget
    exact advCtx_lookupCtx fm hvalid (hfn ▸ hmiss) (hfn ▸ hc)

end Sys2Proof.Machine
end

section
/-! TLB.LOOKUP on the final TLBs (46 R384): an entry that passes the checks answers, a look-up without an entry is the walk from
memory, and a write that an entry does not allow drops the entry before the walk that takes its place (46 R386, R389). -/

namespace Sys2Proof.Machine

/-! ## The making of a context -/

section
variable {s t : State} {e : Engine} {fn : BitVec 3}

theorem refillPc_sets_banks {pasid : BitVec 20} (h : refillPc s e fn pasid = .ok t) : t = { s with banks := t.banks } := by
  unfold refillPc at h
  split at h
  · cases h; rfl
  · obtain ⟨x, -, rfl⟩ := fillPc_spec.mp h; rfl

theorem lookupCtx_sets_iommu {x : CtxEntry} (h : lookupCtx s fn = .ok (t, x)) : t = { s with iommu := t.iommu } := by
  unfold lookupCtx at h
  split at h
  · cases h; rfl
  · split at h
    · simp at h
    · cases h; rfl

theorem engineCtx_spec {va : Word64} {c : Ctx} (h : engineCtx s e va = .ok (t, c)) :
    t = { s with banks := t.banks, iommu := t.iommu } ∧ c.tag.src = .engine e := by
  simp only [engineCtx, bind_ok] at h
  obtain ⟨_, -, m, -, fm, -, _, -, h⟩ := h
  cases m with
  | ggtt => cases h; exact ⟨rfl, rfl⟩
  | ppgtt32 | ppgtt48 =>
    simp only [bind_ok, Except.ok.injEq, Prod.mk.injEq] at h
    obtain ⟨_, -, rfl, rfl⟩ := h; exact ⟨rfl, rfl⟩
  | adv =>
    simp only [advCtx, bind_ok, Except.ok.injEq, Prod.mk.injEq] at h
    obtain ⟨_, -, _, -, u, hu, ⟨v, x⟩, hv, rfl, rfl⟩ := h
    rw [lookupCtx_sets_iommu hv, refillPc_sets_banks hu]
    exact ⟨rfl, rfl⟩

/-- Everything the making of a context can do: fill the two caches in front of the IOMMU's tables. The context is of the
source that asks. -/
theorem contextOf_spec {src : Source} {va : Word64} {c : Ctx} (h : contextOf s src va = .ok (t, c)) :
    t = { s with banks := t.banks, iommu := t.iommu } ∧ c.tag.src = src := by
  cases src with
  | engine e => exact engineCtx_spec h
  | wdbox | vebox2 | display | aperture =>
    simp only [contextOf, bind_ok, Except.ok.injEq, Prod.mk.injEq] at h
    obtain ⟨_, -, rfl, rfl⟩ := h; exact ⟨rfl, rfl⟩

theorem contextOf_caches {src : Source} {va : Word64} {c : Ctx} (h : contextOf s src va = .ok (t, c)) :
    t.caches = s.caches := by
  rw [(contextOf_spec h).1]

theorem contextOf_plat {src : Source} {va : Word64} {c : Ctx} (h : contextOf s src va = .ok (t, c)) : t.plat = s.plat := by
  rw [(contextOf_spec h).1]

end

/-! ## What an entry answers -/

section
variable {p : Platform} {env : WalkEnv} {t : TlbEntry}

/-- An entry without a recorded fault that passes the checks of 46 R384 is a hit. -/
theorem judge_of_passes (hreason : t.reason = none)
    (hwrite : env.wr = true → (t.attrs.rw = true ∨ env.ctx.wp = false) ∧ (t.attrs.dirty = true ∨ env.ctx.ad = false))
    (hfetch : p.xdEnforce = true → env.er = true → t.attrs.xd = false) : judge p env t = .hit t := by
  have hrw : (env.wr && !t.attrs.rw && env.ctx.wp) = false := by
    cases hwr : env.wr with
    | false => rfl
    | true => rcases (hwrite hwr).1 with h | h <;> simp [h]
  have hdirty : (env.wr && env.ctx.ad && !t.attrs.dirty) = false := by
    cases hwr : env.wr with
    | false => rfl
    | true => rcases (hwrite hwr).2 with h | h <;> simp [h]
  have hxd : (p.xdEnforce && env.er && t.attrs.xd) = false := by
    cases hp : p.xdEnforce with
    | false => rfl
    | true =>
      cases he : env.er with
      | false => rfl
      | true => exact hfetch hp he
  simp only [judge, hreason, hrw, hdirty, hxd, Bool.false_eq_true, if_false]

/-- A write through an entry that is read-only, or not dirty under A&D support, drops it (46 R386, R389). -/
theorem judge_of_stale (hreason : t.reason = none) (hwr : env.wr = true)
    (hstale : (t.attrs.rw = false ∧ env.ctx.wp = true) ∨ (env.ctx.ad = true ∧ t.attrs.dirty = false)) :
    ∃ use, judge p env t = .dropMiss t use := by
  unfold judge
  rw [hreason]
  dsimp only
  split
  · exact ⟨_, rfl⟩
  · next hrw =>
    rcases hstale with ⟨h, hwp⟩ | ⟨had, hdirty⟩
    · simp [hwr, h, hwp] at hrw
    · simp [hwr, had, hdirty]

theorem tlbLookup_of_find {s : State} (htlb : env.use.tlb = true)
    (hfind : s.caches.tlb.find? (fun x => x.covers env.ctx.tag env.group env.va) = some t) :
    tlbLookup s env = judge s.plat env t := by
  simp only [tlbLookup, htlb, if_true, hfind]

theorem tlbLookup_of_none {s : State} (hnone : ∀ x ∈ s.caches.tlb, x.covers env.ctx.tag env.group env.va = false) :
    tlbLookup s env = .miss := by
  have hfind : s.caches.tlb.find? (fun x => x.covers env.ctx.tag env.group env.va) = none :=
    List.find?_eq_none.mpr fun x hx => by simp [hnone x hx]
  simp [tlbLookup, hfind]

theorem xlate_of_hit {s : State} (h : tlbLookup s env = .hit t) :
    xlate s env = (hitEnd s env t >>= fun x => .ok (s, x, none)) := by
  simp only [xlate, h]

theorem xlate_of_miss {s : State} (h : tlbLookup s env = .miss) : xlate s env = walk s env := by
  simp only [xlate, h]

theorem xlate_of_dropMiss {s : State} {use : CacheUse} (h : tlbLookup s env = .dropMiss t use) :
    xlate s env = walk (dropTlb s t) { env with use := use } := by
  simp only [xlate, h]

end

/-! ## From the row to the translation -/

/-- What a translation of a request's own address is made for. -/
def lookupEnv (c : Ctx) (use : CacheUse) (r : Request) : WalkEnv :=
  ⟨c, use, r.client.tlbGroup, r.va, r.acc.isWrite, r.er⟩

section
variable {s u : State} {c : Ctx} {r : Request} {use : CacheUse} {t : TlbEntry}

theorem exec_tlbLookup (hwf : r.wellFormed = true) (hopen : gateOpen s none r.src = true)
    (hctx : contextOf s r.src r.va = .ok (u, c)) : exec (.tlbLookup use r) s = toOutcome (translateIn u c use r) := by
  have htranslate := translate_of_gateOpen (use := use) hwf hopen
  rw [hctx, ok_bind] at htranslate
  exact congrArg toOutcome htranslate

/-- A hit answers whether or not TR-TT is on (46 R381). -/
theorem translateIn_of_hit {active : Bool} (hact : trttActive u.regs r.src c.tag.mode = .ok active)
    (hhit : tlbLookup u (lookupEnv c use r) = .hit t) : translateIn u c use r = finalXlate u c use r r.va none := by
  have hlookup : tlbLookup u ⟨c, use, r.client.tlbGroup, r.va, r.acc.isWrite, r.er⟩ = .hit t := hhit
  simp only [translateIn, hact, ok_bind, hlookup, ite_self]

theorem finalXlate_of_error {z : Stop} (h : xlate u (lookupEnv c use r) = .error z) :
    finalXlate u c use r r.va none = .error z := by
  have hx : xlate u ⟨c, use, r.client.tlbGroup, r.va, r.acc.isWrite, r.er⟩ = .error z := h
  rw [finalXlate, hx]; rfl

theorem finalXlate_of_null {v : State} {w : Option WalkRecord} (h : xlate u (lookupEnv c use r) = .ok (v, .null, w)) :
    finalXlate u c use r r.va none = .ok (nullCompletion (setWalked v w) r) := by
  have hx : xlate u ⟨c, use, r.client.tlbGroup, r.va, r.acc.isWrite, r.er⟩ = .ok (v, .null, w) := h
  simp only [finalXlate, hx, ok_bind, joinRec_none]

/-- A translated access goes to GTI, unless the CPU would reach the global table by it (20 R90, R92; log 43). -/
theorem finalXlate_of_phys {v : State} {w : Option WalkRecord} {pa : Nat} {attrs : Attrs}
    (h : xlate u (lookupEnv c use r) = .ok (v, .phys pa attrs, w)) : finalXlate u c use r r.va none =
      if Rules.gsmByCpu v.plat r pa then refuse .stolenNotVisible
      else .ok ((setWalked v w).addInFlight ⟨r, c.ctxid, pa, attrs⟩) := by
  have hx : xlate u ⟨c, use, r.client.tlbGroup, r.va, r.acc.isWrite, r.er⟩ = .ok (v, .phys pa attrs, w) := h
  have hplat : (setWalked v w).plat = v.plat := rfl
  simp only [finalXlate, hx, ok_bind, joinRec_none, hplat, mayReach_eq]
  cases Rules.gsmByCpu v.plat r pa <;> rfl

end

/-- Settles O31: the entry is a hit, whose end `hitEnd` computes. -/
theorem tlbLookupHit : Obligations.TlbLookupHit := by
  intro s u c r use t act pa hwf hopen hctx hact htlb hfind hreason hwrite hfetch
  have hplat := contextOf_plat hctx
  obtain ⟨hregs, -⟩ := contextOf_same hctx
  rw [← er_eq, ← hplat] at hfetch
  have hhit : tlbLookup u (lookupEnv c use r) = .hit t :=
    (tlbLookup_of_find (env := lookupEnv c use r) htlb hfind).trans (judge_of_passes hreason hwrite hfetch)
  rw [exec_tlbLookup hwf hopen hctx, translateIn_of_hit (hregs ▸ hact) hhit]
  have hx := xlate_of_hit hhit
  rw [hitEnd, hregs] at hx
  refine ⟨fun hbits hcache => ?large, fun hsmall => ?small⟩
  case large =>
    rw [decide_eq_false (Nat.not_lt.mpr hbits), hcache] at hx
    rw [finalXlate_of_error hx]; rfl
  case small =>
    have hallowed : (decide (t.bits < 21) || !s.regs.gttCacheEnable) = true := by
      rcases hsmall with h | h <;> simp [h]
    rw [hallowed, require_true, ok_bind] at hx
    refine ⟨fun hnull => ?null, fun hnull hpa => ?phys⟩
    case null =>
      rw [hnull] at hx
      rw [finalXlate_of_null hx]; rfl
    case phys =>
      rw [← hplat] at hpa
      have hframe : secondLevel u.plat t.nested (t.frame + offsetOf t.bits (lookupEnv c use r).va) = .ok pa := hpa
      rw [hnull, if_neg Bool.false_ne_true, hframe] at hx
      rw [finalXlate_of_phys hx, hplat]
      cases Rules.gsmByCpu s.plat r pa <;> rfl

/-! ## Walks whose choice of copies makes no difference -/

section
variable {s : State} {env : WalkEnv} {use : CacheUse}

theorem fetchCached_none (hpwc : env.use.pwc = false) (hgtt : env.use.gtt = false) (level addr : Nat) :
    fetchCached s env level addr = none := by
  simp [fetchCached, hpwc, hgtt]

/-- Two choices of copies that find the same copy of the entry of a level, and agree on the levels below, make the same walk. -/
theorem walkLevels_use {level tbl : Nat} {rest : List Nat} {st : Stage} {log : WalkLog}
    (hcached : fetchCached s env level (tbl + 8 * indexOf env.ctx.tag.mode level st.big env.va) =
      fetchCached s { env with use := use } level (tbl + 8 * indexOf env.ctx.tag.mode level st.big env.va))
    (hrest : ∀ t tbl st log, walkLevels env rest t tbl st log = walkLevels { env with use := use } rest t tbl st log) :
    walkLevels env (level :: rest) s tbl st log = walkLevels { env with use := use } (level :: rest) s tbl st log := by
  have hentry : fetchEntry s { env with use := use } level (tbl + 8 * indexOf env.ctx.tag.mode level st.big env.va) =
      fetchEntry s env level (tbl + 8 * indexOf env.ctx.tag.mode level st.big env.va) := by
    unfold fetchEntry; rw [hcached]; rfl
  unfold walkLevels
  simp only [hentry, ← hcached, ← hrest]
  rfl

theorem walkOnce_use (hlevels : ∀ tbl, topTable s env.ctx env.va = .ok tbl →
      walkLevels env (levelsOf env.ctx.tag.mode) s tbl Stage.fresh ⟨[], none, []⟩ =
        walkLevels { env with use := use } (levelsOf env.ctx.tag.mode) s tbl Stage.fresh ⟨[], none, []⟩) :
    walkOnce s env = walkOnce s { env with use := use } := by
  rw [walkOnce_eq, walkOnce_eq]
  show _ = topTable s env.ctx env.va >>= fun tbl =>
    walkLevels { env with use := use } (levelsOf env.ctx.tag.mode) s tbl Stage.fresh ⟨[], none, []⟩ >>= conclude env
  cases htop : topTable s env.ctx env.va with
  | error z => rfl
  | ok tbl => simp only [ok_bind, hlevels tbl htop]

theorem walkLevels_of_noWalkCache (hpwc : env.use.pwc = false) (hgtt : env.use.gtt = false) (levels : List Nat) (tbl : Nat)
    (st : Stage) (log : WalkLog) :
    walkLevels env levels s tbl st log = walkLevels { env with use := noCache } levels s tbl st log := by
  induction levels generalizing s tbl st log with
  | nil => rfl
  | cons level rest ih =>
    refine walkLevels_use ?_ fun t tbl st log => ih (s := t) tbl st log
    rw [fetchCached_none hpwc hgtt, fetchCached_none rfl rfl]

/-- A walk that looks into no walk cache is the walk from memory, whatever other copies its translation may use. -/
theorem walk_of_noWalkCache (hpwc : env.use.pwc = false) (hgtt : env.use.gtt = false) :
    walk s env = walk s { env with use := noCache } := by
  rw [walk_noCache s env hpwc hgtt, walk_noCache s _ rfl rfl]
  exact walkOnce_use fun tbl _ => walkLevels_of_noWalkCache hpwc hgtt _ tbl _ _

end

/-! ## A look-up without an entry -/

section
variable {s u : State} {c : Ctx} {r : Request} {use use' : CacheUse}

/-- Outside the range of TR-TT the stage leaves a translation alone in every mode (40 R220, R221). -/
theorem not_trva_of_noTrtt {src : Source} {va : Word64} {m : Mode} {active : Bool}
    (hoff : Rules.noTrtt s src va = true) (hact : trttActive s.regs src m = .ok active) :
    (active && isTrva s.regs va) = false := by
  cases m with
  | ggtt | ppgtt32 =>
    unfold trttActive at hact
    split at hact
    · simp at hact
    · cases hact; rfl
  | ppgtt48 =>
    obtain ⟨a, ha, hva⟩ := no_trtt hoff (.inl rfl)
    obtain rfl : a = active := Except.ok.inj (ha.symm.trans hact)
    exact hva
  | adv =>
    obtain ⟨a, ha, hva⟩ := no_trtt hoff (.inr rfl)
    obtain rfl : a = active := Except.ok.inj (ha.symm.trans hact)
    exact hva

theorem translate_use (h : ∀ u c, contextOf s r.src r.va = .ok (u, c) → translateIn u c use r = translateIn u c use' r)
    (pasid : Option (BitVec 20)) : translate use pasid r s = translate use' pasid r s := by
  unfold translate
  cases hctx : contextOf s r.src r.va with
  | error z => rfl
  | ok x =>
    obtain ⟨u, c⟩ := x
    simp only [ok_bind, h u c hctx]

theorem finalXlate_use (h : xlate u (lookupEnv c use r) = xlate u (lookupEnv c use' r)) :
    finalXlate u c use r r.va none = finalXlate u c use' r r.va none := by
  have hx : xlate u ⟨c, use, r.client.tlbGroup, r.va, r.acc.isWrite, r.er⟩ =
    xlate u ⟨c, use', r.client.tlbGroup, r.va, r.acc.isWrite, r.er⟩ := h
  rw [finalXlate, finalXlate, hx]

/-- Where TR-TT leaves the address alone, two choices of copies that make the same walk make the same translation. -/
theorem translateIn_use (htr : use.tr = false) (htr' : use'.tr = false)
    (hoff : ∀ active, trttActive u.regs r.src c.tag.mode = .ok active → (active && isTrva u.regs r.va) = false)
    (h : xlate u (lookupEnv c use r) = xlate u (lookupEnv c use' r)) :
    translateIn u c use r = translateIn u c use' r := by
  cases hact : trttActive u.regs r.src c.tag.mode with
  | error z => simp only [translateIn, hact]; rfl
  | ok active =>
    rw [translateIn_direct hact (hoff active hact) htr, translateIn_direct hact (hoff active hact) htr']
    exact finalXlate_use h

end

/-- Settles O33: without an entry the TLB answers nothing, and the walk is the one from memory; the second part is the
definition of the two rows. -/
theorem tlbLookupMiss : Obligations.TlbLookupMiss := by
  intro s r
  refine ⟨fun hnone hoff => congrArg toOutcome (translate_use (fun u c hctx => ?_) none), rfl⟩
  obtain ⟨hregs, -⟩ := contextOf_same hctx
  obtain ⟨-, hsrc⟩ := contextOf_spec hctx
  refine translateIn_use rfl rfl (fun active hact => ?outside) ?walk
  case outside =>
    rw [hregs] at hact ⊢
    exact not_trva_of_noTrtt hoff hact
  case walk =>
    have hmiss : tlbLookup u (lookupEnv c ⟨true, false, false, false⟩ r) = .miss := by
      refine tlbLookup_of_none fun x hx => ?_
      rw [contextOf_caches hctx] at hx
      by_contra hcovers
      simp only [TlbEntry.covers, Bool.not_eq_false, Bool.and_eq_true, beq_iff_eq] at hcovers
      obtain ⟨⟨htag, -⟩, hpage⟩ := hcovers
      exact hnone x hx (htag ▸ hsrc) hpage
    calc xlate u (lookupEnv c ⟨true, false, false, false⟩ r)
      _ = walk u (lookupEnv c ⟨true, false, false, false⟩ r) := xlate_of_miss hmiss
      _ = walk u (lookupEnv c noCache r) := walk_of_noWalkCache rfl rfl
      _ = xlate u (lookupEnv c noCache r) := (xlate_noTlb u c noCache _ _ _ _ rfl).symm

/-! ## No translation adds an entry to a TLB -/

section
variable {s t : State} {env : WalkEnv} {c : Ctx} {use : CacheUse} {r : Request}

theorem walkOnce_caches {x : XlateEnd × Option WalkRecord} (ha : env.ctx.aligned) (h : walkOnce s env = .ok (t, x)) :
    t.caches = s.caches := by
  rw [(walkOnce_frame ha h).eq]

/-- A walk may drop pointers, and no TLB entry. -/
theorem walk_tlb {x : XlateEnd × Option WalkRecord} (ha : env.ctx.aligned) (h : walk s env = .ok (t, x)) :
    t.caches.tlb = s.caches.tlb := by
  obtain ⟨x, w⟩ := x
  obtain ⟨u, ⟨hu, ht⟩ | ⟨y, v, w', hu, ht, -⟩⟩ := walk_spec h
  · rw [← walkOnce_caches ha hu]
    rcases ht with rfl | rfl <;> rfl
  · rw [walkOnce_caches (env := { env with use := noCache }) ha ht, walkOnce_caches ha hu]

theorem dropTlb_subset (s : State) (x : TlbEntry) : (dropTlb s x).caches.tlb ⊆ s.caches.tlb := List.filter_subset_self _

theorem not_mem_dropTlb (s : State) (x : TlbEntry) : x ∉ (dropTlb s x).caches.tlb := by
  simp [dropTlb]

theorem xlate_tlb {x : XlateEnd × Option WalkRecord} (ha : env.ctx.aligned) (h : xlate s env = .ok (t, x)) :
    t.caches.tlb ⊆ s.caches.tlb := by
  unfold xlate at h
  split at h
  · simp only [bind_ok, Except.ok.injEq, Prod.mk.injEq] at h
    obtain ⟨_, -, rfl, -⟩ := h; exact List.Subset.refl _
  · cases h; exact List.Subset.refl _
  · next y use _ =>
    rw [walk_tlb (env := { env with use := use }) ha h]
    exact dropTlb_subset s y
  · rw [walk_tlb ha h]
    exact List.Subset.refl _

@[simp] theorem setHung_caches (s : State) (b : Bool) (src : Source) : (setHung s b src).caches = s.caches := by
  cases src <;> rfl

@[simp] theorem erroredCycle_caches (s : State) (r : Request) : (erroredCycle s r).caches = s.caches := by
  simp [erroredCycle]

@[simp] theorem setWalked_caches (s : State) (w : Option WalkRecord) : (setWalked s w).caches = s.caches := rfl

theorem takePageFault_caches {va : Word64} {reason : FaultReason} {tr : Option TrPoint}
    (h : takePageFault s c r va reason tr = .ok t) : t.caches = s.caches := by
  rcases takePageFault_spec h with ⟨-, -, rfl⟩ | ⟨-, -, rfl⟩ | ⟨-, rfl⟩ <;> simp

/-- What becomes of the request does not touch the caches. -/
theorem finalXlate_caches {va : Word64} {p : Option WalkRecord} (h : finalXlate s c use r va p = .ok t) :
    ∃ u x, xlate s ⟨c, use, r.client.tlbGroup, va, r.acc.isWrite, r.er⟩ = .ok (u, x) ∧ t.caches = u.caches := by
  simp only [finalXlate, bind_ok] at h
  obtain ⟨⟨u, x, w⟩, hx, h⟩ := h
  refine ⟨u, (x, w), hx, ?_⟩
  cases x with
  | phys pa attrs =>
    simp only [bind_ok, Except.ok.injEq] at h
    obtain ⟨_, -, rfl⟩ := h; rfl
  | null => cases h; rfl
  | fault reason level => exact takePageFault_caches (s := setWalked u (joinRec w p)) h
  | filtered reason => cases h; rfl
  | abandoned => cases h; exact erroredCycle_caches _ _

theorem finalXlate_tlb {va : Word64} {p : Option WalkRecord} (ha : c.aligned) (h : finalXlate s c use r va p = .ok t) :
    t.caches.tlb ⊆ s.caches.tlb := by
  obtain ⟨u, x, hx, hcaches⟩ := finalXlate_caches h
  rw [hcaches]
  exact xlate_tlb (env := ⟨c, use, r.client.tlbGroup, va, r.acc.isWrite, r.er⟩) ha hx

theorem trRead_tlb {level : Nat} {base tva : Word64} {v : Option Word64} (ha : c.aligned)
    (h : trRead s c use r level base tva = .ok (t, v)) : t.caches.tlb ⊆ s.caches.tlb := by
  simp only [trRead, bind_ok] at h
  obtain ⟨⟨u, x, w⟩, hx, h⟩ := h
  suffices hcaches : t.caches = u.caches by
    rw [hcaches]
    exact xlate_tlb (env := ⟨c, use, r.client.tlbGroup, tva, false, false⟩) ha hx
  cases x with
  | phys pa attrs =>
    simp only [bind_ok, Except.ok.injEq, Prod.mk.injEq] at h
    obtain ⟨_, -, rfl, -⟩ := h; rfl
  | null => cases h; rfl
  | fault reason level =>
    dsimp only at h
    split at h
    · simp only [bind_ok, Except.ok.injEq, Prod.mk.injEq] at h
      obtain ⟨_, hfault, rfl, -⟩ := h
      exact takePageFault_caches (s := setWalked u (joinRec w u.walker.walked)) hfault
    · cases h; rfl
  | filtered reason => cases h; rfl
  | abandoned => cases h; exact erroredCycle_caches _ _

theorem trLevels_tlb (levels : List Nat) {base : Word64} {forced : Option Word64} {x : Option TrResult} (ha : c.aligned)
    (h : trLevels c use r levels s base forced = .ok (t, x)) : t.caches.tlb ⊆ s.caches.tlb := by
  induction levels generalizing s base forced with
  | nil => simp [trLevels] at h
  | cons level rest ih =>
    simp only [trLevels, bind_ok] at h
    obtain ⟨_, -, ⟨u, v⟩, hu, h⟩ := h
    have hread : u.caches.tlb ⊆ s.caches.tlb := by
      cases forced with
      | some value => cases hu; exact List.Subset.refl _
      | none => exact trRead_tlb ha hu
    cases v with
    | none => cases h; exact hread
    | some v =>
      dsimp only at h
      split at h
      · cases h; exact hread
      · cases h; exact hread
      · cases h; exact hread
      · exact List.Subset.trans (ih h) hread
      all_goals simp at h

theorem afterTr_tlb {x : TrResult} (ha : c.aligned) (h : afterTr s c use r x = .ok t) : t.caches.tlb ⊆ s.caches.tlb := by
  cases x with
  | null => cases h; exact List.Subset.refl _
  | invalid => cases h; exact List.Subset.refl _
  | tile l1 =>
    simp only [afterTr, bind_ok] at h
    obtain ⟨_, -, h⟩ := h
    exact finalXlate_tlb ha h

theorem finishTr_tlb {x : Option TrResult} (ha : c.aligned) (h : finishTr c use r (s, x) = .ok t) :
    t.caches.tlb ⊆ s.caches.tlb := by
  cases x with
  | none => cases h; exact List.Subset.refl _
  | some x => exact afterTr_tlb (s := recordTr s c r x) ha h

/-- The TR-TT stage adds no entry; where it does not apply, the translation without it is made. -/
theorem throughTr_tlb {direct : Res State} (ha : c.aligned) (h : throughTr s c use r direct = .ok t) :
    t.caches.tlb ⊆ s.caches.tlb ∨ direct = .ok t := by
  unfold throughTr at h
  split at h
  · exact .inl (afterTr_tlb (s := setWalked s none) ha h)
  · split at h
    · simp only [bind_ok] at h
      obtain ⟨⟨u, x⟩, hu, h⟩ := h
      have hwalk : u.caches.tlb ⊆ s.caches.tlb := trLevels_tlb (s := setWalked s none) _ ha hu
      exact .inl (List.Subset.trans (finishTr_tlb ha h) hwalk)
    · exact .inr h

/-- An entry that its look-up drops is in no TLB after the translation. -/
theorem finalXlate_drops {x : TlbEntry} {use' : CacheUse} (ha : c.aligned)
    (hdrop : tlbLookup s (lookupEnv c use r) = .dropMiss x use') (h : finalXlate s c use r r.va none = .ok t) :
    x ∉ t.caches.tlb := by
  obtain ⟨u, y, hy, hcaches⟩ := finalXlate_caches h
  have hwalk : walk (dropTlb s x) (lookupEnv c use' r) = .ok (u, y) := (xlate_of_dropMiss hdrop).symm.trans hy
  rw [hcaches, walk_tlb (env := lookupEnv c use' r) ha hwalk]
  exact not_mem_dropTlb s x

theorem translateIn_drops {x : TlbEntry} {use' : CacheUse} (ha : c.aligned)
    (hdrop : tlbLookup s (lookupEnv c use r) = .dropMiss x use') (h : translateIn s c use r = .ok t) :
    x ∉ t.caches.tlb := by
  have hlookup : tlbLookup s ⟨c, use, r.client.tlbGroup, r.va, r.acc.isWrite, r.er⟩ = .dropMiss x use' := hdrop
  simp only [translateIn, bind_ok, hlookup] at h
  obtain ⟨active, -, h⟩ := h
  cases active with
  | false => exact finalXlate_drops ha hdrop h
  | true =>
    rcases throughTr_tlb ha h with hsub | hdirect
    · exact fun hx => not_mem_dropTlb s x (hsub hx)
    · exact finalXlate_drops ha hdrop hdirect

end

/-- Settles O34: the entry is dropped by the look-up, with the TR-TT stage in front or not, and no translation adds an entry. -/
theorem staleEntryIsDropped : Obligations.StaleEntryIsDropped := by
  intro s u v c r use t act hopen hctx hact htlb hfind hreason hwr hstale h
  obtain ⟨-, ha⟩ := contextOf_frame hopen hctx
  obtain ⟨use', hjudge⟩ := judge_of_stale (p := u.plat) (env := lookupEnv c use r) hreason hwr hstale
  have hdrop : tlbLookup u (lookupEnv c use r) = .dropMiss t use' :=
    (tlbLookup_of_find (env := lookupEnv c use r) htlb hfind).trans hjudge
  exact translateIn_drops ha hdrop (translateIn_of_ok hopen hctx ((toOutcome_next _ _).mp h))

end Sys2Proof.Machine
end

section
/-! TLB.LOOKUP on the copies that are no TLB entries: pointers of the page-walk caches in the three PPGTT walks (46 R386, R390,
R411), lines of the GTT cache (46 R394), and TR-TT results (46 R381, R397). Each part is the walk of `Rules` with the copies in
the place of memory; the translation around it is that of the XLATE rows. -/

namespace Sys2Proof.Machine

/-- A translation that chooses cached pointers and no other copies (46 R380). -/
abbrev pointersOnly : CacheUse := ⟨false, false, true, false⟩

/-- A translation that chooses lines of the GTT cache and no other copies. -/
abbrev linesOnly : CacheUse := ⟨false, false, false, true⟩

/-- A translation that chooses TR-TT results and no other copies. -/
abbrev resultsOnly : CacheUse := ⟨false, true, false, false⟩

section
variable {s : State} {e : Engine} {r : Request} {c : Ctx} {use : CacheUse} {active : Bool}

/-- A look-up that TR-TT leaves alone and that finds its context filled. -/
theorem exec_tlbLookup_direct (hwf : r.wellFormed = true) (hopen : gateOpen s none r.src = true)
    (hctx : contextOf s r.src r.va = .ok (s, c)) (hact : trttActive s.regs r.src c.tag.mode = .ok active)
    (htrva : (active && isTrva s.regs r.va) = false) (htr : use.tr = false) :
    exec (.tlbLookup use r) s = toOutcome (finalXlate s c use r r.va none) := by
  rw [exec_tlbLookup hwf hopen hctx, translateIn_direct hact htrva htr]

end

/-! ## Cached pointers -/

section
variable {s : State} {e : Engine} {r : Request} {c : Ctx}

theorem readVia_pointers (s : State) {env : WalkEnv} (h : env.use.pwc = true) :
    readVia s env = Rules.readCopy s env.ctx.tag := by
  simp [readVia, h]

theorem copiesUsed_pointers (s : State) {env : WalkEnv} (h : env.use.pwc = true) :
    copiesUsed s env = Rules.copiesOf s env.ctx.tag := by
  funext; simp [copiesUsed, h]

/-- A legacy context ends an engine's request as its two walks say: the one with the copies, and the one from memory that takes
its place after a write-protect fault (46 R386). -/
theorem finalXlate_pointers_legacy {first : Res XlateEnd} {again : State → Res XlateEnd} (hsrc : r.src = .engine e)
    (hfm : c.fm = .hang) (hfirst : SameEnd s first (walkOnce s (lookupEnv c pointersOnly r)))
    (hagain : SameEnd s (again s) (walkOnce s (lookupEnv c noCache r))) (hends : Ends first) (hends' : ∀ t, Ends (again t)) :
    EndsRes (finalXlate s c pointersOnly r r.va none)
      (Rules.usedCopies c.tag (Rules.still s first) fun t => Rules.still t (again t))
      fun t y => Rules.endLegacy t r c.ctxid y := by
  have hwalk : SameEndAdv (Rules.usedCopies c.tag (Rules.still s first) fun t => Rules.still t (again t))
      (walk s (lookupEnv c pointersOnly r)) := by
    refine walk_used rfl (sameEndAdv_still hfirst) fun t y h => ?_
    obtain ⟨rfl, -⟩ := still_ok.mp h
    exact sameEndAdv_still hagain
  have hlegacy := usedCopies_ends (tag := c.tag) (x := Rules.still s first) (again := fun t => Rules.still t (again t))
    (P := fun y => y ≠ .abandoned ∧ ∀ q, y ≠ .filtered q)
    (fun t y h => hends.h y (still_ok.mp h).2) (fun t u y h => (hends' t).h y (still_ok.mp h).2)
  refine final_legacy s r c pointersOnly r.va none _ hfm rfl hwalk hlegacy (fun _ _ _ _ => ?_) (fun t pa _ _ => ?_)
  · rw [hsrc]; rfl
  · exact mayReach_of_src t.plat (by rw [hsrc]; nofun) pa

/-- The walk of 41 R251 with cached page-directory entries. -/
theorem finalXlate_pointers_32 (ctxid : Word32) (pdp : Word64) (hsrc : r.src = .engine e) (hhaw : 6 ≤ s.plat.haw) :
    let tag : Tag := ⟨.engine e, .ppgtt32, addrField s.plat.haw 12 pdp⟩
    EndsRes (finalXlate s (legacyCtx (.engine e) .ppgtt32 ctxid (addrField s.plat.haw 12 pdp)) pointersOnly r r.va none)
      (Rules.usedCopies tag (Rules.still s (Rules.ppgtt32Via (Rules.readCopy s tag) s pdp r.acc.isWrite r.va))
        fun t => Rules.still t (Rules.ppgtt32 t pdp r.acc.isWrite r.va))
      fun t y => Rules.endLegacy t r ctxid y := by
  have hsame (use : CacheUse) (hgtt : use.gtt = false) := sameEnd_32 s
    (lookupEnv (legacyCtx (.engine e) .ppgtt32 ctxid (addrField s.plat.haw 12 pdp)) use r) pdp rfl
    (legacyCtx_env _ hgtt rfl) hhaw rfl
  have hfirst := hsame pointersOnly rfl
  have hagain := hsame noCache rfl
  rw [readVia_pointers _ rfl] at hfirst
  rw [readVia_noCache _ _ rfl] at hagain
  exact finalXlate_pointers_legacy hsrc rfl hfirst hagain (ends_32 ..) fun _ => ends_32 ..

/-- The walk of 42 R272 with cached entries above the page table. -/
theorem finalXlate_pointers_48 (ctxid : Word32) (pdp0 : Word64) (hsrc : r.src = .engine e) (hhaw : 6 ≤ s.plat.haw) :
    let tag : Tag := ⟨.engine e, .ppgtt48, addrField s.plat.haw 12 pdp0⟩
    EndsRes (finalXlate s (legacyCtx (.engine e) .ppgtt48 ctxid (addrField s.plat.haw 12 pdp0)) pointersOnly r r.va none)
      (Rules.usedCopies tag (Rules.still s (Rules.ppgtt48Via (Rules.readCopy s tag) s pdp0 r.acc.isWrite r.va))
        fun t => Rules.still t (Rules.ppgtt48 t pdp0 r.acc.isWrite r.va))
      fun t y => Rules.endLegacy t r ctxid y := by
  have hsame (use : CacheUse) (hgtt : use.gtt = false) := sameEnd_48 s
    (lookupEnv (legacyCtx (.engine e) .ppgtt48 ctxid (addrField s.plat.haw 12 pdp0)) use r) pdp0 rfl
    (legacyCtx_env _ hgtt rfl) hhaw rfl
  have hfirst := hsame pointersOnly rfl
  have hagain := hsame noCache rfl
  rw [readVia_pointers _ rfl] at hfirst
  rw [readVia_noCache _ _ rfl] at hagain
  exact finalXlate_pointers_legacy hsrc rfl hfirst hagain (ends_48 ..) fun _ => ends_48 ..

/-- The walk of 44 R317 with cached entries above the page table; A and D bits may have been set when it is made again. -/
theorem finalXlate_pointers_adv {elem : Word64} {fm : FaultModel} (pdp0 : Word64) (x : CtxEntry) (hsrc : r.src = .engine e)
    (hfm : fm = .stream ∨ fm = .halt) (hvalid : (s.bank e).elem.value ||| 1 = elem)
    (hcache : s.regs.gttCacheEnable = false) :
    let a := Rules.advOf s.plat.haw elem (s.bank e).pc x
    let c := advCtxOf s e a pdp0 fm
    EndsRes (finalXlate s c pointersOnly r r.va none)
      (Rules.usedCopies c.tag (Rules.advVia (Rules.copiesOf s c.tag) s e a r.acc.isWrite (Rules.er r) r.va)
        fun t => Rules.adv t e a r.acc.isWrite (Rules.er r) r.va)
      fun t y => Rules.endAdv t r c.pasid c.ctxid r.va y := by
  intro a c
  rw [← er_eq]
  have henv (use : CacheUse) (hgtt : use.gtt = false) : AdvEnv (lookupEnv c use r) e a :=
    advCtxOf_env s e elem pdp0 x fm use r.client.tlbGroup r.va r.acc.isWrite r.er hvalid hgtt
  have hfirst := sameEnd_adv (henv pointersOnly rfl) s hcache rfl
  rw [copiesUsed_pointers _ rfl] at hfirst
  have hwalk : SameEndAdv (Rules.usedCopies c.tag (Rules.advVia (Rules.copiesOf s c.tag) s e a r.acc.isWrite r.er r.va)
      fun t => Rules.adv t e a r.acc.isWrite r.er r.va) (walk s (lookupEnv c pointersOnly r)) := by
    refine walk_used rfl hfirst fun t y h => ?_
    obtain ⟨hregs, -, -⟩ := advVia_keeps _ _ _ _ _ _ _ _ _ h
    have hagain := sameEnd_adv (henv noCache rfl) t (hregs ▸ hcache) rfl
    rwa [copiesUsed_noCache _ _ rfl] at hagain
  have hunfiltered := usedCopies_ends (tag := c.tag) (P := fun y => ∀ q, y ≠ .filtered q)
    (unfiltered_adv (Rules.copiesOf s c.tag) s e a r.acc.isWrite r.er r.va).h
    (fun t => (unfiltered_adv (fun _ => none) t e a r.acc.isWrite r.er r.va).h)
  exact final_adv s r c pointersOnly r.va none _ hfm rfl hwalk hunfiltered (by rw [hsrc]; nofun)

theorem cachedPointers_32 (elem pdp : Word64) (hwf : WellFormed (.xlatePpgtt32 elem r)) (hsrc : r.src = .engine e)
    (hopen : gateOpen s none r.src = true) (hholds : Rules.holdsLegacy s elem r.src = true)
    (hoff : Rules.trttOff s r.src = true) (hhaw : 6 ≤ s.plat.haw) (hva : r.va.toNat < 2 ^ 32)
    (hpdp : Rules.written (Rules.pdpOf (s.bank e) r.va) pdp = true) :
    let tag : Tag := ⟨.engine e, .ppgtt32, Rules.frame s.plat.haw 12 pdp⟩
    Rules.endsAs (exec (.tlbLookup pointersOnly r) s)
      (Rules.usedCopies tag (Rules.still s (Rules.ppgtt32Via (Rules.readCopy s tag) s pdp r.acc.isWrite r.va))
        fun t => Rules.still t (Rules.ppgtt32 t pdp r.acc.isWrite r.va))
      fun t x => Rules.endLegacy t r (ctxIdOf s r.src) x := by
  obtain ⟨hfit, hrwf⟩ := Bool.and_eq_true_iff.mp hwf
  rw [hsrc] at hholds
  have hctx := (congrArg (contextOf s · r.va) hsrc).trans (contextOf_32 hfit hholds hva hpdp)
  rw [exec_tlbLookup_direct hrwf hopen hctx (trtt_off hoff _) rfl rfl, hsrc, ← addrField_frame]
  exact (finalXlate_pointers_32 _ pdp hsrc hhaw).endsAs

theorem cachedPointers_48 (elem pdp0 : Word64) (hwf : WellFormed (.xlatePpgtt48 elem r)) (hsrc : r.src = .engine e)
    (hopen : gateOpen s none r.src = true) (hholds : Rules.holdsLegacy s elem r.src = true)
    (hoff : Rules.noTrtt s r.src r.va = true) (hhaw : 6 ≤ s.plat.haw) (hva : canonical r.va = true)
    (hpdp0 : Rules.written (s.bank e).pdp0 pdp0 = true) :
    let tag : Tag := ⟨.engine e, .ppgtt48, Rules.frame s.plat.haw 12 pdp0⟩
    Rules.endsAs (exec (.tlbLookup pointersOnly r) s)
      (Rules.usedCopies tag (Rules.still s (Rules.ppgtt48Via (Rules.readCopy s tag) s pdp0 r.acc.isWrite r.va))
        fun t => Rules.still t (Rules.ppgtt48 t pdp0 r.acc.isWrite r.va))
      fun t x => Rules.endLegacy t r (ctxIdOf s r.src) x := by
  obtain ⟨hfit, hrwf⟩ := Bool.and_eq_true_iff.mp hwf
  rw [hsrc] at hholds
  have hctx := (congrArg (contextOf s · r.va) hsrc).trans (contextOf_48 hfit hholds hva hpdp0)
  obtain ⟨active, hact, htrva⟩ := no_trtt hoff (.inl rfl)
  rw [exec_tlbLookup_direct hrwf hopen hctx hact htrva rfl, hsrc, ← addrField_frame]
  exact (finalXlate_pointers_48 _ pdp0 hsrc hhaw).endsAs

theorem cachedPointers_adv (elem pdp0 : Word64) (x : CtxEntry) (hwf : WellFormed (.xlateAdv elem r))
    (hsrc : r.src = .engine e) (hopen : gateOpen s none r.src = true) (hholds : Rules.holdsAdvanced s elem e = true)
    (hoff : Rules.noTrtt s r.src r.va = true) (hcache : s.regs.gttCacheEnable = false) (hva : canonical r.va = true)
    (hpdp0 : Rules.written (s.bank e).pdp0 pdp0 = true) (hpc : (s.bank e).pc.valid = true)
    (hcc : s.iommu.cc.find? (fun y => y.fn == BitVec.ofNat 3 (field elem 9 3)) = some x) :
    let pasid : BitVec 20 := BitVec.ofNat 20 (field pdp0 0 20)
    let tag : Tag := ⟨.engine e, .adv, pasid.toNat⟩
    let a := Rules.advOf s.plat.haw elem (s.bank e).pc x
    Rules.endsAs (exec (.tlbLookup pointersOnly r) s)
      (Rules.usedCopies tag (Rules.advVia (Rules.copiesOf s tag) s e a r.acc.isWrite (Rules.er r) r.va)
        fun t => Rules.adv t e a r.acc.isWrite (Rules.er r) r.va)
      fun t x => Rules.endAdv t r pasid (ctxIdOf s r.src) r.va x := by
  obtain ⟨hfit, hrwf⟩ := Bool.and_eq_true_iff.mp hwf
  obtain ⟨d, _, H⟩ := holdsDesc_adv hfit hholds
  obtain ⟨fm, hfm, hctx⟩ := contextOf_adv hfit hholds hcache hva hpdp0 hpc hcc
  obtain ⟨active, hact, htrva⟩ := no_trtt hoff (.inr rfl)
  have hvalid : (s.bank e).elem.value ||| 1 = elem := (descReg_get_spec.mp H.get).2 ▸ H.valid
  rw [exec_tlbLookup_direct hrwf hopen ((congrArg (contextOf s · r.va) hsrc).trans hctx) hact htrva rfl, hsrc]
  exact (finalXlate_pointers_adv pdp0 x hsrc hfm hvalid hcache).endsAs

end

/-! ## Lines of the GTT cache -/

/-- What the one entry of a global-GTT walk leads to (43 R300). -/
def ggttEntryEnd (env : WalkEnv) (st : Stage) (log : WalkLog) : State × Option Word64 × Option GttLine → State × WalkEnd
  | (t, none, _) => (t, .abandoned log)
  | (t, some pte, line) =>
    if bit pte 0 then
      (t, .leaf 1 (EntryKind.ggttPte.stageAfter t.plat.haw t.regs.ipsEnable env.ctx.fl64k st pte) { log with gtt := line })
    else (t, .notPresent 1 { log with gtt := line })

/-- What every global-GTT translation says of its page: writable, and nothing else set (43 R309). -/
def ggttAttrs : Attrs := ⟨false, false, false, true, some true, false, false, false⟩

section
variable {s t : State} {env : WalkEnv} {src : Source} {ctxid : Word32} {pte : Word64}

theorem walkLevels_ggtt (hmode : env.ctx.tag.mode = .ggtt) (tbl : Nat) (st : Stage) (log : WalkLog) :
    walkLevels env [1] s tbl st log = (fetchEntry s env 1 (tbl + 8 * field env.va 12 20) >>= fun x =>
      .ok (ggttEntryEnd env st log x)) := by
  have hindex : indexOf env.ctx.tag.mode 1 st.big env.va = field env.va 12 20 := by rw [hmode]; rfl
  unfold walkLevels
  simp only [hindex]
  cases fetchEntry s env 1 (tbl + 8 * field env.va 12 20) with
  | error z => rfl
  | ok x =>
    obtain ⟨t, pte, line⟩ := x
    cases pte with
    | none => rfl
    | some pte =>
      simp only [ok_bind, hmode, ggttEntryEnd]
      cases bit pte 0 <;> rfl

/-- A present entry gives its page; no check can fail, for the global GTT has no Null bit and no permissions (43 R309). -/
theorem conclude_ggttPte (hctx : env.ctx = legacyCtx src .ggtt ctxid 0) (ips fl64k : Bool) (st : Stage) (log : WalkLog) :
    ∃ w, conclude env (t, .leaf 1 (EntryKind.ggttPte.stageAfter t.plat.haw ips fl64k st pte) log) =
      (Rules.nested t (Rules.frame t.plat.haw 12 pte + env.va.toNat % 2 ^ 12) >>= fun pa =>
        .ok (t, .phys pa ggttAttrs, w)) := by
  have hpass : leafFault t.plat env (EntryKind.ggttPte.stageAfter t.plat.haw ips fl64k st pte) = none := by
    simp [leafFault, hctx, legacyCtx, EntryKind.stageAfter, EntryKind.isTop, EntryKind.isIa32e, EntryKind.rwAfter,
      Stage.fresh]
  have hout : (EntryKind.ggttPte.stageAfter t.plat.haw ips fl64k st pte).out =
      .leaf 12 (Rules.frame t.plat.haw 12 pte) false := by
    rw [← addrField_frame]; rfl
  have hattrs : attrsOf env.ctx (EntryKind.ggttPte.stageAfter t.plat.haw ips fl64k st pte) = ggttAttrs := by
    rw [hctx]; rfl
  have hnested : env.ctx.nested = true := by rw [hctx]; rfl
  simp only [conclude, hout, finishLeaf, Bool.false_eq_true, if_false, hpass, hattrs, hnested]
  exact ⟨_, rfl⟩

/-- The walk of the global GTT is its top table's one entry. -/
theorem walkOnce_ggtt (hctx : env.ctx = legacyCtx src .ggtt ctxid 0) (hindex : 8 * field env.va 12 20 < s.plat.gsmSize) :
    walkOnce s env = (fetchEntry s env 1 (s.plat.gsmBase + 8 * field env.va 12 20) >>= fun x =>
      conclude env (ggttEntryEnd env Stage.fresh ⟨[], none, []⟩ x)) := by
  have hmode : env.ctx.tag.mode = .ggtt := by rw [hctx]; rfl
  have htop : topTable s env.ctx env.va = .ok s.plat.gsmBase := by
    simp only [topTable, hmode, beq_self_eq_true, if_true, hindex]
  rw [walkOnce_eq, htop, hmode]
  show walkLevels env [1] s s.plat.gsmBase Stage.fresh ⟨[], none, []⟩ >>= conclude env = _
  rw [walkLevels_ggtt hmode, bind_assoc']
  rfl

/-- The one fault of a global-GTT walk is Not-Present (43 R309). -/
theorem walkOnce_ggtt_fault (hctx : env.ctx = legacyCtx src .ggtt ctxid 0) (hindex : 8 * field env.va 12 20 < s.plat.gsmSize)
    {reason : FaultReason} {level : Nat} {w : Option WalkRecord} (h : walkOnce s env = .ok (t, .fault reason level, w)) :
    reason = .notPresent := by
  rw [walkOnce_ggtt hctx hindex] at h
  obtain ⟨⟨u, pte, line⟩, -, h⟩ := (bind_ok _ _ _).mp h
  cases pte with
  | none => cases h
  | some pte =>
    unfold ggttEntryEnd at h
    cases hpresent : bit pte 0 with
    | false =>
      simp only [hpresent, Bool.false_eq_true, if_false] at h
      cases h; rfl
    | true =>
      obtain ⟨w', hleaf⟩ := conclude_ggttPte (t := u) (pte := pte) hctx u.regs.ipsEnable env.ctx.fl64k Stage.fresh
        ⟨[], line, []⟩
      simp only [hpresent, if_true, hleaf] at h
      obtain ⟨pa, -, h⟩ := (bind_ok _ _ _).mp h
      cases h

/-- A walk whose one fault is Not-Present is not made again, and drops no pointers (46 R386, R411). -/
theorem walk_of_notPresentOnly
    (hfault : ∀ t reason level w, walkOnce s env = .ok (t, .fault reason level, w) → reason = .notPresent) :
    walk s env = walkOnce s env := by
  unfold walk
  cases h : walkOnce s env with
  | error z => rfl
  | ok x =>
    obtain ⟨t, y, w⟩ := x
    cases y with
    | fault reason level =>
      obtain rfl := hfault t reason level w h
      rfl
    | phys pa attrs | null | filtered reason | abandoned => rfl

theorem walk_ggtt (hctx : env.ctx = legacyCtx src .ggtt ctxid 0) (hindex : 8 * field env.va 12 20 < s.plat.gsmSize) :
    walk s env = walkOnce s env :=
  walk_of_notPresentOnly fun _ _ _ _ h => walkOnce_ggtt_fault hctx hindex h

/-- The copy that a line of the GTT cache holds of an entry, if the entry is present (46 R394). -/
theorem gttFind_of_line {addr : Nat} {l : GttLine} (hl : s.caches.gtt.find? (fun y => y.base == addr / 64 * 64) = some l)
    (hpte : l.entries[addr % 64 / 8]? = some pte) : gttFind s addr = if bit pte 0 then some pte else none := by
  have hfind : s.caches.gtt.find? (fun y => y.base == lineBase addr) = some l := hl
  simp only [gttFind, hfind, hpte]

theorem fetchCached_line {addr : Nat} (hgtt : env.use.gtt = true) (hcache : s.regs.gttCacheEnable = true) :
    fetchCached s env 1 addr = gttFind s addr := by
  simp [fetchCached, hgtt, hcache]

end

section
variable {s : State} {r : Request} {elem pte : Word64} {l : GttLine}

/-- A look-up in the global GTT below 4 GB, which TR-TT leaves alone. -/
theorem exec_tlbLookup_ggtt {use : CacheUse} (hwf : WellFormed (.xlateGgtt elem r)) (hopen : gateOpen s none r.src = true)
    (hholds : Rules.holdsLegacy s elem r.src = true) (hoff : Rules.trttOff s r.src = true) (hva : r.va.toNat < 2 ^ 32)
    (htr : use.tr = false) :
    exec (.tlbLookup use r) s = toOutcome (finalXlate s (ggttCtx s r.src) use r r.va none) := by
  obtain ⟨hfit, hrwf⟩ := Bool.and_eq_true_iff.mp hwf
  have hctx : contextOf s r.src r.va = .ok (s, ggttCtx s r.src) := by
    rw [contextOf_ggtt hfit hholds, decide_eq_true hva]; rfl
  exact exec_tlbLookup_direct hrwf hopen hctx (trtt_off hoff _) rfl htr

/-- The translation by a present entry of a line. -/
theorem xlate_presentLine (hcache : s.regs.gttCacheEnable = true) (hindex : 8 * field r.va 12 20 < s.plat.gsmSize)
    (hfound : gttFind s (s.plat.gsmBase + 8 * field r.va 12 20) = some pte) (hpresent : bit pte 0 = true) {pa : Nat}
    (hpa : Rules.nested s (Rules.frame s.plat.haw 12 pte + r.va.toNat % 2 ^ 12) = .ok pa) :
    ∃ w, xlate s (lookupEnv (ggttCtx s r.src) linesOnly r) = .ok (s, .phys pa ggttAttrs, w) := by
  have hcached : fetchCached s (lookupEnv (ggttCtx s r.src) linesOnly r) 1 (s.plat.gsmBase + 8 * field r.va 12 20) =
      some pte := (fetchCached_line rfl hcache).trans hfound
  have hfetch : fetchEntry s (lookupEnv (ggttCtx s r.src) linesOnly r) 1 (s.plat.gsmBase + 8 * field r.va 12 20) =
      .ok (s, some pte, none) := by simp only [fetchEntry, hcached]
  obtain ⟨w, hleaf⟩ := conclude_ggttPte (t := s) (pte := pte) (env := lookupEnv (ggttCtx s r.src) linesOnly r) rfl
    s.regs.ipsEnable (ggttCtx s r.src).fl64k Stage.fresh ⟨[], none, []⟩
  have hnested : Rules.nested s (Rules.frame s.plat.haw 12 pte +
      (lookupEnv (ggttCtx s r.src) linesOnly r).va.toNat % 2 ^ 12) = .ok pa := hpa
  rw [hnested] at hleaf
  have honce : walkOnce s (lookupEnv (ggttCtx s r.src) linesOnly r) = .ok (s, .phys pa ggttAttrs, w) := by
    refine (walkOnce_ggtt rfl hindex).trans ?_
    refine (congrArg (· >>= _) hfetch).trans ?_
    simp only [ok_bind, ggttEntryEnd, hpresent, if_true]
    exact hleaf
  exact ⟨w, (xlate_noTlb _ _ _ _ _ _ _ rfl).trans ((walk_ggtt rfl hindex).trans honce)⟩

/-- An entry that is not present is not taken from its line, and the translation is the one from memory (46 R394). -/
theorem xlate_absentLine (hcache : s.regs.gttCacheEnable = true) (hindex : 8 * field r.va 12 20 < s.plat.gsmSize)
    (hfound : gttFind s (s.plat.gsmBase + 8 * field r.va 12 20) = none) :
    xlate s (lookupEnv (ggttCtx s r.src) linesOnly r) = xlate s (lookupEnv (ggttCtx s r.src) noCache r) := by
  have hcached : fetchCached s (lookupEnv (ggttCtx s r.src) linesOnly r) 1 (s.plat.gsmBase + 8 * field r.va 12 20) =
      none := (fetchCached_line rfl hcache).trans hfound
  have honce : walkOnce s (lookupEnv (ggttCtx s r.src) linesOnly r) = walkOnce s (lookupEnv (ggttCtx s r.src) noCache r) := by
    refine walkOnce_use fun tbl htop => walkLevels_use ?_ fun _ _ _ _ => rfl
    have htbl : tbl = s.plat.gsmBase := by
      have htop' : topTable s (ggttCtx s r.src) r.va = .ok s.plat.gsmBase := if_pos hindex
      exact Except.ok.inj (htop.symm.trans htop')
    rw [htbl]
    exact hcached.trans (fetchCached_none (env := lookupEnv (ggttCtx s r.src) noCache r) rfl rfl 1 _).symm
  calc xlate s (lookupEnv (ggttCtx s r.src) linesOnly r)
    _ = walk s (lookupEnv (ggttCtx s r.src) linesOnly r) := xlate_noTlb _ _ _ _ _ _ _ rfl
    _ = walkOnce s (lookupEnv (ggttCtx s r.src) linesOnly r) := walk_ggtt rfl hindex
    _ = walkOnce s (lookupEnv (ggttCtx s r.src) noCache r) := honce
    _ = walk s (lookupEnv (ggttCtx s r.src) noCache r) := (walk_noCache _ _ rfl rfl).symm
    _ = xlate s (lookupEnv (ggttCtx s r.src) noCache r) := (xlate_noTlb _ _ _ _ _ _ _ rfl).symm

end

/-! ## TR-TT results -/

section
variable {s : State} {r : Request} {c : Ctx} {x : TrEntry}

theorem trCopy_of_find {use : CacheUse} (htr : use.tr = true)
    (hx : s.caches.tr.find? (fun y => y.tag == c.tag && y.tile == field r.va 16 32) = some x) :
    trCopy s c use r = some x.result := by
  have hfind : s.caches.tr.find? (fun y => y.tag == c.tag && y.tile == tileOf r.va) = some x := hx
  simp only [trCopy, htr, if_true, trFind, hfind, Option.map_some]

/-- A cached result is acted on, whatever the registers say of the address by now (46 R381, R397). -/
theorem exec_tlbLookup_result (hwf : WellFormed (.xlateTrtt r)) (hopen : gateOpen s none r.src = true)
    (hctx : contextOf s (.engine .rcs) r.va = .ok (s, c)) (hdis : s.regs.bypassDis = true) (hen : trttEn s.regs = true)
    (hloc : trttTtloc s.regs = true) (hlegal : trvaLegal s.regs = true) (hm : c.tag.mode = .ppgtt48 ∨ c.tag.mode = .adv)
    (hx : s.caches.tr.find? (fun y => y.tag == c.tag && y.tile == field r.va 16 32) = some x) :
    exec (.tlbLookup resultsOnly r) s = toOutcome (afterTr (setWalked s none) c resultsOnly r x.result) := by
  obtain ⟨hsrc, hrwf⟩ := Bool.and_eq_true_iff.mp hwf
  have hact : trttActive s.regs (.engine .rcs) c.tag.mode = .ok true := by
    rw [trttActive_of_48b hdis hen hm, trttLegal_virtual hloc, hlegal]; rfl
  rw [← of_decide_eq_true hsrc] at hctx hact
  rw [exec_tlbLookup hrwf hopen hctx]
  have hmiss : tlbLookup s ⟨c, resultsOnly, r.client.tlbGroup, r.va, r.acc.isWrite, r.er⟩ = .miss := rfl
  simp only [translateIn, hact, ok_bind, if_true, hmiss, throughTr, trCopy_of_find (use := resultsOnly) rfl hx]

/-- A Null result counts each time, an Invalid one reports each time (46 R397; 92 D35). -/
theorem afterTr_completes (s : State) (c : Ctx) (use : CacheUse) (r : Request) (y : TrResult) :
    (y = .null → toOutcome (afterTr (setWalked s none) c use r y) =
      .next (nullCompletion (Rules.oneMoreNull (setWalked s none)) r)) ∧
    (y = .invalid → toOutcome (afterTr (setWalked s none) c use r y) =
      .next (nullCompletion ((setWalked s none).emit (.invalidTile r.va)) r)) := by
  refine ⟨?_, ?_⟩ <;> rintro rfl <;> rfl

end

/-- Settles O36: the three walks with cached pointers; a line by whether its entry is present; and the two contexts in which a
TR-TT result may be cached. -/
theorem cachedCopies : Obligations.CachedCopies := by
  refine ⟨fun s e elem pdp r => cachedPointers_32 elem pdp, fun s e elem pdp0 r => cachedPointers_48 elem pdp0,
    fun s e elem pdp0 r x => cachedPointers_adv elem pdp0 x,
    fun s elem r l pte hwf hopen hholds hoff hcache hva hindex hl hpte => ?line,
    fun s elem pdp0 r x hwf hopen hfit hholds hdis hen hloc hlegal hhaw hva hpdp0 hx => ?legacy,
    fun s elem pdp0 r ce x hwf hopen hfit hholds hcache hdis hen hloc hlegal hva hpdp0 hpc hcc hx => ?advanced⟩
  case line =>
    have hfound := gttFind_of_line hl hpte
    have hexec := exec_tlbLookup_ggtt (use := linesOnly) hwf hopen hholds hoff hva rfl
    rw [hexec]
    refine ⟨fun hpresent pa hpa => ?present, fun habsent => ?absent⟩
    case present =>
      rw [if_pos hpresent] at hfound
      obtain ⟨w, hw⟩ := xlate_presentLine hcache hindex hfound hpresent hpa
      rw [finalXlate_of_phys hw]
      refine ⟨fun hgsm => ⟨w, ?reaches⟩, fun hgsm => ?stolen⟩
      case reaches => rw [hgsm]; rfl
      case stolen => rw [hgsm]; rfl
    case absent =>
      rw [if_neg (by rw [habsent]; exact Bool.false_ne_true)] at hfound
      rw [exec_xlateGgtt_inRange hwf hopen hholds hoff hva, finalXlate_use (xlate_absentLine hcache hindex hfound)]
  case legacy =>
    have hsrc : r.src = .engine .rcs := of_decide_eq_true (Bool.and_eq_true_iff.mp hwf).1
    rw [hsrc] at hholds
    rw [← addrField_frame] at hx
    have hctx := contextOf_48 hfit hholds hva hpdp0
    rw [exec_tlbLookup_result hwf hopen hctx hdis hen hloc hlegal (.inl rfl) hx, hsrc]
    exact ⟨after_48 pdp0 _ resultsOnly r s none x.result rfl hsrc rfl rfl rfl hhaw, afterTr_completes s _ _ r x.result⟩
  case advanced =>
    have hsrc : r.src = .engine .rcs := of_decide_eq_true (Bool.and_eq_true_iff.mp hwf).1
    obtain ⟨fm, hfm, hctx⟩ := contextOf_adv hfit hholds hcache hva hpdp0 hpc hcc
    obtain ⟨d, _, H⟩ := holdsDesc_adv hfit hholds
    have hvalid : (s.bank .rcs).elem.value ||| 1 = elem := (descReg_get_spec.mp H.get).2 ▸ H.valid
    rw [exec_tlbLookup_result hwf hopen hctx hdis hen hloc hlegal (.inr rfl) hx, hsrc]
    exact ⟨after_adv resultsOnly r s none x.result hfm hvalid hsrc rfl rfl rfl hcache, afterTr_completes s _ _ r x.result⟩

end Sys2Proof.Machine
end

section
/-! What translations write (47 R430, R431, R458): A, D and EA bits of aligned entries, and without A&D support nothing. Whether
a context has A&D support is told by its descriptor alone; without it, every piece of a translation keeps memory. -/

namespace Sys2Proof.Machine

/-! ## The rows that translate -/

theorem exec_transFrame {i : Instr} {s t : State} (hi : Rules.isTranslation i = true) (h : exec i s = .next t) :
    TransFrame s t := by
  cases i with
  | xlateGgtt | xlatePpgtt32 | xlatePpgtt48 | xlateAdv => exact rowXlate_frame (ok_of_next h)
  | xlateTrtt | tlbLookup => exact translate_frame (ok_of_next h)
  | pageResponse => exact pageResponseOp_frame (ok_of_next h)
  | _ => cases hi

/-- Settles O8: every row that translates keeps the frame of a translation, which says so of memory. -/
theorem translationsOnlySetADE : Obligations.TranslationsOnlySetADE :=
  fun _ _ _ hi hw h => (exec_transFrame hi h).ade hw

/-! ## What becomes of a request -/

@[simp] theorem setHung_mem (s : State) (b : Bool) (src : Source) : (setHung s b src).mem = s.mem := by
  cases src <;> rfl

@[simp] theorem erroredCycle_mem (s : State) (r : Request) : (erroredCycle s r).mem = s.mem :=
  stopContext_mem _ r.src

theorem takePageFault_mem {s t : State} {c : Ctx} {r : Request} {va : Word64} {reason : FaultReason} {tr : Option TrPoint}
    (h : takePageFault s c r va reason tr = .ok t) : t.mem = s.mem := by
  rcases takePageFault_spec h with ⟨-, -, rfl⟩ | ⟨-, -, rfl⟩ | ⟨-, rfl⟩ <;> simp

/-! ## Translations without A&D support -/

section
variable {s t : State} {c : Ctx} {use : CacheUse} {r : Request}

theorem xlate_plain_mem {env : WalkEnv} {x : XlateEnd × Option WalkRecord} (ha : env.ctx.aligned)
    (had : env.ctx.ad = false) (h : xlate s env = .ok (t, x)) : t.mem = s.mem := by
  unfold xlate at h
  split at h
  · simp only [bind_ok, Except.ok.injEq, Prod.mk.injEq] at h
    obtain ⟨_, -, rfl, -⟩ := h; rfl
  · cases h; rfl
  · next y use _ => exact walk_plain_mem (s := dropTlb s y) (env := { env with use := use }) ha had h
  · exact walk_plain_mem ha had h

theorem finalXlate_plain_mem {va : Word64} {prior : Option WalkRecord} (ha : c.aligned) (had : c.ad = false)
    (h : finalXlate s c use r va prior = .ok t) : t.mem = s.mem := by
  simp only [finalXlate, bind_ok] at h
  obtain ⟨⟨u, x, w⟩, hx, h⟩ := h
  have hwalk : u.mem = s.mem := xlate_plain_mem ha had hx
  rw [← hwalk]
  cases x with
  | phys pa attrs =>
    simp only [bind_ok, Except.ok.injEq] at h
    obtain ⟨_, -, rfl⟩ := h; rfl
  | null => cases h; rfl
  | fault reason level => exact takePageFault_mem (s := setWalked u (joinRec w prior)) h
  | filtered reason => cases h; rfl
  | abandoned => cases h; exact erroredCycle_mem _ r

theorem trRead_plain_mem {level : Nat} {base tva : Word64} {v : Option Word64} (ha : c.aligned) (had : c.ad = false)
    (h : trRead s c use r level base tva = .ok (t, v)) : t.mem = s.mem := by
  simp only [trRead, bind_ok] at h
  obtain ⟨⟨u, x, w⟩, hx, h⟩ := h
  have hwalk : u.mem = s.mem := xlate_plain_mem ha had hx
  rw [← hwalk]
  cases x with
  | phys pa attrs =>
    simp only [bind_ok, Except.ok.injEq, Prod.mk.injEq] at h
    obtain ⟨_, -, rfl, -⟩ := h; rfl
  | null => cases h; rfl
  | fault reason level =>
    dsimp only at h
    split at h
    · simp only [bind_ok, Except.ok.injEq, Prod.mk.injEq] at h
      obtain ⟨_, hfault, rfl, -⟩ := h
      exact takePageFault_mem (s := setWalked u (joinRec w u.walker.walked)) hfault
    · cases h; rfl
  | filtered reason => cases h; rfl
  | abandoned => cases h; exact erroredCycle_mem _ r

theorem trLevels_plain_mem (levels : List Nat) {base : Word64} {forced : Option Word64} {x : Option TrResult}
    (ha : c.aligned) (had : c.ad = false) (h : trLevels c use r levels s base forced = .ok (t, x)) : t.mem = s.mem := by
  induction levels generalizing s base forced with
  | nil => simp [trLevels] at h
  | cons level rest ih =>
    simp only [trLevels, bind_ok] at h
    obtain ⟨_, -, ⟨u, v⟩, hu, h⟩ := h
    have hread : u.mem = s.mem := by
      cases forced with
      | some value => cases hu; rfl
      | none => exact trRead_plain_mem ha had hu
    rw [← hread]
    cases v with
    | none => cases h; rfl
    | some v =>
      dsimp only at h
      split at h
      · cases h; rfl
      · cases h; rfl
      · cases h; rfl
      · exact ih h
      all_goals simp at h

theorem afterTr_plain_mem {x : TrResult} (ha : c.aligned) (had : c.ad = false) (h : afterTr s c use r x = .ok t) :
    t.mem = s.mem := by
  cases x with
  | null => cases h; rfl
  | invalid => cases h; rfl
  | tile l1 =>
    simp only [afterTr, bind_ok] at h
    obtain ⟨_, -, h⟩ := h
    exact finalXlate_plain_mem ha had h

theorem finishTr_plain_mem {x : Option TrResult} (ha : c.aligned) (had : c.ad = false)
    (h : finishTr c use r (s, x) = .ok t) : t.mem = s.mem := by
  cases x with
  | none => cases h; rfl
  | some x => exact afterTr_plain_mem (s := recordTr s c r x) ha had h

/-- The TR-TT stage keeps memory; where it does not apply, the translation without it is made. -/
theorem throughTr_plain_mem {direct : Res State} (ha : c.aligned) (had : c.ad = false)
    (h : throughTr s c use r direct = .ok t) : t.mem = s.mem ∨ direct = .ok t := by
  unfold throughTr at h
  split at h
  · exact .inl (afterTr_plain_mem (s := setWalked s none) ha had h)
  · split at h
    · simp only [bind_ok] at h
      obtain ⟨⟨u, x⟩, hu, h⟩ := h
      have hwalk : u.mem = s.mem := trLevels_plain_mem (s := setWalked s none) _ ha had hu
      exact .inl ((finishTr_plain_mem ha had h).trans hwalk)
    · exact .inr h

theorem translateIn_plain_mem (ha : c.aligned) (had : c.ad = false) (h : translateIn s c use r = .ok t) :
    t.mem = s.mem := by
  have direct : finalXlate s c use r r.va none = .ok t → t.mem = s.mem := finalXlate_plain_mem ha had
  simp only [translateIn, bind_ok] at h
  obtain ⟨active, -, h⟩ := h
  split at h
  · split at h
    · exact direct h
    · exact direct h
    · next x _ _ => exact (throughTr_plain_mem (s := dropTlb s x) ha had h).elim id direct
    · exact (throughTr_plain_mem ha had h).elim id direct
  · exact direct h

end

/-! ## Which contexts have A&D support -/

section
variable {s t : State} {src : Source} {va : Word64} {c : Ctx}

theorem engineCtx_ad {e : Engine} (h : engineCtx s e va = .ok (t, c)) :
    ∃ d m, (s.bank e).elem.get = .ok d ∧ elemMode d = .ok m ∧ c.ad = (m == .adv && elemAd48b d) := by
  simp only [engineCtx, bind_ok] at h
  obtain ⟨d, hget, m, hmode, fm, -, _, -, h⟩ := h
  refine ⟨d, m, hget, hmode, ?_⟩
  cases m with
  | ggtt => cases h; rfl
  | ppgtt32 | ppgtt48 =>
    simp only [bind_ok, Except.ok.injEq, Prod.mk.injEq] at h
    obtain ⟨_, -, -, rfl⟩ := h; rfl
  | adv =>
    simp only [advCtx, bind_ok, Except.ok.injEq, Prod.mk.injEq] at h
    obtain ⟨_, -, _, -, _, -, _, -, -, rfl⟩ := h; rfl

/-- A context has A&D support where its descriptor is an advanced one with bit 4 set (30 R180). -/
theorem contextOf_ad (h : contextOf s src va = .ok (t, c)) :
    ∃ d m, sourceElem s src = .ok d ∧ elemMode d = .ok m ∧ c.ad = (m == .adv && elemAd48b d) := by
  cases src with
  | engine e => exact engineCtx_ad h
  | wdbox | vebox2 | display | aperture =>
    simp only [contextOf, bind_ok, Except.ok.injEq, Prod.mk.injEq] at h
    obtain ⟨_, -, -, rfl⟩ := h
    exact ⟨defaultElem, .ggtt, rfl, rfl, rfl⟩

/-- A row applies under its own descriptor, so its context has A&D support only in advanced mode with bit 4 set (log 13). -/
theorem ad_of_rowApplies {m : Mode} {elem : Word64} {v : Unit} (happlies : rowApplies s m elem src = .ok v)
    (hctx : contextOf s src va = .ok (t, c)) : c.ad = (m == .adv && bit elem 4) := by
  obtain ⟨d, m', hget, hmode, had⟩ := contextOf_ad hctx
  simp only [rowApplies, hget, hmode, ok_bind, require_ok, Bool.and_eq_true, beq_iff_eq] at happlies
  obtain ⟨hword, rfl⟩ := happlies
  have hbit : elemAd48b d = bit elem 4 := by
    rw [elemAd48b, ← bit_or_one d 4 (by decide), hword, bit_or_one elem 4 (by decide)]
  rw [had, hbit]

end

/-! ## The rows -/

/-- A row of a mode without A&D support, or whose descriptor has it off, keeps memory. -/
theorem rowXlate_plain_mem {m : Mode} {elem : Word64} {r : Request} {s t : State} (hm : (m == .adv && bit elem 4) = false)
    (h : rowXlate m elem r s = .ok t) : t.mem = s.mem := by
  unfold rowXlate at h
  split at h
  · next hopen =>
    simp only [translate, hopen, bind_ok, if_true] at h
    obtain ⟨_, happlies, _, -, ⟨u, c⟩, hctx, h⟩ := h
    have haligned : c.aligned := (contextOf_frame hopen hctx).2
    have had : c.ad = false := (ad_of_rowApplies happlies hctx).trans hm
    rw [translateIn_plain_mem haligned had h, (contextOf_spec hctx).1]
  · next hclosed =>
    simp only [translate, hclosed, bind_ok] at h
    obtain ⟨_, -, h⟩ := h
    cases h; rfl

/-- Settles O9: no mode but the advanced one has A&D support, and bit 4 of its descriptor turns it on. -/
theorem plainWalksWriteNothing : Obligations.PlainWalksWriteNothing :=
  ⟨fun _ _ _ _ h => rowXlate_plain_mem (m := .ggtt) rfl (ok_of_next h),
    fun _ _ _ _ h => rowXlate_plain_mem (m := .ppgtt32) rfl (ok_of_next h),
    fun _ _ _ _ h => rowXlate_plain_mem (m := .ppgtt48) rfl (ok_of_next h),
    fun _ _ _ _ hoff h => rowXlate_plain_mem (m := .adv) hoff (ok_of_next h)⟩

end Sys2Proof.Machine
end

section
/-! The page-update atomics as rows (47 R431 to R453): one rule for where they complete, and one for where they trap. -/

namespace Sys2Proof.Machine

/-! ## The value written -/

/-- Always A, with `r` also D, with `e` also EA (47 R431). -/
theorem ApuOp.sets_mk (i w e r : Bool) :
    ApuOp.sets ⟨i, w, e, r⟩ = if e then (if r then 0x460 else 0x420) else (if r then 0x060 else 0x020) := by
  cases e <;> cases r <;> simp [ApuOp.sets, bitA, bitD, bitEA]

section
variable {op : ApuOp} (old : Word64)

/-- Without a write under write protection the guard is Present alone (47 R433). -/
theorem apply_of_unguarded (h : (op.r && op.w) = false) : op.apply old = Rules.setIf (bit old 0) old op.sets := by
  rw [ApuOp.apply, ApuOp.guardFails, h]
  cases bit old 0 <;> rfl

/-- A write under write protection also asks for bit 1 of the entry (47 R433). -/
theorem apply_of_writeProtected (h : (op.r && op.w) = true) :
    op.apply old = Rules.setIf (bit old 0 && bit old 1) old op.sets := by
  rw [ApuOp.apply, ApuOp.guardFails, h]
  cases bit old 0 <;> cases bit old 1 <;> rfl

end

/-! ## Where the atomics complete -/

section
variable {s : State} {e : Engine} {pa old : Word64}

theorem apuAllowed_iff {n : Nat} : apuAllowed s n = true ↔ memType s.plat n = .wb ∨ s.regs.adNonwbIgnore = true := by
  rw [apuAllowed, Bool.or_eq_true, beq_iff_eq]

theorem rowApu_done (op : ApuOp) (hw : Memory.wf s.mem = true)
    (hallowed : memType s.plat pa.toNat = .wb ∨ s.regs.adNonwbIgnore = true) (hread : memRead64 s pa.toNat = .ok old) :
    Rules.apuDone s (toOutcome (rowApu op e pa s)) pa.toNat (op.apply old) := by
  obtain ⟨hin, -⟩ := memRead64_spec.mp hread
  obtain ⟨t, hwrite, hnew, houtside, hframe⟩ := memWrite64_inside (op.apply old) hw (of_decide_eq_true hin)
  have hrow : rowApu op e pa s = .ok (t.emit (.newDst (op.apply old))) := by
    simp only [rowApu, apu, apuAllowed_iff.mpr hallowed, hread, hwrite, if_true, ok_bind]
  refine ⟨t.emit (.newDst (op.apply old)), congrArg toOutcome hrow, hnew, houtside, ?_⟩
  rw [hframe]; rfl

/-- The eight opcodes that share bit `i`, which tells a final entry from an intermediate one and takes no part in the value
(47 R431). -/
theorem rowApu_eight_done (i : Bool) (hw : Memory.wf s.mem = true)
    (hallowed : memType s.plat pa.toNat = .wb ∨ s.regs.adNonwbIgnore = true) (hread : memRead64 s pa.toNat = .ok old) :
    Rules.apuDone s (toOutcome (rowApu ⟨i, false, false, false⟩ e pa s)) pa.toNat (Rules.setIf (bit old 0) old 0x020) ∧
    Rules.apuDone s (toOutcome (rowApu ⟨i, false, false, true⟩ e pa s)) pa.toNat (Rules.setIf (bit old 0) old 0x060) ∧
    Rules.apuDone s (toOutcome (rowApu ⟨i, false, true, false⟩ e pa s)) pa.toNat (Rules.setIf (bit old 0) old 0x420) ∧
    Rules.apuDone s (toOutcome (rowApu ⟨i, false, true, true⟩ e pa s)) pa.toNat (Rules.setIf (bit old 0) old 0x460) ∧
    Rules.apuDone s (toOutcome (rowApu ⟨i, true, false, false⟩ e pa s)) pa.toNat (Rules.setIf (bit old 0) old 0x020) ∧
    Rules.apuDone s (toOutcome (rowApu ⟨i, true, false, true⟩ e pa s)) pa.toNat
      (Rules.setIf (bit old 0 && bit old 1) old 0x060) ∧
    Rules.apuDone s (toOutcome (rowApu ⟨i, true, true, false⟩ e pa s)) pa.toNat (Rules.setIf (bit old 0) old 0x420) ∧
    Rules.apuDone s (toOutcome (rowApu ⟨i, true, true, true⟩ e pa s)) pa.toNat
      (Rules.setIf (bit old 0 && bit old 1) old 0x460) := by
  have unguarded (op : ApuOp) (bits : Word64) (h : (op.r && op.w) = false) (hbits : op.sets = bits) :
      Rules.apuDone s (toOutcome (rowApu op e pa s)) pa.toNat (Rules.setIf (bit old 0) old bits) :=
    hbits ▸ apply_of_unguarded old h ▸ rowApu_done op hw hallowed hread
  have guarded (op : ApuOp) (bits : Word64) (h : (op.r && op.w) = true) (hbits : op.sets = bits) :
      Rules.apuDone s (toOutcome (rowApu op e pa s)) pa.toNat (Rules.setIf (bit old 0 && bit old 1) old bits) :=
    hbits ▸ apply_of_writeProtected old h ▸ rowApu_done op hw hallowed hread
  have sets (w e r : Bool) := ApuOp.sets_mk i w e r
  exact ⟨unguarded _ _ rfl (sets _ _ _), unguarded _ _ rfl (sets _ _ _), unguarded _ _ rfl (sets _ _ _),
    unguarded _ _ rfl (sets _ _ _), unguarded _ _ rfl (sets _ _ _), guarded _ _ rfl (sets _ _ _),
    unguarded _ _ rfl (sets _ _ _), guarded _ _ rfl (sets _ _ _)⟩

end

/-- Settles O13: the opcodes with bit `i` clear. -/
theorem apuFinalRows : Obligations.ApuFinalRows :=
  fun _ _ _ _ hw hallowed hread => rowApu_eight_done false hw hallowed hread

/-- Settles O14: the opcodes with bit `i` set. -/
theorem apuIntermediateRows : Obligations.ApuIntermediateRows :=
  fun _ _ _ _ hw hallowed hread => rowApu_eight_done true hw hallowed hread

/-! ## Where they trap -/

section
variable {s : State} {e : Engine} {pa : Word64}

/-- Each row of the sixteen is the atomic of its opcode. -/
theorem exec_of_mem_apuRows {i : Instr} (hi : i ∈ Rules.apuRows e pa) (s : State) :
    ∃ op, exec i s = toOutcome (rowApu op e pa s) := by
  simp only [Rules.apuRows, List.mem_cons, List.not_mem_nil, or_false] at hi
  rcases hi with rfl | rfl | rfl | rfl | rfl | rfl | rfl | rfl | rfl | rfl | rfl | rfl | rfl | rfl | rfl | rfl <;>
    exact ⟨_, rfl⟩

/-- On other memory than write-back the error is reported, and the engine's context may be stopped (47 R452, R453). -/
theorem rowApu_of_notAllowed (op : ApuOp) (h : apuAllowed s pa.toNat = false) : rowApu op e pa s =
    .ok (stopContext (s.emit (.catastrophic (.engine e) (ctxIdOf s (.engine e)) .nonWBPagingEntry)) (.engine e)) := by
  simp only [rowApu, apu, h, Bool.false_eq_true, if_false, reportCatastrophic, ok_bind]

theorem active_iff {b : Bank} : b.active = true ↔ b.hs = .launchedReceived ∨ b.hs = .running := by
  rw [Bank.active, Bool.or_eq_true, beq_iff_eq, beq_iff_eq]

theorem stopContext_of_active (hstop : s.plat.stopOnCatastrophic = true) (hactive : (s.bank e).active = true) :
    stopContext s (.engine e) = s.setBank e { s.bank e with stopped := true } := by
  rw [stopContext, hstop, hactive]; rfl

theorem stopContext_of_keeps (h : s.plat.stopOnCatastrophic = false ∨ (s.bank e).active = false) :
    stopContext s (.engine e) = s := by
  have hcond : (s.plat.stopOnCatastrophic && (s.bank e).active) = false := by rcases h with h | h <;> simp [h]
  rw [stopContext, hcond]; rfl

/-- A stopped context lets no request through (47 R453). -/
theorem gateOpen_of_stopped (p : Option (BitVec 20)) (h : (s.bank e).stopped = true) :
    gateOpen s p (.engine e) = false := by
  simp [gateOpen, h]

end

/-- Settles O15: every row reports the error, and what is left is the stopping of the context, or nothing. -/
theorem apuNonWriteBack : Obligations.ApuNonWriteBack := by
  intro s e pa htype hcheck i hi u runs
  have hnot : apuAllowed s pa.toNat = false :=
    Bool.eq_false_iff.mpr fun h => (apuAllowed_iff.mp h).elim htype (by simp [hcheck])
  obtain ⟨op, hexec⟩ := exec_of_mem_apuRows hi s
  have htrap : exec i s = .next (stopContext u (.engine e)) := by rw [hexec, rowApu_of_notAllowed op hnot]; rfl
  have hactive : (u.bank e).active = true ↔ runs := active_iff
  refine ⟨fun hkeeps => ?keeps, fun hstop hruns => ?stops⟩
  case keeps => rw [htrap, stopContext_of_keeps (hkeeps.imp id (fun h => Bool.eq_false_iff.mpr (mt hactive.mp h)))]
  case stops =>
    have hstops : stopContext u (.engine e) = u.setBank e { s.bank e with stopped := true } :=
      stopContext_of_active hstop (hactive.mpr hruns)
    have hmark := congrArg Bank.stopped (setBank_bank_same u e { s.bank e with stopped := true })
    exact ⟨_, hstops ▸ htrap, rfl, fun p => gateOpen_of_stopped p hmark⟩

end Sys2Proof.Machine
end

section
/-! The data access that GTI performs (47 R455, R457; 20 R111): one rule for each kind of access. -/

namespace Sys2Proof.Machine

@[simp] theorem length_fitTo (n : Nat) (l : List Byte) : (fitTo n l).length = n := by
  simp [fitTo]

section
variable {s : State} {f : InFlight}

theorem performAccess_write {d : List Byte} (hacc : f.req.acc = .write d) (hw : Memory.wf s.mem = true)
    (hin : f.pa + d.length ≤ 2 ^ s.plat.haw) :
    ∃ t, performAccess s f = .ok t ∧ t.mem.bytes f.pa d.length = d ∧ sameOutside s t f.pa d.length ∧
      t = { s with mem := t.mem, outputs := .response f.req [] false :: s.outputs } := by
  obtain ⟨t, hwrite, hbytes, houtside, hframe⟩ := memWrite_inside hw hin
  refine ⟨t.respond f.req [] false, ?_, hbytes, houtside, by rw [hframe]; rfl⟩
  simp only [performAccess, hacc, hwrite, ok_bind]

/-- Reads and fetches alike see memory as the stores performed so far have left it (log 48). -/
theorem performAccess_read {n : Nat} (hacc : f.req.acc = .read n ∨ f.req.acc = .fetch n)
    (hin : f.pa + n ≤ 2 ^ s.plat.haw) :
    performAccess s f = .ok (s.emit (.response f.req (s.mem.bytes f.pa n) false)) := by
  have hread : memRead s f.pa n = .ok (s.mem.bytes f.pa n) := memRead_spec.mpr ⟨decide_eq_true hin, rfl⟩
  rcases hacc with hacc | hacc <;> simp only [performAccess, hacc, hread, ok_bind, State.respond]

/-- On write-back memory the value stored, whatever function makes it, is the one returned (47 R455; log 29). -/
theorem performAccess_atomic {op : Byte} {d : List Byte} (hacc : f.req.acc = .atomic op d)
    (hwb : memType s.plat f.pa = .wb) (hw : Memory.wf s.mem = true) (hin : f.pa + d.length ≤ 2 ^ s.plat.haw) :
    ∃ t new, performAccess s f = .ok t ∧ new.length = d.length ∧ t.mem.bytes f.pa d.length = new ∧
      sameOutside s t f.pa d.length ∧ t = { s with mem := t.mem, outputs := .response f.req new false :: s.outputs } := by
  have hread : memRead s f.pa d.length = .ok (s.mem.bytes f.pa d.length) := memRead_spec.mpr ⟨decide_eq_true hin, rfl⟩
  obtain ⟨new, hnew⟩ : ∃ new, new = fitTo d.length (Config.atomicFn op d (s.mem.bytes f.pa d.length)) := ⟨_, rfl⟩
  have hlen : new.length = d.length := by rw [hnew, length_fitTo]
  obtain ⟨t, hwrite, hbytes, houtside, hframe⟩ := memWrite_inside (d := new) hw (hlen.symm ▸ hin)
  rw [hlen] at hbytes houtside
  refine ⟨t.respond f.req new false, new, ?_, hlen, hbytes, houtside, by rw [hframe]; rfl⟩
  simp only [performAccess, hacc, hwb, beq_self_eq_true, if_true, hread, ok_bind, ← hnew, hwrite]

/-- On other memory the error is reported, and the cycle ends with free data (47 R457). -/
theorem performAccess_atomic_nonWB {op : Byte} {d : List Byte} (hacc : f.req.acc = .atomic op d)
    (htype : memType s.plat f.pa ≠ .wb) :
    performAccess s f = .ok (invalidCycle (s.emit (.catastrophic f.req.src f.ctxid .nonWBAtomic)) f.req) := by
  simp only [performAccess, hacc, beq_eq_false_iff_ne.mpr htype]; rfl

end

/-- Settles O53: by the kind of the access, and for an atomic by the type of the memory. -/
theorem dataAccess : Obligations.DataAccess := by
  intro s f hw hin
  refine ⟨fun d hacc => ?write, fun n hacc => ?read, fun op d hacc hwb => ?atomic, fun op d hacc htype => ?trap⟩
  case write => exact performAccess_write hacc hw (by rwa [hacc] at hin)
  case read => exact performAccess_read hacc (by rcases hacc with hacc | hacc <;> rwa [hacc] at hin)
  case atomic => exact performAccess_atomic hacc hwb hw (by rwa [hacc] at hin)
  case trap =>
    refine ⟨_, performAccess_atomic_nonWB hacc htype, ?_⟩
    simp only [invalidCycle, drawBytes, hacc, Access.replySize]
    rfl

end Sys2Proof.Machine
end

section
/-! A look-up that meets a recorded fault (46 R384, 60 R486): the request waits for the page response already asked for. -/

namespace Sys2Proof.Machine

section
variable {s u : State} {c : Ctx} {r : Request} {use : CacheUse} {t : TlbEntry} {p : Platform} {env : WalkEnv}
  {reason : FaultReason}

/-- A recorded fault filters what it would stop again: a write-protect fault writes only, an Execute fault fetches only (46
R384). -/
theorem judge_of_filters (hreason : t.reason = some reason) (hwrite : reason = .writeProtect → env.wr = true)
    (hfetch : reason = .execute → env.er = true) : judge p env t = .filtered reason := by
  have hfilters : conflicts env.wr env.er reason = false := by
    cases reason with
    | notPresent | privilege => rfl
    | writeProtect => simp [conflicts, hwrite rfl]
    | execute => simp [conflicts, hfetch rfl]
  simp only [judge, hreason, hfilters, Bool.false_eq_true, if_false]

theorem xlate_of_filtered (h : tlbLookup s env = .filtered reason) : xlate s env = .ok (s, .filtered reason, none) := by
  simp only [xlate, h]

/-- A recorded fault filters whether or not TR-TT is on (46 R381). -/
theorem translateIn_of_filtered {active : Bool} (hact : trttActive u.regs r.src c.tag.mode = .ok active)
    (hfiltered : tlbLookup u (lookupEnv c use r) = .filtered reason) :
    translateIn u c use r = finalXlate u c use r r.va none := by
  have hlookup : tlbLookup u ⟨c, use, r.client.tlbGroup, r.va, r.acc.isWrite, r.er⟩ = .filtered reason := hfiltered
  simp only [translateIn, hact, ok_bind, hlookup, ite_self]

theorem finalXlate_of_filtered {v : State} {w : Option WalkRecord}
    (h : xlate u (lookupEnv c use r) = .ok (v, .filtered reason, w)) :
    finalXlate u c use r r.va none = .ok (filteredFault (setWalked v w) c r r.va none) := by
  have hx : xlate u ⟨c, use, r.client.tlbGroup, r.va, r.acc.isWrite, r.er⟩ = .ok (v, .filtered reason, w) := h
  simp only [finalXlate, hx, ok_bind, joinRec_none]

end

/-- Settles O32: the entry filters, which no stage of the translation looks behind. -/
theorem tlbLookupFiltered : Obligations.TlbLookupFiltered := by
  intro s u c r use t act reason hwf hopen hctx hact htlb hfind hreason hwrite hfetch
  obtain ⟨hregs, -⟩ := contextOf_same hctx
  have hfiltered : tlbLookup u (lookupEnv c use r) = .filtered reason :=
    (tlbLookup_of_find (env := lookupEnv c use r) htlb hfind).trans
      (judge_of_filters hreason hwrite fun h => (er_eq r).trans (hfetch h))
  refine ⟨none, ?_⟩
  rw [exec_tlbLookup hwf hopen hctx, translateIn_of_filtered (hregs ▸ hact) hfiltered,
    finalXlate_of_filtered (xlate_of_filtered hfiltered), toOutcome_ok]
  rfl

end Sys2Proof.Machine
end

section
/-! Which accesses GTI performs (60 R478; log 15): those of sources that are not hung, when an event asks for one, and on its own
the oldest. -/

namespace Sys2Proof.Machine

section
variable {s : State} {k : Nat} {f : InFlight}

theorem performAt_of_hung (hk : s.reqs.inflight[k]? = some f) (hhung : isHung s f.req.src = true) :
    performAt k s = .ok s := by
  simp only [performAt, hk, hhung, if_true]

theorem step_of_perform {rest : List Input} (hq : s.inputs = .perform k :: rest) :
    step s = toOutcome (performAt k (s.setInputs rest)) := step_of_inputs_cons hq

/-- The machine on its own performs the oldest access of a source that is not hung, before anything else (log 3). -/
theorem step_performs_oldest (hq : s.inputs = []) (hk : s.reqs.inflight[k]? = some f)
    (hfree : isHung s f.req.src = false)
    (hearlier : ∀ j < k, ∀ g, s.reqs.inflight[j]? = some g → isHung s g.req.src = true) :
    step s = toOutcome (performAt k s) := by
  have hfirst : s.reqs.inflight.findIdx? (fun f => !isHung s f.req.src) = some k := by
    obtain ⟨hlt, rfl⟩ := List.getElem?_eq_some_iff.mp hk
    refine List.findIdx?_eq_some_iff_getElem.mpr ⟨hlt, by simp [hfree], fun j hj => ?_⟩
    simp [hearlier j hj _ (List.getElem?_eq_getElem (hj.trans hlt))]
  simp only [step, hq, autonomous, hfirst]

end

/-- Settles O54: asked for or on its own, the machine takes the step of `performAt`. -/
theorem hungSourcesWait : Obligations.HungSourcesWait := by
  intro s k f hk
  refine ⟨fun rest hq => ⟨fun hhung => ?hung, fun hfree => ?asked⟩, fun hq hfree hearlier => ?alone⟩
  case hung => rw [step_of_perform hq, performAt_of_hung (s := s.setInputs rest) hk hhung, toOutcome_ok]
  case asked =>
    rw [step_of_perform hq]
    exact performAt_performs (s := s.setInputs rest) hk hfree
  case alone =>
    rw [step_performs_oldest hq hk hfree hearlier]
    exact performAt_performs hk hfree

end Sys2Proof.Machine
end

section
/-! The page response (60 R483, R485, R487; 40 R230): what it removes, the requests it answers in turn, and the TR-TT walks that it
lets go on. -/

namespace Sys2Proof.Machine

/-! ## The row -/

section
variable {s t : State} {p : BitVec 20} {va : Word64} {success : Bool} {use : CacheUse} {q : PendingReq}
  {l : List PendingReq} {pasid : Option (BitVec 20)} {src : Source}

/-- A page response takes up the requests it answers in the state without what it removes. -/
theorem exec_pageResponse : exec (.pageResponse p va success use) s =
    toOutcome (resumeAll success use (s.reqs.pending.filter (Rules.answers p va)) (Rules.answered p va s)) := rfl

@[simp] theorem answered_walked : (Rules.answered p va s).walker.walked = none := rfl

@[simp] theorem isHung_answered : isHung (Rules.answered p va s) src = isHung s src := rfl

@[simp] theorem gateOpen_answered : gateOpen (Rules.answered p va s) pasid src = gateOpen s pasid src := rfl

/-- What is answered is pending no longer. -/
theorem not_mem_answered_pending (h : Rules.answers p va q = true) : q ∉ (Rules.answered p va s).reqs.pending := by
  simp [Rules.answered, h]

theorem answers_iff : Rules.answers p va q = true ↔ q.pasid = p ∧ q.va.toNat / 4096 = va.toNat / 4096 := by
  simp [Rules.answers]

/-- The one request that a page response answers is one that it answers. -/
theorem answers_of_filter (h : s.reqs.pending.filter (Rules.answers p va) = [q]) : Rules.answers p va q = true :=
  (List.mem_filter.mp (h ▸ List.mem_singleton_self q)).2

/-! ## The requests in turn -/

/-- What a page response makes of one request that it answers. -/
def resumeOne (success : Bool) (use : CacheUse) (q : PendingReq) (s : State) : Res State :=
  if success then resumeFixed use q s else resumeUnfixed use q s

theorem resumeAll_cons : resumeAll success use (q :: l) s = (resumeOne success use q s >>= fun t =>
    resumeAll success use l (setWalked t (joinRec t.walker.walked s.walker.walked))) := rfl

/-- A page response that answers one request ends as that request does. -/
theorem exec_pageResponse_one (h : s.reqs.pending.filter (Rules.answers p va) = [q]) :
    exec (.pageResponse p va success use) s = toOutcome (resumeOne success use q (Rules.answered p va s)) := by
  rw [exec_pageResponse, h, resumeAll_cons, answered_walked]
  cases resumeOne success use q (Rules.answered p va s) with
  | error z => rfl
  | ok t => rw [ok_bind, joinRec_none]; rfl

/-- Requests that each end as `f` says end, taken up by one response, as `f` in turn says (log 21). -/
theorem resumeAll_inTurn {f : PendingReq → State → Host.Outcome State Fault Refusal}
    (h : ∀ q ∈ l, ∀ t, toOutcome (resumeOne success use q t) = f q t) :
    toOutcome (resumeAll success use l s) = Rules.inTurn f l s := by
  induction l generalizing s with
  | nil => rfl
  | cons q l ih =>
    rw [resumeAll_cons, Rules.inTurn, ← h q List.mem_cons_self s]
    cases resumeOne success use q s with
    | error z => cases z <;> rfl
    | ok t => exact ih fun x hx => h x (List.mem_cons_of_mem _ hx)

/-- Requests whose ends are all computed by `f`, and leave no record of walks, end as the fold of `f` (log 21). -/
theorem resumeAll_foldl {f : State → PendingReq → State} {I : State → Prop} (hs : I s)
    (hrecord : ∀ t, I t → t.walker.walked = none)
    (h : ∀ q ∈ l, ∀ t, I t → resumeOne success use q t = .ok (f t q) ∧ I (f t q)) :
    resumeAll success use l s = .ok (l.foldl f s) := by
  induction l generalizing s with
  | nil => rfl
  | cons q l ih =>
    obtain ⟨hone, hkeep⟩ := h q List.mem_cons_self s hs
    rw [resumeAll_cons, hone, ok_bind, hrecord s hs, joinRec_none]
    exact ih hkeep fun x hx => h x (List.mem_cons_of_mem _ hx)

end

/-- Settles O55: no request is taken up, and what is left is the state of `Rules.answered`. -/
theorem pageResponseUnmatched : Obligations.PageResponseUnmatched := by
  intro s p va success use hnone
  have hunanswered : ∀ q ∈ s.reqs.pending, ¬ Rules.answers p va q = true := fun q hq h => hnone q hq (answers_iff.mp h)
  refine ⟨Rules.answered p va s, ?_, ?_, rfl, rfl, rfl, rfl, fun q => ?_, fun x hx hfault => ?_⟩
  · rw [exec_pageResponse, List.filter_eq_nil_iff.mpr hunanswered]; rfl
  · exact List.filter_eq_self.mpr fun q hq => by simp [hunanswered q hq]
  · simp [Rules.answered, imp_iff_not_or]
  · have hkept : (!x.isFaultOf p va) = true := (List.mem_filter.mp hx).2
    rw [TlbEntry.isFaultOf_iff.mpr hfault] at hkept
    exact Bool.false_ne_true hkept

/-! ## Requests that wait for no TR-TT walk -/

section
variable {s t : State} {use : CacheUse} {q : PendingReq} {src : Source}

/-- A successful response to a request whose source may run is TLB.LOOKUP of it (60 R483). -/
theorem resumeFixed_of_gateOpen (htr : q.tr = none) (hopen : gateOpen s (some q.pasid) q.req.src = true) :
    toOutcome (resumeFixed use q s) = exec (.tlbLookup use q.req) s := by
  simp only [resumeFixed, htr, translate_pasid_irrel hopen]
  rfl

/-- Without its context running it is held (60 R478; log 11). -/
theorem resumeFixed_of_gateClosed (hwf : q.req.wellFormed = true)
    (hclosed : gateOpen s (some q.pasid) q.req.src = false) :
    resumeFixed use q s = .ok (s.addHeld ⟨q.req, some q.pasid⟩) := by
  cases htr : q.tr <;> simp [resumeFixed, htr, translate, hwf, hclosed]

/-- How an unsuccessful response ends a request: of a hung source it waits until the reset that ends the hang, any other
completes as an invalid cycle (60 R478, R487; 93 U29). -/
def endUnfixed (hung : Bool) (t : State) (q : PendingReq) : State :=
  if hung then t.addHeld ⟨q.req, some q.pasid⟩ else invalidCycle t q.req

theorem resumeUnfixed_of_hung (hhung : isHung s q.req.src = true) :
    resumeUnfixed use q s = .ok (s.addHeld ⟨q.req, some q.pasid⟩) := by
  simp only [resumeUnfixed, hhung, if_true]

theorem resumeUnfixed_eq (htr : q.tr = none) :
    resumeUnfixed use q s = .ok (endUnfixed (isHung s q.req.src) s q) := by
  cases hhung : isHung s q.req.src with
  | true => exact resumeUnfixed_of_hung hhung
  | false => simp only [resumeUnfixed, hhung, htr, Bool.false_eq_true, if_false]; rfl

@[simp] theorem isHung_endUnfixed (hung : Bool) : isHung (endUnfixed hung t q) src = isHung t src := by
  cases hung <;> rfl

@[simp] theorem endUnfixed_walked (hung : Bool) : (endUnfixed hung t q).walker.walked = t.walker.walked := by
  cases hung <;> rfl

/-- Requests that an unsuccessful response ends change no hang, so that the state it comes in decides for all of them. -/
theorem exec_pageResponse_unfixed {p : BitVec 20} {va : Word64} {l : List PendingReq}
    (hl : s.reqs.pending.filter (Rules.answers p va) = l) (htr : ∀ q ∈ l, q.tr = none) :
    exec (.pageResponse p va false use) s =
      .next (l.foldl (fun t q => endUnfixed (isHung s q.req.src) t q) (Rules.answered p va s)) := by
  rw [exec_pageResponse, hl]
  refine congrArg toOutcome (resumeAll_foldl (I := fun t => t.walker.walked = none ∧ ∀ src, isHung t src = isHung s src)
    ⟨answered_walked, fun _ => isHung_answered⟩ (fun t ht => ht.1) fun q hq t ⟨hrecord, hhung⟩ => ⟨?_, ?_, fun src => ?_⟩)
  · rw [← hhung]; exact resumeUnfixed_eq (htr q hq)
  · rw [endUnfixed_walked, hrecord]
  · rw [isHung_endUnfixed, hhung]

end

/-! ## TR-TT walks that wait -/

/-- The gate of a hung source is closed (60 R478). -/
theorem isHung_of_gateOpen {s : State} {pasid : Option (BitVec 20)} {src : Source}
    (hopen : gateOpen s pasid src = true) : isHung s src = false := by
  cases src with
  | engine e =>
    simp only [gateOpen, Bool.and_eq_true, Bool.not_eq_true'] at hopen
    obtain ⟨⟨⟨-, hhung⟩, -⟩, -⟩ := hopen
    exact hhung
  | wdbox | vebox2 => simpa [gateOpen, isHung] using hopen
  | display | aperture => rfl

section
variable {s : State} {c : Ctx} {use : CacheUse} {q : PendingReq} {pt : TrPoint}

theorem resumeFixed_tr (htr : q.tr = some pt) (hopen : gateOpen s (some q.pasid) q.req.src = true)
    (hctx : contextOf s q.req.src q.req.va = .ok (s, c)) : resumeFixed use q s = resumeTr c use q.req pt s none := by
  simp only [resumeFixed, htr, hopen, if_true, hctx, ok_bind]

/-- The table read that is not to be repaired gives a free value, and the state awaits a reset (40 R230). -/
theorem resumeUnfixed_tr (htr : q.tr = some pt) (hopen : gateOpen s (some q.pasid) q.req.src = true)
    (hctx : contextOf s q.req.src q.req.va = .ok (s, c)) :
    resumeUnfixed use q s = resumeTr c use q.req pt (Rules.trFailed s).1 (some (Config.freeWord s.free)) := by
  simp only [resumeUnfixed, isHung_of_gateOpen hopen, Bool.false_eq_true, if_false, htr, hopen, if_true, hctx, ok_bind]
  rfl

/-- While its context does not run, a walk that waits is not redone, and its request is held (60 R478; log 11). -/
theorem resumeFixed_tr_of_gateClosed (htr : q.tr = some pt) (hclosed : gateOpen s (some q.pasid) q.req.src = false) :
    resumeFixed use q s = .ok (s.addHeld ⟨q.req, some q.pasid⟩) := by
  simp only [resumeFixed, htr, hclosed, Bool.false_eq_true, if_false]

/-- Nor does it go on with a free value then: its request completes as an invalid cycle (log 17). -/
theorem resumeUnfixed_tr_of_gateClosed (htr : q.tr = some pt) (hfree : isHung s q.req.src = false)
    (hclosed : gateOpen s (some q.pasid) q.req.src = false) :
    resumeUnfixed use q s = .ok (invalidCycle (Rules.trFailed s).1 q.req) := by
  simp only [resumeUnfixed, hfree, htr, hclosed, Bool.false_eq_true, if_false]
  rfl

/-- What the TR-TT registers must not hold is refused, and else the walk goes on from its level (30 R206; 93 U2, U3). -/
theorem resumed_resumeTr {r : Request} {forced : Option Word64} {a : Rules.Adv} {pasid : BitVec 20} {ctxid : Word32}
    {stage : Res (State × Except Rules.TrStop TrResult)}
    (h : Rules.endTrAdv a pasid ctxid r stage
      (toOutcome (trLevels c use r (trLevelsFrom pt.level) (setWalked s none) pt.base forced >>= finishTr c use r))) :
    Rules.resumed s.regs (toOutcome (resumeTr c use r pt s forced))
      (Rules.endTrAdv a pasid ctxid r stage (toOutcome (resumeTr c use r pt s forced))) := by
  unfold Rules.resumed resumeTr
  rw [trttLegal_eq]
  split
  · rfl
  · split
    · exact h
    · rfl

end

section
variable {s : State} {elem : Word64} {r : Request} {fm : FaultModel}

theorem sendsRequest_advCtxOf {e : Engine} {pdp0 : Word64} {a : Rules.Adv} (hfm : fm = .stream ∨ fm = .halt) :
    (advCtxOf s e a pdp0 fm).sendsRequest = true := by
  rcases hfm with rfl | rfl <;> rfl

/-- In an advanced context of Render whose caches are filled, a walk whose table read is redone ends the request as 40 R223 says
(40 R230). -/
theorem endTrAdv_again (v : State) (pdp0 : Word64) (x : CtxEntry) (pt : TrPoint) (hsrc : r.src = .engine .rcs) (hfm : fm = .stream ∨ fm = .halt)
    (hvalid : (s.bank .rcs).elem.value ||| 1 = elem) (hcache : v.regs.gttCacheEnable = false) :
    let a := Rules.advOf s.plat.haw elem (s.bank .rcs).pc x
    let c := advCtxOf s .rcs a pdp0 fm
    Rules.endTrAdv a (BitVec.ofNat 20 (field pdp0 0 20)) (ctxIdOf s (.engine .rcs)) r
      (Rules.trttAgain (Rules.tablesAdv .rcs a) v pt r.va)
      (toOutcome (trLevels c noCache r (trLevelsFrom pt.level) (setWalked v none) pt.base none >>= finishTr c noCache r)) := by
  intro a c
  have H := tablesAdv_ok (pdp0 := pdp0) (x := x) (fm := fm) noCache r.client.tlbGroup hvalid rfl rfl
  have hsame := trttAgain_same H rfl (sendsRequest_advCtxOf hfm) hfm v none pt hcache
  exact finish_adv noCache r hsame hfm hvalid hsrc rfl rfl rfl fun t y h => trttAgain_keeps H hcache h

/-- The same for a walk whose table read is given a value. -/
theorem endTrAdv_given (v : State) (pdp0 : Word64) (x : CtxEntry) (pt : TrPoint) (value : Word64) (hsrc : r.src = .engine .rcs)
    (hfm : fm = .stream ∨ fm = .halt) (hvalid : (s.bank .rcs).elem.value ||| 1 = elem)
    (hcache : v.regs.gttCacheEnable = false) :
    let a := Rules.advOf s.plat.haw elem (s.bank .rcs).pc x
    let c := advCtxOf s .rcs a pdp0 fm
    Rules.endTrAdv a (BitVec.ofNat 20 (field pdp0 0 20)) (ctxIdOf s (.engine .rcs)) r
      (Rules.trttGiven (Rules.tablesAdv .rcs a) v pt value.toNat r.va)
      (toOutcome (trLevels c noCache r (trLevelsFrom pt.level) (setWalked v none) pt.base (some value) >>=
        finishTr c noCache r)) := by
  intro a c
  have H := tablesAdv_ok (pdp0 := pdp0) (x := x) (fm := fm) noCache r.client.tlbGroup hvalid rfl rfl
  have hsame := trttGiven_same H rfl (sendsRequest_advCtxOf hfm) hfm v none pt value.toNat hcache
  rw [BitVec.ofNat_toNat, BitVec.setWidth_eq] at hsame
  exact finish_adv noCache r hsame hfm hvalid hsrc rfl rfl rfl fun t y h => trttGiven_keeps H hcache h

/-- Under the descriptor that Render holds its register's value is the descriptor, Valid aside. -/
theorem elem_of_holdsAdvanced {e : Engine} (hfit : fitsRow 0x00B 0x003 elem = true)
    (hholds : Rules.holdsAdvanced s elem e = true) : (s.bank e).elem.value ||| 1 = elem := by
  obtain ⟨d, _, H⟩ := holdsDesc_adv hfit hholds
  exact (descReg_get_spec.mp H.get).2 ▸ H.valid

/-- What a page response removes takes no part in the making of a context. -/
theorem contextOf_answered_adv {e : Engine} {p : BitVec 20} {va va' pdp0 : Word64} {x : CtxEntry}
    (hfit : fitsRow 0x00B 0x003 elem = true) (hholds : Rules.holdsAdvanced s elem e = true)
    (hcache : s.regs.gttCacheEnable = false) (hva : canonical va' = true)
    (hpdp0 : Rules.written (s.bank e).pdp0 pdp0 = true) (hpc : (s.bank e).pc.valid = true)
    (hcc : s.iommu.cc.find? (fun y => y.fn == BitVec.ofNat 3 (field elem 9 3)) = some x) :
    ∃ fm, (fm = .stream ∨ fm = .halt) ∧ contextOf (Rules.answered p va s) (.engine e) va' =
      .ok (Rules.answered p va s, advCtxOf s e (Rules.advOf s.plat.haw elem (s.bank e).pc x) pdp0 fm) :=
  contextOf_adv (s := Rules.answered p va s) hfit hholds hcache hva hpdp0 hpc hcc

end

/-- Settles O57: a request of no TR-TT walk by the two sides of its gate, and a walk that waits by `endTrAdv_again`. -/
theorem pageResponseSuccessful : Obligations.PageResponseSuccessful := by
  refine ⟨fun s p va use q htr hq hopen => ?one, fun s p va use l hl hplain => ?several,
    fun s p va use q hq htr hclosed => ?held,
    fun s p va elem pdp0 q pt x hq htr hsrc hopen hfit hholds hcache hva hpdp0 hpc hcc => ?walk⟩
  case one =>
    obtain ⟨rfl, -⟩ := answers_iff.mp (answers_of_filter hq)
    rw [exec_pageResponse_one hq]
    exact resumeFixed_of_gateOpen (s := Rules.answered q.pasid va s) htr hopen
  case several =>
    rw [exec_pageResponse, hl]
    refine resumeAll_inTurn fun q hq t => ?_
    obtain ⟨htr, hwf⟩ := hplain q hq
    cases hgate : gateOpen t (some q.pasid) q.req.src with
    | true => exact resumeFixed_of_gateOpen htr hgate
    | false => exact congrArg toOutcome (resumeFixed_of_gateClosed hwf hgate)
  case held =>
    obtain ⟨pt, htr⟩ := Option.ne_none_iff_exists'.mp htr
    rw [exec_pageResponse_one hq]
    exact congrArg toOutcome (resumeFixed_tr_of_gateClosed (s := Rules.answered p va s) htr hclosed)
  case walk =>
    obtain ⟨fm, hfm, hctx⟩ := contextOf_answered_adv (p := p) (va := va) hfit hholds hcache hva hpdp0 hpc hcc
    have hresume : resumeOne true noCache q (Rules.answered p va s) = _ := resumeFixed_tr htr hopen (hsrc ▸ hctx)
    simp only [exec_pageResponse_one hq, hresume, hsrc]
    exact resumed_resumeTr
      (endTrAdv_again (Rules.answered p va s) pdp0 x pt hsrc hfm (elem_of_holdsAdvanced hfit hholds) hcache)

/-- Settles O56: a request of no TR-TT walk ends as `endUnfixed` says, and a walk that waits by `endTrAdv_given`. -/
theorem pageResponseUnsuccessful : Obligations.PageResponseUnsuccessful := by
  refine ⟨fun s p va use q htr hq => ?one, fun s p va use l hl hplain => exec_pageResponse_unfixed hl hplain,
    fun s p va use q pt hq htr => ⟨fun hhung => ?hung, fun hfree hclosed => ?left⟩,
    fun s p va elem pdp0 q pt x hq htr hsrc hopen hfit hholds hcache hva hpdp0 hpc hcc => ⟨rfl, ?walk⟩⟩
  case one =>
    have hgone := not_mem_answered_pending (s := s) (answers_of_filter hq)
    refine ⟨_, exec_pageResponse_unfixed hq (by simpa using htr), ?_⟩
    simp only [List.foldl_cons, List.foldl_nil]
    cases isHung s q.req.src <;> exact ⟨hgone, rfl, rfl, rfl, rfl⟩
  case hung =>
    rw [exec_pageResponse_one hq]
    exact congrArg toOutcome (resumeUnfixed_of_hung (s := Rules.answered p va s) hhung)
  case left =>
    rw [exec_pageResponse_one hq]
    exact congrArg toOutcome (resumeUnfixed_tr_of_gateClosed (s := Rules.answered p va s) htr hfree hclosed)
  case walk =>
    obtain ⟨fm, hfm, hctx⟩ := contextOf_answered_adv (p := p) (va := va) hfit hholds hcache hva hpdp0 hpc hcc
    have hresume : resumeOne false noCache q (Rules.answered p va s) = _ := resumeUnfixed_tr htr hopen (hsrc ▸ hctx)
    simp only [exec_pageResponse_one hq, hresume, hsrc]
    exact resumed_resumeTr (endTrAdv_given (Rules.trFailed (Rules.answered p va s)).1 pdp0 x pt (Config.freeWord s.free)
      hsrc hfm (elem_of_holdsAdvanced hfit hholds) hcache)

end Sys2Proof.Machine
end

section
/-! The three resets (70 R510 to R517): one engine, then the list of engines, then what device and bus reset add. -/

namespace Sys2Proof.Machine

/-! ## Requests -/

section
variable (keep : Bool)

/-- The requests after the resets of several sources. -/
def withoutSources (srcs : List Source) (r : Reqs) : Reqs :=
  srcs.foldl (fun r src => Rules.withoutSource keep src r) r

/-- The discarding of a source's requests is the rule's (70 R511, R513; log 41). -/
theorem discardRequests_eq (src : Source) (s : State) :
    discardRequests src s = s.setReqs (Rules.withoutSource s.plat.keepRequests src s.reqs) := by
  simp only [discardRequests, Rules.withoutSource, PendingReq.left, beq_iff_eq]

/-- What the resets of several sources leave of requests, in one pass over each list. -/
theorem withoutSources_eq (srcs : List Source) (r : Reqs) : withoutSources keep srcs r = { r with
    held := r.held.filter (fun x => !srcs.contains x.req.src)
    pending :=
      if keep then r.pending.map (fun x => if srcs.contains x.req.src then { x with live := false } else x)
      else r.pending.filter (fun x => !srcs.contains x.req.src)
    inflight := r.inflight.filter (fun x => !srcs.contains x.req.src) } := by
  induction srcs generalizing r with
  | nil => simp [withoutSources]
  | cons src srcs ih =>
    have hcons : withoutSources keep (src :: srcs) r = withoutSources keep srcs (Rules.withoutSource keep src r) := rfl
    have hgone (y : Source) : (!(src :: srcs).contains y) = (!srcs.contains y && y != src) := by
      rw [List.contains_cons, Bool.not_or, Bool.and_comm, bne]
    rw [hcons, ih]
    simp only [Rules.withoutSource, List.filter_filter, hgone]
    cases keep with
    | false => simp only [Bool.false_eq_true, if_false, List.filter_filter]
    | true =>
      simp only [if_true, List.map_map, Reqs.mk.injEq, true_and, and_true]
      refine List.map_congr_left fun x _ => ?_
      by_cases hx : x.req.src = src <;> simp [hx]

/-- The sources that have contexts, in the order of a device reset. -/
def contextSources : List Source := engines.map .engine ++ [.wdbox, .vebox2]

theorem contextSources_contains (src : Source) : contextSources.contains src = !Rules.noContext src := by
  cases src with
  | engine e => cases e <;> rfl
  | wdbox | vebox2 | display | aperture => rfl

/-- What a device reset leaves of requests is what the resets of all sources with contexts leave, where besides nothing is
pending on a part that does not keep it, and no reset is awaited (70 R514; log 41). -/
theorem withoutContexts_eq (r : Reqs) : Rules.withoutContexts keep r =
    { withoutSources keep contextSources r with
      pending := if keep then (withoutSources keep contextSources r).pending else [], awaitingReset := false } := by
  simp only [withoutSources_eq, contextSources_contains, Rules.withoutContexts, Bool.not_not]
  cases keep with
  | false => rfl
  | true =>
    have hleft (x : PendingReq) : (if Rules.noContext x.req.src then x else { x with live := false }) =
        if (!Rules.noContext x.req.src) = true then { x with live := false } else x := by
      cases Rules.noContext x.req.src <;> rfl
    simp only [if_true, hleft]

end

/-! ## One engine -/

/-- The reset of an engine changes its bank, its requests and its counter (70 R511, R515). -/
theorem resetEngineOp_eq (k : Bool) (e : Engine) (s : State) : resetEngineOp k e s = { s with
    banks := s.banks.set e (resetBank k s.free (s.bank e))
    iommu := { s.iommu with pasidState := (retire s e).iommu.pasidState }
    reqs := Rules.withoutSource s.plat.keepRequests (.engine e) s.reqs
    free := s.free + 5 } := by
  simp only [resetEngineOp, discardRequests_eq]
  rw [retire_eq]
  simp [State.bank, State.setBank, State.setBanks, State.setIommu, State.setReqs, State.setFree, banks_set_set, resetBank]

theorem retire_countsDown {s : State} {e : Engine} {p : BitVec 20} (hres : (s.bank e).resident = some p)
    (hwf : sparseWf 0 s.iommu.pasidState = true) : Rules.countsDown s (retire s e) p :=
  contextGone_countsDown (h := .idle) (out := s.outputs) hres hwf

/-- Retiring the context of an engine, by the engine's part of the count of each PASID (70 R515). -/
theorem retire_counts (s : State) (e : Engine) (hwf : sparseWf 0 s.iommu.pasidState = true) (q : Nat) :
    sparseGet 0 (retire s e).iommu.pasidState q = sparseGet 0 s.iommu.pasidState q - (s.bank e).counted q := by
  rcases hres : (s.bank e).resident with - | p
  · simp [retire, Bank.counted, hres]
  · rw [retire_countsDown hres hwf q]
    by_cases hq : q = p.toNat
    · simp [Bank.counted, hres, hq]
    · simp [Bank.counted, hres, hq, Ne.symm hq]

theorem retire_pasidState_wf (s : State) (e : Engine) (hwf : sparseWf 0 s.iommu.pasidState = true) :
    sparseWf 0 (retire s e).iommu.pasidState = true := by
  rcases retire_spec s e with ⟨-, hr⟩ | ⟨p, -, hr⟩ <;> rw [hr]
  · exact hwf
  · exact sparseWf_set 0 _ _ _ hwf

theorem resetBank_idle (k : Bool) (n : Nat) (b : Bank) : Rules.idleBank (resetBank k n b) = true := rfl

/-- An engine reset leaves a descriptor register written or not, as it was (70 R511). -/
theorem resetBank_desc (k : Bool) (n : Nat) (b : Bank) (d : DescName) :
    ((resetBank k n b).desc d).loWritten = (b.desc d).loWritten ∧
    ((resetBank k n b).desc d).hiWritten = (b.desc d).hiWritten := by
  cases d <;> exact ⟨rfl, rfl⟩

theorem resetBank_pcAfterReset (k : Bool) (n : Nat) (b : Bank) : Rules.pcAfterReset k b (resetBank k n b) := by
  cases k <;> rfl

/-- A descriptor register that counts as unwritten is not to be read (93 U1). -/
theorem bank_unwritten_unwritten (b : Bank) : Rules.unwritten b.unwritten := by
  intro d
  cases d <;> rfl

/-- Settles O58: an engine by `resetEngineOp_eq`, WDBox and the second VEBOX by the requests that are discarded. -/
theorem resetEngine : Obligations.ResetEngine := by
  refine ⟨fun s => ?wdbox, fun s => ?vebox2, fun s e => ⟨resetEngineOp false e s, rfl, ?engine⟩⟩
  case wdbox => exact congrArg Host.Outcome.next (discardRequests_eq .wdbox (s.setWdboxHung false))
  case vebox2 => exact congrArg Host.Outcome.next (discardRequests_eq .vebox2 (s.setVebox2Hung false))
  case engine =>
    have hbank : (resetEngineOp false e s).bank e = resetBank false s.free (s.bank e) := by
      rw [resetEngineOp_bank, if_pos rfl]
    have hothers (e' : Engine) (he : e' ≠ e) : (resetEngineOp false e s).bank e' = s.bank e' := by
      rw [resetEngineOp_bank, if_neg he]
    rw [hbank]
    refine ⟨resetBank_idle .., resetBank_pcAfterReset false s.free (s.bank e), resetBank_desc false s.free (s.bank e),
      hothers, ?_⟩
    rw [resetEngineOp_eq]
    refine ⟨rfl, rfl, rfl, rfl, rfl, rfl, rfl, rfl, rfl, rfl, rfl, fun hnone => ?_, fun p hp hwf => ?_⟩
    · simp [retire, hnone]
    · exact retire_countsDown hp hwf

/-! ## Several engines -/

/-- The resets of several engines, one after the other. -/
def resetEngines (k : Bool) (es : List Engine) (s : State) : State := es.foldl (fun t e => resetEngineOp k e t) s

theorem resetEngines_cons (k : Bool) (e : Engine) (es : List Engine) (s : State) :
    resetEngines k (e :: es) s = resetEngines k es (resetEngineOp k e s) := rfl

/-- Banks, counters, requests and the number of free values used are all that engine resets change (70 R511). -/
theorem resetEngines_eq (k : Bool) (es : List Engine) (s : State) : resetEngines k es s = { s with
    banks := (resetEngines k es s).banks
    iommu := { s.iommu with pasidState := (resetEngines k es s).iommu.pasidState }
    reqs := withoutSources s.plat.keepRequests (es.map .engine) s.reqs
    free := (resetEngines k es s).free } := by
  induction es generalizing s with
  | nil => rfl
  | cons e es ih =>
    rw [resetEngines_cons, resetEngineOp_eq]
    exact ih _

/-- The counter of a PASID falls by the number of engines that ran it, of those that are reset (70 R515). -/
theorem resetEngines_counts (k : Bool) {es : List Engine} (hdistinct : es.Nodup) {s : State}
    (hwf : sparseWf 0 s.iommu.pasidState = true) (q : Nat) :
    sparseGet 0 (resetEngines k es s).iommu.pasidState q =
      sparseGet 0 s.iommu.pasidState q - (es.map fun e => (s.bank e).counted q).sum := by
  induction es generalizing s with
  | nil => rfl
  | cons e es ih =>
    obtain ⟨hnew, hdistinct⟩ := List.nodup_cons.mp hdistinct
    have hstate : (resetEngineOp k e s).iommu.pasidState = (retire s e).iommu.pasidState := rfl
    have hothers : es.map (fun x => ((resetEngineOp k e s).bank x).counted q) =
        es.map fun x => (s.bank x).counted q :=
      List.map_congr_left fun x hx => by rw [resetEngineOp_bank, if_neg (ne_of_mem_of_not_mem hx hnew)]
    have hrest := ih hdistinct (s := resetEngineOp k e s) (retire_pasidState_wf s e hwf)
    rw [resetEngines_cons, hrest, hothers, hstate, retire_counts s e hwf, List.map_cons, List.sum_cons, Nat.sub_sub]

theorem length_filter_resident (s : State) (q : Nat) (es : List Engine) :
    (es.filter fun e => (s.bank e).resident.map BitVec.toNat == some q).length =
      (es.map fun e => (s.bank e).counted q).sum := by
  induction es with
  | nil => rfl
  | cons e es ih =>
    rw [List.filter_cons, List.map_cons, List.sum_cons, ← ih, Bank.counted]
    by_cases hq : (s.bank e).resident.map BitVec.toNat = some q
    · simp [hq, Nat.add_comm]
    · simp [hq]

/-- The engines that run a PASID, counted in the order of a reset. -/
theorem residents_eq (s : State) (q : Nat) : Rules.residents s q = (engines.map fun e => (s.bank e).counted q).sum := by
  have horder : [Engine.rcs, .bcs, .vecs, .vcs0, .vcs1].Perm engines := by decide
  exact (length_filter_resident s q _).trans (horder.map _).sum_eq

/-! ## Device and bus reset -/

/-- The reset of every source that has contexts (70 R511; log 25). -/
theorem resetAllSources_eq (s : State) : resetAllSources s = { s with
    banks := (resetEngines s.plat.keepPasidCache engines s).banks
    wdboxHung := false, vebox2Hung := false
    iommu := { s.iommu with pasidState := (resetEngines s.plat.keepPasidCache engines s).iommu.pasidState }
    reqs := withoutSources s.plat.keepRequests contextSources s.reqs
    free := (resetEngines s.plat.keepPasidCache engines s).free } := by
  have hengines : resetAllSources s = resetVebox2 (resetWdbox (resetEngines s.plat.keepPasidCache engines s)) := rfl
  rw [hengines, resetVebox2, resetWdbox, discardRequests_eq, discardRequests_eq, resetEngines_eq]
  rfl

/-- A device reset adds the registers and what is left of requests, and no descriptor register counts as written (70 R514, 93
U1; log 41). -/
theorem resetDeviceOp_eq (s : State) : resetDeviceOp s = { s with
    regs := resetRegs (resetEngines s.plat.keepPasidCache engines s).free
    banks := (resetEngines s.plat.keepPasidCache engines s).banks.map Bank.unwritten
    wdboxHung := false, vebox2Hung := false
    iommu := { s.iommu with pasidState := (resetEngines s.plat.keepPasidCache engines s).iommu.pasidState }
    reqs := Rules.withoutContexts s.plat.keepRequests s.reqs
    free := (resetEngines s.plat.keepPasidCache engines s).free + 3 } := by
  rw [resetDeviceOp, resetAllSources_eq, withoutContexts_eq]
  rfl

/-- The counters of the PASIDs whose contexts were resident fall (70 R515). -/
theorem resetDeviceOp_counts {s : State} (hwf : sparseWf 0 s.iommu.pasidState = true) (q : Nat) :
    sparseGet 0 (resetDeviceOp s).iommu.pasidState q = sparseGet 0 s.iommu.pasidState q - Rules.residents s q := by
  have hdistinct : engines.Nodup := by decide
  rw [resetDeviceOp_eq, residents_eq]
  exact resetEngines_counts s.plat.keepPasidCache hdistinct hwf q

/-- Every engine is reset by a device reset, and its descriptor registers are not to be read (70 R511, R514, 93 U1). -/
theorem resetDeviceOp_bank_reset (s : State) (e : Engine) :
    Rules.idleBank ((resetDeviceOp s).bank e) = true ∧ Rules.unwritten ((resetDeviceOp s).bank e) ∧
      Rules.pcAfterReset s.plat.keepPasidCache (s.bank e) ((resetDeviceOp s).bank e) := by
  obtain ⟨n, hn⟩ := resetDeviceOp_bank s e
  rw [hn]
  exact ⟨rfl, bank_unwritten_unwritten _, resetBank_pcAfterReset _ n (s.bank e)⟩

/-- Settles O59: engine by engine `resetDeviceOp_bank_reset`, the rest by the state that `resetDeviceOp_eq` gives. -/
theorem resetDevice : Obligations.ResetDevice := by
  refine fun s => ⟨resetDeviceOp s, rfl, resetDeviceOp_bank_reset s, ?_⟩
  have hcounts := resetDeviceOp_counts (s := s)
  rw [resetDeviceOp_eq] at hcounts ⊢
  exact ⟨rfl, rfl, rfl, rfl, rfl, rfl, rfl, rfl, rfl, rfl, hcounts, rfl⟩

/-- A bus reset clears the PASID Caches too (10 R70). -/
theorem resetBusOp_bank_reset (s : State) (e : Engine) :
    Rules.idleBank ((resetBusOp s).bank e) = true ∧ Rules.unwritten ((resetBusOp s).bank e) ∧
      ((resetBusOp s).bank e).pc.valid = false := by
  obtain ⟨n, hn⟩ := resetBusOp_bank s e
  rw [hn]
  exact ⟨rfl, bank_unwritten_unwritten _, rfl⟩

/-- Settles O60: a device reset, after which the IOMMU-related blocks are empty and the requests of display and aperture have
gone too (log 6, log 25). -/
theorem resetBus : Obligations.ResetBus := by
  refine fun s => ⟨resetBusOp s, rfl, resetBusOp_bank_reset s, ?_⟩
  rw [resetBusOp, resetDeviceOp_eq]
  exact ⟨rfl, rfl, rfl, rfl, rfl, rfl, rfl, rfl, rfl, rfl, rfl, rfl, rfl, rfl, rfl, rfl⟩

end Sys2Proof.Machine
end
